-- ==== Sys2Proof/Word.lean ====
section
/-! DEFINITION. The number widths of the part ("Units and number conventions" of 00_scope.md) and the index types
of its ports, inputs, slots and delay-line codes. -/

namespace Sys2Proof

/-- One byte of a frame. -/
abbrev Byte := BitVec 8

/-- A time in ticks, modulo 2^64: raw time, corrected raw time, horizon time or time-scale time (R2, R6, R8). -/
abbrev Tick := BitVec 64

/-- A coarse count, modulo 2^56 (R1). -/
abbrev Coarse := BitVec 56

/-- An edge count, modulo 2^48 (R21). -/
abbrev EdgeCount := BitVec 48

/-- A generation of 16 bits, modulo 65,536 (R9, R16, R57, R127). -/
abbrev Gen := BitVec 16

/-- A calibration generation, modulo 2^32 (R41). -/
abbrev CalGen := BitVec 32

/-- A sequence number of the result log, modulo 2^32 (R117). -/
abbrev Seq := BitVec 32

/-- Ports P0 to P3. -/
abbrev PortId := Fin 4

/-- Inputs IN0 to IN7. -/
abbrev InputId := Fin 8

/-- Slots S0 to S15. -/
abbrev SlotId := Fin 16

/-- A delay-line code, 0 to 159 (R39). -/
abbrev Code := Fin 160

/-- The four ports in ascending order. -/
def allPorts : List PortId := List.finRange 4

/-- The eight inputs in ascending order. -/
def allInputs : List InputId := List.finRange 8

/-- The sixteen slots in ascending order. -/
def allSlots : List SlotId := List.finRange 16

end Sys2Proof
end

