-- ==== Sys2Proof/Config.lean ====
section
/-! DEFINITION. The numbers the spec fixes for the whole part, and the free values: the opaque constants that stand
for values the spec leaves open (nothing in Lean can evaluate them). -/

namespace Sys2Proof

/-- The release horizon: 73,728 ticks, 288 coarse periods (R6). -/
def Config.horizonDelay : Tick := 73728

/-- The gap timer count at which the reference is absent (R3). -/
def Config.absentAfter : Nat := 250

/-- The presence timer count at which the reference locks (R4). -/
def Config.lockAfter : Nat := 2500000

/-- A capture or hit in coarse period c blocks the interpolator until the coarse count reaches c + 3 (R25, R39). -/
def Config.deadPeriods : Coarse := 3

/-- The hit total that completes a histogram (R42). -/
def Config.histogramFull : Nat := 65536

/-- The single-code limit of the table test (R44). -/
def Config.singleCodeLimit : Nat := 1024

/-- The spread limit of the table test: the least number of codes that must hold a hit (R44). -/
def Config.spreadLimit : Nat := 64

/-- The records the log holds at most (R116). -/
def Config.logCapacity : Nat := 512

/-- The most records one READ_RESULTS delivers (R132). -/
def Config.readMax : Nat := 4

/-- The longest payload of a frame (R147, R157). -/
def Config.payloadMax : Nat := 250

/-- The longest service: 500 ns, 125 coarse periods, in ticks (R100). -/
def Config.serviceBound : Tick := 32000

/-- The longest preparation: 2 µs, taken as 500 coarse periods, in ticks (R156). DEDUCED (log entry 9): unsafe only
for claims about time, since the spec gives microseconds and not coarse periods. -/
def Config.preparationBound : Tick := 128000

/-- The lag behind the grid of gate closes at which a CONTINUOUS RECIPROCAL run ends (R89). -/
def Config.runLag : Nat := 2 ^ 62

/-- How many coarse periods the horizon trails raw time (R6). -/
def Config.horizonPeriods : Nat := 288

/-- FREE VALUE (log entry 5). How far after the start of its coarse period an edge must fall, in femtoseconds, to have
passed each of the 159 boundaries between the 160 codes of an input's delay line, in a given coarse period: R39 says that the code is
the number of stages that correspond to the edge's position and that the stages drift, and gives no delays but nominal
ones. -/
opaque Config.stageDelay : InputId → Coarse → Fin 159 → Nat

/-- FREE VALUE (log entry 6). The delay-line code an input reads at every test edge: R17 says it is one code for as
long as the input's active table is unchanged, and does not say which. -/
opaque Config.testEdgeCode : InputId → CalGen → Code

/-- FREE VALUE (log entry 7). Whether a SET_TIME that moves the time-scale time by exactly 2^63 ticks steps it forward:
R13 judges the direction by the comparison of R2, which ranks neither of two times 2^63 apart before the other. -/
opaque Config.halfTurnIsForward : Bool

end Sys2Proof
end

