-- ==== Sys2Proof/Syntax.lean ====
section
/-! DEFINITION. The commands the part takes: one constructor of Instr for each row of spec/opcode_table.json, with the
row's operands. A REQUEST row (NULL to RESET_MEASUREMENT but for the selection rows) is the arrival of that request at
its owner (R156); its operands are the sending port, the tag and the payload's fields as the port hands them over,
unjudged in value (R155, R182). An EVENT row carries the pin, input or slot concerned. -/

namespace Sys2Proof

/-- A level of a signal. -/
inductive Level where
  | low
  | high
  deriving DecidableEq, Repr

/-- The signal an input watches: its pin or the internal test signal (R16). -/
inductive Source where
  | pin
  | test
  deriving DecidableEq, Repr

/-- One item of a WRITE_PLAN list (R58, R183): the field it names and the value as carried. An item whose field
identifier names no field has no known size: it holds the identifier and every byte after it (R184). -/
inductive PlanItem where
  | kind (code : Byte)
  | inputA (number : Byte)
  | senseA (code : Byte)
  | inputB (number : Byte)
  | senseB (code : Byte)
  | gate (periods : BitVec 64)
  | waitLimit (periods : BitVec 64)
  | prescale (edges : BitVec 32)
  | quota (records : BitVec 32)
  | reportAs (code : Byte)
  | armSource (code : Byte)
  | armTime (ticks : BitVec 64)
  | armInput (number : Byte)
  | armSense (code : Byte)
  | armSlot (number : Byte)
  | repeatMode (code : Byte)
  | unknown (identifier : Byte) (rest : List Byte)
  deriving DecidableEq, Repr

/-- What stands at the part's lines besides the straps while device reset is asserted (R15, R164): the levels of the
input pins and the active select lines at the release, and how many bits the controller of each port clocked during the
assertion. -/
structure ResetLines where
  pins : BitVec 8
  selected : BitVec 4
  clocked : Vector Nat 4
  deriving DecidableEq, Repr

/-- How far an edge falls after the present tick, in femtoseconds: a tick is 15,625 fs (R1, R2). The position of an edge
in its coarse period is finer than raw time can say, and the delay line reads it (R39). -/
abbrev WithinTick := Fin 15625

/-- The commands of the part, one constructor for each row of spec/opcode_table.json, in the table's order. -/
inductive Instr where
  -- reset and reference
  | deviceReset (strapA strapB : BitVec 4) (lines : ResetLines)
  | referenceEdge
  | referenceAbsent
  | referenceLock
  | horizonStart
  | horizonRefChange
  -- link events of a port
  | selectionStart (p : PortId)
  | selectionEnd (p : PortId) (bits : List Bool)
  | preparationEnd (p : PortId)
  -- requests of the port itself
  | null (p : PortId) (tag : Byte)
  | portReset (p : PortId) (tag : Byte)
  | readAttention (p : PortId) (tag : Byte)
  | setAttention (p : PortId) (tag operation flags : Byte)
  -- requests of the time-scale unit
  | readTime (p : PortId) (tag : Byte)
  | setTime (p : PortId) (tag : Byte) (expected : Option Gen) (value : BitVec 64)
  | stepTime (p : PortId) (tag : Byte) (expected : Option Gen) (amount : BitVec 64)
  -- requests of the input channels
  | readInput (p : PortId) (tag input : Byte)
  | setInput (p : PortId) (tag input : Byte) (expected : Option Gen) (source : Byte) (width skew : BitVec 16) (mode : Byte)
  | calibrate (p : PortId) (tag input : Byte)
  -- requests of the measurement engine
  | readPlan (p : PortId) (tag slot : Byte)
  | writePlan (p : PortId) (tag slot : Byte) (expected : Option Gen) (items : List PlanItem)
  | arm (p : PortId) (tag slot : Byte)
  | stop (p : PortId) (tag slot : Byte)
  -- requests of the result log
  | subscribe (p : PortId) (tag : Byte) (slots : BitVec 16) (operation start : Byte) (threshold : Option (BitVec 16))
  | readResults (p : PortId) (tag count : Byte)
  | latest (p : PortId) (tag slot : Byte)
  | logStatus (p : PortId) (tag : Byte)
  | setLog (p : PortId) (tag : Byte) (expected : Option Gen) (policy : Byte)
  | resetMeasurement (p : PortId) (tag : Byte)
  -- events of an input channel
  | inputLevelChange (i : InputId) (source : Source) (level : Level) (within : WithinTick)
  | windowEndQualification (i : InputId)
  | deadTimeEnd (i : InputId)
  | calibrationHit (i : InputId) (within : WithinTick)
  -- events of the measurement engine
  | stampOffer (i : InputId)
  | immediateArmInstant (n : SlotId)
  | atTimeArming (n : SlotId)
  | gateClose (n : SlotId)
  | deadlineExpiry (n : SlotId)
  | totalizeGateOpen (n : SlotId)
  | totalizeGateClose (n : SlotId)
  -- the arithmetic unit
  | serviceCompletion
  deriving DecidableEq, Repr

end Sys2Proof
end

