-- ==== Sys2Proof/WellFormed.lean ====
section
/-! DEFINITION. Which commands can be carried by a frame. The operands' types already bound port, input and slot
numbers, codes and field widths; what is left are the item list of WRITE_PLAN, which must fit a payload of 250 bytes
and hold an unknown identifier only at its end (R58, R184), and the identifiers an item may carry as unknown (R183). -/

namespace Sys2Proof

/-- The bytes an item takes in the list: one of identifier and its value (R183); an unknown identifier takes all that
follows it. -/
def PlanItem.size : PlanItem → Nat
  | .gate _ => 9
  | .waitLimit _ => 9
  | .armTime _ => 9
  | .prescale _ => 5
  | .quota _ => 5
  | .unknown _ rest => 1 + rest.length
  | _ => 2

/-- Whether an item names a field of the plan record. -/
def PlanItem.isKnown : PlanItem → Bool
  | .unknown _ _ => false
  | _ => true

/-- Whether the identifier byte is one of the sixteen of R183. -/
def isFieldIdentifier (b : Byte) : Bool := decide (1 ≤ b.toNat) && decide (b.toNat ≤ 16)

/-- An item carried as unknown must carry an identifier that names no field. -/
def PlanItem.wf : PlanItem → Bool
  | .unknown b _ => !isFieldIdentifier b
  | _ => true

/-- An unknown item can only be the last: the port's division of the list stops at it (R184). -/
def unknownOnlyLast : List PlanItem → Bool
  | [] => true
  | [_] => true
  | x :: y :: rest => x.isKnown && unknownOnlyLast (y :: rest)

/-- The size of an item list in bytes. -/
def itemsSize (items : List PlanItem) : Nat := (items.map PlanItem.size).sum

/-- The bytes of a WRITE_PLAN payload before its item list: slot, condition byte and, when present, the generation. -/
def writePlanHead (expected : Option Gen) : Nat := if expected.isSome then 4 else 2

/-- A command that a sender can form. -/
def Instr.wf : Instr → Bool
  | .writePlan _ _ _ expected items =>
    items.all PlanItem.wf && unknownOnlyLast items
      && decide (writePlanHead expected + itemsSize items ≤ Config.payloadMax)
  | _ => true

end Sys2Proof
end

