-- ==== Sys2Proof/Decode.lean ====
section
/-! DEFINITION. The command a table word spells. The part is a block: no row of spec/opcode_table.json gives bits
("fields" is empty in every row), so no word spells a command. The bytes of requests are read by the ports
(Machine/Layouts.lean). -/

namespace Sys2Proof

/-- The command a word spells by the table's bits: none, since no row gives bits. -/
def decodeTableWord (_nbits _w : Nat) : Option Instr := none

end Sys2Proof
end

