-- ==== Sys2Proof/Machine/Components.lean ====
section
/-! DEFINITION. The types of the part's blocks: what each block of "Block overview" (00_scope.md) holds, as plain data.
Machine/State.lean puts them together. -/

namespace Sys2Proof.Machine

/-! ## Time-scale unit -/

/-- The reference states of R4. -/
inductive RefState where
  | acquiring
  | locked
  | lost
  deriving DecidableEq, Repr

/-- A change of the reference state on its way to the horizon: its change time and the new state (R4, R7). -/
structure RefChange where
  changeTime : Tick
  state : RefState
  deriving DecidableEq, Repr

/-! ## Input channels -/

/-- The direction of an edge. -/
inductive Sense where
  | rising
  | falling
  deriving DecidableEq, Repr

/-- Whether qualified captures feed the histogram (R16). -/
inductive CalMode where
  | fixed
  | track
  deriving DecidableEq, Repr

/-- The input states of R38. -/
inductive InputState where
  | ready
  | calibrating
  deriving DecidableEq, Repr

/-- The last calibration outcome (R47). -/
inductive CalOutcome where
  | none
  | passed
  | failed
  deriving DecidableEq, Repr

/-- The settings record of an input (R16). The widths hold exactly the stated ranges: the filter width 0 to 255, and
the skew −1,024 to +1,023 in two's complement. -/
structure Settings where
  source : Source
  width : BitVec 8
  skew : BitVec 11
  mode : CalMode
  deriving DecidableEq, Repr

/-- What the interpolator holds of one captured level change (R24, R27): the code and the coarse count of the capture,
and the times formed with the table, the generation and the skew in force then. -/
structure Capture where
  code : Code
  coarse : Coarse
  rawTime : Tick
  corrected : Tick
  calGen : CalGen
  deriving DecidableEq, Repr

/-- A pending candidate of the width filter (R18), with its capture when there is one (R26). -/
structure Candidate where
  sense : Sense
  edgeTime : Tick
  windowEnd : Tick
  capture : Option Capture
  deriving DecidableEq, Repr

/-- A qualified edge still needed for a boundary count (R22): its sense and its raw coarse period. -/
structure QualifiedEdge where
  sense : Sense
  period : Coarse
  deriving DecidableEq, Repr

/-- A stamp (R27). -/
structure Stamp where
  input : InputId
  sense : Sense
  edgeCount : EdgeCount
  rawTime : Tick
  corrected : Tick
  calGen : CalGen
  deriving DecidableEq, Repr

/-- One input channel (chapters Input Channels and Interpolator Calibration). -/
structure Input where
  settings : Settings
  settingsGen : Gen
  /-- The level of the input's own pin. -/
  pinLevel : Level
  qualified : Level
  candidate : Option Candidate
  rising : EdgeCount
  falling : EdgeCount
  rejects : BitVec 32
  /-- The qualified edges of the last 288 coarse periods, which the horizon has not passed, newest first: from them
  boundary counts are read (R22). -/
  recent : List QualifiedEdge
  /-- The coarse count at which a running dead time ends, or none (R25). -/
  blockedUntil : Option Coarse
  state : InputState
  table : Vector Byte 160
  calGen : CalGen
  histogram : Vector Nat 160
  lastOutcome : CalOutcome
  deriving DecidableEq, Repr

/-! ## Measurement engine -/

/-- The measurement kinds (R55). -/
inductive Kind where
  | reciprocal
  | interval
  | totalize
  | timetag
  deriving DecidableEq, Repr

/-- The report forms of RECIPROCAL (R55). -/
inductive ReportAs where
  | frequency
  | period
  deriving DecidableEq, Repr

/-- The arm sources (R55). -/
inductive ArmSource where
  | immediate
  | atTime
  | inputEdge
  | slotDone
  deriving DecidableEq, Repr

/-- The repeat modes (R55). -/
inductive RepeatMode where
  | single
  | continuous
  | triggered
  deriving DecidableEq, Repr

/-- The plan record (R55). A quota of none is UNLIMITED. -/
structure Plan where
  kind : Kind
  inputA : InputId
  senseA : Sense
  inputB : InputId
  senseB : Sense
  gate : BitVec 64
  waitLimit : BitVec 64
  prescale : BitVec 32
  quota : Option (BitVec 32)
  reportAs : ReportAs
  armSource : ArmSource
  armTime : Tick
  armInput : InputId
  armSense : Sense
  armSlot : SlotId
  repeatMode : RepeatMode
  deriving DecidableEq, Repr

/-- The slot states (R69). -/
inductive SlotState where
  | idle
  | arming
  | starting
  | gating
  | stopping
  | tagging
  deriving DecidableEq, Repr

/-- The marks of a measurement in flight (R74). -/
structure Marks where
  timeStepped : Bool
  refFault : Bool
  calChanged : Bool
  deriving DecidableEq, Repr

/-- The start or the stop of a measurement as a finished outcome carries it (R73): a stamp with the time-scale time of
its offer, or a gate boundary with its raw time, its time-scale time and its boundary count. -/
inductive Endpoint where
  | stamp (st : Stamp) (scale : Tick)
  | boundary (rawTime scale : Tick) (count : EdgeCount)
  deriving DecidableEq, Repr

/-- The previous tagged stamp of a TIMETAG run (R70). -/
structure PreviousTag where
  edgeCount : EdgeCount
  calGen : CalGen
  deriving DecidableEq, Repr

/-- The data of the arming and of the measurement in flight (R70). A time that is not held stands at 0. -/
structure MeasData where
  /-- The horizon time of the entry into ARMING (R85). -/
  armingSince : Tick
  /-- The arm instant, once fixed: under IMMEDIATE already while the slot waits for it (R82). -/
  armInstant : Option Tick
  /-- Gate open, once fixed. A TOTALIZE slot in ARMING that holds one has armed and waits for it (R93). -/
  gateOpen : Option Tick
  gateClose : Tick
  runOrigin : Tick
  gateIndex : Coarse
  /-- The time from which a stamp counts as the start, and whether it must be later than it (R92). -/
  startFrom : Tick
  startStrict : Bool
  deadline : Tick
  start : Option Endpoint
  /-- The step notices that came after the offer of the start, or of the previous tag, and before the slot took it, all at
  one instant (R8, R72). -/
  startSteps : Nat
  previousTag : Option PreviousTag
  tags : Nat
  marks : Marks
  deriving DecidableEq, Repr

/-- How a measurement ended (R73). -/
inductive Result where
  | valued
  | noSignal
  | aborted
  deriving DecidableEq, Repr

/-- The flags of a finished outcome and of a record (R73, R110). -/
structure RecordFlags where
  aborted : Bool
  noSignal : Bool
  timeStepped : Bool
  refFault : Bool
  calChanged : Bool
  pushed : Bool
  deriving DecidableEq, Repr

/-- A finished outcome (R73), with the lost count it carries from its placement (R102). -/
structure Outcome where
  slot : SlotId
  kind : Kind
  reportAs : ReportAs
  planGen : Gen
  result : Result
  flags : RecordFlags
  start : Option Endpoint
  stop : Option Endpoint
  edgesSince : Option EdgeCount
  lost : BitVec 32
  deriving DecidableEq, Repr

/-- A stamp as offered to a slot: with its time-scale time and the horizon time of the offer (R30), and the number of step
notices that have come since the offer at that same instant (R8). -/
structure Offered where
  st : Stamp
  scale : Tick
  offeredAt : Tick
  steps : Nat
  deriving DecidableEq, Repr

/-- A valued finish of a slot's arm slot that came while the slot was outside ARMING (R72, R86): its stop time, the stamp
that caused it if one did, and the horizon time at which it came. -/
structure SeenFinish where
  stopTime : Tick
  cause : Option Stamp
  at' : Tick
  deriving DecidableEq, Repr

/-- One slot. -/
structure Slot where
  plan : Plan
  planGen : Gen
  state : SlotState
  data : MeasData
  lost : BitVec 32
  finished : Option Outcome
  /-- The stamps offered to the slot that it may still judge at their instant (R72). -/
  fresh : List Offered
  /-- The finishes of its arm slot that may still arm the slot at their instant (R72). -/
  finishes : List SeenFinish
  /-- The stamps that have finished a measurement of the slot at their instant, and are not judged again (R71, R77). -/
  usedUp : List Offered
  deriving DecidableEq, Repr

/-! ## Arithmetic unit, result log and latest table -/

/-- The entry in service (R98), with the raw time of its take (R100) and the slot last granted before it (R99). -/
structure Service where
  slot : SlotId
  outcome : Outcome
  takenAt : Tick
  grantedBefore : SlotId
  deriving DecidableEq, Repr

/-- The arithmetic unit: FREE when service is none, else SERVING (R98). -/
structure ArithUnit where
  service : Option Service
  lastGranted : SlotId
  deriving DecidableEq, Repr

/-- A result record without its sequence number (R110, R111). -/
structure Record where
  slot : SlotId
  kind : Kind
  reportAs : ReportAs
  planGen : Gen
  flags : RecordFlags
  start : Option Tick
  stop : Option Tick
  edges : Option EdgeCount
  duration : Option Tick
  value : Option (BitVec 64)
  edgesSince : Option EdgeCount
  lost : Option (BitVec 32)
  deriving DecidableEq, Repr

/-- A held record with the sequence number the log gave it (R116). -/
structure LogEntry where
  seq : Seq
  record : Record
  deriving DecidableEq, Repr

/-- A latest-table entry: the newest record of a slot, with its sequence number unless the log discarded it (R114). -/
structure LatestEntry where
  seq : Option Seq
  record : Record
  deriving DecidableEq, Repr

/-- The full policies (R127). -/
inductive FullPolicy where
  | overwrite
  | hold
  deriving DecidableEq, Repr

/-- The part-wide state of the result log (R116, R117, R127). -/
structure Log where
  held : List LogEntry
  nextSeq : Seq
  policy : FullPolicy
  gen : Gen
  deriving DecidableEq, Repr

/-! ## Ports -/

/-- The link states (R143). -/
inductive LinkState where
  | ready
  | selected
  | preparing
  | early
  deriving DecidableEq, Repr

/-- The status codes of 8.7. -/
inductive Status where
  | ok
  | clamped
  | stale
  | notPermitted
  | busy
  | tooLate
  | badValue
  | badChain
  | badPayload
  | badFrame
  | tooLong
  | unknownCommand
  | notReady
  | none
  deriving DecidableEq, Repr

/-- A response record (R156). -/
structure Response where
  status : Status
  tag : Byte
  command : Byte
  payload : List Byte
  deriving DecidableEq, Repr

/-- A taken request on its way to its owner: the coarse count of its arrival and the request (R156). -/
structure Arrival where
  coarse : Coarse
  request : Instr
  deriving DecidableEq, Repr

/-- One port: its link (chapter Ports and Requests), its attention state (chapter Attention) and its log state (chapter
Result Log, Cursors and Latest Table). Rights: bit 0 MEASURE, bit 1 INPUT, bit 2 TIME. Attention flags and mask: bit 0
RESULTS, 1 LOSS, 2 DONE, 3 CHANGE, 4 CAL, 5 REF, 6 LINK. Subscription: bit n is slot Sn (R180). -/
structure Port where
  link : LinkState
  /-- The pending response; none between the consumption of one and the forming of the next. -/
  response : Option Response
  /-- Whether the preparation of the pending response has ended. -/
  prepared : Bool
  /-- The raw time at which the running preparation began (R156). -/
  prepStart : Tick
  arriving : Option Arrival
  /-- The bits the port shifted out in its latest ended selection (R145, R158), or while device reset was last asserted
  (R164). -/
  shiftedOut : List Bool
  /-- Whether a selection that was in progress at the release of device reset still goes on: it is ignored (R164). -/
  ignoring : Bool
  rights : BitVec 3
  badFrames : BitVec 16
  flags : BitVec 7
  mask : BitVec 7
  subscription : BitVec 16
  cursor : Seq
  threshold : BitVec 16
  skipped : BitVec 32
  deriving DecidableEq, Repr

end Sys2Proof.Machine
end

