-- ==== Sys2Proof/Machine/Tables.lean ====
section
/-! DEFINITION. Calibration tables and histograms: the default table, the build of a candidate table from a histogram
and its test (R40 to R44). -/

namespace Sys2Proof.Machine

/-- The default table: fine(c) = min(255, floor(c × 256 / 125)) (R40). -/
def defaultTable : Vector Byte 160 :=
  Vector.ofFn fun c : Code => BitVec.ofNat 8 (min 255 (c.val * 256 / 125))

/-- The empty histogram (R42). -/
def emptyHistogram : Vector Nat 160 := Vector.replicate 160 0

/-- The hit total of a histogram (R42). -/
def hitTotal (h : Vector Nat 160) : Nat := h.toList.sum

/-- A hit: one more in the counter of its code (R42). -/
def addToHistogram (h : Vector Nat 160) (c : Code) : Vector Nat 160 := h.set c (h[c] + 1)

/-- S_c, the sum of the counters of all codes below c (R43). -/
def hitsBelow (h : Vector Nat 160) (c : Nat) : Nat := (h.toList.take c).sum

/-- fine(c) = min(255, floor((2 × S_c + h_c) × 256 / (2 × H))) with H = 65,536 (R43). -/
def fineValue (h : Vector Nat 160) (c : Code) : Nat :=
  min 255 ((2 * hitsBelow h c + h[c]) * 256 / (2 * Config.histogramFull))

/-- The candidate table built from a histogram (R43). -/
def buildTable (h : Vector Nat 160) : Vector Byte 160 :=
  Vector.ofFn fun c : Code => BitVec.ofNat 8 (fineValue h c)

/-- Whether a candidate passes its test: no code above 1,024 hits, and at least 64 codes that hold a hit (R44). -/
def candidatePasses (h : Vector Nat 160) : Bool :=
  h.toList.all (fun n => decide (n ≤ Config.singleCodeLimit))
    && decide (Config.spreadLimit ≤ h.toList.countP (fun n => decide (0 < n)))

end Sys2Proof.Machine
end

