-- ==== Sys2Proof/Machine/Resets.lean ====
section
/-! DEFINITION. What each block holds at the release of device reset (R15, R38, R68, R97, R98, R142, R164, R176). -/

namespace Sys2Proof.Machine

/-- The plan of every slot after device reset (R55). -/
def Plan.atRelease : Plan where
  kind := .reciprocal
  inputA := 0
  senseA := .rising
  inputB := 0
  senseB := .rising
  gate := 250000000
  waitLimit := 250000000
  prescale := 1
  quota := none
  reportAs := .frequency
  armSource := .immediate
  armTime := 0
  armInput := 0
  armSense := .rising
  armSlot := 0
  repeatMode := .single

/-- All marks clear. -/
def Marks.clear : Marks := ⟨false, false, false⟩

/-- No measurement data. -/
def MeasData.empty : MeasData where
  armingSince := 0
  armInstant := none
  gateOpen := none
  gateClose := 0
  runOrigin := 0
  gateIndex := 0
  startFrom := 0
  startStrict := false
  deadline := 0
  start := none
  startSteps := 0
  previousTag := none
  tags := 0
  marks := Marks.clear

/-- A slot after device reset (R68, R97). -/
def Slot.atRelease : Slot where
  plan := Plan.atRelease
  planGen := 0
  state := .idle
  data := MeasData.empty
  lost := 0
  finished := none
  fresh := []
  finishes := []
  usedUp := []

/-- The level a pin sampled as 1 or 0 stands at. -/
def levelOfPin (b : Bool) : Level := if b then .high else .low

/-- An input after device reset, its pin at the given level: serving start-up calibration (R38, R50). -/
def Input.atRelease (pin : Level) : Input where
  settings := ⟨.pin, 0, 0, .fixed⟩
  settingsGen := 0
  pinLevel := pin
  qualified := pin
  candidate := none
  rising := 0
  falling := 0
  rejects := 0
  recent := []
  blockedUntil := none
  state := .calibrating
  table := defaultTable
  calGen := 0
  histogram := emptyHistogram
  lastOutcome := .none

/-- The NONE response (R163). -/
def Response.noneResponse : Response := ⟨.none, 0, 0, []⟩

/-- The rights a port's straps give (R153, strap codes of R180): first strap, then second strap. -/
def rightsOfStraps (first second : Bool) : BitVec 3 :=
  match first, second with
  | false, false => 0b000
  | false, true => 0b001
  | true, false => 0b011
  | true, true => 0b111

/-- A port after device reset with the given rights (R142, R164, R176). -/
def Port.atRelease (rights : BitVec 3) : Port where
  link := .ready
  response := some Response.noneResponse
  prepared := true
  prepStart := 0
  arriving := none
  shiftedOut := []
  ignoring := false
  rights := rights
  badFrames := 0
  flags := 0
  mask := 0
  subscription := 0
  cursor := 0
  threshold := 1
  skipped := 0

/-- The arithmetic unit after device reset and after RESET_MEASUREMENT (R98). -/
def ArithUnit.idle : ArithUnit := ⟨none, 15⟩

/-- The log after device reset (R142). -/
def Log.atRelease : Log := ⟨[], 0, .overwrite, 0⟩

end Sys2Proof.Machine
end

