-- ==== Sys2Proof/Machine/State.lean ====
section
/-! DEFINITION. The state of the part, the reasons a command can stop, and the state right after device reset. -/

namespace Sys2Proof.Machine

/-- The whole state of the part: the queue of waiting commands and what every block holds. -/
structure State where
  /-- The commands that wait, first in, first out. -/
  pending : List Instr
  /-- The coarse count (R1). -/
  coarse : Coarse
  /-- The tick within the present coarse period: raw time at tick resolution (R6). The model's own field. -/
  tick : BitVec 8
  refState : RefState
  /-- Whether the reference is present (R3). -/
  refPresent : Bool
  presenceTimer : Nat
  gapTimer : Nat
  /-- Whether horizon time has started (R6). -/
  horizonStarted : Bool
  /-- The horizon reference state (R7). -/
  horizonRef : RefState
  /-- The reference state changes the horizon has not reached, oldest first (R7). -/
  refChanges : List RefChange
  /-- The time-scale offset and the time-scale generation (R8, R9). -/
  offset : Tick
  timeGen : Gen
  inputs : Vector Input 8
  /-- The stamps in flight in the release horizon, in order of corrected raw time (R29). -/
  stamps : List Stamp
  slots : Vector Slot 16
  unit : ArithUnit
  log : Log
  /-- The latest table (R114). -/
  latest : Vector (Option LatestEntry) 16
  ports : Vector Port 4
  deriving DecidableEq, Repr

/-- The faults of the machine. There are none: no rule of the spec stops the part, and every command completes. -/
inductive Fault where
  deriving DecidableEq, Repr

/-- The refusals of the machine. -/
inductive Refusal where
  /-- Raised by exec's arm for a command that has no meaning yet. Safe: it stops where the part goes on. No arm raises
  it now. -/
  | notModelled (mnemonic : String)
  deriving DecidableEq, Repr

/-- The part at the release of device reset, with the given strap levels (bit n of strapA and strapB is the first and
the second strap of port n) and pin levels (bit n of pins is INn): R15, R38, R68, R97, R98, R142, R153, R164, R176. -/
def State.atRelease (strapA strapB : BitVec 4) (pins : BitVec 8) : State where
  pending := []
  coarse := 0
  tick := 0
  refState := .acquiring
  refPresent := false
  presenceTimer := 0
  gapTimer := 0
  horizonStarted := false
  horizonRef := .acquiring
  refChanges := []
  offset := 0
  timeGen := 0
  inputs := Vector.ofFn fun i : InputId => Input.atRelease (levelOfPin (pins.getLsbD i))
  stamps := []
  slots := Vector.replicate 16 Slot.atRelease
  unit := ArithUnit.idle
  log := Log.atRelease
  latest := Vector.replicate 16 none
  ports := Vector.ofFn fun p : PortId =>
    Port.atRelease (rightsOfStraps (strapA.getLsbD p) (strapB.getLsbD p))

/-- The state right after reset. DESIGN CHOICE (log entry 1): every strap and every pin low. -/
def State.reset : State := State.atRelease 0 0 0

end Sys2Proof.Machine
end

