-- ==== Sys2Proof/Machine/Operands.lean ====
section
/-! DEFINITION. Operand forms: the codes of every enumerated field (R178, R179, R180), the clamping of numbers that a
request carries (R36, R62, R129, R132), and the items of a WRITE_PLAN list (R58 to R62). -/

namespace Sys2Proof.Machine

/-! ## Commands (R178) -/

/-- The twenty commands of the part. -/
inductive Command where
  | null
  | portReset
  | readAttention
  | setAttention
  | readTime
  | setTime
  | stepTime
  | readInput
  | setInput
  | calibrate
  | readPlan
  | writePlan
  | arm
  | stop
  | subscribe
  | readResults
  | latest
  | logStatus
  | setLog
  | resetMeasurement
  deriving DecidableEq, Repr

/-- The command codes (R178). -/
def Command.code : Command → Byte
  | .null => 0x01
  | .portReset => 0x02
  | .readAttention => 0x03
  | .setAttention => 0x04
  | .readTime => 0x10
  | .setTime => 0x11
  | .stepTime => 0x12
  | .readInput => 0x20
  | .setInput => 0x21
  | .calibrate => 0x22
  | .readPlan => 0x30
  | .writePlan => 0x31
  | .arm => 0x32
  | .stop => 0x33
  | .subscribe => 0x40
  | .readResults => 0x41
  | .latest => 0x42
  | .logStatus => 0x43
  | .setLog => 0x44
  | .resetMeasurement => 0x45

/-- All commands, in the order of their codes. -/
def allCommands : List Command :=
  [.null, .portReset, .readAttention, .setAttention, .readTime, .setTime, .stepTime, .readInput, .setInput, .calibrate]
  ++ [.readPlan, .writePlan, .arm, .stop, .subscribe, .readResults, .latest, .logStatus, .setLog, .resetMeasurement]

/-- The command a code names, if any (R152). -/
def Command.ofCode (b : Byte) : Option Command := allCommands.find? fun c => c.code == b

/-- The right a command needs, as a mask over the rights (R154, R178): 1 MEASURE, 2 INPUT, 4 TIME, 0 none. -/
def Command.needs : Command → BitVec 3
  | .setTime => 0b100
  | .stepTime => 0b100
  | .setInput => 0b010
  | .calibrate => 0b010
  | .writePlan => 0b001
  | .arm => 0b001
  | .stop => 0b001
  | .setLog => 0b001
  | .resetMeasurement => 0b001
  | _ => 0

/-- Whether a port with these rights may have the command taken (R154). -/
def Command.permitted (c : Command) (rights : BitVec 3) : Bool := rights &&& c.needs == c.needs

/-! ## Field codes (R179, R180) -/

/-- The status codes (R179). -/
def Status.code : Status → Byte
  | .ok => 0x00
  | .clamped => 0x01
  | .stale => 0x10
  | .notPermitted => 0x11
  | .busy => 0x12
  | .tooLate => 0x13
  | .badValue => 0x14
  | .badChain => 0x15
  | .badPayload => 0x20
  | .badFrame => 0x21
  | .tooLong => 0x22
  | .unknownCommand => 0x23
  | .notReady => 0x30
  | .none => 0x31

/-- kind (R180). -/
def Kind.code : Kind → Byte
  | .reciprocal => 1
  | .interval => 2
  | .totalize => 3
  | .timetag => 4

/-- The kind a code names. -/
def Kind.ofCode (b : Byte) : Option Kind :=
  if b = 1 then some .reciprocal else if b = 2 then some .interval
  else if b = 3 then some .totalize else if b = 4 then some .timetag else none

/-- sense A, sense B, arm sense (R180). -/
def Sense.code : Sense → Byte
  | .rising => 1
  | .falling => 2

/-- The sense a code names. -/
def Sense.ofCode (b : Byte) : Option Sense :=
  if b = 1 then some .rising else if b = 2 then some .falling else none

/-- report as (R180). -/
def ReportAs.code : ReportAs → Byte
  | .frequency => 1
  | .period => 2

/-- The report form a code names. -/
def ReportAs.ofCode (b : Byte) : Option ReportAs :=
  if b = 1 then some .frequency else if b = 2 then some .period else none

/-- arm source (R180). -/
def ArmSource.code : ArmSource → Byte
  | .immediate => 1
  | .atTime => 2
  | .inputEdge => 3
  | .slotDone => 4

/-- The arm source a code names. -/
def ArmSource.ofCode (b : Byte) : Option ArmSource :=
  if b = 1 then some .immediate else if b = 2 then some .atTime
  else if b = 3 then some .inputEdge else if b = 4 then some .slotDone else none

/-- repeat (R180). -/
def RepeatMode.code : RepeatMode → Byte
  | .single => 1
  | .continuous => 2
  | .triggered => 3

/-- The repeat mode a code names. -/
def RepeatMode.ofCode (b : Byte) : Option RepeatMode :=
  if b = 1 then some .single else if b = 2 then some .continuous else if b = 3 then some .triggered else none

/-- source (R180). -/
def sourceCode : Source → Byte
  | .pin => 1
  | .test => 2

/-- The source a code names. -/
def sourceOfCode (b : Byte) : Option Source :=
  if b = 1 then some .pin else if b = 2 then some .test else none

/-- calibration mode (R180). -/
def CalMode.code : CalMode → Byte
  | .fixed => 1
  | .track => 2

/-- The calibration mode a code names. -/
def CalMode.ofCode (b : Byte) : Option CalMode :=
  if b = 1 then some .fixed else if b = 2 then some .track else none

/-- full policy (R180). -/
def FullPolicy.code : FullPolicy → Byte
  | .overwrite => 1
  | .hold => 2

/-- The full policy a code names. -/
def FullPolicy.ofCode (b : Byte) : Option FullPolicy :=
  if b = 1 then some .overwrite else if b = 2 then some .hold else none

/-- input state (R180). -/
def InputState.code : InputState → Byte
  | .ready => 1
  | .calibrating => 2

/-- last calibration outcome (R180). -/
def CalOutcome.code : CalOutcome → Byte
  | .none => 0
  | .passed => 1
  | .failed => 2

/-- reference state (R180). -/
def RefState.code : RefState → Byte
  | .acquiring => 1
  | .locked => 2
  | .lost => 3

/-- slot state (R180). -/
def SlotState.code : SlotState → Byte
  | .idle => 0
  | .arming => 1
  | .starting => 2
  | .gating => 3
  | .stopping => 4
  | .tagging => 5

/-- The operation of SUBSCRIBE and SET_ATTENTION (R180): SET adds, CLEAR removes, REPLACE sets exactly. None is a code
that names no operation. -/
def setOperation {w : Nat} (code : Byte) (old carried : BitVec w) : Option (BitVec w) :=
  if code = 1 then some (old ||| carried)
  else if code = 2 then some (old &&& ~~~carried)
  else if code = 3 then some carried
  else none

/-- A number that names one of n things, or none above that. -/
def numberOf (n : Nat) (b : Byte) : Option (Fin n) := if h : b.toNat < n then some ⟨b.toNat, h⟩ else none

/-! ## Clamping -/

/-- The filter width as stored: above 255 becomes 255 (R36). -/
def clampWidth (v : BitVec 16) : BitVec 8 := if 255 < v.toNat then 255 else v.setWidth 8

/-- The skew as stored: below −1,024 becomes −1,024, above +1,023 becomes +1,023 (R36). -/
def clampSkew (v : BitVec 16) : BitVec 11 :=
  if v.toInt < -1024 then BitVec.ofInt 11 (-1024)
  else if 1023 < v.toInt then BitVec.ofInt 11 1023
  else v.setWidth 11

/-- Gate G and wait limit as stored: 0 becomes 1, above 2^32 becomes 2^32 (R62). -/
def clampPeriods (v : BitVec 64) : BitVec 64 :=
  if v.toNat = 0 then 1 else if 2 ^ 32 < v.toNat then BitVec.ofNat 64 (2 ^ 32) else v

/-- Prescale P as stored: 0 becomes 1, above 65,536 becomes 65,536 (R62). -/
def clampPrescale (v : BitVec 32) : BitVec 32 :=
  if v.toNat = 0 then 1 else if 65536 < v.toNat then 65536 else v

/-- The backlog threshold as stored: 0 becomes 1, above 512 becomes 512 (R129). -/
def clampThreshold (v : BitVec 16) : BitVec 16 :=
  if v.toNat = 0 then 1 else if 512 < v.toNat then 512 else v

/-- The count k of READ_RESULTS as taken: 0 becomes 1, above 4 becomes 4 (R132). -/
def clampCount (v : Byte) : Nat := if v.toNat = 0 then 1 else if Config.readMax < v.toNat then Config.readMax else v.toNat

/-- OK, or CLAMPED where a number was brought into range. -/
def clampStatus (clamped : Bool) : Status := if clamped then .clamped else .ok

/-! ## Plan items -/

/-- Whether an item's value is valid for its field (R60). An unknown item has no value. -/
def itemValid : PlanItem → Bool
  | .kind c => (Kind.ofCode c).isSome
  | .inputA n => decide (n.toNat < 8)
  | .senseA c => (Sense.ofCode c).isSome
  | .inputB n => decide (n.toNat < 8)
  | .senseB c => (Sense.ofCode c).isSome
  | .gate _ => true
  | .waitLimit _ => true
  | .prescale _ => true
  | .quota _ => true
  | .reportAs c => (ReportAs.ofCode c).isSome
  | .armSource c => (ArmSource.ofCode c).isSome
  | .armTime _ => true
  | .armInput n => decide (n.toNat < 8)
  | .armSense c => (Sense.ofCode c).isSome
  | .armSlot n => decide (n.toNat < 16)
  | .repeatMode c => (RepeatMode.ofCode c).isSome
  | .unknown _ _ => true

/-- Whether applying an item clamps its number (R62). -/
def itemClamped : PlanItem → Bool
  | .gate v => decide (clampPeriods v ≠ v)
  | .waitLimit v => decide (clampPeriods v ≠ v)
  | .prescale v => decide (clampPrescale v ≠ v)
  | _ => false

/-- A plan with the field an item names replaced by the item's value, as clamped (R58, R62). A value that is not valid
for its field replaces nothing; such a list is never applied (R60). -/
def applyItem (p : Plan) : PlanItem → Plan
  | .kind c => { p with kind := (Kind.ofCode c).getD p.kind }
  | .inputA n => { p with inputA := (numberOf 8 n).getD p.inputA }
  | .senseA c => { p with senseA := (Sense.ofCode c).getD p.senseA }
  | .inputB n => { p with inputB := (numberOf 8 n).getD p.inputB }
  | .senseB c => { p with senseB := (Sense.ofCode c).getD p.senseB }
  | .gate v => { p with gate := clampPeriods v }
  | .waitLimit v => { p with waitLimit := clampPeriods v }
  | .prescale v => { p with prescale := clampPrescale v }
  | .quota v => { p with quota := if v = 0 then none else some v }
  | .reportAs c => { p with reportAs := (ReportAs.ofCode c).getD p.reportAs }
  | .armSource c => { p with armSource := (ArmSource.ofCode c).getD p.armSource }
  | .armTime v => { p with armTime := v }
  | .armInput n => { p with armInput := (numberOf 8 n).getD p.armInput }
  | .armSense c => { p with armSense := (Sense.ofCode c).getD p.armSense }
  | .armSlot n => { p with armSlot := (numberOf 16 n).getD p.armSlot }
  | .repeatMode c => { p with repeatMode := (RepeatMode.ofCode c).getD p.repeatMode }
  | .unknown _ _ => p

/-- The resulting plan: the stored plan with one field replaced for each item, in list order (R58). -/
def resultingPlan (p : Plan) (items : List PlanItem) : Plan := items.foldl applyItem p

end Sys2Proof.Machine
end

