-- ==== Sys2Proof/Machine/Flags.lean ====
section
/-! DEFINITION. Flags: the attention flags of the ports and the attention line they drive (R165 to R169), the marks of a
measurement and the flags of a record (R74, R110). -/

namespace Sys2Proof.Machine

/-! ## Attention flags -/

/-- The seven attention flags (R165). -/
inductive Flag where
  | results
  | loss
  | done
  | change
  | cal
  | ref
  | link
  deriving DecidableEq, Repr

/-- The bit of a flag in an attention set (R180). -/
def Flag.bit : Flag → BitVec 7
  | .results => 0b0000001
  | .loss => 0b0000010
  | .done => 0b0000100
  | .change => 0b0001000
  | .cal => 0b0010000
  | .ref => 0b0100000
  | .link => 0b1000000

/-- A port with a flag set; a set flag stays set, and the mask is not looked at (R165). -/
def Port.setFlag (q : Port) (f : Flag) : Port := { q with flags := q.flags ||| f.bit }

/-- Whether a flag is set at a port. -/
def Port.hasFlag (q : Port) (f : Flag) : Bool := q.flags &&& f.bit == f.bit

/-- The attention line: asserted exactly when some flag is both set and enabled (R169). -/
def Port.attentionLine (q : Port) : Bool := q.flags &&& q.mask != 0

/-- A flag set at every port that who picks. -/
def State.raise (f : Flag) (who : PortId → Bool) (s : State) : State :=
  { s with ports := Vector.ofFn fun p : PortId => if who p then s.ports[p].setFlag f else s.ports[p] }

/-- A flag set at every port (CAL and REF, R166). -/
def State.raiseAll (f : Flag) (s : State) : State := s.raise f fun _ => true

/-- A flag set at every port other than the sender (CHANGE, R160). -/
def State.raiseOthers (f : Flag) (sender : PortId) (s : State) : State := s.raise f fun p => decide (p ≠ sender)

/-- A flag set at every port whose subscription holds the slot (DONE, R131). -/
def State.raiseSubscribed (f : Flag) (n : SlotId) (s : State) : State :=
  s.raise f fun p => s.ports[p].subscription.getLsbD n

/-! ## Marks and record flags -/

/-- The flags of a finished outcome: the marks as they stand, with the outcome's own flags (R73, R75). -/
def RecordFlags.ofMarks (m : Marks) (result : Result) (pushed : Bool) : RecordFlags where
  aborted := decide (result = .aborted)
  noSignal := decide (result = .noSignal)
  timeStepped := m.timeStepped
  refFault := m.refFault
  calChanged := m.calChanged
  pushed := pushed

/-- The record flags byte (R180, R181). -/
def RecordFlags.byte (f : RecordFlags) : Byte :=
  BitVec.ofNat 8 (f.aborted.toNat + 2 * f.noSignal.toNat + 4 * f.timeStepped.toNat + 8 * f.refFault.toNat
    + 16 * f.calChanged.toNat + 32 * f.pushed.toNat)

end Sys2Proof.Machine
end

