-- ==== Sys2Proof/Machine/Ops.lean ====
section
/-! DEFINITION. The shared operations: comparisons of times and sequence numbers, the present time in its several
scales, access to the parts of the state, saturating counts, the response to a request, and the round-robin arbiter. -/

namespace Sys2Proof.Machine

/-! ## Comparisons -/

/-- Time a is at or before time b: b − a, modulo 2^64, is less than 2^63 (R2). -/
def atOrBefore (a b : Tick) : Bool := decide ((b - a).toNat < 2 ^ 63)

/-- Time a is before time b: at or before it, and not equal to it (R2). -/
def before (a b : Tick) : Bool := atOrBefore a b && decide (a ≠ b)

/-- The later of two times. -/
def laterOf (a b : Tick) : Tick := if atOrBefore a b then b else a

/-- Coarse count a is at or before coarse count b, modulo 2^56. -/
def coarseAtOrBefore (a b : Coarse) : Bool := decide ((b - a).toNat < 2 ^ 55)

/-- Sequence number a is at or before b: b − a, modulo 2^32, is less than 2^31 (00_scope.md, number conventions). -/
def seqAtOrBefore (a b : Seq) : Bool := decide ((b - a).toNat < 2 ^ 31)

/-- A 32-bit count raised by n and held at 4,294,967,295 (R76, R118, R125). -/
def satAdd32 (c : BitVec 32) (n : Nat) : BitVec 32 := BitVec.ofNat 32 (min (c.toNat + n) (2 ^ 32 - 1))

/-- The bad-frame count raised by one and held at 65,535 (R150). -/
def satInc16 (c : BitVec 16) : BitVec 16 := BitVec.ofNat 16 (min (c.toNat + 1) (2 ^ 16 - 1))

/-- The ticks of a number of coarse periods, modulo 2^64. -/
def ticksOf (periods : BitVec 64) : Tick := periods * 256

/-- The least multiple of 256 at or after a time: the first coarse boundary at or after it (R93). -/
def boundaryAtOrAfter (a : Tick) : Tick := (a + 255) &&& ~~~(255 : Tick)

/-- The coarse count of a raw time (R2). -/
def coarseOf (t : Tick) : Coarse := t.extractLsb' 8 56

/-! ## The present time -/

/-- Raw time at tick resolution (R2, R6). -/
def State.rawTime (s : State) : Tick := s.coarse ++ s.tick

/-- The raw time of a request's arrival: the coarse count, with fine part 0 (R2). -/
def State.arrivalTime (s : State) : Tick := s.coarse ++ (0 : BitVec 8)

/-- Horizon time: raw time minus 73,728 ticks (R6). -/
def State.horizonTime (s : State) : Tick := s.rawTime - Config.horizonDelay

/-- The horizon time of a request's arrival (R71). -/
def State.arrivalHorizon (s : State) : Tick := s.arrivalTime - Config.horizonDelay

/-- Whether horizon time has reached a time: never before horizon time has started (R6). -/
def State.reached (s : State) (t : Tick) : Bool := s.horizonStarted && atOrBefore t s.horizonTime

/-- The time-scale time at a request's arrival (R10). -/
def State.timeAtArrival (s : State) : Tick := s.arrivalTime + s.offset

/-- An input at coarse count c: the qualified edges that the horizon has passed are needed no longer (R22). -/
def Input.forgetPassed (x : Input) (c : Coarse) : Input :=
  { x with recent := x.recent.filter fun e => decide ((c - e.period).toNat ≤ Config.horizonPeriods) }

/-- One tick of raw time. A coarse period ends with its 256th tick: the coarse count advances (R1), the gap timer counts
the period, and so does the presence timer while the reference is present (R3). -/
def State.advance (s : State) : State :=
  if s.tick = 255 then
    { s with
      tick := 0
      coarse := s.coarse + 1
      inputs := Vector.ofFn fun i : InputId => s.inputs[i].forgetPassed (s.coarse + 1)
      gapTimer := s.gapTimer + 1
      presenceTimer := if s.refPresent then s.presenceTimer + 1 else 0 }
  else { s with tick := s.tick + 1 }

/-- The horizon reference state at the present horizon time: a change whose time is this very instant counts as come,
whichever of the two the part takes first (R7). DESIGN CHOICE (log entry 34): of two changes with one change time, which R7
does not speak of, the later one stands at their instant. -/
def State.horizonRefNow (s : State) : RefState :=
  match (s.refChanges.filter fun c => s.horizonStarted && decide (c.changeTime = s.horizonTime)).getLast? with
  | some c => c.state
  | none => s.horizonRef

/-- Whether a span that holds the present horizon instant escapes REF_FAULT at it (R7). -/
def State.horizonLocked (s : State) : Bool := decide (s.horizonRefNow = .locked)

/-! ## Access to the parts -/

def State.input (s : State) (i : InputId) : Input := s.inputs[i]
def State.slot (s : State) (n : SlotId) : Slot := s.slots[n]
def State.port (s : State) (p : PortId) : Port := s.ports[p]
def State.setInput (s : State) (i : InputId) (x : Input) : State := { s with inputs := s.inputs.set i x }
def State.setSlot (s : State) (n : SlotId) (x : Slot) : State := { s with slots := s.slots.set n x }
def State.setPort (s : State) (p : PortId) (x : Port) : State := { s with ports := s.ports.set p x }

/-- Every slot replaced by a function of its number and itself. -/
def State.mapSlots (s : State) (f : SlotId → Slot → Slot) : State :=
  { s with slots := Vector.ofFn fun n : SlotId => f n s.slots[n] }

/-- Every port replaced by a function of itself. -/
def State.mapPorts (s : State) (f : Port → Port) : State :=
  { s with ports := Vector.ofFn fun p : PortId => f s.ports[p] }

/-! ## Usage and demanded senses (R23) -/

/-- The roles in which a plan names inputs, by its kind and arm source, each with the sense it demands (R23, R56). -/
def Plan.roles (p : Plan) : List (InputId × Option Sense) :=
  (p.inputA, if p.kind = .totalize then none else some p.senseA)
    :: ((if p.kind = .interval then [(p.inputB, some p.senseB)] else [])
      ++ (if p.armSource = .inputEdge then [(p.armInput, some p.armSense)] else []))

/-- Whether a plan names an input in a role that applies. -/
def Plan.names (p : Plan) (i : InputId) : Bool := p.roles.any fun r => decide (r.1 = i)

/-- Whether a plan demands a sense of an input. -/
def Plan.demands (p : Plan) (i : InputId) (sense : Sense) : Bool := p.roles.any fun r => decide (r = (i, some sense))

/-- The usage of an input: the slots outside IDLE whose plan names it (R23). -/
def State.usage (s : State) (i : InputId) : List SlotId :=
  allSlots.filter fun n => decide ((s.slot n).state ≠ .idle) && (s.slot n).plan.names i

/-- Whether a sense of an input is demanded: some slot outside IDLE demands it (R23). -/
def State.demanded (s : State) (i : InputId) (sense : Sense) : Bool :=
  allSlots.any fun n => decide ((s.slot n).state ≠ .idle) && (s.slot n).plan.demands i sense

/-- Whether a plan names, in a role that applies, an input in CALIBRATING (R32). -/
def State.namesCalibrating (s : State) (p : Plan) : Bool :=
  allInputs.any fun i => p.names i && decide ((s.input i).state = .calibrating)

/-! ## Responses -/

/-- The answer to a port's request becomes its pending response, with the request's tag and command code (R156). -/
def State.respond (s : State) (p : PortId) (tag : Byte) (c : Command) (status : Status) (payload : List Byte) : State :=
  s.setPort p { s.port p with response := some ⟨status, tag, c.code, payload⟩ }

/-- Whether a carried expected generation passes the generation check (R160). -/
def generationMatches (expected : Option Gen) (inForce : Gen) : Bool :=
  match expected with
  | none => true
  | some g => decide (g = inForce)

/-- A request that needs a right acts only at a port that holds it; else it is answered NOT_PERMITTED and nothing else
changes (R153, R154). -/
def State.withRight (s : State) (p : PortId) (tag : Byte) (c : Command) (act : State → State) : State :=
  if c.permitted (s.port p).rights then act s else s.respond p tag c .notPermitted []

/-! ## The arbiter (R99) -/

/-- Among the waiting slots, the lowest-numbered above the last granted, or else the lowest-numbered. -/
def nextGrant (last : SlotId) (waiting : List SlotId) : Option SlotId :=
  match waiting.find? fun n => decide (last < n) with
  | some n => some n
  | none => waiting.head?

/-- The slots that hold a finished entry, in ascending order. -/
def State.waiting (s : State) : List SlotId := allSlots.filter fun n => (s.slot n).finished.isSome

/-- The grant: the unit takes the slot's finished entry and enters SERVING (R100). -/
def State.take (s : State) (n : SlotId) (o : Outcome) : State :=
  { s.setSlot n { s.slot n with finished := none } with
    unit := ⟨some ⟨n, o, s.rawTime, s.unit.lastGranted⟩, n⟩ }

/-- A grant while the unit is FREE and some slot waits (R99). -/
def State.arbitrate (s : State) : State :=
  match s.unit.service, nextGrant s.unit.lastGranted s.waiting with
  | none, some n =>
    match (s.slot n).finished with
    | some o => s.take n o
    | none => s
  | _, _ => s

/-- The slot that a grant made at this very instant falls to when every placement of the instant is seen: the entry in
service counts as waiting still (R99). -/
def State.grantOfInstant (s : State) (v : Service) : Option SlotId :=
  nextGrant v.grantedBefore (allSlots.filter fun n => decide (n = v.slot) || (s.slot n).finished.isSome)

/-- A slot whose entry was taken at this instant and is given back. An outcome placed since in the emptied entry then came
before the take: it is dropped, and its lost count rises by one (R76). -/
def Slot.giveBack (x : Slot) (o : Outcome) : Slot :=
  { x with
    finished := some o
    lost := match x.finished with
      | none => x.lost
      | some p => satAdd32 p.lost (1 + x.lost.toNat) }

/-- A grant made at this very instant is taken back when the placements seen since give it to another slot: outcomes
placed at one instant form one set, and the choice among them does not depend on the order in which the placements, or a
completion of the same instant, were taken (R99, R101). DEDUCED (log entry 18). -/
def State.withdrawGrant (s : State) : State :=
  match s.unit.service with
  | none => s
  | some v =>
    if v.takenAt = s.rawTime ∧ s.grantOfInstant v ≠ some v.slot then
      { s.setSlot v.slot ((s.slot v.slot).giveBack v.outcome) with unit := ⟨none, v.grantedBefore⟩ }
    else s

/-- The arbiter after an event that may have placed outcomes or freed the unit (R99). -/
def State.grant (s : State) : State := s.withdrawGrant.arbitrate

/-! ## Retirement (R120, R121) and wanting (R119) -/

/-- Whether a port wants a held record (R119). -/
def Port.wants (q : Port) (e : LogEntry) : Bool :=
  q.subscription.getLsbD e.record.slot && seqAtOrBefore q.cursor e.seq

/-- Whether some port wants a held record. -/
def State.wantedByAny (s : State) (e : LogEntry) : Bool := allPorts.any fun p => (s.port p).wants e

/-- The backlog of a port: how many held records it wants (R119). -/
def backlog (held : List LogEntry) (q : Port) : Nat := held.countP fun e => q.wants e

/-- The oldest sequence: that of the oldest held record, or the next sequence when the log is empty (R116). -/
def Log.oldestSeq (l : Log) : Seq :=
  match l.held with
  | [] => l.nextSeq
  | e :: _ => e.seq

/-- The occupancy: next sequence less oldest sequence, modulo 2^32 (R116). -/
def Log.occupancy (l : Log) : Seq := l.nextSeq - l.oldestSeq

/-- A cursor before the oldest sequence is moved forward to it (R121). -/
def dragCursor (oldest cursor : Seq) : Seq := if seqAtOrBefore oldest cursor then cursor else oldest

/-- The oldest records that no port wants leave the log (R120). -/
def State.retire (s : State) : State :=
  { s with log := { s.log with held := s.log.held.dropWhile fun e => !s.wantedByAny e } }

/-- Every cursor before the oldest sequence is dragged to it (R121). -/
def State.drag (s : State) : State :=
  s.mapPorts fun q => { q with cursor := dragCursor s.log.oldestSeq q.cursor }

/-- The retirement check with the cursor dragging that follows it (R120, R121). DEDUCED (log entry 12): the dragging is
made after every check, also one that retired nothing; by the law of R118 no cursor then lies before the oldest
sequence, but for those that R124 says are dragged after a forced retirement. -/
def State.retirementCheck (s : State) : State := s.retire.drag

end Sys2Proof.Machine
end

