-- ==== Sys2Proof/Machine/Layouts.lean ====
section
/-! DEFINITION. Byte layouts: numbers, the CRC, request and response frames and the bit streams that carry them, the
payload form of every request in both directions, the plan block and the record encoding (R144 to R148, R155, R157,
R177 to R187). -/

namespace Sys2Proof.Machine

/-! ## Numbers and bits -/

/-- The n low bytes of a number, most significant first. -/
def bytesBE : Nat → Nat → List Byte
  | 0, _ => []
  | n + 1, v => BitVec.ofNat 8 (v / 256 ^ n) :: bytesBE n v

/-- The number that bytes hold, most significant first. -/
def natOfBytes (bs : List Byte) : Nat := bs.foldl (fun v b => v * 256 + b.toNat) 0

/-- The bits of a byte, most significant first (R144). -/
def bitsOfByte (b : Byte) : List Bool :=
  [b.getLsbD 7, b.getLsbD 6, b.getLsbD 5, b.getLsbD 4, b.getLsbD 3, b.getLsbD 2, b.getLsbD 1, b.getLsbD 0]

/-- The byte of eight bits, most significant first. -/
def byteOfBits (b7 b6 b5 b4 b3 b2 b1 b0 : Bool) : Byte :=
  BitVec.ofNat 8 (128 * b7.toNat + 64 * b6.toNat + 32 * b5.toNat + 16 * b4.toNat
    + 8 * b3.toNat + 4 * b2.toNat + 2 * b1.toNat + b0.toNat)

/-- The complete bytes of a selection's bits; a partial byte at the end is discarded (R144). -/
def bytesOfBits : List Bool → List Byte
  | b7 :: b6 :: b5 :: b4 :: b3 :: b2 :: b1 :: b0 :: rest =>
    byteOfBits b7 b6 b5 b4 b3 b2 b1 b0 :: bytesOfBits rest
  | _ => []

/-! ## The CRC (R148) -/

/-- One bit into the CRC register. -/
def crcBit (r : BitVec 16) (b : Bool) : BitVec 16 := if r.msb ≠ b then (r <<< 1) ^^^ 0x1021 else r <<< 1

/-- The CRC of bytes: the register starts at all ones, and no final inversion is made. -/
def crc (bs : List Byte) : BitVec 16 := (bs.flatMap bitsOfByte).foldl crcBit 0xFFFF

/-- Bytes followed by their CRC, most significant byte first. -/
def withCrc (bs : List Byte) : List Byte := bs ++ bytesBE 2 (crc bs).toNat

/-! ## Response frames (R145, R157, R158, R177) -/

/-- A response frame. -/
def Response.frame (r : Response) : List Byte :=
  withCrc ([r.status.code, r.tag, r.command, BitVec.ofNat 8 r.payload.length] ++ r.payload)

/-- The NOT_READY response (R158). -/
def Response.notReady : Response := ⟨.notReady, 0, 0, []⟩

/-- The first k bits of the outgoing stream: the frame, zero bytes up to the 8th byte, then all-ones bytes (R145). -/
def Response.stream (r : Response) (k : Nat) : List Bool :=
  ((r.frame ++ List.replicate (8 - r.frame.length) 0 ++ List.replicate (k / 8 + 1) 0xFF).flatMap bitsOfByte).take k

/-! ## Plan items in a payload (R183, R184) -/

/-- The item of a one-byte field. -/
def byteItem (identifier v : Byte) : PlanItem :=
  match identifier.toNat with
  | 0x01 => .kind v
  | 0x02 => .inputA v
  | 0x03 => .senseA v
  | 0x04 => .inputB v
  | 0x05 => .senseB v
  | 0x0A => .reportAs v
  | 0x0B => .armSource v
  | 0x0D => .armInput v
  | 0x0E => .armSense v
  | 0x0F => .armSlot v
  | _ => .repeatMode v

/-- The item value size of a field identifier, or none where it names no field (R183). -/
def valueSize (identifier : Byte) : Option Nat :=
  match identifier.toNat with
  | 0x00 => none
  | 0x06 => some 8
  | 0x07 => some 8
  | 0x0C => some 8
  | 0x08 => some 4
  | 0x09 => some 4
  | n => if n ≤ 16 then some 1 else none

/-- The item of an identifier that names a field, and the bytes of its value. -/
def itemOf (identifier : Byte) (value : List Byte) : PlanItem :=
  match identifier.toNat with
  | 0x06 => .gate (BitVec.ofNat 64 (natOfBytes value))
  | 0x07 => .waitLimit (BitVec.ofNat 64 (natOfBytes value))
  | 0x0C => .armTime (BitVec.ofNat 64 (natOfBytes value))
  | 0x08 => .prescale (BitVec.ofNat 32 (natOfBytes value))
  | 0x09 => .quota (BitVec.ofNat 32 (natOfBytes value))
  | _ => byteItem identifier (BitVec.ofNat 8 (natOfBytes value))

/-- The port's division of an item list, one item a step (R184): none where the last item is cut short; at an unknown
identifier the division stops and the rest is passed on whole. The fuel is the list's length. -/
def divideItems : Nat → List Byte → Option (List PlanItem)
  | _, [] => some []
  | 0, _ :: _ => none
  | fuel + 1, identifier :: rest =>
    match valueSize identifier with
    | none => some [.unknown identifier rest]
    | some n =>
      if rest.length < n then none
      else (divideItems fuel (rest.drop n)).map (itemOf identifier (rest.take n) :: ·)

/-- The items of a list as a WRITE_PLAN payload carries it. -/
def parseItems (bs : List Byte) : Option (List PlanItem) := divideItems bs.length bs

/-- The bytes of one item (R183). -/
def itemBytes : PlanItem → List Byte
  | .kind c => [0x01, c]
  | .inputA n => [0x02, n]
  | .senseA c => [0x03, c]
  | .inputB n => [0x04, n]
  | .senseB c => [0x05, c]
  | .gate v => 0x06 :: bytesBE 8 v.toNat
  | .waitLimit v => 0x07 :: bytesBE 8 v.toNat
  | .prescale v => 0x08 :: bytesBE 4 v.toNat
  | .quota v => 0x09 :: bytesBE 4 v.toNat
  | .reportAs c => [0x0A, c]
  | .armSource c => [0x0B, c]
  | .armTime v => 0x0C :: bytesBE 8 v.toNat
  | .armInput n => [0x0D, n]
  | .armSense c => [0x0E, c]
  | .armSlot n => [0x0F, n]
  | .repeatMode c => [0x10, c]
  | .unknown b rest => b :: rest

/-! ## Request payloads (R155, R182) -/

/-- A condition byte and, when it is 01h, the 16-bit expected generation after it, with what follows; none where the
payload marks a generation and does not carry it, or holds another condition byte (R182). -/
def parseCondition : List Byte → Option (Option Gen × List Byte)
  | c :: rest =>
    if c = 0 then some (none, rest)
    else if c = 1 then
      match rest with
      | h :: l :: rest' => some (some (h ++ l), rest')
      | _ => none
    else none
  | [] => none

/-- The request of a payload, or none where the payload does not fit the command's form (R155, R182). -/
def parseRequest (p : PortId) (tag : Byte) (c : Command) (payload : List Byte) : Option Instr :=
  match c, payload with
  | .null, [] => some (.null p tag)
  | .portReset, [] => some (.portReset p tag)
  | .readAttention, [] => some (.readAttention p tag)
  | .setAttention, [op, flags] => some (.setAttention p tag op flags)
  | .readTime, [] => some (.readTime p tag)
  | .setTime, body =>
    match parseCondition body with
    | some (g, rest) => if rest.length = 8 then some (.setTime p tag g (BitVec.ofNat 64 (natOfBytes rest))) else none
    | none => none
  | .stepTime, body =>
    match parseCondition body with
    | some (g, rest) => if rest.length = 8 then some (.stepTime p tag g (BitVec.ofNat 64 (natOfBytes rest))) else none
    | none => none
  | .readInput, [i] => some (.readInput p tag i)
  | .setInput, i :: body =>
    match parseCondition body with
    | some (g, [src, w1, w0, k1, k0, mode]) => some (.setInput p tag i g src (w1 ++ w0) (k1 ++ k0) mode)
    | _ => none
  | .calibrate, [i] => some (.calibrate p tag i)
  | .readPlan, [n] => some (.readPlan p tag n)
  | .writePlan, n :: body =>
    match parseCondition body with
    | some (g, rest) => (parseItems rest).map (.writePlan p tag n g ·)
    | none => none
  | .arm, [n] => some (.arm p tag n)
  | .stop, [n] => some (.stop p tag n)
  | .subscribe, [m1, m0, op, start] => some (.subscribe p tag (m1 ++ m0) op start none)
  | .subscribe, [m1, m0, op, start, t1, t0] => some (.subscribe p tag (m1 ++ m0) op start (some (t1 ++ t0)))
  | .readResults, [k] => some (.readResults p tag k)
  | .latest, [n] => some (.latest p tag n)
  | .logStatus, [] => some (.logStatus p tag)
  | .setLog, body =>
    match parseCondition body with
    | some (g, [policy]) => some (.setLog p tag g policy)
    | _ => none
  | .resetMeasurement, [] => some (.resetMeasurement p tag)
  | _, _ => none

/-- The condition byte and the generation, as a request carries them (R182). -/
def conditionBytes : Option Gen → List Byte
  | none => [0]
  | some g => 1 :: bytesBE 2 g.toNat

/-- The port, tag, command and payload of a request as a controller sends it (R182); none for a row that is no request.
Software's side of the layouts: the ports never call it. -/
def requestParts : Instr → Option (PortId × Byte × Command × List Byte)
  | .null p tag => some (p, tag, .null, [])
  | .portReset p tag => some (p, tag, .portReset, [])
  | .readAttention p tag => some (p, tag, .readAttention, [])
  | .setAttention p tag op flags => some (p, tag, .setAttention, [op, flags])
  | .readTime p tag => some (p, tag, .readTime, [])
  | .setTime p tag g v => some (p, tag, .setTime, conditionBytes g ++ bytesBE 8 v.toNat)
  | .stepTime p tag g v => some (p, tag, .stepTime, conditionBytes g ++ bytesBE 8 v.toNat)
  | .readInput p tag i => some (p, tag, .readInput, [i])
  | .setInput p tag i g src w k mode =>
    some (p, tag, .setInput,
      i :: (conditionBytes g ++ (src :: (bytesBE 2 w.toNat ++ (bytesBE 2 k.toNat ++ [mode])))))
  | .calibrate p tag i => some (p, tag, .calibrate, [i])
  | .readPlan p tag n => some (p, tag, .readPlan, [n])
  | .writePlan p tag n g items => some (p, tag, .writePlan, n :: (conditionBytes g ++ items.flatMap itemBytes))
  | .arm p tag n => some (p, tag, .arm, [n])
  | .stop p tag n => some (p, tag, .stop, [n])
  | .subscribe p tag slots op start t =>
    some (p, tag, .subscribe, bytesBE 2 slots.toNat ++ (op :: start :: (t.elim [] fun v => bytesBE 2 v.toNat)))
  | .readResults p tag k => some (p, tag, .readResults, [k])
  | .latest p tag n => some (p, tag, .latest, [n])
  | .logStatus p tag => some (p, tag, .logStatus, [])
  | .setLog p tag g policy => some (p, tag, .setLog, conditionBytes g ++ [policy])
  | .resetMeasurement p tag => some (p, tag, .resetMeasurement, [])
  | _ => none

/-- The request frame that carries a request (R177). -/
def requestFrame (i : Instr) : Option (List Byte) :=
  (requestParts i).map fun (_, tag, c, payload) =>
    withCrc ([c.code, tag, BitVec.ofNat 8 payload.length] ++ payload)

/-! ## Judging a received frame (R147, R149) -/

/-- What a port makes of the complete bytes of a selection (R149). -/
inductive Verdict where
  | tooLong (tag command : Byte)
  | badFrame
  | unknownCommand (tag command : Byte)
  | notPermitted (tag : Byte) (c : Command)
  | badPayload (tag : Byte) (c : Command)
  | taken (request : Instr)
  deriving DecidableEq, Repr

/-- The first condition of R149 that holds decides. Bytes after the second CRC byte are ignored (R147). -/
def judgeFrame (p : PortId) (rights : BitVec 3) (bs : List Byte) : Verdict :=
  match bs with
  | command :: tag :: len :: rest =>
    if Config.payloadMax < len.toNat then .tooLong tag command
    else if rest.length < len.toNat + 2 then .badFrame
    else
      let payload := rest.take len.toNat
      if bytesBE 2 (crc (command :: tag :: len :: payload)).toNat ≠ (rest.drop len.toNat).take 2 then .badFrame
      else
        match Command.ofCode command with
        | none => .unknownCommand tag command
        | some c =>
          if c.permitted rights then
            match parseRequest p tag c payload with
            | none => .badPayload tag c
            | some request => .taken request
          else .notPermitted tag c
  | _ => .badFrame

/-! ## Response payloads (R183, R185 to R187) -/

/-- The plan block: all sixteen fields at fixed offsets (R183). -/
def planBlock (p : Plan) : List Byte :=
  [p.kind.code, BitVec.ofNat 8 p.inputA.val, p.senseA.code, BitVec.ofNat 8 p.inputB.val, p.senseB.code]
  ++ bytesBE 8 p.gate.toNat ++ bytesBE 8 p.waitLimit.toNat ++ bytesBE 4 p.prescale.toNat
  ++ bytesBE 4 (p.quota.elim 0 fun q => q.toNat)
  ++ [p.reportAs.code, p.armSource.code] ++ bytesBE 8 p.armTime.toNat
  ++ [BitVec.ofNat 8 p.armInput.val, p.armSense.code, BitVec.ofNat 8 p.armSlot.val, p.repeatMode.code]

/-- The record kind byte of a record head (R185). -/
def recordKind (r : Record) : Byte :=
  match r.kind, r.reportAs with
  | .reciprocal, .frequency => 0x01
  | .reciprocal, .period => 0x11
  | .interval, _ => 0x02
  | .totalize, _ => 0x03
  | .timetag, _ => 0x04

/-- A record item, when its field is present: its tag and its value in so many bytes (R185). -/
def recordItem {w : Nat} (tag : Byte) (size : Nat) (v : Option (BitVec w)) : List Byte :=
  match v with
  | none => []
  | some x => tag :: bytesBE size x.toNat

/-- A record as the part sends it: the head, the items present in ascending order of tag, and END (R185, R186). -/
def recordBytes (seq : Option Seq) (r : Record) : List Byte :=
  [BitVec.ofNat 8 r.slot.val, recordKind r] ++ bytesBE 2 r.planGen.toNat ++ [r.flags.byte]
  ++ recordItem 0x01 4 seq ++ recordItem 0x02 8 r.start ++ recordItem 0x03 8 r.stop
  ++ recordItem 0x04 6 r.edges ++ recordItem 0x05 8 r.duration ++ recordItem 0x06 8 r.value
  ++ recordItem 0x07 6 r.edgesSince ++ recordItem 0x08 4 r.lost ++ [0x00]

/-- A held record as READ_RESULTS sends it. -/
def LogEntry.bytes (e : LogEntry) : List Byte := recordBytes (some e.seq) e.record

end Sys2Proof.Machine
end

