-- ==== Sys2Proof/Machine/Inputs.lean ====
section
/-! DEFINITION. The input channels: histogram and table installation (R42 to R47, R51, R52), qualification and stamps
(R18, R21, R26 to R29), the width filter and capture (R17 to R20, R24, R25), boundary counts (R22), and the meanings of
INPUT_LEVEL_CHANGE, WINDOW_END_QUALIFICATION, DEAD_TIME_END, CALIBRATION_HIT, READ_INPUT, SET_INPUT and CALIBRATE. -/

namespace Sys2Proof.Machine

/-! ## Histogram and installation -/

/-- What a completion makes of an input: the built table is installed when it passes (R45) or discarded when it fails
(R46); either way the histogram is emptied and an input in CALIBRATING returns to READY. -/
def Input.complete (x : Input) (h : Vector Nat 160) : Input :=
  if candidatePasses h then
    { x with
      table := buildTable h, calGen := x.calGen + 1, lastOutcome := .passed, histogram := emptyHistogram, state := .ready }
  else { x with lastOutcome := .failed, histogram := emptyHistogram, state := .ready }

/-- A hit in an input's histogram (R42). The hit that brings the total to 65,536 completes it, and the completion sets
the CAL flag at every port (R45, R46). -/
def State.hit (s : State) (i : InputId) (c : Code) : State :=
  let h := addToHistogram (s.input i).histogram c
  if Config.histogramFull ≤ hitTotal h then (s.setInput i ((s.input i).complete h)).raiseAll .cal
  else s.setInput i { s.input i with histogram := h }

/-! ## Levels and edges -/

/-- The level a signal goes to at an edge of a sense. -/
def Sense.level : Sense → Level
  | .rising => .high
  | .falling => .low

/-- The sense of a change to a level. -/
def senseTo : Level → Sense
  | .high => .rising
  | .low => .falling

/-- The test signal: high while the coarse count, modulo 128, is 0 to 63 (R17). -/
def testLevel (c : Coarse) : Level := if c.getLsbD 6 then .low else .high

/-- The level the filter is watching: the candidate's new level while one is pending, else the qualified level (R18). -/
def Input.watched (x : Input) : Level :=
  match x.candidate with
  | some c => c.sense.level
  | none => x.qualified

/-- The level of the selected signal (R16, R17). -/
def State.selectedLevel (s : State) (src : Source) (i : InputId) : Level :=
  match src with
  | .pin => (s.input i).pinLevel
  | .test => testLevel s.coarse

/-- Whether a dead time is running: the coarse count has not reached its end (R25). -/
def State.inDeadTime (s : State) (i : InputId) : Bool :=
  match (s.input i).blockedUntil with
  | none => false
  | some c => !coarseAtOrBefore c s.coarse

/-- Whether the interpolator is free to capture: not within a dead time, and the input READY (R24). -/
def State.interpolatorFree (s : State) (i : InputId) : Bool :=
  !s.inDeadTime i && decide ((s.input i).state = .ready)

/-- The code the interpolator of an input reads for an edge that falls so many femtoseconds after the present tick:
the number of stages whose delay the edge's position after the start of its coarse period has reached. A later edge of one
coarse period reads no smaller code (R39). -/
def State.delayCode (s : State) (i : InputId) (within : WithinTick) : Code :=
  ⟨(List.finRange 159).countP fun k => decide (Config.stageDelay i s.coarse k ≤ s.tick.toNat * 15625 + within),
    Nat.lt_succ_of_le (le_trans List.countP_le_length (le_of_eq (List.length_finRange)))⟩

/-- The capture of a level change now (R24, R27, R28): raw time is the coarse count × 256 plus the active table's value
for the code, and corrected raw time is raw time less the skew. -/
def State.captureNow (s : State) (i : InputId) (c : Code) : Capture :=
  let raw : Tick := s.coarse ++ (s.input i).table[c]
  { code := c
    coarse := s.coarse
    rawTime := raw
    corrected := raw - (s.input i).settings.skew.signExtend 64
    calGen := (s.input i).calGen }

/-- A stamp enters the release horizon in its place by corrected raw time (R29). DESIGN CHOICE (log entry 36): behind those of
the same corrected raw time, so that of two stamps of one input that share one, captured under two skews, the one formed
first is offered first. -/
def insertStamp (st : Stamp) : List Stamp → List Stamp
  | [] => [st]
  | x :: rest => if before st.corrected x.corrected then st :: x :: rest else x :: insertStamp st rest

/-- The count of a sense. -/
def Input.count (x : Input) : Sense → EdgeCount
  | .rising => x.rising
  | .falling => x.falling

/-- An input whose count of a sense has risen by one, with the new edge kept for boundary counts until the horizon passes
it (R21, R22). -/
def Input.countEdge (x : Input) (sense : Sense) (period : Coarse) : Input :=
  let kept := ⟨sense, period⟩ :: x.recent
  match sense with
  | .rising => { x with rising := x.rising + 1, recent := kept }
  | .falling => { x with falling := x.falling + 1, recent := kept }

/-- The stamp of a captured, qualified edge (R27); the edge count is the one after the edge was counted. -/
def stampOf (i : InputId) (sense : Sense) (count : EdgeCount) (k : Capture) : Stamp :=
  ⟨i, sense, count, k.rawTime, k.corrected, k.calGen⟩

/-- The qualification of an edge (R18, R21): the qualified level becomes the new level, the candidate is gone and the
count of the sense rises. A capture becomes a stamp in the release horizon (R27, R29), and its code a hit when the input
is READY in mode TRACK (R51). -/
def State.qualify (s : State) (i : InputId) (c : Candidate) : State :=
  let x := { (s.input i).countEdge c.sense (coarseOf c.edgeTime) with
    qualified := c.sense.level, candidate := none }
  let s' := s.setInput i x
  match c.capture with
  | none => s'
  | some k =>
    let s'' := { s' with stamps := insertStamp (stampOf i c.sense (x.count c.sense) k) s'.stamps }
    if x.state = .ready ∧ x.settings.mode = .track then s''.hit i k.code else s''

/-- A pending candidate whose window end is reached is qualified (R18). -/
def State.settleWindow (s : State) (i : InputId) : State :=
  match (s.input i).candidate with
  | none => s
  | some c => if atOrBefore c.windowEnd s.rawTime then s.qualify i c else s

/-- A change of the selected signal, at a raw time, to another level than the one watched, judged by the filter (R18, R19).
The change may carry a capture (R26). -/
def State.judgeChange (s : State) (i : InputId) (level : Level) (t : Tick) (capture : Option Capture) : State :=
  let x := s.input i
  match x.candidate with
  | some _ => s.setInput i { x with candidate := none, rejects := x.rejects + 1 }
  | none =>
    let c : Candidate :=
      ⟨senseTo level, t, t + (x.settings.width.setWidth 64) * 256, capture⟩
    if x.settings.width = 0 then s.qualify i c else s.setInput i { x with candidate := some c }

/-- A captured level change blocks the interpolator until the coarse count reaches c + 3 (R25). -/
def State.block (s : State) (i : InputId) : State :=
  s.setInput i { s.input i with blockedUntil := some (s.coarse + Config.deadPeriods) }

/-- The selected signal goes to a level. A change that falls exactly at a window end comes after the qualification
(R18). The interpolator captures the change when its sense is demanded and it is free (R24). -/
def State.levelChange (s : State) (i : InputId) (level : Level) (c : Code) : State :=
  let s := s.settleWindow i
  if level = (s.input i).watched then s
  else if s.demanded i (senseTo level) && s.interpolatorFree i then
    (s.block i).judgeChange i level s.rawTime (some (s.captureNow i c))
  else s.judgeChange i level s.rawTime none

/-- The level change that a source switch presents to the filter: its edge time is the raw time of the arrival, with fine
part 0 (R2), and it is never captured (R20). -/
def State.switchLevel (s : State) (i : InputId) (level : Level) : State :=
  let s := s.settleWindow i
  if level = (s.input i).watched then s else s.judgeChange i level s.arrivalTime none

/-- The boundary count of a sense at coarse boundary k: the count, less the qualified edges in coarse period k or later
(R22). -/
def Input.boundaryCount (x : Input) (sense : Sense) (k : Coarse) : EdgeCount :=
  x.count sense - BitVec.ofNat 48
    (x.recent.countP fun e => decide (e.sense = sense) && coarseAtOrBefore k e.period)

/-! ## Events -/

/-- INPUT_LEVEL_CHANGE (R18): the pin of an input, or the test signal at it, goes to a level now. A pin keeps its level
whether or not it is selected; the filter judges the change of the selected signal only. The test signal goes where R17
says and nowhere else; a window end of this instant comes first, with the table it may install, and the code is the
input's test-edge code under the table then active (log entry 6), wherever within its tick the edge falls. -/
def execInputLevelChange (i : InputId) (src : Source) (level : Level) (within : WithinTick) (s : State) :
    Host.Outcome State Fault Refusal :=
  match src with
  | .pin =>
    let s' := s.setInput i { s.input i with pinLevel := level }
    if (s.input i).settings.source = .pin then .next (s'.levelChange i level (s.delayCode i within)) else .next s'
  | .test =>
    if (s.input i).settings.source = .test ∧ level = testLevel s.coarse then
      let s' := s.settleWindow i
      .next (s'.levelChange i level (Config.testEdgeCode i (s'.input i).calGen))
    else .next s

/-- WINDOW_END_QUALIFICATION (R18): the window end of the pending candidate is reached with the level held. -/
def execWindowEndQualification (i : InputId) (s : State) : Host.Outcome State Fault Refusal :=
  .next (s.settleWindow i)

/-- DEAD_TIME_END (R25): the coarse count has reached the end of the dead time, and the interpolator becomes free. -/
def execDeadTimeEnd (i : InputId) (s : State) : Host.Outcome State Fault Refusal :=
  if s.inDeadTime i then .next s else .next (s.setInput i { s.input i with blockedUntil := none })

/-- CALIBRATION_HIT (R49): an oscillator edge at an input in CALIBRATING that finds no dead time running is a hit, with
the code its position in the coarse period gives, and its dead time begins (R39). -/
def execCalibrationHit (i : InputId) (within : WithinTick) (s : State) : Host.Outcome State Fault Refusal :=
  if (s.input i).state = .calibrating ∧ s.inDeadTime i = false then
    .next ((s.block i).hit i (s.delayCode i within))
  else .next s

/-! ## Requests -/

/-- The payload of an OK READ_INPUT response (R34, R187). -/
def readInputPayload (x : Input) : List Byte :=
  [sourceCode x.settings.source, x.settings.width] ++ bytesBE 2 (x.settings.skew.signExtend 16).toNat
  ++ [x.settings.mode.code] ++ bytesBE 2 x.settingsGen.toNat ++ [x.state.code]
  ++ bytesBE 6 x.rising.toNat ++ bytesBE 6 x.falling.toNat ++ bytesBE 4 x.rejects.toNat
  ++ bytesBE 4 x.calGen.toNat ++ [x.lastOutcome.code] ++ bytesBE 4 (hitTotal x.histogram)

/-- READ_INPUT (R34): the state of one input at the arrival. -/
def execReadInput (p : PortId) (tag input : Byte) (s : State) : Host.Outcome State Fault Refusal :=
  match numberOf 8 input with
  | none => .next (s.respond p tag .readInput .badValue [])
  | some i => .next (s.respond p tag .readInput .ok (readInputPayload (s.input i)))

/-- Whether SET_INPUT must be refused BUSY: the usage is not empty, or the input is in CALIBRATING (R32). -/
def State.inputBusy (s : State) (i : InputId) : Bool :=
  !(s.usage i).isEmpty || decide ((s.input i).state = .calibrating)

/-- The effect of an applied SET_INPUT on its input and the notices (R20, R37, R53): the record is replaced, the
generation rises, a change from TRACK to FIXED empties the histogram, a source switch presents the new source's level to
the filter, and the CHANGE flag is set at every other port. -/
def State.applySettings (s : State) (p : PortId) (i : InputId) (new : Settings) : State :=
  let x := s.input i
  let x' := { x with
    settings := new
    settingsGen := x.settingsGen + 1
    histogram := if x.settings.mode = .track ∧ new.mode = .fixed then emptyHistogram else x.histogram }
  let s' := s.setInput i x'
  let s'' := if new.source = x.settings.source then s' else s'.switchLevel i (s'.selectedLevel new.source i)
  s''.raiseOthers .change p

/-- The payload of an applied SET_INPUT's response (R37, R187). -/
def setInputPayload (new : Settings) (gen : Gen) : List Byte :=
  [sourceCode new.source, new.width] ++ bytesBE 2 (new.skew.signExtend 16).toNat
  ++ [new.mode.code] ++ bytesBE 2 gen.toNat

/-- SET_INPUT (R35, R36, R37): the four checks in order, then the settings as clamped. -/
def execSetInput (p : PortId) (tag input : Byte) (expected : Option Gen) (source : Byte) (width skew : BitVec 16)
    (mode : Byte) (s : State) : Host.Outcome State Fault Refusal :=
  .next (s.withRight p tag .setInput fun s =>
    match numberOf 8 input with
    | none => s.respond p tag .setInput .badValue []
    | some i =>
      let x := s.input i
      if !generationMatches expected x.settingsGen then
        s.respond p tag .setInput .stale (bytesBE 2 x.settingsGen.toNat)
      else if s.inputBusy i then
        s.respond p tag .setInput .busy (bytesBE 2 x.settingsGen.toNat ++ [x.state.code])
      else
        match sourceOfCode source, CalMode.ofCode mode with
        | some src, some m =>
          let new : Settings := ⟨src, clampWidth width, clampSkew skew, m⟩
          let clamped := decide (255 < width.toNat ∨ skew.toInt < -1024 ∨ 1023 < skew.toInt)
          (s.applySettings p i new).respond p tag .setInput (clampStatus clamped)
            (setInputPayload new (x.settingsGen + 1))
        | _, _ => s.respond p tag .setInput .badValue [])

/-- CALIBRATE (R48): an idle input enters CALIBRATING with an empty histogram, and the CHANGE flag is set at every other
port. -/
def execCalibrate (p : PortId) (tag input : Byte) (s : State) : Host.Outcome State Fault Refusal :=
  .next (s.withRight p tag .calibrate fun s =>
    match numberOf 8 input with
    | none => s.respond p tag .calibrate .badValue []
    | some i =>
      let x := s.input i
      if s.inputBusy i then s.respond p tag .calibrate .busy [x.state.code]
      else
        ((s.setInput i { x with state := .calibrating, histogram := emptyHistogram }).raiseOthers .change p).respond
          p tag .calibrate .ok (InputState.calibrating.code :: bytesBE 4 x.calGen.toNat))

end Sys2Proof.Machine
end

