-- ==== Sys2Proof/Machine/Engine.lean ====
section
/-! DEFINITION. The measurement engine's shared operations: finished outcomes and their placement (R73 to R76), arming
(R82 to R86), the start, stop and tag of each kind of measurement (R87 to R95), what follows a finish (R77, R89, R90, R92,
R93), aborts (R75), step notices (R11, R84), and the judging of the stamps of one horizon instant (R71, R72). -/

namespace Sys2Proof.Machine

/-! ## Endpoints -/

/-- The time of an endpoint on the corrected raw scale: a stamp's corrected raw time, a boundary's raw time (R73). -/
def Endpoint.time : Endpoint → Tick
  | .stamp st _ => st.corrected
  | .boundary raw _ _ => raw

/-- The time-scale time of an endpoint (R8). -/
def Endpoint.scale : Endpoint → Tick
  | .stamp _ scale => scale
  | .boundary _ scale _ => scale

/-- The edge count a stamp carries, or the boundary count (R104). -/
def Endpoint.count : Endpoint → EdgeCount
  | .stamp st _ => st.edgeCount
  | .boundary _ _ count => count

/-- An offered stamp as an endpoint. -/
def Offered.endpoint (f : Offered) : Endpoint := .stamp f.st f.scale

/-- Whether a start and a stop stamp come from the same input and carry different calibration generations (R54). -/
def calibrationChanged (start : Option Endpoint) (stop : Stamp) : Bool :=
  match start with
  | some (.stamp st _) => decide (st.input = stop.input ∧ st.calGen ≠ stop.calGen)
  | _ => false

/-! ## Outcomes -/

/-- A finished outcome of a slot (R73): kind, report form and generation from the plan in force, the marks as flags, with
REF_FAULT also for the span's last instant, which is now (R7). -/
def Slot.outcome (x : Slot) (n : SlotId) (locked : Bool) (result : Result) (marks : Marks) (pushed : Bool)
    (start stop : Option Endpoint) (edgesSince : Option EdgeCount) : Outcome where
  slot := n
  kind := x.plan.kind
  reportAs := x.plan.reportAs
  planGen := x.planGen
  result := result
  flags := RecordFlags.ofMarks { marks with refFault := marks.refFault || !locked } result pushed
  start := start
  stop := stop
  edgesSince := edgesSince
  lost := 0

/-- The placement of an outcome (R76, R102): in an empty finished entry, where it takes the slot's lost count with it; a
held entry stays, the outcome is dropped and the lost count rises. -/
def Slot.place (x : Slot) (o : Outcome) : Slot :=
  match x.finished with
  | none => { x with finished := some { o with lost := x.lost }, lost := 0 }
  | some _ => { x with lost := satAdd32 x.lost 1 }

/-- What a finish tells the rest of the part: the stop time when it is valued, for SLOT_DONE dependents (R86), whether it is
a SINGLE plan's finish, for the DONE flag (R77), and the stamp that caused it, if one did (R71). -/
structure Finish where
  stopTime : Option Tick
  single : Bool
  cause : Option Stamp
  deriving DecidableEq, Repr

/-- The marks of a measurement that ends, with TIME_STEPPED also for step notices of the very instant at which its start, or
its previous tag, was offered (R8, R11): they lie in the span when another number of them came after that offer than after
the offer of the stamp that ends the span. DEDUCED (log entry 30). -/
def Slot.crossedMarks (x : Slot) (steps : Nat) : Marks :=
  { x.data.marks with timeStepped := x.data.marks.timeStepped || decide (x.data.startSteps ≠ steps) }

/-! ## Arming -/

/-- A slot in IDLE with the data of its measurement discarded (R70). -/
def Slot.toIdle (x : Slot) : Slot := { x with state := .idle, data := MeasData.empty, fresh := [], finishes := [] }

/-- The marks of a measurement that begins now: REF_FAULT when the horizon reference state is not LOCKED (R7, R74). -/
def Marks.begin (stepped locked : Bool) : Marks := ⟨stepped, !locked, false⟩

/-- The arm instant a (R69, R87, R91, R93, R94): RECIPROCAL and INTERVAL enter STARTING, TIMETAG enters TAGGING, and
TOTALIZE fixes its gate and stays in ARMING until gate open. -/
def Slot.begin (x : Slot) (a : Tick) (stepped locked : Bool) : Slot :=
  let d := { MeasData.empty with armingSince := x.data.armingSince, armInstant := some a }
  match x.plan.kind with
  | .reciprocal =>
    { x with
      state := .starting
      data := { d with
        gateOpen := some a, gateClose := a + ticksOf x.plan.gate, runOrigin := a, gateIndex := 1, startFrom := a
        deadline := a + ticksOf x.plan.waitLimit, marks := Marks.begin stepped locked } }
  | .interval =>
    { x with
      state := .starting
      data := { d with
        startFrom := a, deadline := a + ticksOf x.plan.waitLimit, marks := Marks.begin stepped locked } }
  | .totalize =>
    { x with
      state := .arming
      data := { d with
        gateOpen := some (boundaryAtOrAfter a), gateClose := boundaryAtOrAfter a + ticksOf x.plan.gate
        marks := ⟨stepped, false, false⟩ } }
  | .timetag => { x with state := .tagging, data := { d with marks := Marks.begin stepped locked } }

/-- A fresh arming entered by a request at horizon time h (R79, R82): every count, wait and position is discarded, and
under IMMEDIATE the arm instant is the raw time of the arrival. Stamps already offered are not judged again (R81). -/
def Slot.armByRequest (x : Slot) (h raw : Tick) : Slot :=
  { x with
    state := .arming
    data := { MeasData.empty with
      armingSince := h
      armInstant := if x.plan.armSource = .immediate then some raw else none }
    fresh := []
    finishes := [] }

/-- The re-arming of a TRIGGERED plan at a finish at horizon time h (R77): under IMMEDIATE the arm instant is the finish
instant itself (R82). -/
def Slot.rearm (x : Slot) (h : Tick) (locked : Bool) : Slot :=
  let y := { x with state := .arming, data := { MeasData.empty with armingSince := h } }
  if x.plan.armSource = .immediate then y.begin h false locked else y

/-- Whether a slot waits in ARMING for its arm instant; a TOTALIZE slot that holds its gate has armed (R93). -/
def Slot.awaitsArming (x : Slot) (src : ArmSource) : Bool :=
  decide (x.state = .arming ∧ x.plan.armSource = src) && x.data.gateOpen.isNone

/-! ## After a finish -/

/-- The next measurement of a CONTINUOUS RECIPROCAL run after a valued finish (R89): its start is the stop stamp. When
that start lies 2^62 ticks or more after the next close of the grid, a new run begins with it. DEDUCED (log entry 10): the
difference counts as a lag only when the start is not before that close. -/
def Slot.nextReciprocal (x : Slot) (f : Offered) (locked : Bool) : Slot :=
  let t := f.st.corrected
  let j := x.data.gateIndex + 1
  let close := x.data.runOrigin + ticksOf (j.setWidth 64 * x.plan.gate)
  let newRun := atOrBefore close t && decide (Config.runLag ≤ (t - close).toNat)
  let origin := if newRun then t else x.data.runOrigin
  let close' := if newRun then t + ticksOf x.plan.gate else close
  { x with
    state := if before t close' then .gating else .stopping
    data := { MeasData.empty with
      gateOpen := some t, gateClose := close', runOrigin := origin, gateIndex := if newRun then 1 else j
      startFrom := t, start := some f.endpoint, startSteps := f.steps
      deadline := laterOf close' t + ticksOf x.plan.waitLimit
      marks := Marks.begin false locked } }

/-- The next measurement of a CONTINUOUS INTERVAL plan, in STARTING from a time: strictly after a stop (R92), at or after
a deadline. -/
def Slot.nextInterval (x : Slot) (t : Tick) (strict locked : Bool) : Slot :=
  { x with
    state := .starting
    data := { MeasData.empty with
      startFrom := t, startStrict := strict, deadline := t + ticksOf x.plan.waitLimit
      marks := Marks.begin false locked } }

/-- The new run of a CONTINUOUS RECIPROCAL plan after a timeout at horizon time d (R90). -/
def Slot.newRun (x : Slot) (d : Tick) (locked : Bool) : Slot :=
  { x with
    state := .starting
    data := { MeasData.empty with
      gateOpen := some d, gateClose := d + ticksOf x.plan.gate, runOrigin := d, gateIndex := 1, startFrom := d
      deadline := d + ticksOf x.plan.waitLimit, marks := Marks.begin false locked } }

/-- The next gate of a CONTINUOUS TOTALIZE plan: it opens at the close of the one before, reusing that boundary (R93). -/
def Slot.nextGate (x : Slot) (stop : Endpoint) (locked : Bool) : Slot :=
  { x with
    state := .gating
    data := { MeasData.empty with
      gateOpen := some stop.time, gateClose := stop.time + ticksOf x.plan.gate, start := some stop
      marks := Marks.begin false locked } }

/-- The move after a finish by repeat mode (R77), with what CONTINUOUS goes on with. -/
def Slot.afterFinish (x : Slot) (h : Tick) (locked : Bool) (continuous : Slot) : Slot :=
  match x.plan.repeatMode with
  | .single => x.toIdle
  | .triggered => x.rearm h locked
  | .continuous => continuous

/-- Whether a finish is a SINGLE plan's. -/
def Slot.isSingle (x : Slot) : Bool := decide (x.plan.repeatMode = .single)

/-! ## Judging one stamp -/

/-- The start of a RECIPROCAL or INTERVAL measurement (R87, R91): GATING while the gate is open, else STOPPING with its
deadline (R88, R91). -/
def Slot.takeStart (x : Slot) (f : Offered) : Slot :=
  let t := f.st.corrected
  if x.plan.kind = .reciprocal then
    if before t x.data.gateClose then
      { x with state := .gating, data := { x.data with start := some f.endpoint, startSteps := f.steps } }
    else
      { x with
        state := .stopping
        data := { x.data with
          start := some f.endpoint, startSteps := f.steps
          deadline := laterOf x.data.gateClose t + ticksOf x.plan.waitLimit } }
  else
    { x with
      state := .stopping
      data := { x.data with
        start := some f.endpoint, startSteps := f.steps, deadline := t + ticksOf x.plan.waitLimit } }

/-- Whether a stamp has been used up as the start of the measurement that finishes: under IMMEDIATE the next measurement
waits for new edges (R77, log entry 17). -/
def Slot.spent (x : Slot) (f : Offered) : Bool :=
  decide (x.plan.armSource = .immediate) && decide (x.data.start = some f.endpoint)

/-- A slot that a stamp has finished: the stamp is not judged again, and neither is a finish of the arm slot that the same
stamp causes, whether it has come already or comes later at this instant (R71, R72, R77). -/
def Slot.finishedBy (x : Slot) (f : Offered) : Slot :=
  { x with
    fresh := x.fresh.filter fun g => !(decide (g = f) || x.spent g)
    finishes := x.finishes.filter fun e => decide (e.cause ≠ some f.st)
    usedUp := (x.usedUp.filter fun g => decide (g.offeredAt = f.offeredAt)) ++ [f] }

/-- The stop of a RECIPROCAL or INTERVAL measurement: a valued finish (R87, R91). -/
def Slot.takeStop (x : Slot) (n : SlotId) (h : Tick) (locked : Bool) (f : Offered) : Slot × Finish :=
  let marks := { x.crossedMarks f.steps with
    calChanged := x.data.marks.calChanged || calibrationChanged x.data.start f.st }
  let o := x.outcome n locked .valued marks false x.data.start (some f.endpoint) none
  let y := (x.finishedBy f).place o
  let next := if x.plan.kind = .reciprocal then y.nextReciprocal f locked else y.nextInterval f.st.corrected true locked
  (y.afterFinish h locked next, ⟨some f.st.corrected, x.isSingle, some f.st⟩)

/-- Whether the quota applies and the tags of this arming have reached it (R95, R56). -/
def quotaReached (p : Plan) (tags : Nat) : Bool :=
  match p.quota with
  | none => false
  | some q => decide (p.repeatMode ≠ .continuous ∧ q.toNat ≤ tags)

/-- The edges since the previous tag: 0 at the first tag of a run (R94). -/
def edgesSincePrevious (prev : Option PreviousTag) (st : Stamp) : EdgeCount :=
  match prev with
  | none => 0
  | some t => st.edgeCount - t.edgeCount

/-- A tag of a TIMETAG run: a valued finish (R94). Below the quota the slot stays in TAGGING and a new measurement
begins; at the quota it moves as R77 gives (R95). -/
def Slot.takeTag (x : Slot) (n : SlotId) (h : Tick) (locked : Bool) (f : Offered) : Slot × Finish :=
  let edges := edgesSincePrevious x.data.previousTag f.st
  let changed := match x.data.previousTag with
    | none => false
    | some t => decide (t.calGen ≠ f.st.calGen)
  let spanned := if x.data.previousTag.isSome then x.crossedMarks f.steps else x.data.marks
  let marks := { spanned with calChanged := x.data.marks.calChanged || changed }
  let o := x.outcome n locked .valued marks (decide (x.plan.prescale.toNat < edges.toNat)) (some f.endpoint) none
    (some edges)
  let y := (x.finishedBy f).place o
  let tags := x.data.tags + 1
  if quotaReached x.plan tags then (y.afterFinish h locked y, ⟨some f.st.corrected, x.isSingle, some f.st⟩)
  else
    ({ y with
        data := { MeasData.empty with
          previousTag := some ⟨f.st.edgeCount, f.st.calGen⟩, startSteps := f.steps, tags := tags
          marks := Marks.begin false locked } },
      ⟨some f.st.corrected, false, some f.st⟩)

/-- Whether a stamp is of an input and a sense. -/
def Offered.isOf (f : Offered) (i : InputId) (sense : Sense) : Bool := decide (f.st.input = i ∧ f.st.sense = sense)

/-- Whether a stamp meets the start condition (R87, R91, R92). -/
def Slot.meetsStart (x : Slot) (f : Offered) : Bool :=
  f.isOf x.plan.inputA x.plan.senseA
    && (if x.data.startStrict then before x.data.startFrom f.st.corrected else atOrBefore x.data.startFrom f.st.corrected)

/-- Whether a stamp meets the stop condition. RECIPROCAL (R87): input A and sense A, at or after gate close, later than
the start. INTERVAL (R91): input B and sense B, at or after the start, and not the start stamp itself. -/
def Slot.meetsStop (x : Slot) (f : Offered) : Bool :=
  match x.data.start with
  | none => false
  | some start =>
    match x.plan.kind with
    | .reciprocal =>
      f.isOf x.plan.inputA x.plan.senseA && atOrBefore x.data.gateClose f.st.corrected
        && before start.time f.st.corrected
    | .interval =>
      f.isOf x.plan.inputB x.plan.senseB && atOrBefore start.time f.st.corrected && decide (start ≠ f.endpoint)
    | _ => false

/-- Whether a stamp is the next target of a TIMETAG run (R94). -/
def Slot.meetsTag (x : Slot) (f : Offered) : Bool :=
  f.isOf x.plan.inputA x.plan.senseA &&
    match x.data.previousTag with
    | some t => decide (x.plan.prescale.toNat ≤ (f.st.edgeCount - t.edgeCount).toNat)
    | none =>
      match x.data.armInstant with
      | some a => atOrBefore a f.st.corrected
      | none => false

/-- Whether a stamp arms a slot waiting under INPUT_EDGE (R85). -/
def Slot.meetsArm (x : Slot) (f : Offered) : Bool :=
  x.awaitsArming .inputEdge && f.isOf x.plan.armInput x.plan.armSense && atOrBefore x.data.armingSince f.st.corrected

/-- What a slot makes of one stamp of the present instant, by the conditions of its state (R71): none when the stamp meets
none of them. -/
def Slot.judgeStamp (x : Slot) (n : SlotId) (h : Tick) (locked : Bool) (f : Offered) : Option (Slot × Option Finish) :=
  match x.state with
  | .idle => none
  | .arming => if x.meetsArm f then some (x.begin f.st.corrected false locked, none) else none
  | .starting => if x.meetsStart f then some (x.takeStart f, none) else none
  | .gating =>
    if x.meetsStop f then (let r := x.takeStop n h locked f; some (r.1, some r.2)) else none
  | .stopping =>
    if x.meetsStop f then (let r := x.takeStop n h locked f; some (r.1, some r.2)) else none
  | .tagging =>
    if decide (x.plan.kind = .timetag) && x.meetsTag f then (let r := x.takeTag n h locked f; some (r.1, some r.2)) else none

/-- The finish of its arm slot, come at the present instant while the slot was outside ARMING, at which a slot that now
waits under SLOT_DONE arms: what a finish sets is judged by its time, not by its order among the events of the instant
(R72, R86). -/
def Slot.seenFinish (x : Slot) (h : Tick) : Option SeenFinish :=
  if x.awaitsArming .slotDone then x.finishes.find? fun e => decide (e.at' = h) else none

/-- What a slot makes of the present instant (R72): it arms at a finish of its arm slot, or else takes the first of the
stamps of the instant that it makes something of. -/
def Slot.judgeInstant (x : Slot) (n : SlotId) (h : Tick) (locked : Bool) : Option (Slot × Option Finish) :=
  match x.seenFinish h with
  | some e => some ({ x.begin e.stopTime false locked with finishes := x.finishes.erase e }, none)
  | none => (x.fresh.filter fun f => decide (f.offeredAt = h)).findSome? fun f => x.judgeStamp n h locked f

/-! ## The engine as a whole -/

/-- Whether a finish of the arm slot was caused by a stamp that has itself finished a measurement of the slot at the same
instant (R71): under TRIGGERED it cannot arm the next one (R77). -/
def Slot.hasUsedUp (x : Slot) (e : SeenFinish) : Bool :=
  x.usedUp.any fun g => decide (g.offeredAt = e.at' ∧ e.cause = some g.st)

/-- A valued finish of a slot's arm slot (R86). One whose stamp has finished a measurement of the slot is not judged (R71).
Of any other: waiting in ARMING under SLOT_DONE, the slot arms; in IDLE it ignores the finish; in any other state it keeps it
for the rest of the instant, in which it may yet come back to ARMING (R72). -/
def Slot.seeFinish (x : Slot) (e : SeenFinish) (locked : Bool) : Slot :=
  if x.hasUsedUp e then x
  else if x.awaitsArming .slotDone then x.begin e.stopTime false locked
  else if x.state = .idle then x
  else { x with finishes := (x.finishes.filter fun g => decide (g.at' = e.at')) ++ [e] }

/-- A valued finish as the SLOT_DONE dependents of the slot see it (R86). -/
def State.armDependents (s : State) (n : SlotId) (t : Tick) (cause : Option Stamp) : State :=
  s.mapSlots fun _ x =>
    if x.plan.armSource = .slotDone ∧ x.plan.armSlot = n then x.seeFinish ⟨t, cause, s.horizonTime⟩ s.horizonLocked
    else x

/-- A finish of a slot as the rest of the part takes it: DONE at the subscribed ports (R77), and the dependents arm. -/
def State.announce (s : State) (n : SlotId) (e : Finish) : State :=
  let s' := if e.single then s.raiseSubscribed .done n else s
  match e.stopTime with
  | none => s'
  | some t => s'.armDependents n t e.cause

/-- One slot judges the stamps of the present instant until none meets a condition of its state. -/
def State.judgeSlot : Nat → SlotId → State → State
  | 0, _, s => s
  | fuel + 1, n, s =>
    match (s.slot n).judgeInstant n s.horizonTime s.horizonLocked with
    | none => s
    | some (x, none) => State.judgeSlot fuel n (s.setSlot n x)
    | some (x, some e) => State.judgeSlot fuel n ((s.setSlot n x).announce n e)

/-- How often a slot can make something of one instant: each stamp arms, starts and finishes at most once, and each
remembered finish arms at most once. -/
def Slot.judgeFuel (x : Slot) : Nat := 3 * x.fresh.length + x.finishes.length + 3

/-- Every slot judges the stamps of the present instant, in ascending order, so that chains run upward in slot number
(R72, R86). -/
def State.settle (s : State) : State :=
  allSlots.foldl (fun s n => State.judgeSlot (s.slot n).judgeFuel n s) s

/-- The end of every event of the engine: the stamps of the instant are judged under what the event left (R72), and the
arbiter grants (R99). -/
def State.conclude (s : State) : State := s.settle.grant

/-- An offer: the stamp leaves the horizon, and every slot outside IDLE has it, with its time-scale time, among the stamps
of this instant (R8, R30). -/
def State.offer (s : State) (st : Stamp) : State :=
  let f : Offered := ⟨st, st.corrected + s.offset, s.horizonTime, 0⟩
  let s' : State := { s with stamps := s.stamps.erase st }
  s'.mapSlots fun _ x =>
    if x.state = .idle then x
    else { x with fresh := (x.fresh.filter fun g => decide (g.offeredAt = s.horizonTime)) ++ [f] }

/-! ## Aborts (R75) -/

/-- Whether a measurement is in flight (R69). -/
def SlotState.inFlight : SlotState → Bool
  | .starting => true
  | .gating => true
  | .stopping => true
  | .tagging => true
  | _ => false

/-- Whether a slot passes through ARMING at horizon time h (R82): a finish of this instant has re-armed it, TRIGGERED under
IMMEDIATE, and no stamp has filled a role since. A request of the instant that is taken after the finish finds it in ARMING
(R66, R81). -/
def Slot.passesArming (x : Slot) (h : Tick) : Bool :=
  decide (x.plan.repeatMode = .triggered ∧ x.plan.armSource = .immediate ∧ x.data.armingSince = h
    ∧ x.data.armInstant = some h)
  && match x.state with
    | .starting => true
    | .gating => decide (x.plan.kind = .totalize)
    | .tagging => x.data.previousTag.isNone
    | _ => false

/-- The end of the measurement in flight by a request: an ABORTED outcome that carries the start in GATING and STOPPING
and nothing else (R75); none is formed in IDLE and ARMING, nor where the slot passes through ARMING at this instant. -/
def Slot.abort (x : Slot) (n : SlotId) (h : Tick) (locked : Bool) : Slot :=
  if x.state.inFlight && !x.passesArming h then
    let start := if x.state = .gating ∨ x.state = .stopping then x.data.start else none
    x.place (x.outcome n locked .aborted (x.crossedMarks 0) false start none none)
  else x

/-! ## Step notices (R11, R84) -/

/-- Whether a slot's TIME_STEPPED span is open (R11): from the start's offer, a TOTALIZE gate open, or the previous tag. -/
def Slot.inStepSpan (x : Slot) : Bool :=
  match x.state with
  | .gating => true
  | .stopping => true
  | .tagging => x.data.previousTag.isSome
  | _ => false

/-- A step notice at one slot, at horizon time h with the new offset: a measurement in its span is marked (R11), and a
slot waiting under AT_TIME arms at once when a forward step has reached its arm time (R84); stamps already offered are not
judged again. -/
def Slot.stepNotice (x : Slot) (forward started locked : Bool) (h offset : Tick) : Slot :=
  if x.inStepSpan then { x with data := { x.data with marks := { x.data.marks with timeStepped := true } } }
  else if x.awaitsArming .atTime && forward && started && atOrBefore x.plan.armTime (h + offset) then
    { x.begin h true locked with fresh := [] }
  else x

/-- A slot whose stamps of horizon time h, offered before a step notice of that instant, have the notice after them (R8). -/
def Slot.passNotice (x : Slot) (h : Tick) : Slot :=
  { x with fresh := x.fresh.map fun f => if f.offeredAt = h then { f with steps := f.steps + 1 } else f }

/-- The step notice of an applied SET_TIME or STEP_TIME at every slot, sent only when the offset has changed (R11). -/
def State.notifyStep (s : State) (oldOffset : Tick) (forward : Bool) : State :=
  if s.offset = oldOffset then s
  else s.mapSlots fun _ x =>
    (x.stepNotice forward s.horizonStarted s.horizonLocked s.arrivalHorizon s.offset).passNotice s.horizonTime

end Sys2Proof.Machine
end

