-- ==== Sys2Proof/Machine/Results.lean ====
section
/-! DEFINITION. Result arithmetic (R103 to R108), record assembly (R110 to R112), the writing of records into the log
(R117, R122 to R125), and the meaning of SERVICE_COMPLETION (R113). -/

namespace Sys2Proof.Machine

/-! ## Arithmetic -/

/-- a / b rounded half up: floor((2 × a + b) / (2 × b)) (R105). -/
def roundHalfUp (a b : Nat) : Nat := (2 * a + b) / (2 * b)

/-- The duration T of a valued RECIPROCAL, INTERVAL or TOTALIZE outcome: stop less start, modulo 2^64 (R103). -/
def Outcome.duration (o : Outcome) : Option Tick :=
  match o.result, o.kind, o.start, o.stop with
  | .valued, .timetag, _, _ => none
  | .valued, _, some a, some b => some (b.time - a.time)
  | _, _, _, _ => none

/-- The count N of a valued RECIPROCAL or TOTALIZE outcome: stop less start, modulo 2^48 (R104). -/
def Outcome.edges (o : Outcome) : Option EdgeCount :=
  match o.result, o.kind, o.start, o.stop with
  | .valued, .reciprocal, some a, some b => some (b.count - a.count)
  | .valued, .totalize, some a, some b => some (b.count - a.count)
  | _, _, _, _ => none

/-- The frequency in micro-hertz of N edges over T ticks (R106). -/
def frequencyValue (n t : Nat) : Nat := roundHalfUp (n * 64000000000000000) t

/-- The mean period in femtoseconds of N edges over T ticks (R107). -/
def periodValue (n t : Nat) : Nat := roundHalfUp (t * 15625) n

/-- The value of a valued outcome (R106 to R108). -/
def Outcome.value (o : Outcome) : Option (BitVec 64) :=
  match o.kind, o.duration, o.edges with
  | .reciprocal, some t, some n =>
    match o.reportAs with
    | .frequency => some (BitVec.ofNat 64 (frequencyValue n.toNat t.toNat))
    | .period => some (BitVec.ofNat 64 (periodValue n.toNat t.toNat))
  | .interval, some t, _ => some t
  | .totalize, _, some n => some (n.setWidth 64)
  | _, _, _ => none

/-- The record of a finished outcome (R110 to R112): the lost-count field is present when the outcome carried a count above
0. -/
def Outcome.record (o : Outcome) : Record where
  slot := o.slot
  kind := o.kind
  reportAs := o.reportAs
  planGen := o.planGen
  flags := o.flags
  start := o.start.map Endpoint.scale
  stop := o.stop.map Endpoint.scale
  edges := o.edges
  duration := o.duration
  value := o.value
  edgesSince := o.edgesSince
  lost := if o.lost = 0 then none else some o.lost

/-! ## Writing to the log -/

/-- The RESULTS flag is judged at every port that wants the new record (R123). -/
def State.judgeResults (s : State) (e : LogEntry) : State :=
  s.raise .results fun p => (s.port p).wants e && decide ((s.port p).threshold.toNat ≤ backlog s.log.held (s.port p))

/-- The write of a record (R117, R122): it takes the next sequence and stands at the newest end, the retirement check is
made, and the RESULTS flags are judged. -/
def State.writeRecord (s : State) (r : Record) : State :=
  let e : LogEntry := ⟨s.log.nextSeq, r⟩
  let s' := { s with log := { s.log with held := s.log.held ++ [e], nextSeq := s.log.nextSeq + 1 } }
  s'.retirementCheck.judgeResults e

/-- The charge of a forced retirement at a port (R124): a port that wanted the removed record has its skipped count
raised, its LOSS flag set and its cursor moved past the record. -/
def Port.charge (q : Port) (e : LogEntry) : Port :=
  if q.wants e then { q with skipped := satAdd32 q.skipped 1, cursor := e.seq + 1, flags := q.flags ||| Flag.loss.bit }
  else q

/-- The forced retirement of the oldest record under OVERWRITE (R124). -/
def State.forceRetire (s : State) : State :=
  match s.log.held with
  | [] => s
  | e :: rest =>
    let s' := { s with log := { s.log with held := rest } }
    s'.mapPorts fun q => q.charge e

/-- The record discarded under HOLD (R125): only the lost count of its slot rises, by one and by the count it carried. -/
def State.discardRecord (s : State) (r : Record) : State :=
  s.setSlot r.slot { s.slot r.slot with
    lost := satAdd32 (s.slot r.slot).lost (1 + (r.lost.elim 0 fun c => c.toNat)) }

/-- A record offered to the log (R122, R124, R125), with the sequence number the log gave it, if it wrote it. -/
def State.offerRecord (s : State) (r : Record) : State × Option Seq :=
  if s.log.held.length < Config.logCapacity then (s.writeRecord r, some s.log.nextSeq)
  else
    match s.log.policy with
    | .overwrite => (s.forceRetire.writeRecord r, some s.log.nextSeq)
    | .hold => (s.discardRecord r, none)

/-- SERVICE_COMPLETION (R113): the record is offered to the log and stands in its slot's latest-table entry, with the
sequence number the log assigned or with none; the unit returns to FREE, and the arbiter grants the next waiting slot.
The entry is written once, with its sequence number: nothing the log does looks at the latest table. -/
def execServiceCompletion (s : State) : Host.Outcome State Fault Refusal :=
  match s.unit.service with
  | none => .next s
  | some v =>
    let r := v.outcome.record
    let q := s.offerRecord r
    .next (State.grant { q.1 with
      latest := q.1.latest.set r.slot (some ⟨q.2, r⟩)
      unit := ⟨none, q.1.unit.lastGranted⟩ })

end Sys2Proof.Machine
end

