-- ==== Sys2Proof/Machine/LogRequests.lean ====
section
/-! DEFINITION. The meanings of the result log's requests: SUBSCRIBE, READ_RESULTS, LATEST, LOG_STATUS, SET_LOG and
RESET_MEASUREMENT (chapter Result Log, Cursors and Latest Table). -/

namespace Sys2Proof.Machine

/-- The start of a SUBSCRIBE (R129). -/
inductive SubscribeStart where
  | absent
  | fromOldest
  | fromNext
  deriving DecidableEq, Repr

/-- The start a code names (R180). -/
def SubscribeStart.ofCode (b : Byte) : Option SubscribeStart :=
  if b = 0 then some .absent else if b = 1 then some .fromOldest else if b = 2 then some .fromNext else none

/-- The cursor a start gives (R130). -/
def startCursor (l : Log) (cursor : Seq) : SubscribeStart → Seq
  | .absent => cursor
  | .fromOldest => l.oldestSeq
  | .fromNext => l.nextSeq

/-- The port's part of an applied SUBSCRIBE (R130, steps 1 to 3). -/
def Port.subscribe (q : Port) (l : Log) (subscription : BitVec 16) (start : SubscribeStart)
    (threshold : Option (BitVec 16)) : Port :=
  { q with
    subscription := subscription
    cursor := startCursor l q.cursor start
    threshold := threshold.elim q.threshold clampThreshold }

/-- A backlog in the two bytes of a response. -/
def backlogBytes (l : Log) (q : Port) : List Byte := bytesBE 2 (backlog l.held q)

/-- The payload of an applied SUBSCRIBE's response, taken after the retirement check (R130, R187). -/
def subscribePayload (l : Log) (q : Port) : List Byte :=
  bytesBE 2 q.subscription.toNat ++ bytesBE 4 q.cursor.toNat ++ bytesBE 2 q.threshold.toNat ++ backlogBytes l q

/-- SUBSCRIBE (R129, R130). -/
def execSubscribe (p : PortId) (tag : Byte) (slots : BitVec 16) (operation start : Byte)
    (threshold : Option (BitVec 16)) (s : State) : Host.Outcome State Fault Refusal :=
  match setOperation operation (s.port p).subscription slots, SubscribeStart.ofCode start with
  | some sub, some st =>
    let s' := (s.setPort p ((s.port p).subscribe s.log sub st threshold)).retirementCheck
    let clamped := threshold.elim false fun t => decide (clampThreshold t ≠ t)
    .next (s'.respond p tag .subscribe (clampStatus clamped) (subscribePayload s'.log (s'.port p)))
  | _, _ => .next (s.respond p tag .subscribe .badValue [])

/-- The walk of READ_RESULTS (R133) over the held records from the cursor on, with room left for so many bytes and so many
records: the records delivered, and the sequence number the cursor stops at, or none when the walk reached the end. -/
def walkLog (sub : BitVec 16) : Nat → Nat → List LogEntry → List LogEntry × Option Seq
  | _, _, [] => ([], none)
  | k, room, e :: rest =>
    if sub.getLsbD e.record.slot then
      if room < e.bytes.length then ([], some e.seq)
      else if k ≤ 1 then ([e], some (e.seq + 1))
      else
        let r := walkLog sub (k - 1) (room - e.bytes.length) rest
        (e :: r.1, r.2)
    else walkLog sub k room rest

/-- The walk of a port over the log: it starts at the record whose sequence number equals the cursor (R133). -/
def Port.walk (q : Port) (l : Log) (k : Nat) : List LogEntry × Option Seq :=
  walkLog q.subscription k (Config.payloadMax - 7) (l.held.dropWhile fun e => decide (e.seq ≠ q.cursor))

/-- The payload of a READ_RESULTS response (R187): skipped count at the arrival, backlog remaining, and the records. -/
def readResultsPayload (skipped : BitVec 32) (l : Log) (q : Port) (delivered : List LogEntry) : List Byte :=
  bytesBE 4 skipped.toNat ++ backlogBytes l q ++ [BitVec.ofNat 8 delivered.length]
  ++ delivered.flatMap LogEntry.bytes

/-- READ_RESULTS (R132 to R134): the walk, the cursor moved past it, the skipped count returned and cleared, and the
retirement check. -/
def execReadResults (p : PortId) (tag count : Byte) (s : State) : Host.Outcome State Fault Refusal :=
  let q := s.port p
  let w := q.walk s.log (clampCount count)
  let s' := (s.setPort p { q with cursor := w.2.getD s.log.nextSeq, skipped := 0 }).retirementCheck
  .next (s'.respond p tag .readResults (clampStatus (decide (clampCount count ≠ count.toNat)))
    (readResultsPayload q.skipped s'.log (s'.port p) w.1))

/-- LATEST (R137): the latest-table entry of a slot. -/
def execLatest (p : PortId) (tag slot : Byte) (s : State) : Host.Outcome State Fault Refusal :=
  match numberOf 16 slot with
  | none => .next (s.respond p tag .latest .badValue [])
  | some n =>
    match s.latest[n] with
    | none => .next (s.respond p tag .latest .ok [])
    | some e => .next (s.respond p tag .latest .ok (recordBytes e.seq e.record))

/-- The payload of a LOG_STATUS response (R136, R187). -/
def logStatusPayload (l : Log) (q : Port) : List Byte :=
  bytesBE 2 l.occupancy.toNat ++ bytesBE 4 l.oldestSeq.toNat ++ bytesBE 4 l.nextSeq.toNat
  ++ bytesBE 2 q.subscription.toNat ++ bytesBE 4 q.cursor.toNat ++ backlogBytes l q
  ++ bytesBE 2 q.threshold.toNat ++ bytesBE 4 q.skipped.toNat ++ [l.policy.code] ++ bytesBE 2 l.gen.toNat

/-- LOG_STATUS (R136). -/
def execLogStatus (p : PortId) (tag : Byte) (s : State) : Host.Outcome State Fault Refusal :=
  .next (s.respond p tag .logStatus .ok (logStatusPayload s.log (s.port p)))

/-- SET_LOG (R128): the policy is set, the log generation rises, and the CHANGE flag is set at every other port. -/
def execSetLog (p : PortId) (tag : Byte) (expected : Option Gen) (policy : Byte) (s : State) :
    Host.Outcome State Fault Refusal :=
  .next (s.withRight p tag .setLog fun s =>
    if !generationMatches expected s.log.gen then s.respond p tag .setLog .stale (bytesBE 2 s.log.gen.toNat)
    else
      match FullPolicy.ofCode policy with
      | none => s.respond p tag .setLog .badValue []
      | some pol =>
        (State.raiseOthers .change p { s with log := { s.log with policy := pol, gen := s.log.gen + 1 } }).respond
          p tag .setLog .ok (pol.code :: bytesBE 2 (s.log.gen + 1).toNat))

/-- A slot after RESET_MEASUREMENT: IDLE, nothing in flight, nothing finished, no loss counted; plan and generation kept
(R68, R96). -/
def Slot.resetMeasurement (x : Slot) : Slot := { x.toIdle with lost := 0, finished := none, usedUp := [] }

/-- RESET_MEASUREMENT (R96, R115, R138, R139, R140). -/
def execResetMeasurement (p : PortId) (tag : Byte) (s : State) : Host.Outcome State Fault Refusal :=
  .next (s.withRight p tag .resetMeasurement fun s =>
    let s1 := s.mapSlots fun _ x => x.resetMeasurement
    let s2 := { s1 with
      unit := ArithUnit.idle
      latest := Vector.replicate 16 none
      log := { s.log with held := [] } }
    let s3 := s2.mapPorts fun q => { q with cursor := s.log.nextSeq }
    (s3.raiseOthers .change p).respond p tag .resetMeasurement .ok (bytesBE 4 s.log.nextSeq.toNat))

end Sys2Proof.Machine
end

