-- ==== Sys2Proof/Machine/PortRequests.lean ====
section
/-! DEFINITION. The meanings of the ports' own rows: SELECTION_START, SELECTION_END and PREPARATION_END (R143 to R158),
NULL and PORT_RESET (R161 to R163), READ_ATTENTION and SET_ATTENTION (R170, R171). -/

namespace Sys2Proof.Machine

/-! ## Selections -/

/-- SELECTION_START (R143): READY moves to SELECTED, and PREPARING moves to EARLY. A select line already active starts no
selection, nor does one that has been active since before the release of device reset (R164). -/
def execSelectionStart (p : PortId) (s : State) : Host.Outcome State Fault Refusal :=
  let q := s.port p
  if q.ignoring then .next s
  else match q.link with
  | .ready => .next (s.setPort p { q with link := .selected })
  | .preparing => .next (s.setPort p { q with link := .early })
  | .selected => .next s
  | .early => .next s

/-- The port after a frame was judged (R149 to R156): its own error response, or the request on its way to its owner, to
arrive at the first coarse clock edge after the selection. -/
def Port.afterVerdict (q : Port) (arrival : Coarse) : Verdict → Port
  | .tooLong tag command => { q with response := some ⟨.tooLong, tag, command, []⟩ }.setFlag .link
  | .badFrame =>
    { q with response := some ⟨.badFrame, 0, 0, []⟩, badFrames := satInc16 q.badFrames }.setFlag .link
  | .unknownCommand tag command => { q with response := some ⟨.unknownCommand, tag, command, []⟩ }
  | .notPermitted tag c => { q with response := some ⟨.notPermitted, tag, c.code, []⟩ }
  | .badPayload tag c => { q with response := some ⟨.badPayload, tag, c.code, []⟩ }
  | .taken request => { q with response := none, arriving := some ⟨arrival, request⟩ }

/-- The end of an ordinary selection (R145, R146, R149): with at least one complete byte the pending response is consumed
and what was received is judged; else the selection is ignored. -/
def Port.endSelected (q : Port) (p : PortId) (now : Tick) (arrival : Coarse) (bits : List Bool) : Port :=
  let out := (q.response.getD Response.notReady).stream bits.length
  match bytesOfBits bits with
  | [] => { q with link := .ready, shiftedOut := out }
  | b :: bs =>
    Port.afterVerdict { q with link := .preparing, prepared := false, prepStart := now, shiftedOut := out } arrival
      (judgeFrame p q.rights (b :: bs))

/-- The end of an early selection (R158): NOT_READY was shifted out, and the incoming bits are discarded. -/
def Port.endEarly (q : Port) (bits : List Bool) : Port :=
  { q with
    link := if q.prepared then .ready else .preparing
    shiftedOut := Response.notReady.stream bits.length }

/-- SELECTION_END (R149): the select line becomes inactive after the given bits. A selection that was in progress at the
release of device reset is ignored, whatever it carried (R164), and where no selection is in progress nothing is judged. -/
def execSelectionEnd (p : PortId) (bits : List Bool) (s : State) : Host.Outcome State Fault Refusal :=
  let q := s.port p
  if q.ignoring then .next (s.setPort p { q with ignoring := false })
  else match q.link with
  | .selected => .next (s.setPort p (q.endSelected p s.rawTime (s.coarse + 1) bits))
  | .early => .next (s.setPort p (q.endEarly bits))
  | .ready => .next s
  | .preparing => .next s

/-- Whether preparation can end: the response is formed, and the port waits for its preparation (R156). -/
def Port.preparationCanEnd (q : Port) : Bool :=
  decide (q.link = .preparing ∨ (q.link = .early ∧ q.prepared = false)) && q.arriving.isNone && q.response.isSome

/-- PREPARATION_END (R156, R158): the port leaves PREPARING for READY; in EARLY the prepared response waits. -/
def execPreparationEnd (p : PortId) (s : State) : Host.Outcome State Fault Refusal :=
  let q := s.port p
  if q.preparationCanEnd then
    .next (s.setPort p { q with prepared := true, link := if q.link = .preparing then .ready else .early })
  else .next s

/-! ## NULL and PORT_RESET -/

/-- NULL (R161): port number, rights and bad-frame count. -/
def execNull (p : PortId) (tag : Byte) (s : State) : Host.Outcome State Fault Refusal :=
  .next (s.respond p tag .null .ok
    ([BitVec.ofNat 8 p.val, (s.port p).rights.setWidth 8] ++ bytesBE 2 (s.port p).badFrames.toNat))

/-- The port's part of PORT_RESET (R141, R162, R174): log state, attention state and bad-frame count, and the NONE
response. -/
def Port.portReset (q : Port) (next : Seq) : Port :=
  { q with
    subscription := 0, cursor := next, threshold := 1, skipped := 0
    flags := 0, mask := 0, badFrames := 0, response := some Response.noneResponse }

/-- PORT_RESET (R141, R162). -/
def execPortReset (p : PortId) (_tag : Byte) (s : State) : Host.Outcome State Fault Refusal :=
  .next (s.setPort p ((s.port p).portReset s.log.nextSeq)).retirementCheck

/-! ## Attention -/

/-- READ_ATTENTION (R171): the flags set at the arrival are reported and cleared, and the mask is returned. -/
def execReadAttention (p : PortId) (tag : Byte) (s : State) : Host.Outcome State Fault Refusal :=
  let q := s.port p
  .next ((s.setPort p { q with flags := 0 }).respond p tag .readAttention .ok [q.flags.setWidth 8, q.mask.setWidth 8])

/-- SET_ATTENTION (R170, R181): the mask changes by the operation; a set that names no flag in bit 7 is refused. -/
def execSetAttention (p : PortId) (tag operation flags : Byte) (s : State) : Host.Outcome State Fault Refusal :=
  let q := s.port p
  match setOperation operation q.mask (flags.setWidth 7), flags.getLsbD 7 with
  | some m, false =>
    .next ((s.setPort p { q with mask := m }).respond p tag .setAttention .ok [m.setWidth 8, q.flags.setWidth 8])
  | _, _ => .next (s.respond p tag .setAttention .badValue [])

end Sys2Proof.Machine
end

