-- ==== Sys2Proof/Machine/Slots.lean ====
section
/-! DEFINITION. The meanings of the measurement engine's requests (READ_PLAN, WRITE_PLAN, ARM, STOP) and events
(STAMP_OFFER, IMMEDIATE_ARM_INSTANT, AT_TIME_ARMING, GATE_CLOSE, DEADLINE_EXPIRY, TOTALIZE_GATE_OPEN,
TOTALIZE_GATE_CLOSE). An event whose condition does not hold does not take place: nothing changes (log entry 3). -/

namespace Sys2Proof.Machine

/-! ## Plans -/

/-- The plan generation and the slot state, as several responses carry them (R187). -/
def slotStatusBytes (gen : Gen) (st : SlotState) : List Byte := bytesBE 2 gen.toNat ++ [st.code]

/-- READ_PLAN (R67): plan, plan generation and slot state at the arrival. DESIGN CHOICE (log entry 35): at the instant of a
TRIGGERED finish under IMMEDIATE, one taken after the finish shows the state of the new measurement, and not ARMING. -/
def execReadPlan (p : PortId) (tag slot : Byte) (s : State) : Host.Outcome State Fault Refusal :=
  match numberOf 16 slot with
  | none => .next (s.respond p tag .readPlan .badValue [])
  | some n =>
    let x := s.slot n
    .next (s.respond p tag .readPlan .ok (planBlock x.plan ++ slotStatusBytes x.planGen x.state))

/-- Whether the resulting plan's chain is refused: SLOT_DONE naming the slot itself or a higher one (R61). -/
def chainRefused (n : SlotId) (p : Plan) : Bool := decide (p.armSource = .slotDone) && decide (n ≤ p.armSlot)

/-- The status of the first of checks 2 to 8 of R59 that fails, or none when all pass. -/
def State.writePlanCheck (s : State) (n : SlotId) (expected : Option Gen) (items : List PlanItem) : Option Status :=
  let x := s.slot n
  let p := resultingPlan x.plan items
  if !generationMatches expected x.planGen then some .stale
  else if !items.all PlanItem.isKnown then some .badValue
  else if !items.all itemValid then some .badValue
  else if p.repeatMode = .triggered ∧ p.armSource = .atTime then some .badValue
  else if chainRefused n p then some .badChain
  else if x.state ≠ .idle ∧ s.namesCalibrating p = true then some .busy
  else if x.state ≠ .idle ∧ p.armSource = .atTime ∧ atOrBefore p.armTime (s.arrivalHorizon + s.offset) = true then
    some .tooLate
  else none

/-- What the response to a refused WRITE_PLAN carries beside its status (R59, R187). DESIGN CHOICE (log entry 35): the slot
state in a BUSY or TOO_LATE refusal at the instant of a TRIGGERED finish under IMMEDIATE is that of the new measurement. -/
def refusedPlanPayload (x : Slot) : Status → List Byte
  | .stale => bytesBE 2 x.planGen.toNat
  | .busy => slotStatusBytes x.planGen x.state
  | .tooLate => slotStatusBytes x.planGen x.state
  | _ => []

/-- The slot after an applied WRITE_PLAN (R63, R64): outside IDLE the measurement in flight ends ABORTED under the old
plan and generation, and the slot enters ARMING afresh under the new plan; in IDLE it stays there. -/
def Slot.rewrite (x : Slot) (n : SlotId) (now : Tick) (locked : Bool) (h raw : Tick) (p : Plan) : Slot :=
  if x.state = .idle then { x with plan := p, planGen := x.planGen + 1 }
  else Slot.armByRequest { x.abort n now locked with plan := p, planGen := x.planGen + 1 } h raw

/-- WRITE_PLAN (R58 to R64): the checks in order, then the resulting plan as clamped; the CHANGE flag is set at every other
port subscribed to the slot. -/
def execWritePlan (p : PortId) (tag slot : Byte) (expected : Option Gen) (items : List PlanItem) (s : State) :
    Host.Outcome State Fault Refusal :=
  .next (s.withRight p tag .writePlan fun s =>
    match numberOf 16 slot with
    | none => s.respond p tag .writePlan .badValue []
    | some n =>
      match s.writePlanCheck n expected items with
      | some status => s.respond p tag .writePlan status (refusedPlanPayload (s.slot n) status)
      | none =>
        let y := (s.slot n).rewrite n s.horizonTime s.horizonLocked s.arrivalHorizon s.arrivalTime
          (resultingPlan (s.slot n).plan items)
        let s' := ((s.setSlot n y).grant).raise .change
          fun q => decide (q ≠ p) && (s.port q).subscription.getLsbD n
        s'.respond p tag .writePlan (clampStatus (items.any itemClamped))
          (planBlock y.plan ++ slotStatusBytes y.planGen y.state))

/-! ## ARM and STOP -/

/-- Whether an AT_TIME plan's arm time is not later than the time-scale horizon at the arrival (R78). -/
def State.armTooLate (s : State) (p : Plan) : Bool :=
  decide (p.armSource = .atTime) && !before (s.arrivalHorizon + s.offset) p.armTime

/-- ARM (R78, R79): the slot enters ARMING afresh; a measurement in flight ends ABORTED. The slot state in a BUSY or TOO_LATE
refusal is shown as READ_PLAN shows it (DESIGN CHOICE, log entry 35). -/
def execArm (p : PortId) (tag slot : Byte) (s : State) : Host.Outcome State Fault Refusal :=
  .next (s.withRight p tag .arm fun s =>
    match numberOf 16 slot with
    | none => s.respond p tag .arm .badValue []
    | some n =>
      let x := s.slot n
      if s.namesCalibrating x.plan then s.respond p tag .arm .busy (slotStatusBytes x.planGen x.state)
      else if s.armTooLate x.plan then s.respond p tag .arm .tooLate (slotStatusBytes x.planGen x.state)
      else
        let y := (x.abort n s.horizonTime s.horizonLocked).armByRequest s.arrivalHorizon s.arrivalTime
        ((s.setSlot n y).grant).respond p tag .arm .ok (slotStatusBytes x.planGen .arming))

/-- STOP (R80): the slot returns to IDLE; a measurement in flight ends ABORTED, which is a SINGLE plan's one finish. -/
def execStop (p : PortId) (tag slot : Byte) (s : State) : Host.Outcome State Fault Refusal :=
  .next (s.withRight p tag .stop fun s =>
    match numberOf 16 slot with
    | none => s.respond p tag .stop .badValue []
    | some n =>
      let x := s.slot n
      let s' := s.setSlot n (if x.state = .idle then x else (x.abort n s.horizonTime s.horizonLocked).toIdle)
      let s'' := if x.state.inFlight && x.isSingle then s'.raiseSubscribed .done n else s'
      (s''.grant).respond p tag .stop .ok (slotStatusBytes x.planGen .idle))

/-! ## Stamps and timing events -/

/-- The stamp of an input that is due for its offer: the first of the input's stamps in the horizon, when horizon time has
reached its corrected raw time and no stamp in the horizon has an earlier one (R29). Of two of the input's stamps with one
corrected raw time, the first is the one formed first (DESIGN CHOICE, log entry 36). -/
def State.dueStamp (s : State) (i : InputId) : Option Stamp :=
  match s.stamps.find? fun st => decide (st.input = i) with
  | none => none
  | some st =>
    if s.reached st.corrected && s.stamps.all fun o => atOrBefore st.corrected o.corrected then some st else none

/-- STAMP_OFFER (R30): the due stamp of an input is offered to every slot outside IDLE. -/
def execStampOffer (i : InputId) (s : State) : Host.Outcome State Fault Refusal :=
  match s.dueStamp i with
  | none => .next s
  | some st => .next (s.offer st).conclude

/-- Whether a slot waits under IMMEDIATE for an arm instant that is reached (R82). -/
def State.immediateDue (s : State) (n : SlotId) : Option Tick :=
  let x := s.slot n
  match x.data.armInstant with
  | some a => if x.awaitsArming .immediate && s.reached a then some a else none
  | none => none

/-- IMMEDIATE_ARM_INSTANT (R82): horizon time reaches the arm instant, and the first measurement begins. -/
def execImmediateArmInstant (n : SlotId) (s : State) : Host.Outcome State Fault Refusal :=
  match s.immediateDue n with
  | none => .next s
  | some a => .next (s.setSlot n ((s.slot n).begin a false s.horizonLocked)).conclude

/-- Whether a slot waits under AT_TIME and horizon time plus the offset in force has reached its arm time (R83). -/
def State.atTimeDue (s : State) (n : SlotId) : Bool :=
  let x := s.slot n
  x.awaitsArming .atTime && s.horizonStarted && atOrBefore x.plan.armTime (s.horizonTime + s.offset)

/-- AT_TIME_ARMING (R83): the slot arms, its arm instant the arm time less the offset in force. -/
def execAtTimeArming (n : SlotId) (s : State) : Host.Outcome State Fault Refusal :=
  if s.atTimeDue n then
    .next (s.setSlot n ((s.slot n).begin ((s.slot n).plan.armTime - s.offset) false s.horizonLocked)).conclude
  else .next s

/-- Whether a RECIPROCAL slot in GATING has reached its gate close (R87). -/
def State.gateCloseDue (s : State) (n : SlotId) : Bool :=
  let x := s.slot n
  decide (x.state = .gating ∧ x.plan.kind = .reciprocal) && s.reached x.data.gateClose

/-- The slot after its gate close (R87, R88): STOPPING, its deadline W after the later of gate close and the start. -/
def Slot.closeGate (x : Slot) : Slot :=
  let from' := match x.data.start with
    | some e => laterOf x.data.gateClose e.time
    | none => x.data.gateClose
  { x with state := .stopping, data := { x.data with deadline := from' + ticksOf x.plan.waitLimit } }

/-- GATE_CLOSE (R87): horizon time reaches a RECIPROCAL gate close. -/
def execGateClose (n : SlotId) (s : State) : Host.Outcome State Fault Refusal :=
  if s.gateCloseDue n then .next (s.setSlot n (s.slot n).closeGate).conclude else .next s

/-- Whether a deadline expires: a RECIPROCAL or INTERVAL slot waits in STARTING or STOPPING, horizon time has reached its
deadline, and no stamp at or before that time is still to be offered (R72, R88, R91). -/
def State.deadlineDue (s : State) (n : SlotId) : Bool :=
  let x := s.slot n
  decide ((x.state = .starting ∨ x.state = .stopping) ∧ (x.plan.kind = .reciprocal ∨ x.plan.kind = .interval))
    && s.reached x.data.deadline && s.stamps.all fun st => !s.reached st.corrected

/-- The slot after a timeout at its deadline, and what the finish tells the rest of the part (R77, R88, R90, R91, R92). -/
def Slot.timeOut (x : Slot) (n : SlotId) (locked : Bool) : Slot × Finish :=
  let d := x.data.deadline
  let y := x.place (x.outcome n locked .noSignal (x.crossedMarks 0) false x.data.start none none)
  let next := if x.plan.kind = .reciprocal then y.newRun d locked else y.nextInterval d false locked
  (y.afterFinish d locked next, ⟨none, x.isSingle, none⟩)

/-- DEADLINE_EXPIRY (R88): the measurement ends NO_SIGNAL; no dependent arms. -/
def execDeadlineExpiry (n : SlotId) (s : State) : Host.Outcome State Fault Refusal :=
  if s.deadlineDue n then
    let r := (s.slot n).timeOut n s.horizonLocked
    .next ((s.setSlot n r.1).announce n r.2).conclude
  else .next s

/-- The gate boundary at a time, with its boundary count and its time-scale time now (R8, R22, R73). -/
def State.boundaryAt (s : State) (p : Plan) (t : Tick) : Endpoint :=
  .boundary t (t + s.offset) ((s.input p.inputA).boundaryCount p.senseA (coarseOf t))

/-- The gate-open boundary a TOTALIZE slot in ARMING waits for, when horizon time has reached it (R93). -/
def State.gateOpenDue (s : State) (n : SlotId) : Option Tick :=
  let x := s.slot n
  match x.data.gateOpen with
  | some g => if decide (x.state = .arming ∧ x.plan.kind = .totalize) && s.reached g then some g else none
  | none => none

/-- TOTALIZE_GATE_OPEN (R93): the boundary count at gate open is read, and the slot enters GATING. -/
def execTotalizeGateOpen (n : SlotId) (s : State) : Host.Outcome State Fault Refusal :=
  match s.gateOpenDue n with
  | none => .next s
  | some g =>
    let x := s.slot n
    let d := { x.data with
      start := some (s.boundaryAt x.plan g)
      marks := { x.data.marks with refFault := x.data.marks.refFault || !s.horizonLocked } }
    .next (s.setSlot n { x with state := .gating, data := d }).conclude

/-- Whether a TOTALIZE slot in GATING has reached its gate close (R93). -/
def State.totalizeCloseDue (s : State) (n : SlotId) : Bool :=
  let x := s.slot n
  decide (x.state = .gating ∧ x.plan.kind = .totalize) && s.reached x.data.gateClose

/-- TOTALIZE_GATE_CLOSE (R93): the boundary count at gate close is read, and this is a valued finish. -/
def execTotalizeGateClose (n : SlotId) (s : State) : Host.Outcome State Fault Refusal :=
  if s.totalizeCloseDue n then
    let x := s.slot n
    let stop := s.boundaryAt x.plan x.data.gateClose
    let y := x.place (x.outcome n s.horizonLocked .valued x.data.marks false x.data.start (some stop) none)
    let z := y.afterFinish x.data.gateClose s.horizonLocked (y.nextGate stop s.horizonLocked)
    .next ((s.setSlot n z).announce n ⟨some x.data.gateClose, x.isSingle, none⟩).conclude
  else .next s

end Sys2Proof.Machine
end

