-- ==== Sys2Proof/Machine/TimeScale.lean ====
section
/-! DEFINITION. The meanings of the time-scale unit's rows: DEVICE_RESET (R15 and the other chapters' rules on device
reset), REFERENCE_EDGE, REFERENCE_ABSENT, REFERENCE_LOCK, HORIZON_START, HORIZON_REF_CHANGE, READ_TIME, SET_TIME and
STEP_TIME. -/

namespace Sys2Proof.Machine

/-- DEVICE_RESET (R15, R38, R50, R68, R97, R98, R142, R164, R176): the whole part as at the release of device reset, the
straps and the pins sampled. While reset was asserted each port shifted out ones only, as many bits as its controller
clocked; a select line that is active at the release belongs to a selection that is ignored to its end (R164). The queue
is not the part's and keeps what waits in it. -/
def execDeviceReset (strapA strapB : BitVec 4) (lines : ResetLines) (s : State) :
    Host.Outcome State Fault Refusal :=
  let r := State.atRelease strapA strapB lines.pins
  .next { r with
    pending := s.pending
    ports := Vector.ofFn fun p : PortId =>
      { r.ports[p] with shiftedOut := List.replicate lines.clocked[p] true, ignoring := lines.selected.getLsbD p } }

/-- REFERENCE_EDGE (R3): the gap timer returns to 0; an edge that ends an absence makes the reference present and starts
the presence count again from 0. DESIGN CHOICE (log entry 31): R3 does not say which comes first where an edge falls at the
very instant at which the gap timer reaches 250; an edge sent before REFERENCE_ABSENT comes first, and then no absence
follows. -/
def execReferenceEdge (s : State) : Host.Outcome State Fault Refusal :=
  .next { s with
    gapTimer := 0
    refPresent := true
    presenceTimer := if s.refPresent then s.presenceTimer else 0 }

/-- A change of the reference state (R4, R5, R7): the change time is the raw time of the coarse period, fine part 0; the
change is on its way to the horizon, and the REF flag is set at every port. -/
def State.changeRef (s : State) (r : RefState) : State :=
  State.raiseAll .ref { s with refState := r, refChanges := s.refChanges ++ [⟨s.arrivalTime, r⟩] }

/-- Whether the gap timer has reached its limit with the reference still counted present (R3). -/
def State.absenceDue (s : State) : Bool := s.refPresent && decide (Config.absentAfter ≤ s.gapTimer)

/-- REFERENCE_ABSENT (R3, R4): the reference is absent, the presence timer returns to 0, and LOCKED moves to LOST. -/
def execReferenceAbsent (s : State) : Host.Outcome State Fault Refusal :=
  if s.absenceDue then
    let s' := { s with refPresent := false, presenceTimer := 0 }
    if s.refState = .locked then .next (s'.changeRef .lost) else .next s'
  else .next s

/-- Whether the presence timer has reached its limit in ACQUIRING or LOST (R4). -/
def State.lockDue (s : State) : Bool :=
  s.refPresent && decide (Config.lockAfter ≤ s.presenceTimer) && decide (s.refState ≠ .locked)

/-- REFERENCE_LOCK (R4): the reference state becomes LOCKED. -/
def execReferenceLock (s : State) : Host.Outcome State Fault Refusal :=
  if s.lockDue then .next (s.changeRef .locked) else .next s

/-- Whether raw time has reached 73,728 ticks and horizon time has not started (R6). -/
def State.horizonStartDue (s : State) : Bool :=
  !s.horizonStarted && decide (Config.horizonDelay.toNat ≤ s.rawTime.toNat)

/-- HORIZON_START (R6): horizon time starts. -/
def execHorizonStart (s : State) : Host.Outcome State Fault Refusal :=
  if s.horizonStartDue then .next { s with horizonStarted := true } else .next s

/-- Whether the REF_FAULT span of a slot is open (R7): from gate open, the arm instant or the previous tag on. -/
def Slot.markRefFault (x : Slot) : Slot :=
  if x.state.inFlight then { x with data := { x.data with marks := { x.data.marks with refFault := true } } } else x

/-- HORIZON_REF_CHANGE (R7): horizon time reaches the change time of the oldest reference state change on its way. The
horizon reference state follows, and a change to other than LOCKED marks every span in flight. -/
def execHorizonRefChange (s : State) : Host.Outcome State Fault Refusal :=
  match s.refChanges with
  | [] => .next s
  | c :: rest =>
    if s.reached c.changeTime then
      let s' := { s with horizonRef := c.state, refChanges := rest }
      if c.state = .locked then .next s' else .next (s'.mapSlots fun _ x => x.markRefFault)
    else .next s

/-- READ_TIME (R10): time-scale time, generation and reference state at the arrival. -/
def execReadTime (p : PortId) (tag : Byte) (s : State) : Host.Outcome State Fault Refusal :=
  .next (s.respond p tag .readTime .ok
    (bytesBE 8 s.timeAtArrival.toNat ++ bytesBE 2 s.timeGen.toNat ++ [s.refState.code]))

/-- An applied change of the offset (R9, R11, R12): the new offset, the generation risen by one, the CHANGE flag at every
other port, the step notice, and the response with the new generation and the new time-scale time. -/
def State.applyOffset (s : State) (p : PortId) (tag : Byte) (c : Command) (offset : Tick) (forward : Bool) : State :=
  let s' := { s with offset := offset, timeGen := s.timeGen + 1 }
  ((s'.raiseOthers .change p).notifyStep s.offset forward).respond p tag c .ok
    (bytesBE 2 (s.timeGen + 1).toNat ++ bytesBE 8 (s.arrivalTime + offset).toNat)

/-- Whether a move of the time-scale time from old to new is forward (R13), by the comparison of R2. -/
def movesForward (old new : Tick) : Bool :=
  if new - old = BitVec.ofNat 64 (2 ^ 63) then Config.halfTurnIsForward else before old new

/-- SET_TIME (R12, R13): the new offset makes the time-scale time at the arrival equal the carried value. -/
def execSetTime (p : PortId) (tag : Byte) (expected : Option Gen) (value : BitVec 64) (s : State) :
    Host.Outcome State Fault Refusal :=
  .next (s.withRight p tag .setTime fun s =>
    if generationMatches expected s.timeGen then
      s.applyOffset p tag .setTime (value - s.arrivalTime) (movesForward s.timeAtArrival value)
    else s.respond p tag .setTime .stale (bytesBE 2 s.timeGen.toNat))

/-- STEP_TIME (R12, R14): a signed amount is added to the offset. -/
def execStepTime (p : PortId) (tag : Byte) (expected : Option Gen) (amount : BitVec 64) (s : State) :
    Host.Outcome State Fault Refusal :=
  .next (s.withRight p tag .stepTime fun s =>
    if generationMatches expected s.timeGen then
      s.applyOffset p tag .stepTime (s.offset + amount) (decide (0 < amount.toInt))
    else s.respond p tag .stepTime .stale (bytesBE 2 s.timeGen.toNat))

end Sys2Proof.Machine
end

