-- ==== Sys2Proof/Machine/Schedule.lean ====
section
/-! DEFINITION. What the part does by itself while no command waits (log entry 2): the event that is due at the present
instant, if any, in a fixed order among those that are due together; where the spec lets either of two be taken first,
a sender can have the other first by sending it. Requests on their way to their owners arrive after the events of their
instant. -/

namespace Sys2Proof.Machine

/-- The first of a list of things that is due. -/
def firstDue {α : Type} (xs : List α) (due : α → Bool) (row : α → Instr) : Option Instr := (xs.find? due).map row

/-- Whether an input's pending candidate has reached its window end (R18). -/
def State.windowDue (s : State) (i : InputId) : Bool :=
  match (s.input i).candidate with
  | none => false
  | some c => atOrBefore c.windowEnd s.rawTime

/-- Whether a dead time of an input has run out and has not been ended (R25). -/
def State.deadTimeDue (s : State) (i : InputId) : Bool := (s.input i).blockedUntil.isSome && !s.inDeadTime i

/-- Whether an input that watches the test signal has an edge of it before it (R17). -/
def State.testEdgeDue (s : State) (i : InputId) : Bool :=
  decide ((s.input i).settings.source = .test ∧ (s.input i).watched ≠ testLevel s.coarse)

/-- Whether the service in progress has lasted 500 ns (R100). -/
def State.serviceDue (s : State) : Bool :=
  match s.unit.service with
  | none => false
  | some v => atOrBefore (v.takenAt + Config.serviceBound) s.rawTime

/-- Whether the preparation at a port has lasted 2 µs (R156). -/
def State.preparationDue (s : State) (p : PortId) : Bool :=
  (s.port p).preparationCanEnd && atOrBefore ((s.port p).prepStart + Config.preparationBound) s.rawTime

/-- The event of the part's own that is due now, if any. DESIGN CHOICE (log entry 32): no edge of the calibration
oscillator is among them. R49 bounds its period and leaves open when an edge falls, so a calibration advances by the
CALIBRATION_HIT rows that are sent, and never on an empty queue alone. -/
def State.dueEvent (s : State) : Option Instr :=
  (if s.horizonStartDue then some .horizonStart else none)
  <|> (if s.absenceDue then some .referenceAbsent else none)
  <|> (if s.lockDue then some .referenceLock else none)
  <|> (if (s.refChanges.head?.any fun c => s.reached c.changeTime) then some .horizonRefChange else none)
  <|> firstDue allInputs s.windowDue .windowEndQualification
  <|> firstDue allInputs s.deadTimeDue .deadTimeEnd
  <|> firstDue allInputs s.testEdgeDue (fun i => .inputLevelChange i .test (testLevel s.coarse) 0)
  <|> firstDue allSlots (fun n => (s.gateOpenDue n).isSome) .totalizeGateOpen
  <|> firstDue allSlots s.totalizeCloseDue .totalizeGateClose
  <|> firstDue allSlots (fun n => (s.immediateDue n).isSome) .immediateArmInstant
  <|> firstDue allSlots s.atTimeDue .atTimeArming
  <|> firstDue allSlots s.gateCloseDue .gateClose
  <|> firstDue allInputs (fun i => (s.dueStamp i).isSome) .stampOffer
  <|> firstDue allSlots s.deadlineDue .deadlineExpiry
  <|> (if s.serviceDue then some .serviceCompletion else none)
  <|> firstDue allPorts s.preparationDue .preparationEnd

/-- Whether a port's taken request has come to its arrival (R156). -/
def State.arrivalDue (s : State) (p : PortId) : Bool :=
  match (s.port p).arriving with
  | none => false
  | some a => coarseAtOrBefore a.coarse s.coarse

/-- The taken request that arrives at its owner now, if any, with the port handing it over (R156, R159). -/
def State.dueArrival (s : State) : Option (Instr × State) :=
  match allPorts.find? s.arrivalDue with
  | none => none
  | some p =>
    (s.port p).arriving.map fun a => (a.request, s.setPort p { s.port p with arriving := none })

end Sys2Proof.Machine
end

