-- ==== Sys2Proof/Machine/Dispatch.lean ====
section
/-! DEFINITION. The one dispatch: each command to its meaning. -/

namespace Sys2Proof.Machine

def exec (i : Instr) (s : State) : Host.Outcome State Fault Refusal :=
  match i with
  | .deviceReset strapA strapB lines => Sys2Proof.Machine.execDeviceReset strapA strapB lines s
  | .referenceEdge => Sys2Proof.Machine.execReferenceEdge s
  | .referenceAbsent => Sys2Proof.Machine.execReferenceAbsent s
  | .referenceLock => Sys2Proof.Machine.execReferenceLock s
  | .horizonStart => Sys2Proof.Machine.execHorizonStart s
  | .horizonRefChange => Sys2Proof.Machine.execHorizonRefChange s
  | .selectionStart p => Sys2Proof.Machine.execSelectionStart p s
  | .selectionEnd p bits => Sys2Proof.Machine.execSelectionEnd p bits s
  | .preparationEnd p => Sys2Proof.Machine.execPreparationEnd p s
  | .null p tag => Sys2Proof.Machine.execNull p tag s
  | .portReset p tag => Sys2Proof.Machine.execPortReset p tag s
  | .readAttention p tag => Sys2Proof.Machine.execReadAttention p tag s
  | .setAttention p tag operation flags => Sys2Proof.Machine.execSetAttention p tag operation flags s
  | .readTime p tag => Sys2Proof.Machine.execReadTime p tag s
  | .setTime p tag g value => Sys2Proof.Machine.execSetTime p tag g value s
  | .stepTime p tag g amount => Sys2Proof.Machine.execStepTime p tag g amount s
  | .readInput p tag input => Sys2Proof.Machine.execReadInput p tag input s
  | .setInput p tag input g src width skew mode => Sys2Proof.Machine.execSetInput p tag input g src width skew mode s
  | .calibrate p tag input => Sys2Proof.Machine.execCalibrate p tag input s
  | .readPlan p tag slot => Sys2Proof.Machine.execReadPlan p tag slot s
  | .writePlan p tag slot g items => Sys2Proof.Machine.execWritePlan p tag slot g items s
  | .arm p tag slot => Sys2Proof.Machine.execArm p tag slot s
  | .stop p tag slot => Sys2Proof.Machine.execStop p tag slot s
  | .subscribe p tag slots operation start threshold => Sys2Proof.Machine.execSubscribe p tag slots operation start threshold s
  | .readResults p tag count => Sys2Proof.Machine.execReadResults p tag count s
  | .latest p tag slot => Sys2Proof.Machine.execLatest p tag slot s
  | .logStatus p tag => Sys2Proof.Machine.execLogStatus p tag s
  | .setLog p tag g policy => Sys2Proof.Machine.execSetLog p tag g policy s
  | .resetMeasurement p tag => Sys2Proof.Machine.execResetMeasurement p tag s
  | .inputLevelChange j src level within => Sys2Proof.Machine.execInputLevelChange j src level within s
  | .windowEndQualification j => Sys2Proof.Machine.execWindowEndQualification j s
  | .deadTimeEnd j => Sys2Proof.Machine.execDeadTimeEnd j s
  | .calibrationHit j within => Sys2Proof.Machine.execCalibrationHit j within s
  | .stampOffer j => Sys2Proof.Machine.execStampOffer j s
  | .immediateArmInstant n => Sys2Proof.Machine.execImmediateArmInstant n s
  | .atTimeArming n => Sys2Proof.Machine.execAtTimeArming n s
  | .gateClose n => Sys2Proof.Machine.execGateClose n s
  | .deadlineExpiry n => Sys2Proof.Machine.execDeadlineExpiry n s
  | .totalizeGateOpen n => Sys2Proof.Machine.execTotalizeGateOpen n s
  | .totalizeGateClose n => Sys2Proof.Machine.execTotalizeGateClose n s
  | .serviceCompletion => Sys2Proof.Machine.execServiceCompletion s

end Sys2Proof.Machine
end

