-- ==== Sys2Proof/Safety.lean ====
section
/-! DEFINITION. What counts as a legal state of the part: the laws the spec states of the device, as predicates over
State that a claim can assume and that every step keeps. -/

namespace Sys2Proof.Machine

/-! ## The result log -/

/-- Records whose sequence numbers run on from q, each one greater than the one before it, modulo 2^32 (R116). -/
def consecutiveFrom (q : Seq) : List LogEntry → Prop
  | [] => True
  | e :: rest => e.seq = q ∧ consecutiveFrom (q + 1) rest

/-- The law of R116: at most 512 records, their sequence numbers consecutive up to the next sequence less one. -/
structure Log.Runs (l : Log) : Prop where
  atMost512 : l.held.length ≤ 512
  consecutive : consecutiveFrom l.oldestSeq l.held
  upToNext : l.oldestSeq + BitVec.ofNat 32 l.held.length = l.nextSeq

/-- The law of R118 for one port: its cursor lies from the oldest sequence to the next sequence. -/
def Port.CursorInLog (q : Port) (l : Log) : Prop := (q.cursor - l.oldestSeq).toNat ≤ l.held.length

/-- The backlog threshold is 1 to 512 (R118). -/
def Port.ThresholdInRange (q : Port) : Prop := 1 ≤ q.threshold.toNat ∧ q.threshold.toNat ≤ 512

/-- The law of R111 that the payload bound of R133 rests on: a record with edges-since-previous has no stop, N, T or
value. -/
def Record.Shaped (r : Record) : Prop :=
  r.edgesSince = none ∨ (r.stop = none ∧ r.edges = none ∧ r.duration = none ∧ r.value = none)

/-- What an outcome holds by its kind and result (R73, R110): a start in every valued outcome, a stop in every valued one
but a TIMETAG tag, edges-since-previous in a TIMETAG tag alone, ABORTED and NO_SIGNAL for the results of their names, and
PUSHED at a tag at most. -/
structure Outcome.Shaped (o : Outcome) : Prop where
  start : o.result = .valued → o.start.isSome = true
  stop : o.stop.isSome = true ↔ o.result = .valued ∧ o.kind ≠ .timetag
  edgesSince : o.edgesSince.isSome = true ↔ o.result = .valued ∧ o.kind = .timetag
  ends : o.flags.aborted = decide (o.result = .aborted) ∧ o.flags.noSignal = decide (o.result = .noSignal)
  pushed : o.flags.pushed = true → o.edgesSince.isSome = true

/-- The laws of the log together: R116, R118, the law of R120 that some port wants the oldest held record, R111 for every
record held, and R73 for every outcome on its way to one, with the law of R70 it rests on: a slot in GATING or STOPPING
holds a start. -/
structure State.LogLaws (s : State) : Prop where
  runs : s.log.Runs
  cursors : ∀ p, (s.port p).CursorInLog s.log
  thresholds : ∀ p, (s.port p).ThresholdInRange
  oldestWanted : ∀ e, s.log.held.head? = some e → s.wantedByAny e = true
  records : ∀ e ∈ s.log.held, e.record.Shaped
  starts : ∀ n, (s.slot n).state = .gating ∨ (s.slot n).state = .stopping → (s.slot n).data.start.isSome = true
  finished : ∀ n o, (s.slot n).finished = some o → o.Shaped
  service : ∀ v, s.unit.service = some v → v.outcome.Shaped

/-! ## Inputs and plans -/

/-- The law of R32: no slot outside IDLE names, in a role that applies, an input in CALIBRATING. -/
def State.UsageGuard (s : State) : Prop :=
  ∀ n i, (s.slot n).state ≠ .idle → (s.slot n).plan.names i = true → (s.input i).state ≠ .calibrating

/-- The ranges of R55 that the types leave open. -/
structure Plan.InRange (p : Plan) : Prop where
  gate : 1 ≤ p.gate.toNat ∧ p.gate.toNat ≤ 2 ^ 32
  waitLimit : 1 ≤ p.waitLimit.toNat ∧ p.waitLimit.toNat ≤ 2 ^ 32
  prescale : 1 ≤ p.prescale.toNat ∧ p.prescale.toNat ≤ 65536
  quota : p.quota ≠ some 0

/-- What check 5 and check 6 of R59 keep out of the plan of a slot: TRIGGERED with AT_TIME, and SLOT_DONE that names the
slot itself or a higher one (R59, R61). -/
def Plan.ChainsUpward (p : Plan) (n : SlotId) : Prop :=
  ¬(p.repeatMode = .triggered ∧ p.armSource = .atTime) ∧ (p.armSource = .slotDone → p.armSlot < n)

/-- Every plan is in range and chains upward in slot number. -/
def State.PlansLegal (s : State) : Prop := ∀ n, (s.slot n).plan.InRange ∧ (s.slot n).plan.ChainsUpward n

/-- The law of R40: a table is nondecreasing from code 0 to code 159. -/
def tableRises (t : Vector Byte 160) : Prop := ∀ c d : Code, c ≤ d → t[c].toNat ≤ t[d].toNat

/-- The law of R42: the hit total is below 65,536 between hits, and the histogram is empty in READY under FIXED. -/
structure Input.HistogramLegal (x : Input) : Prop where
  total : hitTotal x.histogram < 65536
  empty : x.state = .ready → x.settings.mode = .fixed → x.histogram = emptyHistogram

/-- The laws of an input's calibration together (R40, R42). -/
def State.CalibrationLegal (s : State) : Prop :=
  ∀ i, tableRises (s.input i).table ∧ (s.input i).HistogramLegal

/-- The laws of an input's edges at raw time now (R18, R22): a pending candidate's window is at most 255 coarse periods
long, and raw time lies in it, at its end at the latest; and no edge kept for boundary counts lies further back than the
release horizon. -/
structure Input.EdgesLegal (x : Input) (now : Tick) : Prop where
  candidate : ∀ k, x.candidate = some k → ∃ w, w ≤ 255 ∧ k.windowEnd = k.edgeTime + BitVec.ofNat 64 (w * 256)
    ∧ (now - k.edgeTime).toNat ≤ w * 256
  recent : ∀ e ∈ x.recent, (now.extractLsb' 8 56 - e.period).toNat ≤ 288

/-- Every input's edges are legal. -/
def State.EdgesLegal (s : State) : Prop := ∀ i, (s.input i).EdgesLegal s.rawTime

/-- The laws of the release horizon (R27, R29): the stamps in flight stand in nondecreasing order of corrected raw time,
which lies close enough to raw time for that order to be one. Qualification comes at most 65,280 ticks after raw time, fine
part and skew move a corrected raw time by less than 1,280, and no stamp that horizon time has reached outlasts a tick. -/
structure State.HorizonLegal (s : State) : Prop where
  order : s.stamps.Pairwise fun a b => (b.corrected - a.corrected).toNat < 2 ^ 63
  window : ∀ st ∈ s.stamps, (s.rawTime + 2048 - st.corrected).toNat ≤
    if s.horizonStarted then 142336 else s.rawTime.toNat + 68608
  early : s.horizonStarted = false → s.rawTime.toNat ≤ 73728
  captures : ∀ i k cap, (s.input i).candidate = some k → k.capture = some cap →
    (cap.corrected - k.edgeTime + 1280).toNat ≤ 2560

/-- What a hit of code c makes of input i, which stands as x but for the hit, and of the ports (R42, R45, R46, R51): below
65,536 hits it is counted; the hit that completes the histogram installs the built table, with the generation risen and
the outcome PASSED, when no code holds more than 1,024 hits and at least 64 codes hold one, and is FAILED otherwise; either
way the histogram is emptied, the input READY and CAL set at every port. -/
def HitCounted (s t : State) (i : InputId) (x : Input) (c : Code) : Prop :=
  let h := x.histogram.set c (x.histogram[c] + 1)
  let passes := (∀ d : Code, h[d] ≤ 1024) ∧ 64 ≤ h.toList.countP fun n => decide (0 < n)
  (hitTotal x.histogram < 65535 → t.input i = { x with histogram := h } ∧ t.ports = s.ports)
  ∧ (65535 ≤ hitTotal x.histogram →
      (∀ p, t.port p = { s.port p with flags := (s.port p).flags ||| 0b0010000 })
      ∧ (passes → t.input i = { x with
          histogram := emptyHistogram, state := .ready, lastOutcome := .passed, calGen := x.calGen + 1
          table := buildTable h })
      ∧ (¬passes → t.input i = { x with histogram := emptyHistogram, state := .ready, lastOutcome := .failed }))

/-- What the interpolator and the filter of input i make of a change of its selected signal now to a level away from the
one watched, where the input stands as x, the change reads code c and no window end is reached (R18, R19, R21, R24 to R28,
R51). The change is captured when its sense is demanded, the input READY and no dead time running, and a capture starts a
dead time of three coarse periods. A pending candidate reverts: it and the capture are discarded, and the reject count
rises. Otherwise a width above 0 forms a candidate, and width 0 qualifies the edge at once: the count of its sense rises, a
capture becomes a stamp with the table, generation and skew in force, and, in mode TRACK, a hit. -/
def EdgeJudged (s t : State) (i : InputId) (level : Level) (x : Input) (c : Code) : Prop :=
  let raw : Tick := s.coarse ++ x.table[c]
  let seen : Capture := ⟨c, s.coarse, raw, raw - x.settings.skew.signExtend 64, x.calGen⟩
  let captured := s.demanded i (senseTo level) = true ∧ x.state = .ready ∧ s.inDeadTime i = false
  let blocked : Input := { x with blockedUntil := if captured then some (s.coarse + 3) else x.blockedUntil }
  let counted : Input := { blocked with
    qualified := level, recent := ⟨senseTo level, s.coarse⟩ :: x.recent
    rising := x.rising + (if level = .high then 1 else 0)
    falling := x.falling + (if level = .low then 1 else 0) }
  (x.candidate.isSome = true → t.stamps = s.stamps ∧ t.ports = s.ports
      ∧ t.input i = { blocked with candidate := none, rejects := x.rejects + 1 })
  ∧ (x.candidate = none → x.settings.width ≠ 0 → t.stamps = s.stamps ∧ t.ports = s.ports
      ∧ t.input i = { blocked with
          candidate := some ⟨senseTo level, s.rawTime,
            s.rawTime + BitVec.ofNat 64 (x.settings.width.toNat * 256), if captured then some seen else none⟩ })
  ∧ (x.candidate = none → x.settings.width = 0 →
      (¬captured → t.stamps = s.stamps ∧ t.ports = s.ports ∧ t.input i = counted)
      ∧ (captured → t.stamps.Perm
          (⟨i, senseTo level, counted.count (senseTo level), raw, seen.corrected, seen.calGen⟩ :: s.stamps)
        ∧ (x.settings.mode = .fixed → t.ports = s.ports ∧ t.input i = counted)
        ∧ (x.settings.mode = .track → HitCounted s t i counted c)))

/-! ## Ports -/

/-- The law of R143: a port in READY or SELECTED holds exactly one ready response and no request on its way; in
PREPARING and EARLY a request on its way or its response is held; what is on its way is a request of this port; and a
selection that the port ignores finds it in READY (R164). -/
structure Port.LinkLegal (q : Port) (p : PortId) : Prop where
  ready : q.link = .ready ∨ q.link = .selected → q.prepared = true
  prepared : q.prepared = true → q.response.isSome = true ∧ q.arriving = none
  preparing : q.link = .preparing → q.prepared = false
  waits : q.prepared = false → q.response.isSome = true ∨ q.arriving.isSome = true
  own : ∀ a, q.arriving = some a → ∃ tag c payload, requestParts a.request = some (p, tag, c, payload)
  ignores : q.ignoring = true → q.link = .ready

/-- Every port's link is legal. -/
def State.LinksLegal (s : State) : Prop := ∀ p, (s.port p).LinkLegal p

/-! ## What events may change -/

/-- A port as a part of an event of the engine may leave it: as it was, or with its DONE flag set. -/
def DoneOnly (q r : Port) : Prop := r = q ∨ r = { q with flags := q.flags ||| 0b0000100 }

/-- The frame of every part of an event of the engine: everything but the slots' course, the stamps in flight, the unit and
DONE flags stands. Plans and plan generations stay, and a slot in IDLE stays there. -/
structure EngineFrame (s t : State) : Prop where
  rest : t = { s with slots := t.slots, unit := t.unit, ports := t.ports, stamps := t.stamps }
  ports : ∀ p, DoneOnly (s.port p) (t.port p)
  plans : ∀ n, (t.slot n).plan = (s.slot n).plan ∧ (t.slot n).planGen = (s.slot n).planGen
  idle : ∀ n, (s.slot n).state = .idle → (t.slot n).state = .idle

/-- Whether DONE is told to port p: its subscription holds a slot with a SINGLE plan that has returned to IDLE (R77, R131,
R166). -/
def State.DoneTold (s t : State) (p : PortId) : Prop :=
  ∃ n : SlotId, (s.port p).subscription.getLsbD n = true ∧ (s.slot n).plan.repeatMode = .single
    ∧ (s.slot n).state ≠ .idle ∧ (t.slot n).state = .idle

/-- What every event of the engine keeps, and the flags it sets: the frame above, and DONE is set at exactly the ports to
which it is told, and nothing else of any port changes (R77, R131, R166). -/
structure EngineStep (s t : State) : Prop extends EngineFrame s t where
  told : ∀ p, (s.DoneTold t p → t.port p = { s.port p with flags := (s.port p).flags ||| 0b0000100 })
    ∧ (¬s.DoneTold t p → t.port p = s.port p)

/-- What the grant at the end of an event can make of slot m: nothing; or, unless the arithmetic unit serves an entry taken
earlier, it takes the finished entry; or, where the unit took the slot's entry at this very instant, that grant is taken
back, which gives the entry back and, where another had been placed since, counts that one as lost (R76, R99, R100, log
entry 18). -/
def State.GrantOnly (s : State) (m : SlotId) (x y : Slot) : Prop :=
  y = x
  ∨ (x.finished ≠ none ∧ y = { x with finished := none } ∧ ∀ v, s.unit.service = some v → v.takenAt = s.rawTime)
  ∨ ∃ v, s.unit.service = some v ∧ v.slot = m ∧ v.takenAt = s.rawTime ∧ y = { x with
      finished := some v.outcome
      lost := match x.finished with
        | none => x.lost
        | some o => BitVec.ofNat 32 (min (o.lost.toNat + (1 + x.lost.toNat)) 4294967295) }

/-- What the placement of an outcome makes of a slot's finished entry and lost count (R76, R102): an empty entry takes the
outcome, which carries the lost count with it; a held entry stays, and the lost count rises by one, held at its maximum. -/
def Slot.Placed (x y : Slot) (o : Outcome) : Prop :=
  (x.finished = none → y.finished = some { o with lost := x.lost } ∧ y.lost = 0)
  ∧ (x.finished ≠ none → y.finished = x.finished ∧ y.lost.toNat = min (x.lost.toNat + 1) 4294967295)

/-- What a grant from slots that stand as x leaves, while the unit is FREE (R98 to R100, R113): the unit takes the finished
entry of the slot that round robin gives, and no other slot changes; with no slot waiting it stays FREE. -/
def State.GrantsNext (s t : State) (x : SlotId → Slot) : Prop :=
  match nextGrant s.unit.lastGranted (allSlots.filter fun n => (x n).finished.isSome) with
  | none => t.unit = ⟨none, s.unit.lastGranted⟩ ∧ ∀ m, t.slot m = x m
  | some n =>
    (∃ o, (x n).finished = some o ∧ t.unit = ⟨some ⟨n, o, s.rawTime, s.unit.lastGranted⟩, n⟩)
    ∧ ∀ m, t.slot m = if m = n then { x n with finished := none } else x m

/-- What becomes of an outcome that slot n forms, whatever the arithmetic unit does (R76, R99 to R101): it is placed, and
the grant of the instant follows, from the state in which the event leaves the slots. While the unit serves an entry taken
earlier, that grant changes nothing; while the unit is FREE, it takes the entry of the slot that round robin gives, and
where that slot is n, this very outcome if the entry was empty. -/
def State.OutcomeFormed (s t : State) (n : SlotId) (o : Outcome) : Prop :=
  ∃ left : State, left.unit = s.unit ∧ left.rawTime = s.rawTime ∧ (s.slot n).Placed (left.slot n) o
    ∧ t.slots = left.grant.slots ∧ t.unit = left.grant.unit
    ∧ (∀ v, s.unit.service = some v → v.takenAt ≠ s.rawTime → t.slots = left.slots ∧ t.unit = s.unit)
    ∧ (s.unit.service = none → s.GrantsNext t left.slot)

/-- No slot holds a stamp that was offered, or a finish of its arm slot that came, at this very instant. -/
def State.Quiet (s : State) : Prop :=
  ∀ n, (∀ f ∈ (s.slot n).fresh, f.offeredAt ≠ s.horizonTime) ∧ ∀ e ∈ (s.slot n).finishes, e.at' ≠ s.horizonTime

/-- Whether horizon time has reached a time (R6). -/
def State.Reached (s : State) (t : Tick) : Prop := s.horizonStarted = true ∧ (s.horizonTime - t).toNat < 2 ^ 63

/-- Whether a plan can use a stamp, as start, stop or tag or as arm stamp (R23, R56). -/
def Plan.Takes (p : Plan) (st : Stamp) : Prop :=
  (p.kind ≠ .totalize ∧ st.input = p.inputA ∧ st.sense = p.senseA)
  ∨ (p.kind = .interval ∧ st.input = p.inputB ∧ st.sense = p.senseB)
  ∨ (p.armSource = .inputEdge ∧ st.input = p.armInput ∧ st.sense = p.armSense)

/-- Slot n has been offered no stamp at this very instant that its plan can use; stamps it has no use for may have come. -/
def State.NoOtherStamp (s : State) (n : SlotId) : Prop :=
  ∀ f ∈ (s.slot n).fresh, f.offeredAt = s.horizonTime → ¬(s.slot n).plan.Takes f.st

/-- No stamp that slot n has been offered at this very instant can change what the event does to it, and where the slot may
come back to wait for a finish of its arm slot, the instant has seen nothing else. -/
def State.NoOtherCause (s : State) (n : SlotId) : Prop :=
  s.NoOtherStamp n
  ∧ ((s.slot n).plan.repeatMode = .triggered → (s.slot n).plan.armSource = .slotDone → s.Quiet)

/-- What an arm instant a makes of a slot (R69, R74, R87 to R89, R91, R93, R94): the first measurement begins, which under
RECIPROCAL is the first of its run, and waits for a start at or after a; or, for TOTALIZE, the gate is fixed to open at the
first coarse boundary at or after a. -/
def Slot.ArmedAt (x y : Slot) (a : Tick) (stepped locked : Bool) : Prop :=
  y.plan = x.plan ∧ y.planGen = x.planGen
  ∧ y.data.armInstant = some a ∧ y.data.start = none ∧ y.data.startSteps = 0 ∧ y.data.previousTag = none
  ∧ y.data.tags = 0
  ∧ match x.plan.kind with
    | .reciprocal =>
      y.state = .starting ∧ y.data.gateOpen = some a ∧ y.data.gateClose = a + x.plan.gate * 256
        ∧ y.data.runOrigin = a ∧ y.data.gateIndex = 1 ∧ y.data.startFrom = a ∧ y.data.startStrict = false
        ∧ y.data.deadline = a + x.plan.waitLimit * 256 ∧ y.data.marks = ⟨stepped, !locked, false⟩
    | .interval =>
      y.state = .starting ∧ y.data.startFrom = a ∧ y.data.startStrict = false
        ∧ y.data.deadline = a + x.plan.waitLimit * 256 ∧ y.data.marks = ⟨stepped, !locked, false⟩
    | .totalize =>
      y.state = .arming ∧ y.data.marks = ⟨stepped, false, false⟩
        ∧ ∃ g, y.data.gateOpen = some g ∧ g.toNat % 256 = 0 ∧ (g - a).toNat < 256
          ∧ y.data.gateClose = g + x.plan.gate * 256
    | .timetag => y.state = .tagging ∧ y.data.marks = ⟨stepped, !locked, false⟩

/-- What a TRIGGERED finish at horizon time h makes of a slot (R77, R82): under IMMEDIATE it arms at once, with h as its arm
instant; else it waits in ARMING. Either way ARMING is entered at h, and every count and position is discarded. -/
def Slot.RearmedAt (x y : Slot) (h : Tick) (locked : Bool) : Prop :=
  (x.plan.armSource = .immediate → x.ArmedAt y h false locked ∧ y.data.armingSince = h)
  ∧ (x.plan.armSource ≠ .immediate → y.plan = x.plan ∧ y.planGen = x.planGen ∧ y.state = .arming
      ∧ y.data = { MeasData.empty with armingSince := h })

/-- What an arm instant a makes of a slot where a stamp of the first role, offered with its time-scale time at that instant,
is judged under it (R7, R71, R72, R74, R87 to R89, R91, R94, R95): it is the start of the new measurement, or the first tag of
the new run. RECIPROCAL is in GATING where the start is before gate close, and else in STOPPING; INTERVAL is in STOPPING;
TIMETAG, where the tag does not reach the quota, has it as its previous tag and begins the wait for the next. -/
def Slot.StartedAt (x y : Slot) (a : Tick) (st : Stamp) (scale : Tick) (locked : Bool) : Prop :=
  let close := a + x.plan.gate * 256
  let early := (close - st.corrected).toNat < 2 ^ 63 ∧ st.corrected ≠ close
  (x.plan.kind = .reciprocal ∨ x.plan.kind = .interval →
      y.plan = x.plan ∧ y.planGen = x.planGen ∧ y.data.armInstant = some a ∧ y.data.start = some (.stamp st scale)
        ∧ y.data.marks = ⟨false, !locked, false⟩)
  ∧ (x.plan.kind = .reciprocal → y.data.gateOpen = some a ∧ y.data.gateClose = close ∧ y.data.runOrigin = a
      ∧ y.data.gateIndex = 1
      ∧ (early → y.state = .gating)
      ∧ (¬early → y.state = .stopping ∧ y.data.deadline =
          (if (st.corrected - close).toNat < 2 ^ 63 then st.corrected else close) + x.plan.waitLimit * 256))
  ∧ (x.plan.kind = .interval → y.state = .stopping ∧ y.data.deadline = st.corrected + x.plan.waitLimit * 256)
  ∧ (x.plan.kind = .timetag → (x.plan.repeatMode = .continuous ∨ ∀ q, x.plan.quota = some q → 1 < q.toNat) →
      y.state = .tagging ∧ y.data.previousTag = some ⟨st.edgeCount, st.calGen⟩ ∧ y.data.tags = 1
        ∧ y.data.marks = ⟨false, !locked, false⟩)

/-- What the offer of a stamp, with its time-scale time, makes of a slot that arms at that very stamp (R71, R72, R85, R86):
where the stamp also meets the first role's condition, it is the start of the new measurement, or the first tag of the new
run. -/
def Slot.ArmedByStamp (x y : Slot) (st : Stamp) (scale : Tick) (locked : Bool) : Prop :=
  let same := st.input = x.plan.inputA ∧ st.sense = x.plan.senseA
  (¬same ∨ x.plan.kind = .totalize → x.ArmedAt y st.corrected false locked)
  ∧ (same → x.StartedAt y st.corrected st scale locked)

/-- What the first tag of a run makes of slot n and of the part, where the run began at this very instant (R73, R76, R77, R94,
R95): its outcome is formed, with edges-since-previous 0, and where it reaches a quota of 1, a SINGLE slot returns to IDLE and
a TRIGGERED one re-arms at the instant. -/
def State.FirstTagged (s t : State) (n : SlotId) (first : Endpoint) (rearmed : Prop) : Prop :=
  let x := s.slot n
  let last := x.plan.repeatMode ≠ .continuous ∧ ∃ q, x.plan.quota = some q ∧ q.toNat ≤ 1
  s.OutcomeFormed t n {
    slot := n, kind := .timetag, reportAs := x.plan.reportAs, planGen := x.planGen, result := .valued
    flags := ⟨false, false, false, !s.horizonLocked, false, false⟩
    start := some first, stop := none, edgesSince := some 0, lost := 0 }
  ∧ (last → x.plan.repeatMode = .single → (t.slot n).state = .idle
      ∧ ∀ p, (s.port p).subscription.getLsbD n = true → (t.port p).flags.getLsbD 2 = true)
  ∧ (last → x.plan.repeatMode = .triggered → rearmed)

/-- Whether a stamp, offered with its time-scale time, is a valued finish of the slot's measurement: the stop of a
RECIPROCAL (R87) or an INTERVAL (R91) measurement, or a tag (R94). GATING and STOPPING are the states that hold a start; an
INTERVAL slot comes into STOPPING alone (R69). -/
def Slot.EndsAt (x : Slot) (st : Stamp) (scale : Tick) : Prop :=
  (x.plan.kind = .reciprocal ∧ (x.state = .gating ∨ x.state = .stopping) ∧ st.input = x.plan.inputA
      ∧ st.sense = x.plan.senseA ∧ (st.corrected - x.data.gateClose).toNat < 2 ^ 63
      ∧ ∃ first, x.data.start = some first ∧ (st.corrected - first.time).toNat < 2 ^ 63 ∧ st.corrected ≠ first.time)
  ∨ (x.plan.kind = .interval ∧ (x.state = .gating ∨ x.state = .stopping) ∧ st.input = x.plan.inputB
      ∧ st.sense = x.plan.senseB
      ∧ ∃ first, x.data.start = some first ∧ (st.corrected - first.time).toNat < 2 ^ 63 ∧ first ≠ .stamp st scale)
  ∨ (x.plan.kind = .timetag ∧ x.state = .tagging ∧ st.input = x.plan.inputA ∧ st.sense = x.plan.senseA
      ∧ match x.data.previousTag with
        | none => ∃ a, x.data.armInstant = some a ∧ (st.corrected - a).toNat < 2 ^ 63
        | some prev => x.plan.prescale.toNat ≤ (st.edgeCount - prev.edgeCount).toNat)

/-- Whether a stamp, offered with its time-scale time, meets a condition of the slot's state (R71): as arm stamp (R85), as
start (R87, R91, R92), or as stop or tag (R87, R91, R94). -/
def Slot.Meets (x : Slot) (st : Stamp) (scale : Tick) : Prop :=
  (x.state = .arming ∧ x.plan.armSource = .inputEdge ∧ x.data.gateOpen = none ∧ st.input = x.plan.armInput
      ∧ st.sense = x.plan.armSense ∧ (st.corrected - x.data.armingSince).toNat < 2 ^ 63)
  ∨ (x.state = .starting ∧ st.input = x.plan.inputA ∧ st.sense = x.plan.senseA
      ∧ (st.corrected - x.data.startFrom).toNat < 2 ^ 63
      ∧ (x.data.startStrict = true → st.corrected ≠ x.data.startFrom))
  ∨ x.EndsAt st scale

/-- Whether a slot waits in ARMING for a finish of its arm slot (R86). -/
def Slot.WaitsForFinish (x : Slot) : Prop :=
  x.state = .arming ∧ x.plan.armSource = .slotDone ∧ x.data.gateOpen = none

/-- Whether a slot ignores a stamp offered at horizon time h: neither it nor a stamp that the slot was offered before it at h
meets a condition of the slot's state (R71, R72). -/
def Slot.Ignores (x : Slot) (st : Stamp) (scale h : Tick) : Prop :=
  ¬x.Meets st scale ∧ ∀ f ∈ x.fresh, f.offeredAt = h → ¬x.Meets f.st f.scale

/-- What a TRIGGERED finish at horizon time h makes of a slot where the start of the finished measurement is itself a stamp
of this instant: under INPUT_EDGE it arms the slot again when it is of the arm input and sense at or after h (R71, R72,
R85); under IMMEDIATE it does not start the next measurement (DEDUCED, log entry 17). -/
def Slot.RearmedBeside (x y : Slot) (h : Tick) (locked : Bool) (start : Stamp) (scale : Tick) : Prop :=
  let again := x.plan.armSource = .inputEdge ∧ start.input = x.plan.armInput ∧ start.sense = x.plan.armSense
    ∧ (start.corrected - h).toNat < 2 ^ 63
  (again → x.ArmedByStamp y start scale locked) ∧ (¬again → x.RearmedAt y h locked)

/-- What the stop of an INTERVAL measurement makes of its slot n, but for a TRIGGERED one's re-arming (R54, R73, R77, R91,
R92), where m are its marks before the stop, and stepped says whether a step notice lies between the two offers: the
outcome, with its duration; the move to IDLE under SINGLE, with DONE at the ports that subscribe; and the next measurement
under CONTINUOUS, which waits for a start later than the stop. -/
def State.IntervalEnds (s t : State) (n : SlotId) (start stop : Stamp) (startScale stopScale : Tick) (m : Marks)
    (stepped : Bool) : Prop :=
  let x := s.slot n
  let y := t.slot n
  let o : Outcome := {
    slot := n, kind := .interval, reportAs := x.plan.reportAs, planGen := x.planGen, result := .valued
    flags := ⟨false, false, m.timeStepped || stepped, m.refFault || !s.horizonLocked,
      m.calChanged || decide (start.input = stop.input ∧ start.calGen ≠ stop.calGen), false⟩
    start := some (.stamp start startScale), stop := some (.stamp stop stopScale), edgesSince := none, lost := 0 }
  s.OutcomeFormed t n o ∧ o.record.duration = some (stop.corrected - start.corrected)
  ∧ (x.plan.repeatMode = .single → y.state = .idle
      ∧ ∀ p, (s.port p).subscription.getLsbD n = true → (t.port p).flags.getLsbD 2 = true)
  ∧ (x.plan.repeatMode = .continuous → y.state = .starting ∧ y.data.start = none
      ∧ y.data.startFrom = stop.corrected ∧ y.data.startStrict = true
      ∧ y.data.deadline = stop.corrected + x.plan.waitLimit * 256 ∧ y.data.startSteps = 0
      ∧ y.data.marks = ⟨false, !s.horizonLocked, false⟩)

/-- A slot whose stamps of this very instant have one more step notice after their offer (R8). -/
def State.noticePassed (s : State) (x : Slot) : Slot :=
  { x with fresh := x.fresh.map fun f =>
      if f.offeredAt = s.coarse ++ s.tick - 73728 then { f with steps := f.steps + 1 } else f }

/-- What a step notice makes of a slot (R8, R11, R84): a measurement past its start or its first tag is marked
TIME_STEPPED; a slot waiting under AT_TIME arms at once, marked from its arming, when a forward step has reached its arm
time; every other slot is as it was. The stamps offered before the notice at its instant, which the slot may still take,
are marked as offered before it. -/
def StepSeen (s t : State) (forward : Bool) (n : SlotId) : Prop :=
  let x := s.slot n
  let h := s.coarse ++ (0 : BitVec 8) - 73728
  let spanned := x.state = .gating ∨ x.state = .stopping ∨ (x.state = .tagging ∧ x.data.previousTag ≠ none)
  let waits := x.state = .arming ∧ x.plan.armSource = .atTime ∧ x.data.gateOpen = none
  let passed := s.horizonStarted = true ∧ (h + t.offset - x.plan.armTime).toNat < 2 ^ 63
  (spanned → t.slot n =
      s.noticePassed { x with data := { x.data with marks := { x.data.marks with timeStepped := true } } })
  ∧ (waits ∧ forward = true ∧ passed → x.ArmedAt (t.slot n) h true s.horizonLocked ∧ (t.slot n).fresh = []
      ∧ (t.slot n).lost = x.lost ∧ (t.slot n).finished = x.finished)
  ∧ (¬spanned ∧ ¬(waits ∧ forward = true ∧ passed) → t.slot n = s.noticePassed x)

/-! ## What is due -/

/-- Whether a command is an event of the part's own that is due now: its instant has come, and its condition holds (R3, R4,
R6, R7, R17, R18, R25, R29, R72, R82, R83, R87, R88, R93). That a service and a preparation end by themselves at their
bounds (R100, R156) is the model's choice (log entry 14). -/
def State.Due (s : State) : Instr → Prop
  | .horizonStart => s.horizonStarted = false ∧ 73728 ≤ s.rawTime.toNat
  | .referenceAbsent => s.refPresent = true ∧ 250 ≤ s.gapTimer
  | .referenceLock => s.refPresent = true ∧ 2500000 ≤ s.presenceTimer ∧ s.refState ≠ .locked
  | .horizonRefChange => ∃ c, s.refChanges.head? = some c ∧ s.Reached c.changeTime
  | .windowEndQualification i => ∃ k, (s.input i).candidate = some k ∧ (s.rawTime - k.windowEnd).toNat < 2 ^ 63
  | .deadTimeEnd i => ∃ c, (s.input i).blockedUntil = some c ∧ (s.coarse - c).toNat < 2 ^ 55
  | .inputLevelChange i src level within => src = .test ∧ within = 0 ∧ (s.input i).settings.source = .test
      ∧ level = (if s.coarse.toNat % 128 < 64 then .high else .low) ∧ (s.input i).watched ≠ level
  | .totalizeGateOpen n => (s.slot n).state = .arming ∧ (s.slot n).plan.kind = .totalize
      ∧ ∃ g, (s.slot n).data.gateOpen = some g ∧ s.Reached g
  | .totalizeGateClose n => (s.slot n).state = .gating ∧ (s.slot n).plan.kind = .totalize
      ∧ s.Reached (s.slot n).data.gateClose
  | .immediateArmInstant n => (s.slot n).state = .arming ∧ (s.slot n).plan.armSource = .immediate
      ∧ (s.slot n).data.gateOpen = none ∧ ∃ a, (s.slot n).data.armInstant = some a ∧ s.Reached a
  | .atTimeArming n => (s.slot n).state = .arming ∧ (s.slot n).plan.armSource = .atTime
      ∧ (s.slot n).data.gateOpen = none ∧ s.horizonStarted = true
      ∧ (s.horizonTime + s.offset - (s.slot n).plan.armTime).toNat < 2 ^ 63
  | .gateClose n => (s.slot n).state = .gating ∧ (s.slot n).plan.kind = .reciprocal
      ∧ s.Reached (s.slot n).data.gateClose
  | .stampOffer i => ∃ st, s.dueStamp i = some st
  | .deadlineExpiry n => ((s.slot n).state = .starting ∨ (s.slot n).state = .stopping)
      ∧ ((s.slot n).plan.kind = .reciprocal ∨ (s.slot n).plan.kind = .interval)
      ∧ s.Reached (s.slot n).data.deadline ∧ ∀ st ∈ s.stamps, ¬s.Reached st.corrected
  | .serviceCompletion => ∃ v, s.unit.service = some v ∧ (s.rawTime - (v.takenAt + 32000)).toNat < 2 ^ 63
  | .preparationEnd p => ((s.port p).link = .preparing ∨ ((s.port p).link = .early ∧ (s.port p).prepared = false))
      ∧ (s.port p).arriving = none ∧ (s.port p).response ≠ none
      ∧ (s.rawTime - ((s.port p).prepStart + 128000)).toNat < 2 ^ 63
  | _ => False

/-- Whether the request that a port has taken has come to its arrival (R156). -/
def State.Arrived (s : State) (p : PortId) : Prop :=
  ∃ a, (s.port p).arriving = some a ∧ (s.coarse - a.coarse).toNat < 2 ^ 55

/-! ## Answers -/

/-- A port with a new pending response and nothing else changed. -/
def Port.answer (q : Port) (status : Status) (tag command : Byte) (payload : List Byte) : Port :=
  { q with response := some ⟨status, tag, command, payload⟩ }

/-- A port with its CHANGE flag set and nothing else changed. -/
def Port.noticed (q : Port) : Port := { q with flags := q.flags ||| 0b0001000 }

/-- The ports after a change that port p applied: p holds its answer, and every other port has its CHANGE flag set. -/
def ChangeNoticed (s t : State) (p : PortId) (answered : Port) : Prop :=
  t.port p = answered ∧ ∀ q, q ≠ p → t.port q = (s.port q).noticed

/-- Whether the expected generation a request may carry passes the check against the one in force (R160). -/
def Passes (expected : Option Gen) (inForce : Gen) : Prop := expected = none ∨ expected = some inForce

/-! ## All laws -/

/-- The legal states: every law above at once. -/
structure State.Legal (s : State) : Prop where
  log : s.LogLaws
  guard : s.UsageGuard
  plans : s.PlansLegal
  calibration : s.CalibrationLegal
  links : s.LinksLegal
  edges : s.EdgesLegal
  horizon : s.HorizonLegal

end Sys2Proof.Machine
end

