-- ==== Sys2Proof/Certificates/Slice0/Obligations.lean ====
section
/-! DEFINITION. The statements for the provers, in the order of the chapters of spec/. Each names the rule it formalises;
where a statement rests on a choice of the model, its docstring says so and names the log entry. Three choices run through
many: a request row is the arrival of its request (log entry 4), an event whose condition does not hold changes nothing
(log entry 3), and the code of a captured edge is read from a delay line whose delays are free (log entry 5). -/

open Sys2Proof Sys2Proof.Machine

/-! ## The queue and the step -/

/-- A step with a command at the front of the queue is exec of it on the state with the queue's rest. -/
def Obligations.StepRunsFrontCommand : Prop :=
  ∀ (c : Instr) (s : State), step { s with pending := c :: s.pending } = exec c s

/-- Every command completes with a next state, and none touches the queue. -/
def Obligations.EveryCommandCompletes : Prop :=
  ∀ (c : Instr) (s : State), ∃ t, exec c s = .next t ∧ t.pending = s.pending

/-- A step on an empty queue. Where an event of the part's own is due, one that is due takes place; which of several is the
model's choice (log entry 13). Else the lowest-numbered port whose taken request has come to its arrival hands it over, and
the request takes place (R156, R159). Else one tick of raw time passes; with the last tick of a coarse period the coarse
count advances, the gap timer counts the period, so does the presence timer while the reference is present, and each input
lets go the edges that lie more than 288 coarse periods back, which the horizon has passed (R1, R3, R6, R22). That a step
on an empty queue is the passing of time is the model's choice (log entry 2). -/
def Obligations.EmptyQueueSteps : Prop :=
  ∀ s : State, s.pending = [] →
    ((∃ c, s.Due c) → ∃ c, s.Due c ∧ step s = exec c s)
    ∧ ((∀ c, ¬s.Due c) →
      (∀ p a, (s.port p).arriving = some a → (s.coarse - a.coarse).toNat < 2 ^ 55 → (∀ q, q < p → ¬s.Arrived q) →
        step s = exec a.request (s.setPort p { s.port p with arriving := none }))
      ∧ ((∀ p, ¬s.Arrived p) → ∃ t, step s = .next t ∧ t.rawTime = s.rawTime + 1
        ∧ t = { s with
            coarse := t.coarse, tick := t.tick, gapTimer := t.gapTimer, presenceTimer := t.presenceTimer
            inputs := t.inputs }
        ∧ (s.tick ≠ 255 → t.coarse = s.coarse ∧ t.gapTimer = s.gapTimer ∧ t.presenceTimer = s.presenceTimer
            ∧ t.inputs = s.inputs)
        ∧ (s.tick = 255 → t.coarse = s.coarse + 1 ∧ t.gapTimer = s.gapTimer + 1
            ∧ t.presenceTimer = (if s.refPresent then s.presenceTimer + 1 else 0)
            ∧ ∀ i, t.input i = { s.input i with
                recent := (s.input i).recent.filter fun e => decide ((s.coarse + 1 - e.period).toNat ≤ 288) })))

/-! ## Device reset -/

/-- What the release of device reset leaves (R7, R15, R38, R50, R55, R68, R97, R98, R142, R164, R176): the spec's values, for
every strap and pin level. While reset was asserted each port shifted out ones only, for every bit its controller clocked;
a selection that is in progress at the release is ignored to its end. -/
def Obligations.DeviceResetValues : Prop :=
  ∀ (a b : BitVec 4) (lines : ResetLines) (s : State),
    ∃ t, exec (.deviceReset a b lines) s = .next t
    ∧ MeasData.empty = ⟨0, none, none, 0, 0, 0, 0, false, 0, none, 0, none, 0, ⟨false, false, false⟩⟩
    ∧ t.coarse = 0 ∧ t.rawTime = 0 ∧ t.refState = .acquiring ∧ t.horizonRef = .acquiring ∧ t.refPresent = false
    ∧ t.presenceTimer = 0 ∧ t.gapTimer = 0 ∧ t.refChanges = [] ∧ t.horizonStarted = false ∧ t.offset = 0 ∧ t.timeGen = 0 ∧ t.stamps = []
    ∧ (∀ i, (t.input i).settings = ⟨.pin, 0, 0, .fixed⟩ ∧ (t.input i).settingsGen = 0
        ∧ (t.input i).qualified = (if lines.pins.getLsbD i then .high else .low) ∧ (t.input i).candidate = none
        ∧ (t.input i).rising = 0 ∧ (t.input i).falling = 0 ∧ (t.input i).rejects = 0
        ∧ (t.input i).recent = [] ∧ (t.input i).blockedUntil = none ∧ (t.input i).state = .calibrating ∧ (t.input i).calGen = 0
        ∧ (t.input i).lastOutcome = .none ∧ hitTotal (t.input i).histogram = 0
        ∧ ∀ c : Code, (t.input i).table[c].toNat = min 255 (c.val * 256 / 125))
    ∧ (∀ n, (t.slot n).state = .idle ∧ (t.slot n).planGen = 0 ∧ (t.slot n).lost = 0 ∧ (t.slot n).finished = none
        ∧ (t.slot n).data = MeasData.empty ∧ (t.slot n).fresh = [] ∧ (t.slot n).finishes = [] ∧ (t.slot n).usedUp = []
        ∧ (t.slot n).plan = ⟨.reciprocal, 0, .rising, 0, .rising, 250000000, 250000000, 1, none, .frequency, .immediate,
            0, 0, .rising, 0, .single⟩)
    ∧ t.unit.service = none ∧ t.unit.lastGranted = 15
    ∧ t.log.held = [] ∧ t.log.nextSeq = 0 ∧ t.log.policy = .overwrite ∧ t.log.gen = 0 ∧ (∀ n : SlotId, t.latest[n] = none)
    ∧ ∀ p, (t.port p).link = .ready ∧ (t.port p).response = some ⟨.none, 0, 0, []⟩ ∧ (t.port p).badFrames = 0
        ∧ (t.port p).flags = 0 ∧ (t.port p).mask = 0 ∧ (t.port p).subscription = 0 ∧ (t.port p).cursor = 0
        ∧ (t.port p).threshold = 1 ∧ (t.port p).skipped = 0 ∧ (t.port p).prepared = true ∧ (t.port p).arriving = none
        ∧ (t.port p).shiftedOut = List.replicate lines.clocked[p] true ∧ (t.port p).ignoring = lines.selected.getLsbD p

/-- A port's rights follow its two straps (R153), hold until the next device reset, are what NULL returns, and a change
request whose right the port lacks is answered NOT_PERMITTED and changes nothing else. -/
def Obligations.RightsFollowStraps : Prop :=
  (∀ (a b : BitVec 4) (lines : ResetLines) (s : State) (p : PortId),
      ∃ t, exec (.deviceReset a b lines) s = .next t
      ∧ (t.port p).rights = (match a.getLsbD p, b.getLsbD p with
        | false, false => 0b000 | false, true => 0b001 | true, false => 0b011 | true, true => 0b111))
  ∧ (∀ (c : Instr) (s t : State) (p : PortId), exec c s = .next t → (∀ a b l, c ≠ .deviceReset a b l) →
      (t.port p).rights = (s.port p).rights)
  ∧ (∀ (p : PortId) (tag : Byte) (s : State), ∃ t, exec (.null p tag) s = .next t
      ∧ (t.port p).response.map (fun r => r.payload[1]?) = some (some ((s.port p).rights.setWidth 8)))
  ∧ (∀ (p : PortId) (tag code : Byte) (s : State) (c : Instr), (s.port p).rights.getLsbD 2 = false →
      (∃ g v, c = .setTime p tag g v ∧ code = 0x11) ∨ (∃ g v, c = .stepTime p tag g v ∧ code = 0x12) →
      exec c s = .next (s.setPort p ((s.port p).answer .notPermitted tag code [])))
  ∧ (∀ (p : PortId) (tag code : Byte) (s : State) (c : Instr), (s.port p).rights.getLsbD 1 = false →
      (∃ i g src w k m, c = .setInput p tag i g src w k m ∧ code = 0x21) ∨ (∃ i, c = .calibrate p tag i ∧ code = 0x22) →
      exec c s = .next (s.setPort p ((s.port p).answer .notPermitted tag code [])))
  ∧ (∀ (p : PortId) (tag code : Byte) (s : State) (c : Instr), (s.port p).rights.getLsbD 0 = false →
      (∃ n g items, c = .writePlan p tag n g items ∧ code = 0x31) ∨ (∃ n, c = .arm p tag n ∧ code = 0x32)
        ∨ (∃ n, c = .stop p tag n ∧ code = 0x33) ∨ (∃ g pol, c = .setLog p tag g pol ∧ code = 0x44)
        ∨ (c = .resetMeasurement p tag ∧ code = 0x45) →
      exec c s = .next (s.setPort p ((s.port p).answer .notPermitted tag code [])))

/-! ## Time scale and reference -/

/-- A reference edge returns the gap timer to 0, and one that ends an absence starts the presence count again from 0. The
reference becomes absent when the gap timer reaches 250: the presence timer returns to 0, and LOCKED moves to LOST. It
locks when the presence timer reaches 2,500,000 in ACQUIRING or LOST. Each change of state sets REF at every port and is
on its way to the horizon with the raw time of its coarse period (R3, R4, R5, R7). R3 does not say which comes first where
an edge falls at the very instant at which the gap timer reaches 250: that the edge, taken before the absence, keeps the
reference present and its presence count is the model's choice (log entry 31). -/
def Obligations.ReferenceTimersMoveState : Prop :=
  (∀ s : State, exec .referenceEdge s = .next { s with
      gapTimer := 0, refPresent := true, presenceTimer := if s.refPresent then s.presenceTimer else 0 })
  ∧ (∀ s : State, s.refPresent = true → 250 ≤ s.gapTimer →
      (s.refState ≠ .locked → exec .referenceAbsent s = .next { s with refPresent := false, presenceTimer := 0 })
      ∧ (s.refState = .locked → ∃ t, exec .referenceAbsent s = .next t
          ∧ t = { s with
              refPresent := false, presenceTimer := 0, refState := .lost
              refChanges := s.refChanges ++ [⟨s.coarse ++ (0 : BitVec 8), .lost⟩], ports := t.ports }
          ∧ ∀ p, t.port p = { s.port p with flags := (s.port p).flags ||| 0b0100000 }))
  ∧ (∀ s : State, s.refPresent = true → 2500000 ≤ s.presenceTimer → s.refState ≠ .locked →
      ∃ t, exec .referenceLock s = .next t
        ∧ t = { s with
            refState := .locked, refChanges := s.refChanges ++ [⟨s.coarse ++ (0 : BitVec 8), .locked⟩], ports := t.ports }
        ∧ ∀ p, t.port p = { s.port p with flags := (s.port p).flags ||| 0b0100000 })

/-- Horizon time is raw time less 73,728 ticks, and starts when raw time has reached that, not before and once (R6). The
oldest reference state change reaches the horizon at the horizon time equal to its change time: the horizon reference state
follows, and a change to other than LOCKED marks REF_FAULT on every measurement in flight (R7). At the present instant, which
may be the first or the last of a span, the horizon counts as LOCKED when the horizon reference state is LOCKED; but where a
change on its way has its change time at this very instant, by the last such change. That it counts as come, and that the
later of two with one change time stands, is the model's choice (log entries 19 and 34). -/
def Obligations.HorizonTimeAndReference : Prop :=
  (∀ s : State,
      (s.horizonStarted = false → 73728 ≤ s.rawTime.toNat → exec .horizonStart s = .next { s with horizonStarted := true })
      ∧ (s.horizonStarted = true ∨ s.rawTime.toNat < 73728 → exec .horizonStart s = .next s))
  ∧ (∀ (s : State) (c : RefChange) (rest : List RefChange), s.refChanges = c :: rest → s.horizonStarted = true →
      (s.horizonTime - c.changeTime).toNat < 2 ^ 63 →
      ∃ t, exec .horizonRefChange s = .next t
        ∧ t = { s with horizonRef := c.state, refChanges := rest, slots := t.slots }
        ∧ ∀ n, t.slot n =
            if c.state ≠ .locked ∧ (s.slot n).state ≠ .idle ∧ (s.slot n).state ≠ .arming then
              { s.slot n with
                data := { (s.slot n).data with marks := { (s.slot n).data.marks with refFault := true } } }
            else s.slot n)
  ∧ (∀ s : State, s.rawTime = s.coarse ++ s.tick ∧ s.horizonTime = s.coarse ++ s.tick - 73728
      ∧ (s.horizonStarted = false ∨ (∀ c ∈ s.refChanges, c.changeTime ≠ s.horizonTime) →
        (s.horizonLocked = true ↔ s.horizonRef = .locked))
      ∧ ∀ (earlier later : List RefChange) (c : RefChange), s.horizonStarted = true →
        s.refChanges = earlier ++ c :: later → c.changeTime = s.horizonTime →
        (∀ d ∈ later, d.changeTime ≠ s.horizonTime) → (s.horizonLocked = true ↔ c.state = .locked))

/-- READ_TIME returns the time-scale time at the arrival, the time-scale generation and the reference state (R10);
READ_INPUT the settings, the settings generation, the input state, the counts, the calibration generation, the last
outcome and the hit total (R34); READ_PLAN the sixteen fields as stored, the plan generation and the slot state (R67);
LATEST the newest record of a slot, or nothing where the entry is none (R137); LOG_STATUS, on a legal log, the occupancy,
which is how many records are held, the oldest and the next sequence, the port's own reading state, the policy and the log
generation (R116, R136). An input number above 7 and a slot number above 15 are refused with BAD_VALUE, and nothing is
returned. Each changes the pending response alone; the layouts are those of R183, R186 and R187. Which slot state READ_PLAN
shows at the instant of a TRIGGERED finish under IMMEDIATE is the model's choice (log entry 35). -/
def Obligations.ReadingRequestsReport : Prop :=
  (∀ (p : PortId) (tag : Byte) (s : State),
      exec (.readTime p tag) s = .next (s.setPort p ((s.port p).answer .ok tag 0x10
        (bytesBE 8 (s.coarse ++ (0 : BitVec 8) + s.offset).toNat ++ bytesBE 2 s.timeGen.toNat
          ++ [match s.refState with | .acquiring => (1 : Byte) | .locked => 2 | .lost => 3]))))
  ∧ (∀ (p : PortId) (tag : Byte) (i : InputId) (s : State),
      exec (.readInput p tag (BitVec.ofNat 8 i.val)) s = .next (s.setPort p ((s.port p).answer .ok tag 0x20
        ([(match (s.input i).settings.source with | .pin => (1 : Byte) | .test => 2), (s.input i).settings.width]
          ++ bytesBE 2 ((s.input i).settings.skew.signExtend 16).toNat
          ++ [match (s.input i).settings.mode with | .fixed => (1 : Byte) | .track => 2]
          ++ bytesBE 2 (s.input i).settingsGen.toNat
          ++ [match (s.input i).state with | .ready => (1 : Byte) | .calibrating => 2]
          ++ bytesBE 6 (s.input i).rising.toNat ++ bytesBE 6 (s.input i).falling.toNat ++ bytesBE 4 (s.input i).rejects.toNat
          ++ bytesBE 4 (s.input i).calGen.toNat
          ++ [match (s.input i).lastOutcome with | .none => (0 : Byte) | .passed => 1 | .failed => 2]
          ++ bytesBE 4 (s.input i).histogram.toList.sum))))
  ∧ (∀ (p : PortId) (tag : Byte) (n : SlotId) (s : State),
      exec (.readPlan p tag (BitVec.ofNat 8 n.val)) s = .next (s.setPort p ((s.port p).answer .ok tag 0x30
        (planBlock (s.slot n).plan ++ bytesBE 2 (s.slot n).planGen.toNat
          ++ [match (s.slot n).state with
            | .idle => (0 : Byte) | .arming => 1 | .starting => 2 | .gating => 3 | .stopping => 4 | .tagging => 5]))))
  ∧ (∀ (p : PortId) (tag : Byte) (n : SlotId) (s : State),
      exec (.latest p tag (BitVec.ofNat 8 n.val)) s = .next (s.setPort p ((s.port p).answer .ok tag 0x42
        (match s.latest[n] with | none => [] | some e => recordBytes e.seq e.record))))
  ∧ (∀ (p : PortId) (tag : Byte) (s : State), s.log.Runs →
      exec (.logStatus p tag) s = .next (s.setPort p ((s.port p).answer .ok tag 0x43
        (bytesBE 2 s.log.held.length ++ bytesBE 4 (s.log.nextSeq - BitVec.ofNat 32 s.log.held.length).toNat
          ++ bytesBE 4 s.log.nextSeq.toNat ++ bytesBE 2 (s.port p).subscription.toNat
          ++ bytesBE 4 (s.port p).cursor.toNat ++ bytesBE 2 (s.log.held.countP fun e => (s.port p).wants e)
          ++ bytesBE 2 (s.port p).threshold.toNat ++ bytesBE 4 (s.port p).skipped.toNat
          ++ [match s.log.policy with | .overwrite => (1 : Byte) | .hold => 2] ++ bytesBE 2 s.log.gen.toNat))))
  ∧ (∀ (p : PortId) (tag b : Byte) (s : State),
      (8 ≤ b.toNat → exec (.readInput p tag b) s = .next (s.setPort p ((s.port p).answer .badValue tag 0x20 [])))
      ∧ (16 ≤ b.toNat →
        exec (.readPlan p tag b) s = .next (s.setPort p ((s.port p).answer .badValue tag 0x30 []))
        ∧ exec (.latest p tag b) s = .next (s.setPort p ((s.port p).answer .badValue tag 0x42 []))))

/-- SET_TIME from a port with the TIME right and with no expected generation or the one in force: the time-scale time at
the arrival becomes the carried value, the generation rises by one, every other port has CHANGE set, and a step notice
goes to the slots unless the offset is unchanged, judged forward by the comparison of R2 (R9, R11 to R13). The direction
of a move by exactly 2^63 is left open (log entry 7). -/
def Obligations.SetTimeSetsTimeScale : Prop :=
  ∀ (p : PortId) (tag : Byte) (g : Option Gen) (v : BitVec 64) (s : State),
    (s.port p).rights.getLsbD 2 = true → Passes g s.timeGen →
    ∃ t, exec (.setTime p tag g v) s = .next t
      ∧ t = { s with offset := t.offset, timeGen := s.timeGen + 1, slots := t.slots, ports := t.ports }
      ∧ s.coarse ++ (0 : BitVec 8) + t.offset = v
      ∧ ChangeNoticed s t p
          ((s.port p).answer .ok tag 0x11 (bytesBE 2 (s.timeGen + 1).toNat ++ bytesBE 8 v.toNat))
      ∧ (t.offset = s.offset → t.slots = s.slots)
      ∧ (0 < (t.offset - s.offset).toNat → (t.offset - s.offset).toNat < 2 ^ 63 → ∀ n, StepSeen s t true n)
      ∧ (2 ^ 63 < (t.offset - s.offset).toNat → ∀ n, StepSeen s t false n)

/-- STEP_TIME from a port with the TIME right and with no expected generation or the one in force: the signed amount is
added to the offset, the generation rises by one, also for an amount of 0, every other port has CHANGE set, and a step
notice goes to the slots unless the amount is 0, forward for a positive amount; with another expected generation it is
refused with STALE, carries the generation in force and changes nothing else (R9, R11, R12, R14). -/
def Obligations.StepTimeAddsAmount : Prop :=
  ∀ (p : PortId) (tag : Byte) (g : Option Gen) (v : BitVec 64) (s : State),
    (s.port p).rights.getLsbD 2 = true →
    (¬Passes g s.timeGen → exec (.stepTime p tag g v) s
        = .next (s.setPort p ((s.port p).answer .stale tag 0x12 (bytesBE 2 s.timeGen.toNat))))
    ∧ (Passes g s.timeGen →
    ∃ t, exec (.stepTime p tag g v) s = .next t
      ∧ t = { s with offset := s.offset + v, timeGen := s.timeGen + 1, slots := t.slots, ports := t.ports }
      ∧ ChangeNoticed s t p
          ((s.port p).answer .ok tag 0x12
            (bytesBE 2 (s.timeGen + 1).toNat ++ bytesBE 8 (s.coarse ++ (0 : BitVec 8) + t.offset).toNat))
      ∧ (v = 0 → t.slots = s.slots)
      ∧ (v ≠ 0 → ∀ n, StepSeen s t (decide (0 < v.toInt)) n))

/-- SET_TIME, STEP_TIME, SET_INPUT, WRITE_PLAN and SET_LOG that carry another generation than the one in force are refused
with STALE, return the generation in force and change nothing else (R12, R35, R59, R128, R160).
Input and slot numbers that name nothing are refused with BAD_VALUE (R35, R48, R59, R78, R80).
SET_INPUT and CALIBRATE on an input in CALIBRATING, or one that a slot outside IDLE names, are refused with BUSY, and
SET_INPUT with an unknown source or mode with BAD_VALUE (R32, R35, R48). Each changes the pending response alone. -/
def Obligations.RefusedRequestsChangeNothing : Prop :=
  (∀ (p : PortId) (tag : Byte) (g : Gen) (s : State),
        (∀ v, (s.port p).rights.getLsbD 2 = true → g ≠ s.timeGen →
          exec (.setTime p tag (some g) v) s
              = .next (s.setPort p ((s.port p).answer .stale tag 0x11 (bytesBE 2 s.timeGen.toNat)))
            ∧ exec (.stepTime p tag (some g) v) s
              = .next (s.setPort p ((s.port p).answer .stale tag 0x12 (bytesBE 2 s.timeGen.toNat))))
        ∧ (∀ (i : InputId) src w k m, (s.port p).rights.getLsbD 1 = true → g ≠ (s.input i).settingsGen →
          exec (.setInput p tag (BitVec.ofNat 8 i.val) (some g) src w k m) s
              = .next (s.setPort p ((s.port p).answer .stale tag 0x21 (bytesBE 2 (s.input i).settingsGen.toNat))))
        ∧ (∀ (n : SlotId) items, (s.port p).rights.getLsbD 0 = true → g ≠ (s.slot n).planGen →
          exec (.writePlan p tag (BitVec.ofNat 8 n.val) (some g) items) s
              = .next (s.setPort p ((s.port p).answer .stale tag 0x31 (bytesBE 2 (s.slot n).planGen.toNat))))
        ∧ (∀ pol, (s.port p).rights.getLsbD 0 = true → g ≠ s.log.gen →
          exec (.setLog p tag (some g) pol) s
              = .next (s.setPort p ((s.port p).answer .stale tag 0x44 (bytesBE 2 s.log.gen.toNat)))))
  ∧ (∀ (p : PortId) (tag b : Byte) (s : State),
      (8 ≤ b.toNat →
        (s.port p).rights.getLsbD 1 = true →
          (∀ g src w k m, exec (.setInput p tag b g src w k m) s
              = .next (s.setPort p ((s.port p).answer .badValue tag 0x21 [])))
          ∧ exec (.calibrate p tag b) s = .next (s.setPort p ((s.port p).answer .badValue tag 0x22 [])))
      ∧ (16 ≤ b.toNat →
        (s.port p).rights.getLsbD 0 = true →
          (∀ g items, exec (.writePlan p tag b g items) s
              = .next (s.setPort p ((s.port p).answer .badValue tag 0x31 [])))
          ∧ exec (.arm p tag b) s = .next (s.setPort p ((s.port p).answer .badValue tag 0x32 []))
          ∧ exec (.stop p tag b) s = .next (s.setPort p ((s.port p).answer .badValue tag 0x33 []))))
  ∧ (∀ (p : PortId) (tag : Byte) (i : InputId) (g : Option Gen) (src : Byte) (w k : BitVec 16) (m : Byte) (s : State),
      (s.port p).rights.getLsbD 1 = true → Passes g (s.input i).settingsGen →
      (((s.input i).state = .calibrating ∨ ∃ n, (s.slot n).state ≠ .idle ∧ (s.slot n).plan.names i = true) →
        exec (.setInput p tag (BitVec.ofNat 8 i.val) g src w k m) s
            = .next (s.setPort p ((s.port p).answer .busy tag 0x21
              (bytesBE 2 (s.input i).settingsGen.toNat
                ++ [match (s.input i).state with | .ready => (1 : Byte) | .calibrating => 2])))
          ∧ exec (.calibrate p tag (BitVec.ofNat 8 i.val)) s
            = .next (s.setPort p ((s.port p).answer .busy tag 0x22
                [match (s.input i).state with | .ready => 1 | .calibrating => 2])))
      ∧ ((s.input i).state = .ready → (∀ n, (s.slot n).state = .idle ∨ (s.slot n).plan.names i = false) →
        ¬((src = 1 ∨ src = 2) ∧ (m = 1 ∨ m = 2)) →
        exec (.setInput p tag (BitVec.ofNat 8 i.val) g src w k m) s
            = .next (s.setPort p ((s.port p).answer .badValue tag 0x21 []))))

/-! ## Input channels -/

/-- SET_INPUT that keeps the source, from a port with the INPUT right, to a READY input that no slot outside IDLE names:
the record is stored with width and skew clamped, the generation rises by one, a change from TRACK to FIXED empties the
histogram, every other port has CHANGE set, and nothing else changes (R16, R32, R35 to R37, R53). -/
def Obligations.SetInputStoresRecord : Prop :=
  ∀ (p : PortId) (tag : Byte) (i : InputId) (g : Option Gen) (src : Byte) (w k : BitVec 16) (m : Byte) (mode : CalMode)
      (s : State),
    (s.port p).rights.getLsbD 1 = true → Passes g (s.input i).settingsGen → (s.input i).state = .ready →
    (∀ n, (s.slot n).state = .idle ∨ (s.slot n).plan.names i = false) →
    src = (match (s.input i).settings.source with | .pin => 1 | .test => 2) →
    m = (match mode with | .fixed => 1 | .track => 2) →
    ∃ t, exec (.setInput p tag (BitVec.ofNat 8 i.val) g src w k m) s = .next t
      ∧ t = { s with inputs := t.inputs, ports := t.ports }
      ∧ (∀ j, j ≠ i → t.input j = s.input j)
      ∧ t.input i = { s.input i with
          settings := ⟨(s.input i).settings.source, BitVec.ofNat 8 (min w.toNat 255),
            BitVec.ofInt 11 (max (-1024) (min 1023 k.toInt)), mode⟩
          settingsGen := (s.input i).settingsGen + 1
          histogram := if (s.input i).settings.mode = .track ∧ mode = .fixed then emptyHistogram
            else (s.input i).histogram }
      ∧ ChangeNoticed s t p ((s.port p).answer
          (if 255 < w.toNat ∨ k.toInt < -1024 ∨ 1023 < k.toInt then .clamped else .ok) tag 0x21
          ([src, BitVec.ofNat 8 (min w.toNat 255)]
            ++ bytesBE 2 ((BitVec.ofInt 11 (max (-1024) (min 1023 k.toInt))).signExtend 16).toNat
            ++ [m] ++ bytesBE 2 ((s.input i).settingsGen + 1).toNat))

/-- SET_INPUT that changes the source, on an input with no window end reached: the record is stored with width and skew
clamped, the generation rises by one, a change from TRACK to FIXED empties the histogram, and the new source's level is
presented to the filter. A level equal to the one watched changes nothing more; another one reverts a pending candidate,
forms a candidate of the new width, or under width 0 qualifies at once; its edge time is the raw time of the arrival, with
fine part 0, and it is never captured. Every other port has CHANGE set, and nothing else changes (R2, R18 to R21, R37,
R53). That the new width judges it is a reading of R20 (log entry 16). -/
def Obligations.SourceSwitchPresentsLevel : Prop :=
  ∀ (p : PortId) (tag : Byte) (i : InputId) (g : Option Gen) (src : Source) (w k : BitVec 16) (m : Byte) (mode : CalMode)
      (level : Level) (s : State),
    let x := s.input i
    let width : BitVec 8 := BitVec.ofNat 8 (min w.toNat 255)
    let skew : BitVec 11 := BitVec.ofInt 11 (max (-1024) (min 1023 k.toInt))
    let arrival : Tick := s.coarse ++ (0 : BitVec 8)
    let stored : Input := { x with
      settings := ⟨src, width, skew, mode⟩, settingsGen := x.settingsGen + 1
      histogram := if x.settings.mode = .track ∧ mode = .fixed then emptyHistogram else x.histogram }
    let code : Byte := match src with | .pin => 1 | .test => 2
    (s.port p).rights.getLsbD 1 = true → Passes g x.settingsGen → x.state = .ready →
    (∀ n, (s.slot n).state = .idle ∨ (s.slot n).plan.names i = false) →
    m = (match mode with | .fixed => 1 | .track => 2) → src ≠ x.settings.source →
    (∀ c, x.candidate = some c → ¬(s.rawTime - c.windowEnd).toNat < 2 ^ 63) →
    level = (match src with
      | .pin => x.pinLevel
      | .test => if s.coarse.toNat % 128 < 64 then .high else .low) →
    ∃ t, exec (.setInput p tag (BitVec.ofNat 8 i.val) g code w k m) s = .next t
      ∧ t = { s with inputs := t.inputs, ports := t.ports }
      ∧ (∀ j, j ≠ i → t.input j = s.input j)
      ∧ ChangeNoticed s t p ((s.port p).answer
          (if 255 < w.toNat ∨ k.toInt < -1024 ∨ 1023 < k.toInt then .clamped else .ok) tag 0x21
          ([code, width] ++ bytesBE 2 (skew.signExtend 16).toNat ++ [m] ++ bytesBE 2 (x.settingsGen + 1).toNat))
      ∧ (level = x.watched → t.input i = stored)
      ∧ (level ≠ x.watched → x.candidate ≠ none →
          t.input i = { stored with candidate := none, rejects := x.rejects + 1 })
      ∧ (level ≠ x.watched → x.candidate = none → width ≠ 0 →
          t.input i = { stored with
            candidate := some ⟨senseTo level, arrival, arrival + BitVec.ofNat 64 (width.toNat * 256), none⟩ })
      ∧ (level ≠ x.watched → x.candidate = none → width = 0 →
          t.input i = { stored with
            qualified := level, recent := ⟨senseTo level, s.coarse⟩ :: x.recent
            rising := x.rising + (if level = .high then 1 else 0)
            falling := x.falling + (if level = .low then 1 else 0) })

/-- CALIBRATE from a port with the INPUT right, on a READY input that no slot outside IDLE names: the input enters
CALIBRATING with an empty histogram, every other port has CHANGE set, and nothing else changes (R48). -/
def Obligations.CalibrateStarts : Prop :=
  ∀ (p : PortId) (tag : Byte) (i : InputId) (s : State),
    (s.port p).rights.getLsbD 1 = true → (s.input i).state = .ready →
    (∀ n, (s.slot n).state = .idle ∨ (s.slot n).plan.names i = false) →
    ∃ t, exec (.calibrate p tag (BitVec.ofNat 8 i.val)) s = .next t
      ∧ t = { s with inputs := t.inputs, ports := t.ports }
      ∧ (∀ j, j ≠ i → t.input j = s.input j)
      ∧ t.input i = { s.input i with state := .calibrating, histogram := emptyHistogram }
      ∧ ChangeNoticed s t p ((s.port p).answer .ok tag 0x22 (2 :: bytesBE 4 (s.input i).calGen.toNat))

/-- A level change of a pin that its input watches, away from the level watched, with no window end reached: the
interpolator captures it or not, and the filter judges it, as EdgeJudged says, with the code that the edge's position reads
(R18, R19, R21, R24 to R28, R42, R45, R46, R51). A change that falls exactly at a window end comes after the qualification
there (R18). -/
def Obligations.PinChangeJudgedByFilter : Prop :=
  (∀ (i : InputId) (level : Level) (f : WithinTick) (s : State),
    (s.input i).settings.source = .pin →
    (∀ k, (s.input i).candidate = some k → ¬(s.rawTime - k.windowEnd).toNat < 2 ^ 63) →
    level ≠ (s.input i).watched →
    ∃ t, exec (.inputLevelChange i .pin level f) s = .next t
      ∧ t = { s with inputs := t.inputs, stamps := t.stamps, ports := t.ports }
      ∧ (∀ j, j ≠ i → t.input j = s.input j)
      ∧ EdgeJudged s t i level { s.input i with pinLevel := level } (s.delayCode i f))
  ∧ (∀ (i : InputId) (level : Level) (f : WithinTick) (k : Candidate) (s u : State),
      (s.input i).settings.source = .pin → (s.input i).candidate = some k →
      (s.rawTime - k.windowEnd).toNat < 2 ^ 63 → exec (.windowEndQualification i) s = .next u →
      exec (.inputLevelChange i .pin level f) s = exec (.inputLevelChange i .pin level f) u)

/-- A pin that its input does not watch, and one that stands at the level watched already, only keeps its level: with no
candidate pending that is the qualified level, and with one pending, whose window end is not reached, the candidate's own new
level, high for a rising and low for a falling edge (R16, R18, R19). The count of a sense is that of its own edges (R27). The
test signal is high while the coarse count modulo 128 is 0 to 63 and low while it is 64 to 127: at an input that
watches it and another level, with no window end reached, its edge is captured and judged like a pin's, as EdgeJudged says,
but with the one code that the input's test edges read under its active table: it forms a candidate, qualifies at once under
width 0, or reverts a pending candidate, as under a width of 65 or more. An edge exactly at a window end comes after the
qualification there and the table it may install; and a test level that is not the one R17 gives, or at an input that
watches its pin, changes nothing (R17 to R19, R21, R24, R25, R27, R51; log entries 6 and 20). -/
def Obligations.OtherLevelChanges : Prop :=
  (∀ (i : InputId) (level : Level) (f : WithinTick) (s : State),
      (s.input i).settings.source = .test
        ∨ ((s.input i).candidate = none ∧ (s.input i).qualified = level)
        ∨ (∃ k, (s.input i).candidate = some k ∧ ¬(s.rawTime - k.windowEnd).toNat < 2 ^ 63
          ∧ level = (match k.sense with | .rising => .high | .falling => .low)) →
      exec (.inputLevelChange i .pin level f) s = .next (s.setInput i { s.input i with pinLevel := level }))
  ∧ (∀ x : Input, x.count .rising = x.rising ∧ x.count .falling = x.falling
      ∧ x.watched = (match x.candidate with
        | none => x.qualified
        | some k => match k.sense with | .rising => .high | .falling => .low))
  ∧ (∀ (i : InputId) (level : Level) (f : WithinTick) (s : State),
      ((s.input i).settings.source = .pin ∨ level ≠ (if s.coarse.toNat % 128 < 64 then .high else .low) →
        exec (.inputLevelChange i .test level f) s = .next s)
      ∧ ((s.input i).settings.source = .test → level = (if s.coarse.toNat % 128 < 64 then .high else .low) →
        (∀ k, (s.input i).candidate = some k → ¬(s.rawTime - k.windowEnd).toNat < 2 ^ 63) →
        (level = (s.input i).watched → exec (.inputLevelChange i .test level f) s = .next s)
        ∧ (level ≠ (s.input i).watched → ∃ t, exec (.inputLevelChange i .test level f) s = .next t
          ∧ t = { s with inputs := t.inputs, stamps := t.stamps, ports := t.ports }
          ∧ (∀ j, j ≠ i → t.input j = s.input j)
          ∧ EdgeJudged s t i level (s.input i) (Config.testEdgeCode i (s.input i).calGen)))
      ∧ (∀ (k : Candidate) (u : State), (s.input i).candidate = some k → (s.rawTime - k.windowEnd).toNat < 2 ^ 63 →
        (s.input i).settings.source = .test → level = (if s.coarse.toNat % 128 < 64 then .high else .low) →
        exec (.windowEndQualification i) s = .next u →
        exec (.inputLevelChange i .test level f) s = exec (.inputLevelChange i .test level f) u))

/-- A candidate whose window end is reached is qualified: its level becomes the qualified level, the count of its sense
rises by one, the edge is kept for boundary counts, and a capture becomes a stamp with the count after the edge and, in
READY under TRACK, a hit; before the window end, and without a candidate, nothing changes (R18, R21, R22, R26, R27, R42,
R45, R46, R51, R52). A dead time runs until the coarse count reaches its end, and ends then and not before (R25). -/
def Obligations.WindowAndDeadTimeEnd : Prop :=
  (∀ (i : InputId) (s : State),
      (∀ k, (s.input i).candidate = some k → (s.rawTime - k.windowEnd).toNat < 2 ^ 63 →
        ∃ t, exec (.windowEndQualification i) s = .next t
          ∧ t = { s with inputs := t.inputs, stamps := t.stamps, ports := t.ports }
          ∧ (∀ j, j ≠ i → t.input j = s.input j)
          ∧ let x := s.input i
            let counted : Input := { x with
              candidate := none, qualified := k.sense.level
              recent := ⟨k.sense, k.edgeTime.extractLsb' 8 56⟩ :: x.recent
              rising := x.rising + (if k.sense = .rising then 1 else 0)
              falling := x.falling + (if k.sense = .falling then 1 else 0) }
            (k.capture = none → t.stamps = s.stamps ∧ t.ports = s.ports ∧ t.input i = counted)
            ∧ (∀ cap, k.capture = some cap →
                t.stamps.Perm
                  (⟨i, k.sense, counted.count k.sense, cap.rawTime, cap.corrected, cap.calGen⟩ :: s.stamps)
                ∧ (x.state = .ready → x.settings.mode = .track → HitCounted s t i counted cap.code)
                ∧ (x.state = .calibrating ∨ x.settings.mode = .fixed → t.ports = s.ports ∧ t.input i = counted)))
      ∧ ((∀ k, (s.input i).candidate = some k → ¬(s.rawTime - k.windowEnd).toNat < 2 ^ 63) →
        exec (.windowEndQualification i) s = .next s))
  ∧ (∀ (i : InputId) (c : Coarse) (s : State), (s.input i).blockedUntil = some c →
      ((s.coarse - c).toNat < 2 ^ 55 →
        exec (.deadTimeEnd i) s = .next (s.setInput i { s.input i with blockedUntil := none }))
      ∧ (¬(s.coarse - c).toNat < 2 ^ 55 → exec (.deadTimeEnd i) s = .next s))
  ∧ (∀ (i : InputId) (s : State), s.inDeadTime i = true ↔
      ∃ c, (s.input i).blockedUntil = some c ∧ ¬(s.coarse - c).toNat < 2 ^ 55)

/-- An oscillator edge at an input in CALIBRATING that finds no dead time is a hit under the code its position gives: it
is counted or completes the histogram, and its dead time of three coarse periods begins; any other changes nothing
(R39, R42, R44 to R46, R49). A later edge of one coarse period reads no smaller code: R39 says a larger one, and that two
edges less than a stage apart may share a code is the model's reading (log entry 5). -/
def Obligations.CalibrationHitCountsOrCompletes : Prop :=
  (∀ (i : InputId) (f : WithinTick) (s : State), (s.input i).state = .calibrating → s.inDeadTime i = false →
    ∃ t, exec (.calibrationHit i f) s = .next t
      ∧ t = { s with inputs := t.inputs, ports := t.ports }
      ∧ (∀ j, j ≠ i → t.input j = s.input j)
      ∧ HitCounted s t i { s.input i with blockedUntil := some (s.coarse + 3) } (s.delayCode i f))
  ∧ (∀ (i : InputId) (f : WithinTick) (s : State), (s.input i).state = .ready ∨ s.inDeadTime i = true →
      exec (.calibrationHit i f) s = .next s)
  ∧ (∀ (i : InputId) (f g : WithinTick) (s u : State), s.coarse = u.coarse →
      s.tick.toNat * 15625 + f.val ≤ u.tick.toNat * 15625 + g.val → (s.delayCode i f).val ≤ (u.delayCode i g).val)

/-- Every built table follows the midpoint formula and is nondecreasing from code 0 to code 159, as the default table is
(R40, R43); and a completed histogram that fails the spread test also fails the single-code limit (R44). -/
def Obligations.BuiltTablesAndTheirTest : Prop :=
  (∀ h : Vector Nat 160,
      (∀ c : Code, (buildTable h)[c].toNat = min 255 ((2 * (h.toList.take c.val).sum + h[c]) * 256 / 131072))
      ∧ tableRises (buildTable h) ∧ tableRises defaultTable)
  ∧ (∀ h : Vector Nat 160, hitTotal h = 65536 → h.toList.countP (fun n => decide (0 < n)) < 64 → ∃ c : Code, 1024 < h[c])

/-! ## Measurement plans and slot requests -/

/-- An applied WRITE_PLAN (R57 to R64, R75): the resulting plan, clamped, is stored and the generation rises by one. A slot in
IDLE stays there; one outside it enters ARMING afresh; in IDLE and in ARMING no outcome is formed, and the finished entry
and the lost count stay. Every other port that subscribes to the slot has CHANGE set, and the response carries the plan as
stored, the new generation and the slot state. -/
def Obligations.WritePlanApplies : Prop :=
  ∀ (p : PortId) (tag : Byte) (n : SlotId) (g : Option Gen) (items : List PlanItem) (s : State),
    let x := s.slot n
    let plan := resultingPlan x.plan items
    (s.port p).rights.getLsbD 0 = true → Passes g x.planGen →
    (∀ item ∈ items, item.isKnown = true ∧ itemValid item = true) → plan.ChainsUpward n →
    (x.state ≠ .idle → ∀ i, plan.names i = true → (s.input i).state ≠ .calibrating) →
    (x.state ≠ .idle → plan.armSource = .atTime →
      ¬(s.coarse ++ (0 : BitVec 8) - 73728 + s.offset - plan.armTime).toNat < 2 ^ 63) →
    ∃ t, exec (.writePlan p tag (BitVec.ofNat 8 n.val) g items) s = .next t
      ∧ t = { s with slots := t.slots, unit := t.unit, ports := t.ports }
      ∧ (∀ m, m ≠ n → s.GrantOnly m (s.slot m) (t.slot m))
      ∧ (t.slot n).plan = plan ∧ (t.slot n).planGen = x.planGen + 1
      ∧ (x.state = .idle → s.GrantOnly n { x with plan := plan, planGen := x.planGen + 1 } (t.slot n))
      ∧ (x.state ≠ .idle → (t.slot n).state = .arming ∧ (t.slot n).fresh = [] ∧ (t.slot n).finishes = []
          ∧ (t.slot n).data = { MeasData.empty with
              armingSince := s.coarse ++ (0 : BitVec 8) - 73728
              armInstant := if plan.armSource = .immediate then some (s.coarse ++ (0 : BitVec 8)) else none })
      ∧ (x.state = .arming → s.GrantOnly n { x with
          plan := plan, planGen := x.planGen + 1, data := (t.slot n).data, fresh := [], finishes := [] } (t.slot n))
      ∧ t.port p = (s.port p).answer (if items.any itemClamped then .clamped else .ok) tag 0x31
          (planBlock plan ++ bytesBE 2 (x.planGen + 1).toNat ++ [if x.state = .idle then 0 else 1])
      ∧ ∀ q, q ≠ p → t.port q = if (s.port q).subscription.getLsbD n then (s.port q).noticed else s.port q

/-- The refusals of WRITE_PLAN, in their order, with the number and the generation in order: an unknown field, an invalid
value, TRIGGERED with AT_TIME, a chain that does not run upward, and, outside IDLE, an input in CALIBRATING and an arm
time that has passed. Each changes the pending response alone (R58 to R61, R64). Which slot state it shows at the
instant of a TRIGGERED finish under IMMEDIATE is the model's choice (log entry 35). -/
def Obligations.WritePlanRefusals : Prop :=
  ∀ (p : PortId) (tag : Byte) (n : SlotId) (g : Option Gen) (items : List PlanItem) (s : State),
    let x := s.slot n
    let plan := resultingPlan x.plan items
    let refused (st : Status) (bs : List Byte) :=
      exec (.writePlan p tag (BitVec.ofNat 8 n.val) g items) s
        = .next (s.setPort p ((s.port p).answer st tag 0x31 bs))
    let listGood := ∀ item ∈ items, item.isKnown = true ∧ itemValid item = true
    let busy := ∃ i, plan.names i = true ∧ (s.input i).state = .calibrating
    (s.port p).rights.getLsbD 0 = true → Passes g x.planGen →
    (¬listGood → refused .badValue [])
    ∧ (listGood → plan.repeatMode = .triggered → plan.armSource = .atTime → refused .badValue [])
    ∧ (listGood → plan.armSource = .slotDone → n ≤ plan.armSlot → refused .badChain [])
    ∧ (listGood → plan.ChainsUpward n → x.state ≠ .idle → busy →
        refused .busy (bytesBE 2 x.planGen.toNat ++ [x.state.code]))
    ∧ (listGood → plan.ChainsUpward n → x.state ≠ .idle → ¬busy → plan.armSource = .atTime →
        (s.coarse ++ (0 : BitVec 8) - 73728 + s.offset - plan.armTime).toNat < 2 ^ 63 →
        refused .tooLate (bytesBE 2 x.planGen.toNat ++ [x.state.code]))

/-- The numeric fields of a plan are clamped as R62 tabulates: gate and wait limit to 1 to 4,294,967,296 and prescale to 1
to 65,536, and a quota of 0 stands for UNLIMITED. Every one of the sixteen items replaces its own field alone by the value
it carries, and an item of no field nothing; the items are applied in list order, so that the last item of a field stands.
An item names a field unless its identifier is none of the sixteen. Its value is valid when it is a code of the field's
enumeration, an input number 0 to 7 or a slot number 0 to 15; a number of gate, wait limit, prescale, quota and arm time
always is (R58, R60, R62, R180). -/
def Obligations.PlanItemsClampAndReplace : Prop :=
  ∀ (plan : Plan) (v : BitVec 64) (w : BitVec 32) (c : Byte) (i : InputId) (n : SlotId) (items : List PlanItem)
      (x : PlanItem) (rest : List Byte),
    resultingPlan plan [] = plan ∧ resultingPlan plan (items ++ [x]) = applyItem (resultingPlan plan items) x
    ∧ (applyItem plan (.gate v)).gate.toNat = max 1 (min v.toNat 4294967296)
    ∧ (applyItem plan (.waitLimit v)).waitLimit.toNat = max 1 (min v.toNat 4294967296)
    ∧ (applyItem plan (.prescale w)).prescale.toNat = max 1 (min w.toNat 65536)
    ∧ applyItem plan (.gate v) = { plan with gate := (applyItem plan (.gate v)).gate }
    ∧ applyItem plan (.waitLimit v) = { plan with waitLimit := (applyItem plan (.waitLimit v)).waitLimit }
    ∧ applyItem plan (.prescale w) = { plan with prescale := (applyItem plan (.prescale w)).prescale }
    ∧ applyItem plan (.quota w) = { plan with quota := if w = 0 then none else some w }
    ∧ applyItem plan (.armTime v) = { plan with armTime := v }
    ∧ applyItem plan (.inputA (BitVec.ofNat 8 i.val)) = { plan with inputA := i }
    ∧ applyItem plan (.inputB (BitVec.ofNat 8 i.val)) = { plan with inputB := i }
    ∧ applyItem plan (.armInput (BitVec.ofNat 8 i.val)) = { plan with armInput := i }
    ∧ applyItem plan (.armSlot (BitVec.ofNat 8 n.val)) = { plan with armSlot := n }
    ∧ (∀ k : Kind, (c = match k with | .reciprocal => 1 | .interval => 2 | .totalize => 3 | .timetag => 4) →
        applyItem plan (.kind c) = { plan with kind := k })
    ∧ (∀ e : Sense, (c = match e with | .rising => 1 | .falling => 2) →
        applyItem plan (.senseA c) = { plan with senseA := e } ∧ applyItem plan (.senseB c) = { plan with senseB := e }
        ∧ applyItem plan (.armSense c) = { plan with armSense := e })
    ∧ (∀ r : ReportAs, (c = match r with | .frequency => 1 | .period => 2) →
        applyItem plan (.reportAs c) = { plan with reportAs := r })
    ∧ (∀ a : ArmSource, (c = match a with | .immediate => 1 | .atTime => 2 | .inputEdge => 3 | .slotDone => 4) →
        applyItem plan (.armSource c) = { plan with armSource := a })
    ∧ (∀ m : RepeatMode, (c = match m with | .single => 1 | .continuous => 2 | .triggered => 3) →
        applyItem plan (.repeatMode c) = { plan with repeatMode := m })
    ∧ applyItem plan (.unknown c rest) = plan
    ∧ (itemClamped (.gate v) = true ↔ v = 0 ∨ 4294967296 < v.toNat)
    ∧ (itemClamped (.waitLimit v) = true ↔ v = 0 ∨ 4294967296 < v.toNat)
    ∧ (itemClamped (.prescale w) = true ↔ w = 0 ∨ 65536 < w.toNat)
    ∧ (itemClamped x = true → (∃ u, x = .gate u ∨ x = .waitLimit u) ∨ ∃ u, x = .prescale u)
    ∧ (x.isKnown = false ↔ ∃ b bs, x = .unknown b bs)
    ∧ (itemValid (.kind c) = true ↔ c = 1 ∨ c = 2 ∨ c = 3 ∨ c = 4)
    ∧ (itemValid (.senseA c) = true ↔ c = 1 ∨ c = 2) ∧ (itemValid (.senseB c) = true ↔ c = 1 ∨ c = 2)
    ∧ (itemValid (.armSense c) = true ↔ c = 1 ∨ c = 2) ∧ (itemValid (.reportAs c) = true ↔ c = 1 ∨ c = 2)
    ∧ (itemValid (.armSource c) = true ↔ c = 1 ∨ c = 2 ∨ c = 3 ∨ c = 4)
    ∧ (itemValid (.repeatMode c) = true ↔ c = 1 ∨ c = 2 ∨ c = 3)
    ∧ (itemValid (.inputA c) = true ↔ c.toNat < 8) ∧ (itemValid (.inputB c) = true ↔ c.toNat < 8)
    ∧ (itemValid (.armInput c) = true ↔ c.toNat < 8) ∧ (itemValid (.armSlot c) = true ↔ c.toNat < 16)
    ∧ itemValid (.gate v) = true ∧ itemValid (.waitLimit v) = true ∧ itemValid (.prescale w) = true
    ∧ itemValid (.quota w) = true ∧ itemValid (.armTime v) = true

/-- ARM from a port with the MEASURE right (R32, R75, R78, R79, R82): refused BUSY where the plan names an input in CALIBRATING,
else refused TOO_LATE where an AT_TIME arm time is not later than the time-scale horizon, and a refused ARM changes
nothing else; otherwise the slot enters ARMING afresh, under IMMEDIATE with its arm instant at the raw time of the
arrival; from IDLE and from ARMING no outcome is formed, and the finished entry and the lost count stay. Which slot state a
refusal shows at the instant of a TRIGGERED finish under IMMEDIATE is the model's choice (log entry 35). -/
def Obligations.ArmEntersArming : Prop :=
  ∀ (p : PortId) (tag : Byte) (n : SlotId) (s : State), (s.port p).rights.getLsbD 0 = true →
    let x := s.slot n
    let calibrating := ∃ i, x.plan.names i = true ∧ (s.input i).state = .calibrating
    let horizon := s.coarse ++ (0 : BitVec 8) - 73728 + s.offset
    let tooLate := x.plan.armSource = .atTime
      ∧ ¬((x.plan.armTime - horizon).toNat < 2 ^ 63 ∧ x.plan.armTime ≠ horizon)
    (calibrating → exec (.arm p tag (BitVec.ofNat 8 n.val)) s
        = .next (s.setPort p ((s.port p).answer .busy tag 0x32 (bytesBE 2 x.planGen.toNat ++ [x.state.code]))))
    ∧ (¬calibrating → tooLate → exec (.arm p tag (BitVec.ofNat 8 n.val)) s
        = .next (s.setPort p ((s.port p).answer .tooLate tag 0x32 (bytesBE 2 x.planGen.toNat ++ [x.state.code]))))
    ∧ (¬calibrating → ¬tooLate → ∃ t, exec (.arm p tag (BitVec.ofNat 8 n.val)) s = .next t
        ∧ t = { s with slots := t.slots, unit := t.unit, ports := t.ports }
        ∧ (∀ m, m ≠ n → s.GrantOnly m (s.slot m) (t.slot m))
        ∧ (t.slot n).plan = x.plan ∧ (t.slot n).planGen = x.planGen ∧ (t.slot n).state = .arming ∧ (t.slot n).fresh = []
        ∧ (t.slot n).finishes = []
        ∧ (t.slot n).data = { MeasData.empty with
            armingSince := s.coarse ++ (0 : BitVec 8) - 73728
            armInstant := if x.plan.armSource = .immediate then some (s.coarse ++ (0 : BitVec 8)) else none }
        ∧ (x.state = .idle ∨ x.state = .arming → s.GrantOnly n { x with
            state := .arming, data := (t.slot n).data, fresh := [], finishes := [] } (t.slot n))
        ∧ t.port p = (s.port p).answer .ok tag 0x32 (bytesBE 2 x.planGen.toNat ++ [1])
        ∧ ∀ q, q ≠ p → t.port q = s.port q)

/-- STOP from a port with the MEASURE right returns the slot to IDLE; when it ends the measurement of a SINGLE plan, DONE
is set at every port that subscribes to the slot, and else no flag is. In IDLE nothing of the slot changes, and in ARMING
no outcome is formed, and the finished entry and the lost count stay (R75, R80, R131). -/
def Obligations.StopReturnsToIdle : Prop :=
  ∀ (p : PortId) (tag : Byte) (n : SlotId) (s : State), (s.port p).rights.getLsbD 0 = true →
    let x := s.slot n
    let ends := x.state ≠ .idle ∧ x.state ≠ .arming ∧ x.plan.repeatMode = .single
    let told := fun q => if ends ∧ (s.port q).subscription.getLsbD n = true
      then { s.port q with flags := (s.port q).flags ||| 0b0000100 } else s.port q
    ∃ t, exec (.stop p tag (BitVec.ofNat 8 n.val)) s = .next t
      ∧ t = { s with slots := t.slots, unit := t.unit, ports := t.ports }
      ∧ (∀ m, m ≠ n → s.GrantOnly m (s.slot m) (t.slot m))
      ∧ (t.slot n).plan = x.plan ∧ (t.slot n).planGen = x.planGen ∧ (t.slot n).state = .idle
      ∧ (x.state = .idle → s.GrantOnly n x (t.slot n))
      ∧ (x.state ≠ .idle → (t.slot n).data = MeasData.empty ∧ (t.slot n).fresh = [] ∧ (t.slot n).finishes = [])
      ∧ (x.state = .arming → s.GrantOnly n { x with
          state := .idle, data := MeasData.empty, fresh := [], finishes := [] } (t.slot n))
      ∧ t.port p = (told p).answer .ok tag 0x33 (bytesBE 2 x.planGen.toNat ++ [0])
      ∧ ∀ q, q ≠ p → t.port q = told q

/-- A request that ends a measurement in flight, STOP, an accepted ARM or an applied WRITE_PLAN, forms an ABORTED outcome
under the plan and the generation that stood before it, with the start in GATING and STOPPING and nothing else. Whatever the
arithmetic unit does, it is placed in an empty finished entry and takes the slot's lost count with it, or, where an entry is
held, it is dropped and the lost count rises by one, held at its maximum; then it takes part in the grant of the instant
(R64, R73, R75, R76, R79, R80, R99, R102). Its TIME_STEPPED tells a step notice of the start's own instant by the order of
the two (log entry 30). A slot that a TRIGGERED finish of this very instant has re-armed under IMMEDIATE has no measurement
in flight for such a request, and none is formed (R66, R81; log entry 33). -/
def Obligations.AbortPlacesOutcome : Prop :=
  ∀ (p : PortId) (tag : Byte) (n : SlotId) (c : Instr) (s : State), (s.port p).rights.getLsbD 0 = true →
    let x := s.slot n
    let h := s.horizonTime
    let free (plan : Plan) := ∀ i, plan.names i = true → (s.input i).state ≠ .calibrating
    let inTime (plan : Plan) := plan.armSource = .atTime →
      ¬(s.coarse ++ (0 : BitVec 8) - 73728 + s.offset - plan.armTime).toNat < 2 ^ 63
        ∧ (plan.armTime - (s.coarse ++ (0 : BitVec 8) - 73728 + s.offset)).toNat < 2 ^ 63
    let passes := x.plan.repeatMode = .triggered ∧ x.plan.armSource = .immediate ∧ x.data.armingSince = h
      ∧ x.data.armInstant = some h
      ∧ (x.state = .starting ∨ (x.state = .gating ∧ x.plan.kind = .totalize)
        ∨ (x.state = .tagging ∧ x.data.previousTag = none))
    x.state ≠ .idle → x.state ≠ .arming →
    (c = .stop p tag (BitVec.ofNat 8 n.val)
      ∨ (c = .arm p tag (BitVec.ofNat 8 n.val) ∧ free x.plan ∧ inTime x.plan)
      ∨ ∃ g items, c = .writePlan p tag (BitVec.ofNat 8 n.val) g items ∧ Passes g x.planGen
        ∧ (∀ item ∈ items, item.isKnown = true ∧ itemValid item = true) ∧ (resultingPlan x.plan items).ChainsUpward n
        ∧ free (resultingPlan x.plan items) ∧ inTime (resultingPlan x.plan items)) →
    ∃ t, exec c s = .next t ∧
    (¬passes → s.OutcomeFormed t n {
        slot := n, kind := x.plan.kind, reportAs := x.plan.reportAs, planGen := x.planGen, result := .aborted
        flags := ⟨true, false, x.data.marks.timeStepped || decide (x.data.startSteps ≠ 0),
          x.data.marks.refFault || !s.horizonLocked, x.data.marks.calChanged, false⟩
        start := if x.state = .gating ∨ x.state = .stopping then x.data.start else none
        stop := none, edgesSince := none, lost := 0 })
    ∧ (passes → s.GrantOnly n { t.slot n with finished := x.finished, lost := x.lost } (t.slot n))

/-! ## Slot operation -/

/-- The stamp that an input offers is one in flight that horizon time has reached, and no stamp in flight has an earlier
corrected raw time: stamps are offered in nondecreasing order (R29). The other way round, where the stamps in flight stand
in order, as the law of the release horizon says (State.HorizonLegal), a stamp that horizon time has reached and that no
other precedes is the one its input offers, where no other of its input shares its corrected raw time (none does under one
skew, R29). The offer takes it out of the horizon (R30). A slot outside IDLE that it meets no condition of ignores it, like the
stamps of the instant before it: the slot only keeps it, to judge it under what another stamp or event of the instant may yet
set. Of a slot that waits for a finish of its arm slot, this holds where the arm slot ignores the stamp too. In STARTING the
condition is that of the start, in GATING and STOPPING that of the stop, which lies at or after gate close under RECIPROCAL, in
TAGGING that of the tag, whose count lies P or more after the previous one's, and in ARMING that of the arm stamp (R71, R72,
R85 to R87, R91, R92, R94). Like every event of the engine (EngineStep), an offer sets DONE at exactly the ports whose
subscription holds a slot with a SINGLE plan that it moves to IDLE, and changes nothing else of a port (R77, R131). -/
def Obligations.OffersComeInTimeOrder : Prop :=
  (∀ (i : InputId) (st : Stamp) (s : State), s.dueStamp i = some st →
    st ∈ s.stamps ∧ st.input = i ∧ s.Reached st.corrected
    ∧ (∀ o ∈ s.stamps, (o.corrected - st.corrected).toNat < 2 ^ 63)
    ∧ ∃ t, exec (.stampOffer i) s = .next t ∧ t.stamps = s.stamps.erase st ∧ EngineStep s t
      ∧ ∀ m, (s.slot m).state = .idle → s.GrantOnly m (s.slot m) (t.slot m))
  ∧ (∀ (st : Stamp) (s : State), st ∈ s.stamps → s.Reached st.corrected →
    s.stamps.Pairwise (fun a b => (b.corrected - a.corrected).toNat < 2 ^ 63) →
    (∀ o ∈ s.stamps, (o.corrected - st.corrected).toNat < 2 ^ 63) →
    (∀ o ∈ s.stamps, o.input = st.input → o.corrected = st.corrected → o = st) → s.dueStamp st.input = some st)
  ∧ (∀ (i : InputId) (st : Stamp) (ignoring : SlotId → Prop) (s : State), s.dueStamp i = some st →
    let scale := st.corrected + s.offset
    (∀ n, ignoring n → (s.slot n).Ignores st scale s.horizonTime
      ∧ ((s.slot n).WaitsForFinish →
        (∀ e ∈ (s.slot n).finishes, e.at' ≠ s.horizonTime) ∧ ignoring (s.slot n).plan.armSlot)) →
    ∃ t, exec (.stampOffer i) s = .next t ∧ EngineStep s t
      ∧ ∀ n, ignoring n → (s.slot n).state ≠ .idle → s.GrantOnly n { s.slot n with
          fresh := ((s.slot n).fresh.filter fun f => decide (f.offeredAt = s.horizonTime))
            ++ [⟨st, scale, s.horizonTime, 0⟩]
          finishes := (t.slot n).finishes } (t.slot n))

/-- An event of the part's own that is sent before its instant, or without its condition, changes nothing (log entry 3):
REFERENCE_ABSENT, REFERENCE_LOCK and HORIZON_REF_CHANGE (R3, R4, R7), an offer with no stamp reached (R29), arming under
IMMEDIATE and AT_TIME (R82, R83), the gate events (R87, R93), a deadline not reached, or with an earlier stamp still to be
offered (R72, R88), a completion with nothing in service (R100), and the end of a preparation with nothing prepared
(R156). -/
def Obligations.EarlyEventsChangeNothing : Prop :=
  ∀ s : State,
    (s.refPresent = false ∨ s.gapTimer < 250 → exec .referenceAbsent s = .next s)
    ∧ (s.refPresent = false ∨ s.presenceTimer < 2500000 ∨ s.refState = .locked → exec .referenceLock s = .next s)
    ∧ (s.refChanges = [] ∨ (∃ c, s.refChanges.head? = some c ∧ ¬s.Reached c.changeTime) →
        exec .horizonRefChange s = .next s)
    ∧ (∀ i, (∀ st ∈ s.stamps, st.input = i → ¬s.Reached st.corrected) → exec (.stampOffer i) s = .next s)
    ∧ (∀ n, let x := s.slot n
        (x.state ≠ .arming ∨ x.plan.armSource ≠ .immediate ∨ x.data.gateOpen ≠ none
            ∨ (∀ a, x.data.armInstant = some a → ¬s.Reached a) → exec (.immediateArmInstant n) s = .next s)
        ∧ (x.state ≠ .arming ∨ x.plan.armSource ≠ .atTime ∨ x.data.gateOpen ≠ none ∨ s.horizonStarted = false
            ∨ ¬(s.horizonTime + s.offset - x.plan.armTime).toNat < 2 ^ 63 → exec (.atTimeArming n) s = .next s)
        ∧ (x.state ≠ .gating ∨ x.plan.kind ≠ .reciprocal ∨ ¬s.Reached x.data.gateClose →
            exec (.gateClose n) s = .next s)
        ∧ ((x.state ≠ .starting ∧ x.state ≠ .stopping) ∨ x.plan.kind = .totalize ∨ x.plan.kind = .timetag
            ∨ ¬s.Reached x.data.deadline ∨ (∃ st ∈ s.stamps, s.Reached st.corrected) →
            exec (.deadlineExpiry n) s = .next s)
        ∧ (x.state ≠ .arming ∨ x.plan.kind ≠ .totalize ∨ (∀ g, x.data.gateOpen = some g → ¬s.Reached g) →
            exec (.totalizeGateOpen n) s = .next s)
        ∧ (x.state ≠ .gating ∨ x.plan.kind ≠ .totalize ∨ ¬s.Reached x.data.gateClose →
            exec (.totalizeGateClose n) s = .next s))
    ∧ (s.unit.service = none → exec .serviceCompletion s = .next s)
    ∧ (∀ p, (s.port p).response = none ∨ (s.port p).arriving ≠ none ∨ (s.port p).link = .ready
        ∨ (s.port p).link = .selected → exec (.preparationEnd p) s = .next s)

/-- The start of a RECIPROCAL or INTERVAL measurement: in STARTING the first offered stamp of input A and sense A at or
after the time from which starts count, and later than it in the measurement that follows a CONTINUOUS INTERVAL stop, is
the start, with the time-scale time of its offer. RECIPROCAL enters GATING when the start is before gate close and STOPPING
otherwise; INTERVAL enters STOPPING, also where input A and input B are the same. Stamps of the instant that the slot's plan
has no use for may have come before it; a start that comes after a stop of the same time is in StampStopsInterval
(R8, R71, R72, R87, R91, R92). -/
def Obligations.StampStartsMeasurement : Prop :=
  ∀ (i : InputId) (st : Stamp) (n : SlotId) (s : State), s.NoOtherStamp n → s.dueStamp i = some st →
    let x := s.slot n
    x.state = .starting → x.plan.kind = .reciprocal ∨ x.plan.kind = .interval →
    st.input = x.plan.inputA → st.sense = x.plan.senseA →
    (st.corrected - x.data.startFrom).toNat < 2 ^ 63 → (x.data.startStrict = true → st.corrected ≠ x.data.startFrom) →
    ∃ t, exec (.stampOffer i) s = .next t ∧ EngineStep s t ∧ t.stamps = s.stamps.erase st
      ∧ s.GrantOnly n { x with
          state := (t.slot n).state, data := (t.slot n).data, fresh := (t.slot n).fresh, finishes := (t.slot n).finishes }
          (t.slot n)
      ∧ (t.slot n).data = { x.data with
          start := some (.stamp st (st.corrected + s.offset)), deadline := (t.slot n).data.deadline, startSteps := 0 }
      ∧ (x.plan.kind = .reciprocal →
          (x.data.gateClose - st.corrected).toNat < 2 ^ 63 ∧ st.corrected ≠ x.data.gateClose →
          (t.slot n).state = .gating)
      ∧ (x.plan.kind = .reciprocal →
          ¬((x.data.gateClose - st.corrected).toNat < 2 ^ 63 ∧ st.corrected ≠ x.data.gateClose) →
          (t.slot n).state = .stopping ∧ (t.slot n).data.deadline =
            (if (st.corrected - x.data.gateClose).toNat < 2 ^ 63 then st.corrected else x.data.gateClose)
              + x.plan.waitLimit * 256)
      ∧ (x.plan.kind = .interval → (t.slot n).state = .stopping
          ∧ (t.slot n).data.deadline = st.corrected + x.plan.waitLimit * 256)

/-- The stop of a RECIPROCAL measurement: a stamp of input A and sense A at or after gate close and later than the start
ends it valued. The outcome, with both stamps and CAL_CHANGED when their calibration generations differ, is placed, or
dropped and counted where an entry is held, and takes part in the grant of the instant; the slot moves on whatever becomes
of it: SINGLE returns to IDLE with DONE at the ports that subscribe to the slot, and TRIGGERED re-arms at the finish instant
(R54, R73, R76, R77, R82, R87, R99). TIME_STEPPED tells a step notice of the start's own instant by the order of the two
(log entry 30). -/
def Obligations.StampStopsReciprocal : Prop :=
  ∀ (i : InputId) (st first : Stamp) (scale : Tick) (n : SlotId) (s : State),
    s.NoOtherCause n → s.dueStamp i = some st →
    let x := s.slot n
    x.state = .gating ∨ x.state = .stopping → x.plan.kind = .reciprocal → x.plan.ChainsUpward n →
    st.input = x.plan.inputA → st.sense = x.plan.senseA → x.data.start = some (.stamp first scale) → first.input = st.input →
    (st.corrected - x.data.gateClose).toNat < 2 ^ 63 →
    (st.corrected - first.corrected).toNat < 2 ^ 63 → st.corrected ≠ first.corrected →
    ∃ t, exec (.stampOffer i) s = .next t ∧ EngineStep s t
      ∧ s.OutcomeFormed t n {
          slot := n, kind := .reciprocal, reportAs := x.plan.reportAs, planGen := x.planGen, result := .valued
          flags := ⟨false, false, x.data.marks.timeStepped || decide (x.data.startSteps ≠ 0),
            x.data.marks.refFault || !s.horizonLocked,
            x.data.marks.calChanged || decide (first.calGen ≠ st.calGen), false⟩
          start := some (.stamp first scale), stop := some (.stamp st (st.corrected + s.offset))
          edgesSince := none, lost := 0 }
      ∧ (x.plan.repeatMode = .single → (t.slot n).state = .idle
          ∧ ∀ p, (s.port p).subscription.getLsbD n = true → (t.port p).flags.getLsbD 2 = true)
      ∧ (x.plan.repeatMode = .triggered → x.RearmedAt (t.slot n) s.horizonTime s.horizonLocked)

/-- Under CONTINUOUS the stop of a RECIPROCAL measurement is the start of the next, with its marks clear but for REF_FAULT
when the horizon reference state is not LOCKED (R7, R74, R88, R89). On the grid of gate closes the gate index rises by one,
and the slot is in GATING when the start is before the close of the new gate, and otherwise in STOPPING at once, its
deadline the wait limit after the later of that close and the start. A start that lies 2^62 ticks or more after the new
close ends the run: a new run begins with it, with its origin at the start's time, gate index 1 and its close one gate
after that, in GATING, for a gate in its range. That a start before the new close goes on along the grid, although by the
letter of R89 the difference modulo 2^64 is then 2^62 or more, is the reading of log entry 10 (DEDUCED), which the bound
below 2^63 holds. -/
def Obligations.ContinuousReciprocalGoesOn : Prop :=
  ∀ (i : InputId) (st first : Stamp) (scale : Tick) (n : SlotId) (s : State),
    s.NoOtherStamp n → s.dueStamp i = some st →
    let x := s.slot n
    let close := x.data.runOrigin + (x.data.gateIndex + 1).setWidth 64 * x.plan.gate * 256
    let lags := 2 ^ 62 ≤ (st.corrected - close).toNat ∧ (st.corrected - close).toNat < 2 ^ 63
    let early := (close - st.corrected).toNat < 2 ^ 63 ∧ st.corrected ≠ close
    x.state = .gating ∨ x.state = .stopping → x.plan.kind = .reciprocal → x.plan.repeatMode = .continuous →
    st.input = x.plan.inputA → st.sense = x.plan.senseA → x.data.start = some (.stamp first scale) →
    (st.corrected - x.data.gateClose).toNat < 2 ^ 63 →
    (st.corrected - first.corrected).toNat < 2 ^ 63 → st.corrected ≠ first.corrected →
    ∃ t, exec (.stampOffer i) s = .next t ∧ EngineStep s t
      ∧ (t.slot n).data.start = some (.stamp st (st.corrected + s.offset))
      ∧ (t.slot n).data.marks = ⟨false, !s.horizonLocked, false⟩ ∧ (t.slot n).data.startSteps = 0
      ∧ (¬lags → (t.slot n).data.gateIndex = x.data.gateIndex + 1 ∧ (t.slot n).data.runOrigin = x.data.runOrigin
          ∧ (t.slot n).data.gateClose = close)
      ∧ (¬lags → early → (t.slot n).state = .gating)
      ∧ (¬lags → ¬early → (t.slot n).state = .stopping ∧ (t.slot n).data.deadline =
          (if (st.corrected - close).toNat < 2 ^ 63 then st.corrected else close) + x.plan.waitLimit * 256)
      ∧ (lags → x.plan.InRange → (t.slot n).state = .gating ∧ (t.slot n).data.runOrigin = st.corrected
          ∧ (t.slot n).data.gateIndex = 1 ∧ (t.slot n).data.gateClose = st.corrected + x.plan.gate * 256)

/-- The stop of an INTERVAL measurement is the first offered stamp of input B and sense B at or after the start that is not
the start stamp itself, also where input A is input B, with CAL_CHANGED when the two stamps are of one input under different
calibration generations. Stamps of one instant are judged by their times, in either order (R72): the stop may come at the
very time of the start on another input, where T is 0, after it at this instant; and a start may come after a stop of the
same time, which then ends the measurement at once. The outcome is placed, or dropped and counted where an entry is held,
and takes part in the grant of the instant; SINGLE returns to IDLE with DONE at the subscribed ports, TRIGGERED re-arms at the
finish instant, where a start stamp of this instant may arm it again under INPUT_EDGE, and CONTINUOUS waits in STARTING for
the next stamp of input A later than the stop (R54, R71 to R73, R76, R77, R82, R85, R91, R92, R99, R103). That under
TRIGGERED and IMMEDIATE a start stamp of this very instant, where T is 0, does not start the next measurement as well is the
model's reading (log entry 17), and so is the order by which TIME_STEPPED tells a step notice of the start's own instant
(log entry 30). -/
def Obligations.StampStopsInterval : Prop :=
  (∀ (i : InputId) (st first : Stamp) (scale : Tick) (n : SlotId) (s : State), s.dueStamp i = some st →
    let x := s.slot n
    let now (f : Offered) := f ∈ x.fresh ∧ f.offeredAt = s.horizonTime
    x.state = .stopping → x.plan.kind = .interval → x.plan.ChainsUpward n →
    st.input = x.plan.inputB → st.sense = x.plan.senseB → x.data.start = some (.stamp first scale) →
    Endpoint.stamp first scale ≠ .stamp st (st.corrected + s.offset) →
    (st.corrected - first.corrected).toNat < 2 ^ 63 →
    (∀ f, now f → ¬x.plan.Takes f.st ∨ f.endpoint = .stamp first scale) →
    (x.plan.repeatMode = .triggered → x.plan.armSource = .slotDone → s.Quiet) →
    ∃ t, exec (.stampOffer i) s = .next t ∧ EngineStep s t
      ∧ s.IntervalEnds t n first st scale (st.corrected + s.offset) x.data.marks (decide (x.data.startSteps ≠ 0))
      ∧ (x.plan.repeatMode = .triggered →
        ((∃ f, now f ∧ f.endpoint = .stamp first scale) →
          x.RearmedBeside (t.slot n) s.horizonTime s.horizonLocked first scale)
        ∧ ((∀ f, now f → f.endpoint ≠ .stamp first scale) →
          x.RearmedAt (t.slot n) s.horizonTime s.horizonLocked)))
  ∧ (∀ (i : InputId) (st : Stamp) (g : Offered) (n : SlotId) (s : State), s.dueStamp i = some st →
    let x := s.slot n
    let scale := st.corrected + s.offset
    x.state = .starting → x.plan.kind = .interval → x.plan.ChainsUpward n →
    ¬(x.plan.repeatMode = .triggered ∧ x.plan.armSource = .slotDone) →
    st.input = x.plan.inputA → st.sense = x.plan.senseA →
    (st.corrected - x.data.startFrom).toNat < 2 ^ 63 → (x.data.startStrict = true → st.corrected ≠ x.data.startFrom) →
    (x.fresh.filter fun f => decide (f.offeredAt = s.horizonTime)) = [g] →
    g.st.input = x.plan.inputB → g.st.sense = x.plan.senseB → g.st.input ≠ st.input →
    (g.st.corrected - st.corrected).toNat < 2 ^ 63 →
    ∃ t, exec (.stampOffer i) s = .next t ∧ EngineStep s t
      ∧ s.IntervalEnds t n st g.st scale g.scale x.data.marks (decide (g.steps ≠ 0))
      ∧ (x.plan.repeatMode = .triggered → x.RearmedBeside (t.slot n) s.horizonTime s.horizonLocked st scale))

/-- A tag of a TIMETAG run: the first tag is the first offered stamp of input A and sense A at or after the arm instant, and
a later one is a stamp whose count lies P or more after that of the previous tag. The outcome, with the edges since the
previous tag, 0 at the first, PUSHED when they exceed P and CAL_CHANGED when the generations differ, is placed, or dropped and
counted where an entry is held, and takes part in the grant of the instant; the quota counts it all the same. Below the quota,
and under CONTINUOUS, the slot stays in TAGGING and the tag becomes the previous one; the tag that reaches the quota is the
last, and SINGLE returns to IDLE with DONE at the subscribed ports while TRIGGERED re-arms at the finish instant
(R54, R56, R76, R77, R82, R94, R95, R99). TIME_STEPPED tells a step notice of the previous tag's own instant by the order of
the two (log entry 30). -/
def Obligations.StampIsTagged : Prop :=
  ∀ (i : InputId) (st : Stamp) (n : SlotId) (s : State), s.NoOtherCause n → s.dueStamp i = some st →
    let x := s.slot n
    let edges : EdgeCount := match x.data.previousTag with
      | none => 0
      | some prev => st.edgeCount - prev.edgeCount
    let last := x.plan.repeatMode ≠ .continuous ∧ ∃ q, x.plan.quota = some q ∧ q.toNat ≤ x.data.tags + 1
    x.state = .tagging → x.plan.kind = .timetag → x.plan.ChainsUpward n →
    st.input = x.plan.inputA → st.sense = x.plan.senseA →
    (match x.data.previousTag with
      | none => ∃ a, x.data.armInstant = some a ∧ (st.corrected - a).toNat < 2 ^ 63
      | some _ => x.plan.prescale.toNat ≤ edges.toNat) →
    ∃ t, exec (.stampOffer i) s = .next t ∧ EngineStep s t
      ∧ s.OutcomeFormed t n {
          slot := n, kind := .timetag, reportAs := x.plan.reportAs, planGen := x.planGen, result := .valued
          flags := ⟨false, false,
            x.data.marks.timeStepped || decide (x.data.previousTag ≠ none ∧ x.data.startSteps ≠ 0),
            x.data.marks.refFault || !s.horizonLocked,
            x.data.marks.calChanged || (match x.data.previousTag with
              | none => false
              | some prev => decide (prev.calGen ≠ st.calGen)),
            decide (x.plan.prescale.toNat < edges.toNat)⟩
          start := some (.stamp st (st.corrected + s.offset)), stop := none
          edgesSince := some edges, lost := 0 }
      ∧ (¬last → (t.slot n).state = .tagging ∧ (t.slot n).data.previousTag = some ⟨st.edgeCount, st.calGen⟩
          ∧ (t.slot n).data.tags = x.data.tags + 1 ∧ (t.slot n).data.startSteps = 0
          ∧ (t.slot n).data.marks = ⟨false, !s.horizonLocked, false⟩)
      ∧ (last → x.plan.repeatMode = .single → (t.slot n).state = .idle
          ∧ ∀ p, (s.port p).subscription.getLsbD n = true → (t.port p).flags.getLsbD 2 = true)
      ∧ (last → x.plan.repeatMode = .triggered → x.RearmedAt (t.slot n) s.horizonTime s.horizonLocked)

/-- Under INPUT_EDGE a slot waiting in ARMING arms at the offer of a stamp of its arm input and sense at or after its
entry into ARMING; the arm instant is the stamp's corrected raw time, and where the stamp also meets the first role's
condition it is the start of the new measurement, or the first tag of the new run. That tag's outcome is placed, or dropped
and counted where an entry is held, and takes part in the grant of the instant; where it reaches a quota of 1, SINGLE
returns to IDLE with DONE at the subscribed ports, and TRIGGERED re-arms at the instant. A stamp of the first role on
another input that came before the arm stamp, at the same instant and not before the arm instant, is judged under the
arming: it is the start, which the arm stamp itself stops where it is of input B as well and of the same time, or the first
tag, after which the arm stamp may arm a TRIGGERED slot again (R8, R11, R71, R72, R74, R76, R77, R85, R91, R94, R95, R99). Where
the arm stamp stops the measurement, TIME_STEPPED tells a step notice of that instant by its order among the offers of the
two stamps: this is the model's reading (log entry 30). -/
def Obligations.InputEdgeArms : Prop :=
  let waits (st : Stamp) (x : Slot) := x.state = .arming ∧ x.plan.armSource = .inputEdge ∧ x.data.gateOpen = none
    ∧ st.input = x.plan.armInput ∧ st.sense = x.plan.armSense ∧ (st.corrected - x.data.armingSince).toNat < 2 ^ 63
  (∀ (i : InputId) (st : Stamp) (n : SlotId) (s : State), s.NoOtherStamp n → s.dueStamp i = some st →
    let x := s.slot n
    let same := (x.plan.armInput, x.plan.armSense) = (x.plan.inputA, x.plan.senseA)
    waits st x →
    ∃ t, exec (.stampOffer i) s = .next t ∧ EngineStep s t
      ∧ x.ArmedByStamp (t.slot n) st (st.corrected + s.offset) s.horizonLocked ∧ (t.slot n).data.startSteps = 0
      ∧ (¬same ∨ x.plan.kind ≠ .timetag → s.GrantOnly n { x with
          state := (t.slot n).state, data := (t.slot n).data, fresh := (t.slot n).fresh } (t.slot n))
      ∧ (same → x.plan.kind = .timetag → s.FirstTagged t n (.stamp st (st.corrected + s.offset))
          (x.RearmedAt (t.slot n) s.horizonTime s.horizonLocked)))
  ∧ (∀ (i : InputId) (st : Stamp) (g : Offered) (n : SlotId) (s : State), s.dueStamp i = some st →
    let x := s.slot n
    let stops := x.plan.kind = .interval ∧ (st.input, st.sense) = (x.plan.inputB, x.plan.senseB)
      ∧ st.corrected = g.st.corrected
    let last := x.plan.kind = .timetag ∧ x.plan.repeatMode ≠ .continuous ∧ ∃ q, x.plan.quota = some q ∧ q.toNat ≤ 1
    waits st x → (x.fresh.filter fun f => decide (f.offeredAt = s.horizonTime)) = [g] →
    g.st.input = x.plan.inputA → g.st.sense = x.plan.senseA → g.st.input ≠ st.input →
    (g.st.corrected - st.corrected).toNat < 2 ^ 63 →
    ∃ t, exec (.stampOffer i) s = .next t ∧ EngineStep s t
      ∧ (¬stops → x.StartedAt (t.slot n) st.corrected g.st g.scale s.horizonLocked)
      ∧ (¬stops → ¬last → x.plan.kind ≠ .totalize → (t.slot n).data.startSteps = g.steps)
      ∧ (x.plan.kind = .reciprocal ∨ x.plan.kind = .interval → ¬stops → s.GrantOnly n { x with
          state := (t.slot n).state, data := (t.slot n).data, fresh := (t.slot n).fresh } (t.slot n))
      ∧ (stops →
        s.IntervalEnds t n g.st st g.scale (st.corrected + s.offset) ⟨false, !s.horizonLocked, false⟩
          (decide (g.steps ≠ 0))
        ∧ (x.plan.repeatMode = .triggered → x.RearmedAt (t.slot n) s.horizonTime s.horizonLocked))
      ∧ (x.plan.kind = .timetag → s.FirstTagged t n g.endpoint
          (x.RearmedBeside (t.slot n) s.horizonTime s.horizonLocked st (st.corrected + s.offset)))
      ∧ (x.plan.kind = .totalize → x.ArmedAt (t.slot n) st.corrected false s.horizonLocked))

/-- When horizon time reaches the arm instant of a slot waiting under IMMEDIATE, and when horizon time plus the offset in
force reaches the arm time of a slot waiting under AT_TIME, the slot arms; under AT_TIME the arm instant is the arm time
less the offset (R6, R82, R83). A RECIPROCAL slot in GATING enters STOPPING when horizon time reaches its gate close, with
its deadline the wait limit after the later of gate close and the start's time (R87, R88). Stamps of the instant that the
slot's plan has no use for may have come before; where the instant has seen nothing else, no other slot changes. A stamp of
the first role that was offered at the arm instant before the slot armed is judged under the arming: it is the start, which
a stamp of input B of the instant, offered before the arming as well, stops; or it is the first tag, whose outcome is placed,
and where it reaches a quota of 1 the slot returns to IDLE or re-arms. A stop stamp offered at gate close before the close is
taken ends the measurement at its offer already (StampStopsReciprocal); at the close it ends a measurement that holds it still
(R71 to R73, R76, R77, R91, R94). TIME_STEPPED tells a step notice of the instant by its order among the offers of start and
stop (log entry 30). -/
def Obligations.TimedArmingAndGateClose : Prop :=
  (∀ (n : SlotId) (a : Tick) (s : State), s.NoOtherStamp n → s.horizonStarted = true →
      let x := s.slot n
      x.state = .arming → x.data.gateOpen = none →
      (x.plan.armSource = .immediate → x.data.armInstant = some a → (s.horizonTime - a).toNat < 2 ^ 63 →
        ∃ t, exec (.immediateArmInstant n) s = .next t ∧ EngineStep s t ∧ t.stamps = s.stamps
          ∧ x.ArmedAt (t.slot n) a false s.horizonLocked ∧ (t.slot n).data.armingSince = x.data.armingSince
          ∧ s.GrantOnly n { x with state := (t.slot n).state, data := (t.slot n).data } (t.slot n)
          ∧ (s.Quiet → ∀ m, m ≠ n → s.GrantOnly m (s.slot m) (t.slot m)))
      ∧ (x.plan.armSource = .atTime → (s.horizonTime + s.offset - x.plan.armTime).toNat < 2 ^ 63 →
        ∃ t, exec (.atTimeArming n) s = .next t ∧ EngineStep s t ∧ t.stamps = s.stamps
          ∧ x.ArmedAt (t.slot n) (x.plan.armTime - s.offset) false s.horizonLocked
          ∧ (t.slot n).data.armingSince = x.data.armingSince
          ∧ s.GrantOnly n { x with state := (t.slot n).state, data := (t.slot n).data } (t.slot n)
          ∧ (s.Quiet → ∀ m, m ≠ n → s.GrantOnly m (s.slot m) (t.slot m))))
  ∧ (∀ (n : SlotId) (first : Endpoint) (s : State), s.NoOtherStamp n → s.horizonStarted = true →
      let x := s.slot n
      x.state = .gating → x.plan.kind = .reciprocal → x.data.start = some first →
      (s.horizonTime - x.data.gateClose).toNat < 2 ^ 63 →
      ∃ t, exec (.gateClose n) s = .next t ∧ EngineStep s t ∧ t.stamps = s.stamps
        ∧ s.GrantOnly n { x with
            state := .stopping, finishes := (t.slot n).finishes
            data := { x.data with deadline :=
              (if (first.time - x.data.gateClose).toNat < 2 ^ 63 then first.time else x.data.gateClose)
                + x.plan.waitLimit * 256 } } (t.slot n)
        ∧ (s.Quiet → (t.slot n).finishes = x.finishes ∧ ∀ m, m ≠ n → s.GrantOnly m (s.slot m) (t.slot m)))
  ∧ (∀ (n : SlotId) (a : Tick) (c : Instr) (g : Offered) (s : State), s.horizonStarted = true →
      let x := s.slot n
      let now := x.fresh.filter fun f => decide (f.offeredAt = s.horizonTime)
      let last := x.plan.kind = .timetag ∧ x.plan.repeatMode ≠ .continuous ∧ ∃ q, x.plan.quota = some q ∧ q.toNat ≤ 1
      x.state = .arming → x.data.gateOpen = none →
      ((c = .immediateArmInstant n ∧ x.plan.armSource = .immediate ∧ x.data.armInstant = some a
          ∧ (s.horizonTime - a).toNat < 2 ^ 63)
        ∨ (c = .atTimeArming n ∧ x.plan.armSource = .atTime ∧ a = x.plan.armTime - s.offset
          ∧ (s.horizonTime + s.offset - x.plan.armTime).toNat < 2 ^ 63)) →
      g.st.input = x.plan.inputA → g.st.sense = x.plan.senseA → (g.st.corrected - a).toNat < 2 ^ 63 →
      (now = [g] → ∃ t, exec c s = .next t ∧ EngineStep s t ∧ t.stamps = s.stamps
        ∧ x.StartedAt (t.slot n) a g.st g.scale s.horizonLocked
        ∧ (¬last → x.plan.kind ≠ .totalize → (t.slot n).data.startSteps = g.steps)
        ∧ (x.plan.kind = .reciprocal ∨ x.plan.kind = .interval →
          s.GrantOnly n { x with state := (t.slot n).state, data := (t.slot n).data } (t.slot n))
        ∧ (x.plan.kind = .timetag →
          s.FirstTagged t n g.endpoint (x.RearmedAt (t.slot n) s.horizonTime s.horizonLocked)))
      ∧ (∀ f, now = [g, f] ∨ now = [f, g] → x.plan.kind = .interval → f.st.input = x.plan.inputB →
        f.st.sense = x.plan.senseB → f.st.input ≠ g.st.input → (f.st.corrected - g.st.corrected).toNat < 2 ^ 63 →
        ∃ t, exec c s = .next t ∧ EngineStep s t ∧ t.stamps = s.stamps
          ∧ s.IntervalEnds t n g.st f.st g.scale f.scale ⟨false, !s.horizonLocked, false⟩ (decide (g.steps ≠ f.steps))
          ∧ (x.plan.repeatMode = .triggered → x.RearmedAt (t.slot n) s.horizonTime s.horizonLocked)))
  ∧ (∀ (n : SlotId) (first : Stamp) (scale : Tick) (g : Offered) (s : State), s.horizonStarted = true →
      let x := s.slot n
      x.state = .gating → x.plan.kind = .reciprocal → x.plan.ChainsUpward n →
      x.data.start = some (.stamp first scale) → first.input = g.st.input →
      (s.horizonTime - x.data.gateClose).toNat < 2 ^ 63 →
      (x.fresh.filter fun f => decide (f.offeredAt = s.horizonTime)) = [g] →
      g.st.input = x.plan.inputA → g.st.sense = x.plan.senseA → (g.st.corrected - x.data.gateClose).toNat < 2 ^ 63 →
      (g.st.corrected - first.corrected).toNat < 2 ^ 63 → g.st.corrected ≠ first.corrected →
      ∃ t, exec (.gateClose n) s = .next t ∧ EngineStep s t ∧ t.stamps = s.stamps
        ∧ s.OutcomeFormed t n {
            slot := n, kind := .reciprocal, reportAs := x.plan.reportAs, planGen := x.planGen, result := .valued
            flags := ⟨false, false, x.data.marks.timeStepped || decide (x.data.startSteps ≠ g.steps),
              x.data.marks.refFault || !s.horizonLocked,
              x.data.marks.calChanged || decide (first.calGen ≠ g.st.calGen), false⟩
            start := some (.stamp first scale), stop := some g.endpoint, edgesSince := none, lost := 0 }
        ∧ (x.plan.repeatMode = .single → (t.slot n).state = .idle
            ∧ ∀ p, (s.port p).subscription.getLsbD n = true → (t.port p).flags.getLsbD 2 = true)
        ∧ (x.plan.repeatMode = .triggered → x.plan.armSource ≠ .slotDone →
            x.RearmedAt (t.slot n) s.horizonTime s.horizonLocked)
        ∧ (x.plan.repeatMode = .continuous → (t.slot n).data.start = some g.endpoint))

/-- A deadline expires when horizon time has reached it and no stamp at or before that time is still to be offered: the
measurement ends NO_SIGNAL, with its start if one was taken: the outcome is placed, or dropped and counted where an entry is
held, and takes part in the grant of the instant. SINGLE returns to IDLE with DONE at the subscribed ports; TRIGGERED re-arms
at the deadline; CONTINUOUS begins again in STARTING at the deadline, with its marks clear but for REF_FAULT when the horizon
reference state is not LOCKED, RECIPROCAL with a new run. No dependent arms: where the instant has seen nothing else, no other
slot changes but for the grant, and no other flag (R7, R72 to R74, R76, R77, R82, R88, R90, R92, R99). TIME_STEPPED tells a step
notice of the start's own instant by the order of the two (log entry 30). -/
def Obligations.DeadlineEndsNoSignal : Prop :=
  ∀ (n : SlotId) (s : State), s.NoOtherCause n → s.horizonStarted = true →
    let x := s.slot n
    let d := x.data.deadline
    x.state = .starting ∨ x.state = .stopping → x.plan.kind = .reciprocal ∨ x.plan.kind = .interval →
    (s.horizonTime - d).toNat < 2 ^ 63 → (∀ st ∈ s.stamps, ¬(s.horizonTime - st.corrected).toNat < 2 ^ 63) →
    ∃ t, exec (.deadlineExpiry n) s = .next t ∧ EngineStep s t ∧ t.stamps = s.stamps
      ∧ (s.Quiet → ∀ m, m ≠ n → s.GrantOnly m (s.slot m) (t.slot m))
      ∧ s.OutcomeFormed t n {
          slot := n, kind := x.plan.kind, reportAs := x.plan.reportAs, planGen := x.planGen, result := .noSignal
          flags := ⟨false, true, x.data.marks.timeStepped || decide (x.data.startSteps ≠ 0),
            x.data.marks.refFault || !s.horizonLocked, x.data.marks.calChanged, false⟩
          start := x.data.start, stop := none, edgesSince := none, lost := 0 }
      ∧ (x.plan.repeatMode = .single → (t.slot n).state = .idle
          ∧ ∀ p, (s.port p).subscription.getLsbD n = true → (t.port p).flags.getLsbD 2 = true)
      ∧ (s.Quiet → ∀ p, t.port p =
          if x.plan.repeatMode = .single ∧ (s.port p).subscription.getLsbD n = true
          then { s.port p with flags := (s.port p).flags ||| 0b0000100 } else s.port p)
      ∧ (x.plan.repeatMode = .triggered → x.RearmedAt (t.slot n) d s.horizonLocked)
      ∧ (x.plan.repeatMode = .continuous → (t.slot n).state = .starting
          ∧ (t.slot n).data.start = none ∧ (t.slot n).data.startFrom = d ∧ (t.slot n).data.startStrict = false
          ∧ (t.slot n).data.deadline = d + x.plan.waitLimit * 256 ∧ (t.slot n).data.startSteps = 0
          ∧ (t.slot n).data.marks = ⟨false, !s.horizonLocked, false⟩
          ∧ (x.plan.kind = .reciprocal → (t.slot n).data.runOrigin = d ∧ (t.slot n).data.gateIndex = 1
              ∧ (t.slot n).data.gateOpen = some d ∧ (t.slot n).data.gateClose = d + x.plan.gate * 256))

/-- A TOTALIZE slot that has armed reads the boundary count when horizon time reaches gate open, and enters GATING; the
boundary count at k is the count of the sense less the qualified edges kept with a coarse period not below k (R22, R93).
When horizon time reaches gate close it is a valued finish whose outcome carries the two boundaries with their counts: it is
placed, or dropped and counted where an entry is held, and takes part in the grant of the instant;
under CONTINUOUS the next gate opens at that close with the same boundary and its marks clear but for REF_FAULT, under SINGLE
the slot returns to IDLE with DONE at the subscribed ports, and under TRIGGERED it re-arms at that close. Where the instant has
seen nothing else, a slot that does not wait for the finish changes but for the grant in nothing, or, where the slot is its arm
slot, in what it remembers of the finish alone, and no flag is set but that DONE (R73, R74, R76, R77, R82, R86, R99, R103,
R104, R131). -/
def Obligations.GateOfTotalize : Prop :=
  (∀ (n : SlotId) (gate : Tick) (s : State), s.horizonStarted = true →
      let x := s.slot n
      let k : Coarse := gate.extractLsb' 8 56
      let later := (s.input x.plan.inputA).recent.countP
        fun e => decide (e.sense = x.plan.senseA ∧ (e.period - k).toNat < 2 ^ 55)
      x.state = .arming → x.plan.kind = .totalize → x.data.gateOpen = some gate →
      (s.horizonTime - gate).toNat < 2 ^ 63 →
      ∃ t, exec (.totalizeGateOpen n) s = .next t ∧ EngineStep s t ∧ t.stamps = s.stamps
        ∧ s.GrantOnly n { x with
            state := .gating, finishes := (t.slot n).finishes
            data := { x.data with
              start := some (.boundary gate (gate + s.offset)
                ((s.input x.plan.inputA).count x.plan.senseA - BitVec.ofNat 48 later))
              marks := { x.data.marks with refFault := x.data.marks.refFault || !s.horizonLocked } } } (t.slot n)
        ∧ (s.Quiet → (t.slot n).finishes = x.finishes ∧ ∀ m, m ≠ n → s.GrantOnly m (s.slot m) (t.slot m)))
  ∧ (∀ (n : SlotId) (opened : Endpoint) (s : State), s.NoOtherCause n → s.horizonStarted = true →
      let x := s.slot n
      let gate := x.data.gateClose
      let later := (s.input x.plan.inputA).recent.countP
        fun e => decide (e.sense = x.plan.senseA ∧ (e.period - gate.extractLsb' 8 56).toNat < 2 ^ 55)
      let closed : Endpoint := .boundary gate (gate + s.offset)
        ((s.input x.plan.inputA).count x.plan.senseA - BitVec.ofNat 48 later)
      x.state = .gating → x.plan.kind = .totalize → x.plan.ChainsUpward n → x.data.start = some opened →
      (s.horizonTime - gate).toNat < 2 ^ 63 →
      ∃ t o, exec (.totalizeGateClose n) s = .next t ∧ EngineStep s t ∧ t.stamps = s.stamps
        ∧ s.OutcomeFormed t n o ∧ o.record.edges = some (closed.count - opened.count)
        ∧ o.record.duration = some (gate - opened.time)
        ∧ o = {
            slot := n, kind := .totalize, reportAs := x.plan.reportAs, planGen := x.planGen, result := .valued
            flags := ⟨false, false, x.data.marks.timeStepped, x.data.marks.refFault || !s.horizonLocked,
              x.data.marks.calChanged, false⟩
            start := some opened, stop := some closed, edgesSince := none, lost := 0 }
        ∧ (x.plan.repeatMode = .single → (t.slot n).state = .idle
            ∧ ∀ p, (s.port p).subscription.getLsbD n = true → (t.port p).flags.getLsbD 2 = true)
        ∧ (x.plan.repeatMode = .triggered → x.RearmedAt (t.slot n) gate s.horizonLocked)
        ∧ (x.plan.repeatMode = .continuous → (t.slot n).state = .gating ∧ (t.slot n).data.start = some closed
            ∧ (t.slot n).data.gateOpen = some gate ∧ (t.slot n).data.gateClose = gate + x.plan.gate * 256
            ∧ (t.slot n).data.startSteps = 0 ∧ (t.slot n).data.marks = ⟨false, !s.horizonLocked, false⟩)
        ∧ (s.Quiet → ∀ m, m ≠ n →
          ((s.slot m).plan.armSource ≠ .slotDone ∨ (s.slot m).plan.armSlot ≠ n → s.GrantOnly m (s.slot m) (t.slot m))
          ∧ (¬(s.slot m).WaitsForFinish →
            s.GrantOnly m { s.slot m with finishes := (t.slot m).finishes } (t.slot m)))
        ∧ (s.Quiet → ∀ p, t.port p =
            if x.plan.repeatMode = .single ∧ (s.port p).subscription.getLsbD n = true
            then { s.port p with flags := (s.port p).flags ||| 0b0000100 } else s.port p))

/-- A slot waiting in ARMING under SLOT_DONE arms at a valued finish of its arm slot, with its stop time as the arm
instant: at the close of a TOTALIZE gate, and at the stamp that is a RECIPROCAL or INTERVAL stop or a tag, where that
stamp, if it also meets the first role's condition, is the start or the first tag as well, where it has not finished a
measurement of the dependent itself; stamps of the instant that the dependent has no use for, and the start of an INTERVAL
measurement that stops at its own instant, may have come before. That first tag's outcome is placed, or dropped and counted
where an entry is held, and takes part in the grant of the instant; where it reaches a quota of 1, SINGLE returns to IDLE with
DONE at the subscribed ports, and TRIGGERED re-arms at the instant, where no other finish of the instant is remembered.
Where the instant has seen nothing else, other waiting slots do not arm (R7, R71 to R74, R76, R77, R86, R94, R95). -/
def Obligations.SlotDoneArmsDependents : Prop :=
  (∀ (n m : SlotId) (s : State), s.NoOtherStamp m → s.horizonStarted = true → n < m →
    let x := s.slot n
    let y := s.slot m
    x.state = .gating → x.plan.kind = .totalize → (s.horizonTime - x.data.gateClose).toNat < 2 ^ 63 →
    y.state = .arming → y.plan.armSource = .slotDone → y.data.gateOpen = none →
    ∃ t, exec (.totalizeGateClose n) s = .next t
      ∧ (y.plan.armSlot = n → y.ArmedAt (t.slot m) x.data.gateClose false s.horizonLocked)
      ∧ (s.Quiet → y.plan.armSlot ≠ n → s.GrantOnly m y (t.slot m)))
  ∧ (∀ (n m : SlotId) (i : InputId) (st : Stamp) (s : State), s.NoOtherStamp m → s.dueStamp i = some st → n < m →
    (∀ f ∈ (s.slot n).fresh, f.offeredAt = s.horizonTime → ¬(s.slot n).plan.Takes f.st
      ∨ ((s.slot n).plan.kind = .interval ∧ (s.slot n).data.start = some f.endpoint)) →
    let y := s.slot m
    let tags := y.plan.kind = .timetag ∧ st.input = y.plan.inputA ∧ st.sense = y.plan.senseA
    (s.slot n).EndsAt st (st.corrected + s.offset) →
    y.state = .arming → y.plan.armSource = .slotDone → y.data.gateOpen = none → y.plan.armSlot = n →
    (∀ g ∈ y.usedUp, g.offeredAt = s.horizonTime → g.st ≠ st) →
    ∃ t, exec (.stampOffer i) s = .next t ∧ EngineStep s t
      ∧ y.ArmedByStamp (t.slot m) st (st.corrected + s.offset) s.horizonLocked ∧ (t.slot m).data.startSteps = 0
      ∧ (¬tags → s.GrantOnly m { y with
          state := (t.slot m).state, data := (t.slot m).data, fresh := (t.slot m).fresh
          finishes := (t.slot m).finishes } (t.slot m))
      ∧ (tags → s.FirstTagged t m (.stamp st (st.corrected + s.offset))
          ((∀ e ∈ y.finishes, e.at' ≠ s.horizonTime) → y.RearmedAt (t.slot m) s.horizonTime s.horizonLocked)))

/-- A slot under SLOT_DONE and TRIGGERED whose own stop, or the tag that reaches its quota, comes at the very instant of a valued
finish of its arm slot arms at that finish, with its stop time, also where the finish was taken first, while the slot was still
measuring: what the finish sets is judged by its time. A finish that the slot's own stop stamp caused does not arm it, in
either order: neither one that comes before the slot stops, nor one that comes after it, where the arm slot takes that stamp
later in the instant, since another stamp has armed it only then; another slot, which that stamp has not finished, it arms
(R71, R72, R77, R82, R86, R95; log entry 33). -/
def Obligations.FinishSeenArmsAtItsInstant : Prop :=
  (∀ (i : InputId) (st : Stamp) (m : SlotId) (s : State),
    s.dueStamp i = some st → (∀ k, ∀ f ∈ (s.slot k).fresh, f.offeredAt ≠ s.horizonTime) →
    let x := s.slot m
    x.EndsAt st (st.corrected + s.offset) →
    (x.plan.kind = .timetag → ∃ q, x.plan.quota = some q ∧ q.toNat ≤ x.data.tags + 1) →
    x.plan.repeatMode = .triggered → x.plan.armSource = .slotDone → x.plan.armSlot < m →
    (∀ e, x.finishes = [e] → e.at' = s.horizonTime → e.cause ≠ some st →
      ∃ t, exec (.stampOffer i) s = .next t ∧ x.ArmedAt (t.slot m) e.stopTime false s.horizonLocked)
    ∧ (x.finishes = [] →
      ∃ t, exec (.stampOffer i) s = .next t ∧ (t.slot m).state = .arming
        ∧ (t.slot m).data = { MeasData.empty with armingSince := s.horizonTime }
        ∧ ∃ g ∈ (t.slot m).usedUp, g.offeredAt = s.horizonTime ∧ g.st = st))
  ∧ (∀ (i : InputId) (st : Stamp) (f : Offered) (m : SlotId) (s : State), s.dueStamp i = some st → s.NoOtherStamp m →
    let y := s.slot m
    let x := s.slot y.plan.armSlot
    y.plan.armSlot < m → y.state = .arming → y.plan.armSource = .slotDone → y.data.gateOpen = none →
    ¬y.plan.Takes st → (∀ e ∈ y.finishes, e.at' ≠ s.horizonTime) →
    x.state = .arming → x.plan.armSource = .inputEdge → x.plan.kind = .timetag → x.data.gateOpen = none →
    st.input = x.plan.armInput → st.sense = x.plan.armSense → (st.corrected - x.data.armingSince).toNat < 2 ^ 63 →
    (x.fresh.filter fun g => decide (g.offeredAt = s.horizonTime)) = [f] →
    f.st.input = x.plan.inputA → f.st.sense = x.plan.senseA → f.st.input ≠ st.input →
    (f.st.corrected - st.corrected).toNat < 2 ^ 63 →
    ∃ t, exec (.stampOffer i) s = .next t
      ∧ ((∃ g ∈ y.usedUp, g.offeredAt = s.horizonTime ∧ g.st = f.st) →
        (t.slot m).state = .arming ∧ (t.slot m).data = y.data)
      ∧ ((∀ g ∈ y.usedUp, g.offeredAt = s.horizonTime → g.st ≠ f.st) →
        y.ArmedAt (t.slot m) f.st.corrected false s.horizonLocked))

/-! ## Arithmetic unit -/

/-- The arbiter is round-robin: among the waiting slots, given in ascending order, it grants the lowest-numbered one above
the last granted, or the lowest-numbered where none lies above; it grants one whenever some slot waits. The grant at the
end of an event is that one while the unit is FREE, and none while it serves an entry taken earlier. An entry taken at this
very instant stands when it is still the one that round robin gives among all the placements of the instant; else the unit
serves the one that it gives, and the entry is back in its slot (R99 to R101; log entry 18). -/
def Obligations.ArbiterGrantsRoundRobin : Prop :=
  allSlots.Pairwise (· < ·) ∧ (∀ n, n ∈ allSlots)
  ∧ (∀ (last : SlotId) (waiting : List SlotId), waiting.Pairwise (· < ·) →
    (waiting = [] → nextGrant last waiting = none)
    ∧ (∀ n, nextGrant last waiting = some n → n ∈ waiting
        ∧ (last < n → ∀ m ∈ waiting, last < m → n ≤ m)
        ∧ (¬last < n → ∀ m ∈ waiting, ¬last < m ∧ n ≤ m))
    ∧ (waiting ≠ [] → ∃ n, nextGrant last waiting = some n))
  ∧ (∀ s : State, s.grant = { s with slots := s.grant.slots, unit := s.grant.unit }
    ∧ (s.unit.service = none → s.GrantsNext s.grant s.slot)
    ∧ ∀ v, s.unit.service = some v →
      let set := allSlots.filter fun n => decide (n = v.slot ∨ (s.slot n).finished.isSome = true)
      (v.takenAt ≠ s.rawTime ∨ nextGrant v.grantedBefore set = some v.slot → s.grant = s)
      ∧ (v.takenAt = s.rawTime → ∀ n, nextGrant v.grantedBefore set = some n → n ≠ v.slot →
          (∃ o, (s.slot n).finished = some o ∧ s.grant.unit = ⟨some ⟨n, o, s.rawTime, v.grantedBefore⟩, n⟩)
          ∧ (s.grant.slot n).finished = none ∧ (s.grant.slot v.slot).finished = some v.outcome
          ∧ ∀ m, m ≠ n → m ≠ v.slot → s.grant.slot m = s.slot m))

/-- A completion writes the record of the served outcome into the latest-table entry of its slot, and no other. The record
carries the outcome's slot, kind, report form, generation and flags, the time-scale times of its start and stop, and a lost
count above 0. RECIPROCAL valued: T and N are the differences of the stamps' corrected times and counts, and the value is the
rounded frequency or period. INTERVAL valued: T, which is the value, and no N. TOTALIZE valued: T and N from the boundaries,
and N is the value. TIMETAG, NO_SIGNAL and ABORTED records have no stop, N, T and value, and a TIMETAG tag alone has
edges-since-previous (R102 to R108, R110 to R113). The outcome served has the shape of R73, as every outcome on its way to a
record has (State.LogLaws). Rounding half up gives the nearest integer, an exact half rounded up; the frequency and the
period of N edges over T ticks are N × 64,000,000,000,000,000 / T µHz and T × 15,625 / N fs, so rounded (R105 to R107). -/
def Obligations.CompletionRecordsOutcome : Prop :=
  (∀ a b : Nat, 0 < b → 2 * a < (2 * roundHalfUp a b + 1) * b ∧ (2 * roundHalfUp a b) * b ≤ 2 * a + b)
  ∧ (∀ n t : Nat, 0 < t → frequencyValue n t = (2 * n * 64000000000000000 + t) / (2 * t))
  ∧ (∀ n t : Nat, 0 < n → periodValue n t = (2 * t * 15625 + n) / (2 * n))
  ∧ ∀ (v : Service) (s : State), s.unit.service = some v → v.outcome.Shaped →
    let o := v.outcome
    let scale (e : Endpoint) : Tick := match e with | .stamp _ t => t | .boundary _ t _ => t
    ∃ t e, exec .serviceCompletion s = .next t ∧ t.latest[o.slot] = some e
      ∧ (∀ m, m ≠ o.slot → t.latest[m] = s.latest[m])
      ∧ e.record.slot = o.slot ∧ e.record.kind = o.kind ∧ e.record.reportAs = o.reportAs
      ∧ e.record.planGen = o.planGen ∧ e.record.flags = o.flags
      ∧ e.record.start = o.start.map scale ∧ e.record.stop = o.stop.map scale
      ∧ e.record.edgesSince = o.edgesSince ∧ (o.result ≠ .valued ∨ o.kind ≠ .timetag → e.record.edgesSince = none)
      ∧ e.record.lost = (if o.lost = 0 then none else some o.lost)
      ∧ (∀ (a b : Stamp) (ta tb : Tick), o.kind = .reciprocal → o.result = .valued →
        o.start = some (.stamp a ta) → o.stop = some (.stamp b tb) →
        let T := (b.corrected - a.corrected).toNat
        let N := (b.edgeCount - a.edgeCount).toNat
        e.record.duration = some (b.corrected - a.corrected) ∧ e.record.edges = some (b.edgeCount - a.edgeCount)
        ∧ (o.reportAs = .frequency →
            e.record.value = some (BitVec.ofNat 64 ((2 * N * 64000000000000000 + T) / (2 * T))))
        ∧ (o.reportAs = .period → e.record.value = some (BitVec.ofNat 64 ((2 * T * 15625 + N) / (2 * N)))))
      ∧ (∀ (a b : Stamp) (ta tb : Tick), o.kind = .interval → o.result = .valued →
        o.start = some (.stamp a ta) → o.stop = some (.stamp b tb) →
        e.record.duration = some (b.corrected - a.corrected) ∧ e.record.value = some (b.corrected - a.corrected)
        ∧ e.record.edges = none)
      ∧ (∀ (ra rb ta tb : Tick) (ca cb : EdgeCount), o.kind = .totalize → o.result = .valued →
        o.start = some (.boundary ra ta ca) → o.stop = some (.boundary rb tb cb) →
        e.record.duration = some (rb - ra) ∧ e.record.edges = some (cb - ca)
        ∧ e.record.value = some ((cb - ca).setWidth 64))
      ∧ (o.result ≠ .valued ∨ o.kind = .timetag → e.record.stop = none ∧ e.record.edges = none
        ∧ e.record.duration = none ∧ e.record.value = none)

/-- While the log holds fewer than 512 records a completion writes its record with the next sequence, which rises by one;
the records at the oldest end that no port wants leave, cursors before the oldest sequence are dragged to it, also where
no record left (log entry 12), and RESULTS is set at each port that wants the new record with its backlog at or above its
threshold. The record stands in the latest table in the entry of its slot, and no other entry changes. The unit is then
FREE, or serves the entry of the next slot that round robin gives, which leaves that slot
(R98 to R100, R113, R114, R117, R120 to R123). -/
def Obligations.CompletionWritesRecord : Prop :=
  ∀ (v : Service) (s : State), s.unit.service = some v → s.log.held.length < 512 →
    let e : LogEntry := ⟨s.log.nextSeq, v.outcome.record⟩
    ∃ t, exec .serviceCompletion s = .next t
      ∧ t = { s with log := t.log, latest := t.latest, ports := t.ports, slots := t.slots, unit := t.unit }
      ∧ t.log = { s.log with
          nextSeq := s.log.nextSeq + 1, held := (s.log.held ++ [e]).dropWhile fun r => !decide (∃ p, (s.port p).wants r = true) }
      ∧ t.latest[v.outcome.slot] = some ⟨some s.log.nextSeq, v.outcome.record⟩
      ∧ (∀ m, m ≠ v.outcome.slot → t.latest[m] = s.latest[m])
      ∧ s.GrantsNext t s.slot
      ∧ ∀ p, let q : Port := { s.port p with
              cursor := if ((s.port p).cursor - t.log.oldestSeq).toNat < 2 ^ 31 then (s.port p).cursor
                else t.log.oldestSeq }
            t.port p = if q.wants e = true ∧ q.threshold.toNat ≤ backlog t.log.held q
              then { q with flags := q.flags ||| 0b0000001 } else q

/-- Under OVERWRITE a full log removes its oldest record to write the new one: each port that wanted the removed record
has its skipped count risen by one, held at its maximum, LOSS set and its cursor moved past the record, and no other port
is charged; then the new record is written, the retirement check is made, cursors are dragged, and RESULTS is set at each
port that wants the new record with its backlog at or above its threshold (R118, R123, R124). Under HOLD it discards the new record:
log and ports are as they were, the lost count of the record's slot rises by one and by the count the record carried, and
the record stands in the latest table with no sequence number (R113, R125). Either way the unit is then FREE, or serves the
entry of the next slot that round robin gives (R98 to R100, R113). -/
def Obligations.FullLogPolicies : Prop :=
  (∀ (v : Service) (oldest : LogEntry) (rest : List LogEntry) (s : State), s.unit.service = some v →
      s.log.held = oldest :: rest → 512 ≤ s.log.held.length → s.log.policy = .overwrite →
      let e : LogEntry := ⟨s.log.nextSeq, v.outcome.record⟩
      let charged (p : PortId) : Port := if (s.port p).wants oldest = true then { s.port p with
          skipped := BitVec.ofNat 32 (min ((s.port p).skipped.toNat + 1) 4294967295)
          flags := (s.port p).flags ||| 0b0000010, cursor := oldest.seq + 1 } else s.port p
      ∃ t, exec .serviceCompletion s = .next t
        ∧ t = { s with log := t.log, latest := t.latest, ports := t.ports, slots := t.slots, unit := t.unit }
        ∧ t.log = { s.log with
            nextSeq := s.log.nextSeq + 1
            held := (rest ++ [e]).dropWhile fun r => !decide (∃ p, (charged p).wants r = true) }
        ∧ t.latest[v.outcome.slot] = some ⟨some s.log.nextSeq, v.outcome.record⟩
        ∧ (∀ m, m ≠ v.outcome.slot → t.latest[m] = s.latest[m])
        ∧ s.GrantsNext t s.slot
        ∧ ∀ p, let q : Port := { charged p with
                cursor := if ((charged p).cursor - t.log.oldestSeq).toNat < 2 ^ 31 then (charged p).cursor
                  else t.log.oldestSeq }
              t.port p = if q.wants e = true ∧ q.threshold.toNat ≤ backlog t.log.held q
                then { q with flags := q.flags ||| 0b0000001 } else q)
  ∧ (∀ (v : Service) (s : State), s.unit.service = some v → 512 ≤ s.log.held.length → s.log.policy = .hold →
      ∃ t, exec .serviceCompletion s = .next t
        ∧ t = { s with latest := t.latest, slots := t.slots, unit := t.unit }
        ∧ t.latest[v.outcome.slot] = some ⟨none, v.outcome.record⟩
        ∧ (∀ m, m ≠ v.outcome.slot → t.latest[m] = s.latest[m])
        ∧ s.GrantsNext t fun m => if m = v.outcome.slot then { s.slot m with
            lost := BitVec.ofNat 32 (min ((s.slot m).lost.toNat + 1 + v.outcome.lost.toNat) 4294967295) } else s.slot m)

/-! ## Result log requests -/

/-- SUBSCRIBE changes the subscription by its operation, the cursor by its start and the threshold as clamped, at the
sending port alone; then the retirement check is made: the records at the oldest end that no port wants leave, and every
cursor before the oldest sequence is dragged to it, which is the next sequence when the log is empty; the dragging is made
also where no record left (log entry 12). An unknown operation or start is refused with BAD_VALUE (R116, R120, R121, R129,
R130). -/
def Obligations.SubscribeChangesOwnReading : Prop :=
  (∀ l : Log, l.oldestSeq = match l.held with | [] => l.nextSeq | e :: _ => e.seq)
  ∧ (∀ s : State, let t := s.retirementCheck
    t = { s with log := t.log, ports := t.ports }
    ∧ t.log = { s.log with held := s.log.held.dropWhile fun r => !decide (∃ p, (s.port p).wants r = true) }
    ∧ ∀ p, t.port p = { s.port p with
        cursor := if ((s.port p).cursor - t.log.oldestSeq).toNat < 2 ^ 31 then (s.port p).cursor else t.log.oldestSeq })
  ∧ ∀ (p : PortId) (tag op start : Byte) (slots : BitVec 16) (th : Option (BitVec 16)) (s : State),
    let q := s.port p
    let q' : Port := { q with
      subscription := if op = 1 then q.subscription ||| slots else if op = 2 then q.subscription &&& ~~~slots else slots
      cursor := if start = 0 then q.cursor else if start = 1 then s.log.oldestSeq else s.log.nextSeq
      threshold := match th with | none => q.threshold | some v => BitVec.ofNat 16 (max 1 (min v.toNat 512)) }
    let t := (s.setPort p q').retirementCheck
    ((op = 1 ∨ op = 2 ∨ op = 3) → (start = 0 ∨ start = 1 ∨ start = 2) →
      exec (.subscribe p tag slots op start th) s = .next (t.setPort p ((t.port p).answer
        (match th with | none => .ok | some v => if v = 0 ∨ 512 < v.toNat then .clamped else .ok) tag 0x40
        (bytesBE 2 (t.port p).subscription.toNat ++ bytesBE 4 (t.port p).cursor.toNat
          ++ bytesBE 2 (t.port p).threshold.toNat ++ bytesBE 2 (backlog t.log.held (t.port p))))))
    ∧ (¬((op = 1 ∨ op = 2 ∨ op = 3) ∧ (start = 0 ∨ start = 1 ∨ start = 2)) →
      exec (.subscribe p tag slots op start th) s = .next (s.setPort p (q.answer .badValue tag 0x40 [])))

/-- READ_RESULTS on a legal log (R132 to R134): from the port's cursor on, at most k records of its subscription are
delivered in sequence order, k clamped to 1 to 4; every held record it passed lies before the new cursor; the skipped
count is returned and cleared, and the retirement check follows. A port wants a record whose slot is in its subscription and
which its cursor is at or before (R119). -/
def Obligations.ReadResultsDelivers : Prop :=
  (∀ (q : Port) (e : LogEntry), q.wants e = true ↔
    q.subscription.getLsbD e.record.slot = true ∧ (e.seq - q.cursor).toNat < 2 ^ 31)
  ∧ ∀ (p : PortId) (tag k : Byte) (s : State), s.LogLaws →
    let q := s.port p
    let limit := max 1 (min k.toNat 4)
    let wanted := s.log.held.filter fun e => q.wants e
    let delivered := wanted.take limit
    let cursor := if limit ≤ wanted.length then (delivered.getLast?.map fun e => e.seq + 1).getD s.log.nextSeq
      else s.log.nextSeq
    let t := (s.setPort p { q with cursor := cursor, skipped := 0 }).retirementCheck
    exec (.readResults p tag k) s = .next (t.setPort p ((t.port p).answer
      (if k = 0 ∨ 4 < k.toNat then .clamped else .ok) tag 0x41
      (bytesBE 4 q.skipped.toNat ++ bytesBE 2 (backlog t.log.held (t.port p)) ++ [BitVec.ofNat 8 delivered.length]
        ++ delivered.flatMap fun e => recordBytes (some e.seq) e.record)))

/-- SET_LOG needs the MEASURE right, and without it is answered NOT_PERMITTED. An expected log generation other than the
one in force is refused with STALE and returned the one in force, before the policy is looked at; then an unknown policy is
refused with BAD_VALUE; a refused request changes nothing else. Otherwise the policy is set, the log generation rises by
one, every other port has CHANGE set, and the response carries the policy and the new generation (R127, R128). -/
def Obligations.SetLogSetsPolicy : Prop :=
  ∀ (p : PortId) (tag b : Byte) (g : Option Gen) (s : State),
    let refused (st : Status) (bs : List Byte) :=
      exec (.setLog p tag g b) s = .next (s.setPort p ((s.port p).answer st tag 0x44 bs))
    let right := (s.port p).rights.getLsbD 0 = true
    (¬right → refused .notPermitted [])
    ∧ (right → ¬Passes g s.log.gen → refused .stale (bytesBE 2 s.log.gen.toNat))
    ∧ (right → Passes g s.log.gen → ¬(b = 1 ∨ b = 2) → refused .badValue [])
    ∧ (right → Passes g s.log.gen → b = 1 ∨ b = 2 → ∃ t, exec (.setLog p tag g b) s = .next t
      ∧ t = { s with
          log := { s.log with policy := if b = 1 then .overwrite else .hold, gen := s.log.gen + 1 }, ports := t.ports }
      ∧ ChangeNoticed s t p ((s.port p).answer .ok tag 0x44 (b :: bytesBE 2 (s.log.gen + 1).toNat)))

/-- RESET_MEASUREMENT from a port with the MEASURE right: every slot IDLE with nothing in flight, finished or lost and its
plan kept; the unit FREE with last granted S15; the latest table and the log empty, the next sequence kept; every cursor
at the next sequence; CHANGE set at every other port; nothing else changes (R68, R96, R115, R138 to R140). -/
def Obligations.ResetMeasurementClears : Prop :=
  ∀ (p : PortId) (tag : Byte) (s : State), (s.port p).rights.getLsbD 0 = true →
    ∃ t, exec (.resetMeasurement p tag) s = .next t
      ∧ t = { s with
          slots := t.slots, unit := ⟨none, 15⟩, latest := Vector.replicate 16 none, log := { s.log with held := [] }
          ports := t.ports }
      ∧ (∀ n, t.slot n = { s.slot n with
          state := .idle, data := MeasData.empty, lost := 0, finished := none, fresh := [], finishes := [], usedUp := [] })
      ∧ t.port p = { s.port p with cursor := s.log.nextSeq }.answer .ok tag 0x45 (bytesBE 4 s.log.nextSeq.toNat)
      ∧ ∀ q, q ≠ p → t.port q = { s.port q with cursor := s.log.nextSeq }.noticed

/-! ## Ports -/

/-- The moves of the link state but for the end of an ordinary selection (R143, R146, R156, R158). A selection that starts
moves READY to SELECTED and PREPARING to EARLY. One in which no complete byte was exchanged keeps the pending response, of
which it shifted out the first bits, and returns to READY. An early one shifts out NOT_READY, discards what came in, and
returns to READY or PREPARING as preparation has ended or not. Preparation ends once the response is formed, whenever it is
sent (log entry 14): PREPARING moves to READY, and in EARLY the response waits. A selection in progress at the release of device reset is ignored to its
end, whatever it carries (R164). -/
def Obligations.SelectionsAndPreparation : Prop :=
  (∀ (p : PortId) (s : State), (s.port p).ignoring = false →
      ((s.port p).link = .ready → exec (.selectionStart p) s = .next (s.setPort p { s.port p with link := .selected }))
      ∧ ((s.port p).link = .preparing → exec (.selectionStart p) s = .next (s.setPort p { s.port p with link := .early })))
  ∧ (∀ (p : PortId) (bits : List Bool) (s : State), (s.port p).ignoring = false →
      (∀ r, (s.port p).link = .selected → bits.length < 8 → (s.port p).response = some r →
        exec (.selectionEnd p bits) s
          = .next (s.setPort p { s.port p with link := .ready, shiftedOut := r.stream bits.length }))
      ∧ ((s.port p).link = .early →
        exec (.selectionEnd p bits) s = .next (s.setPort p { s.port p with
          link := if (s.port p).prepared then .ready else .preparing
          shiftedOut := (⟨.notReady, 0, 0, []⟩ : Response).stream bits.length })))
  ∧ (∀ (p : PortId) (bits : List Bool) (s : State), (s.port p).ignoring = true →
      exec (.selectionStart p) s = .next s
      ∧ exec (.selectionEnd p bits) s = .next (s.setPort p { s.port p with ignoring := false }))
  ∧ (∀ (p : PortId) (s : State), (s.port p).response ≠ none → (s.port p).arriving = none →
      ((s.port p).link = .preparing →
        exec (.preparationEnd p) s = .next (s.setPort p { s.port p with prepared := true, link := .ready }))
      ∧ ((s.port p).link = .early → (s.port p).prepared = false →
        exec (.preparationEnd p) s = .next (s.setPort p { s.port p with prepared := true })))

/-- The end of an ordinary selection (R144, R145, R149 to R156): the pending response was shifted out and the port enters
PREPARING. The bits shifted in make bytes with the most significant bit first, a partial byte at the end is discarded, and
the received frame decides: a request that passes every check is on its way to arrive at the next coarse clock edge;
otherwise the port's own error response is pending, BAD_FRAME with the bad-frame count risen and LINK set, TOO_LONG with
LINK set, the others with neither. Nothing else changes. -/
def Obligations.SelectionEndJudgesFrame : Prop :=
  ∀ (p : PortId) (bits : List Bool) (bytes : List Byte) (r : Response) (s : State), (s.port p).ignoring = false →
    (s.port p).link = .selected → 8 ≤ bits.length → (s.port p).response = some r →
    bytes.length = bits.length / 8 →
    (∀ (j k : Nat), j < bytes.length → k < 8 → bits[8 * j + k]? = (bytes[j]?).map fun b => b.getLsbD (7 - k)) →
    let q : Port := { s.port p with
      link := .preparing, prepared := false, prepStart := s.rawTime, shiftedOut := r.stream bits.length }
    exec (.selectionEnd p bits) s = .next (s.setPort p
      (match judgeFrame p q.rights bytes with
      | .tooLong tag c => { q.answer .tooLong tag c [] with flags := q.flags ||| 0b1000000 }
      | .badFrame => { q.answer .badFrame 0 0 [] with
          flags := q.flags ||| 0b1000000, badFrames := BitVec.ofNat 16 (min (q.badFrames.toNat + 1) 65535) }
      | .unknownCommand tag c => q.answer .unknownCommand tag c []
      | .notPermitted tag c => q.answer .notPermitted tag c.code []
      | .badPayload tag c => q.answer .badPayload tag c.code []
      | .taken request => { q with response := none, arriving := some ⟨s.coarse + 1, request⟩ }))

/-- NULL returns the port number, the rights and the bad-frame count and changes nothing else (R161). PORT_RESET empties
the port's subscription, flags and mask, sets its cursor to the next sequence and its threshold to 1, clears its skipped and
bad-frame counts, keeps its rights and is answered with the NONE response; the retirement check follows, and nothing else
changes (R141, R162, R174). READ_ATTENTION reports the flags set at its arrival, clears exactly those, returns the mask, and
releases the line (R169, R171). None of the three takes a payload: one does not fit the form. SET_ATTENTION changes the mask
by its operation, and the line follows at once; an unknown operation, or a set that names anything but the seven flags, is
refused with BAD_VALUE. No flag changes (R169, R170, R181). -/
def Obligations.PortOwnRequests : Prop :=
  (∀ (p : PortId) (tag : Byte) (s : State),
      exec (.null p tag) s = .next (s.setPort p ((s.port p).answer .ok tag 0x01
        ([BitVec.ofNat 8 p.val, (s.port p).rights.setWidth 8] ++ bytesBE 2 (s.port p).badFrames.toNat)))
      ∧ exec (.portReset p tag) s = .next (s.setPort p { s.port p with
        subscription := 0, cursor := s.log.nextSeq, threshold := 1, skipped := 0, flags := 0, mask := 0, badFrames := 0
        response := some ⟨.none, 0, 0, []⟩ }).retirementCheck
      ∧ (∃ t, exec (.readAttention p tag) s = .next t
        ∧ t = s.setPort p ({ s.port p with flags := 0 }.answer .ok tag 0x03
            [(s.port p).flags.setWidth 8, (s.port p).mask.setWidth 8])
        ∧ (t.port p).attentionLine = false)
      ∧ ∀ (b : Byte) (bs : List Byte), parseRequest p tag .null (b :: bs) = none
        ∧ parseRequest p tag .portReset (b :: bs) = none ∧ parseRequest p tag .readAttention (b :: bs) = none)
  ∧ (∀ (p : PortId) (tag op flags : Byte) (s : State),
      let q := s.port p
      let named := flags.setWidth 7
      let m := if op = 1 then q.mask ||| named else if op = 2 then q.mask &&& ~~~named else named
      (op = 1 ∨ op = 2 ∨ op = 3 → flags.toNat < 128 → ∃ t, exec (.setAttention p tag op flags) s = .next t
        ∧ t = s.setPort p ({ q with mask := m }.answer .ok tag 0x04 [m.setWidth 8, q.flags.setWidth 8])
        ∧ ((t.port p).attentionLine = true ↔ ∃ k, q.flags.getLsbD k = true ∧ m.getLsbD k = true))
      ∧ (¬((op = 1 ∨ op = 2 ∨ op = 3) ∧ flags.toNat < 128) →
        exec (.setAttention p tag op flags) s = .next (s.setPort p (q.answer .badValue tag 0x04 []))))

/-! ## Frames and layouts -/

/-- Which received bytes give which verdict, the first condition that holds deciding (R147, R149 to R152, R154, R155). Fewer
than three bytes are truncated: BAD_FRAME. A length byte above 250 gives TOO_LONG, whatever follows. A frame whose payload
or CRC is not complete, or whose CRC differs, gives BAD_FRAME. Then a command code that is none of the twenty gives
UNKNOWN_COMMAND, a command the rights do not permit NOT_PERMITTED, a payload that is no well-formed request's BAD_PAYLOAD,
and one that is, is taken as that request. The rights permit a command that needs none, and one whose right they hold, by the
table of R154. -/
def Obligations.FrameVerdicts : Prop :=
  (∀ (p : PortId) (rights : BitVec 3) (bs : List Byte), bs.length < 3 → judgeFrame p rights bs = .badFrame)
  ∧ (∀ (p : PortId) (rights : BitVec 3) (code tag len : Byte) (rest : List Byte),
      let verdict := judgeFrame p rights (code :: tag :: len :: rest)
      let payload := rest.take len.toNat
      let sum := (crc (code :: tag :: len :: payload)).toNat
      let sound := len.toNat ≤ 250 ∧ len.toNat + 2 ≤ rest.length
        ∧ (rest.drop len.toNat).take 2 = [BitVec.ofNat 8 (sum / 256), BitVec.ofNat 8 sum]
      (250 < len.toNat → verdict = .tooLong tag code)
      ∧ (len.toNat ≤ 250 → ¬sound → verdict = .badFrame)
      ∧ (sound → code.toNat ∉ [0x01, 0x02, 0x03, 0x04, 0x10, 0x11, 0x12, 0x20, 0x21, 0x22, 0x30, 0x31, 0x32, 0x33, 0x40,
          0x41, 0x42, 0x43, 0x44, 0x45] → verdict = .unknownCommand tag code)
      ∧ (∀ c : Command, sound → c.code = code →
          (c.permitted rights = false → verdict = .notPermitted tag c)
          ∧ (c.permitted rights = true →
            (∀ i, verdict = .taken i ↔ i.wf = true ∧ requestParts i = some (p, tag, c, payload))
            ∧ (verdict = .badPayload tag c ↔ ¬∃ i, i.wf = true ∧ requestParts i = some (p, tag, c, payload)))))
  ∧ (∀ (rights : BitVec 3) (c : Command), c.permitted rights = match c with
      | .null | .portReset | .readAttention | .setAttention | .readTime | .readInput | .readPlan | .subscribe
      | .readResults | .latest | .logStatus => true
      | .setTime | .stepTime => rights.getLsbD 2
      | .setInput | .calibrate => rights.getLsbD 1
      | .writePlan | .arm | .stop | .setLog | .resetMeasurement => rights.getLsbD 0)

/-- The layouts of a plan block (R183), of a record (R185, R186) and of a response frame with the stream that carries it
(R145, R157, R177, R179). The plan block is 43 bytes with every field at its offset. A record is its five-byte head, its items
in ascending order of tag, each present exactly when its field is, and END, at most 59 bytes. A response frame is status,
tag, command, length, payload and CRC, the status by its code; the stream is that frame, zero bytes up to the 8th byte, then
all-ones bytes, each byte with its most significant bit first. Numbers stand with their most significant byte first. The CRC
starts at all ones and takes each byte in order, most significant bit first: the register is shifted left, and where the bit
shifted out and the data bit differ, combined with 1021h; no inversion is made (R148). -/
def Obligations.LayoutsOfPlanRecordAndResponse : Prop :=
  let number (size v : Nat) : List Byte := (List.range size).map fun k => BitVec.ofNat 8 (v / 256 ^ (size - 1 - k))
  (∀ p : Plan,
      let at' (offset size v : Nat) := ((planBlock p).drop offset).take size = number size v
      (planBlock p).length = 43
      ∧ at' 0 1 (match p.kind with | .reciprocal => 1 | .interval => 2 | .totalize => 3 | .timetag => 4)
      ∧ at' 1 1 p.inputA.val ∧ at' 2 1 (match p.senseA with | .rising => 1 | .falling => 2)
      ∧ at' 3 1 p.inputB.val ∧ at' 4 1 (match p.senseB with | .rising => 1 | .falling => 2)
      ∧ at' 5 8 p.gate.toNat ∧ at' 13 8 p.waitLimit.toNat ∧ at' 21 4 p.prescale.toNat
      ∧ at' 25 4 (match p.quota with | none => 0 | some q => q.toNat)
      ∧ at' 29 1 (match p.reportAs with | .frequency => 1 | .period => 2)
      ∧ at' 30 1 (match p.armSource with | .immediate => 1 | .atTime => 2 | .inputEdge => 3 | .slotDone => 4)
      ∧ at' 31 8 p.armTime.toNat ∧ at' 39 1 p.armInput.val
      ∧ at' 40 1 (match p.armSense with | .rising => 1 | .falling => 2) ∧ at' 41 1 p.armSlot.val
      ∧ at' 42 1 (match p.repeatMode with | .single => 1 | .continuous => 2 | .triggered => 3))
  ∧ (∀ (seq : Option Seq) (r : Record),
      let item (tag : Byte) (size : Nat) (v : Option Nat) : List Byte := v.elim [] fun x => tag :: number size x
      let kind : Byte := match r.kind, r.reportAs with
        | .reciprocal, .frequency => 0x01
        | .reciprocal, .period => 0x11
        | .interval, _ => 0x02
        | .totalize, _ => 0x03
        | .timetag, _ => 0x04
      recordBytes seq r = [BitVec.ofNat 8 r.slot.val, kind] ++ number 2 r.planGen.toNat ++ [r.flags.byte]
          ++ item 1 4 (seq.map BitVec.toNat) ++ item 2 8 (r.start.map BitVec.toNat) ++ item 3 8 (r.stop.map BitVec.toNat)
          ++ item 4 6 (r.edges.map BitVec.toNat) ++ item 5 8 (r.duration.map BitVec.toNat)
          ++ item 6 8 (r.value.map BitVec.toNat) ++ item 7 6 (r.edgesSince.map BitVec.toNat)
          ++ item 8 4 (r.lost.map BitVec.toNat) ++ [0]
      ∧ (r.Shaped → (recordBytes seq r).length ≤ 59)
      ∧ r.flags.byte.getLsbD 0 = r.flags.aborted ∧ r.flags.byte.getLsbD 1 = r.flags.noSignal
      ∧ r.flags.byte.getLsbD 2 = r.flags.timeStepped ∧ r.flags.byte.getLsbD 3 = r.flags.refFault
      ∧ r.flags.byte.getLsbD 4 = r.flags.calChanged ∧ r.flags.byte.getLsbD 5 = r.flags.pushed
      ∧ r.flags.byte.getLsbD 6 = false ∧ r.flags.byte.getLsbD 7 = false)
  ∧ (∀ st : Status, st.code = match st with
      | .ok => 0x00 | .clamped => 0x01 | .stale => 0x10 | .notPermitted => 0x11 | .busy => 0x12 | .tooLate => 0x13
      | .badValue => 0x14 | .badChain => 0x15 | .badPayload => 0x20 | .badFrame => 0x21 | .tooLong => 0x22
      | .unknownCommand => 0x23 | .notReady => 0x30 | .none => 0x31)
  ∧ (∀ (r : Response) (k : Nat),
      let head := [r.status.code, r.tag, r.command, BitVec.ofNat 8 r.payload.length] ++ r.payload
      r.frame = head ++ number 2 (crc head).toNat ∧ r.frame.length = 6 + r.payload.length
      ∧ (r.stream k).length = k
      ∧ ∀ j, j < k → (r.stream k)[j]? =
          some (((r.frame[j / 8]?).getD (if j / 8 < 8 then 0 else 0xFF)).getLsbD (7 - j % 8)))
  ∧ crc [] = 0xFFFF
  ∧ (∀ (bs : List Byte) (b : Byte), crc (bs ++ [b]) = [7, 6, 5, 4, 3, 2, 1, 0].foldl
      (fun (r : BitVec 16) (k : Nat) => if r.getLsbD 15 = b.getLsbD k then r <<< 1 else (r <<< 1) ^^^ 0x1021) (crc bs))

/-! ## The whole part -/

/-- A request that a controller sends in a request frame is taken as it was sent: for every well-formed request whose
command the port's rights permit, the port judges its frame to be that request, whatever follows the frame. The frame is
command code, tag, length, payload and CRC, and the payload is laid out as the request's form gives, numbers with their most
significant byte first; a request is well formed when it can be carried: a WRITE_PLAN list fits into a payload of 250 bytes,
and an identifier that names no field stands at its end only (R147 to R149, R154, R155, R177, R178, R182 to R184). -/
def Obligations.RequestFrameIsTaken : Prop :=
  let number (size v : Nat) : List Byte := (List.range size).map fun k => BitVec.ofNat 8 (v / 256 ^ (size - 1 - k))
  let condition (g : Option Gen) : List Byte := g.elim [0] fun v => 1 :: number 2 v.toNat
  let item : PlanItem → List Byte := fun
    | .kind c => [0x01, c] | .inputA b => [0x02, b] | .senseA c => [0x03, c] | .inputB b => [0x04, b]
    | .senseB c => [0x05, c] | .gate v => 0x06 :: number 8 v.toNat | .waitLimit v => 0x07 :: number 8 v.toNat
    | .prescale v => 0x08 :: number 4 v.toNat | .quota v => 0x09 :: number 4 v.toNat | .reportAs c => [0x0A, c]
    | .armSource c => [0x0B, c] | .armTime v => 0x0C :: number 8 v.toNat | .armInput b => [0x0D, b]
    | .armSense c => [0x0E, c] | .armSlot b => [0x0F, b] | .repeatMode c => [0x10, c]
    | .unknown b rest => b :: rest
  (∀ (p : PortId) (tag b b' : Byte) (g : Option Gen) (v : BitVec 64) (w k : BitVec 16) (th : Option (BitVec 16))
      (src m : Byte) (items : List PlanItem),
    requestParts (.null p tag) = some (p, tag, .null, [])
    ∧ requestParts (.portReset p tag) = some (p, tag, .portReset, [])
    ∧ requestParts (.readAttention p tag) = some (p, tag, .readAttention, [])
    ∧ requestParts (.setAttention p tag b b') = some (p, tag, .setAttention, [b, b'])
    ∧ requestParts (.readTime p tag) = some (p, tag, .readTime, [])
    ∧ requestParts (.setTime p tag g v) = some (p, tag, .setTime, condition g ++ number 8 v.toNat)
    ∧ requestParts (.stepTime p tag g v) = some (p, tag, .stepTime, condition g ++ number 8 v.toNat)
    ∧ requestParts (.readInput p tag b) = some (p, tag, .readInput, [b])
    ∧ requestParts (.setInput p tag b g src w k m) = some (p, tag, .setInput,
        [b] ++ condition g ++ [src] ++ number 2 w.toNat ++ number 2 k.toNat ++ [m])
    ∧ requestParts (.calibrate p tag b) = some (p, tag, .calibrate, [b])
    ∧ requestParts (.readPlan p tag b) = some (p, tag, .readPlan, [b])
    ∧ requestParts (.writePlan p tag b g items) = some (p, tag, .writePlan, [b] ++ condition g ++ items.flatMap item)
    ∧ requestParts (.arm p tag b) = some (p, tag, .arm, [b])
    ∧ requestParts (.stop p tag b) = some (p, tag, .stop, [b])
    ∧ requestParts (.subscribe p tag w b b' th) = some (p, tag, .subscribe,
        number 2 w.toNat ++ [b, b'] ++ th.elim [] fun t => number 2 t.toNat)
    ∧ requestParts (.readResults p tag b) = some (p, tag, .readResults, [b])
    ∧ requestParts (.latest p tag b) = some (p, tag, .latest, [b])
    ∧ requestParts (.logStatus p tag) = some (p, tag, .logStatus, [])
    ∧ requestParts (.setLog p tag g b) = some (p, tag, .setLog, condition g ++ [b])
    ∧ requestParts (.resetMeasurement p tag) = some (p, tag, .resetMeasurement, [])
    ∧ ((Instr.writePlan p tag b g items).wf = true ↔
        (∀ id rest, PlanItem.unknown id rest ∈ items → id = 0 ∨ 16 < id.toNat)
        ∧ (∀ front x y back, items = front ++ x :: y :: back → x.isKnown = true)
        ∧ ([b] ++ condition g ++ items.flatMap item).length ≤ 250))
  ∧ (∀ i : Instr, (∀ p tag b g items, i ≠ .writePlan p tag b g items) → i.wf = true)
  ∧ (∀ (i : Instr) (p : PortId) (tag : Byte) (c : Command) (payload : List Byte),
    requestParts i = some (p, tag, c, payload) →
    let head := [c.code, tag, BitVec.ofNat 8 payload.length] ++ payload
    requestFrame i = some (head ++ number 2 (crc head).toNat))
  ∧ ∀ (i : Instr) (p : PortId) (tag : Byte) (c : Command) (payload frame more : List Byte) (rights : BitVec 3),
    i.wf = true → requestParts i = some (p, tag, c, payload) → requestFrame i = some frame →
    c.permitted rights = true → judgeFrame p rights (frame ++ more) = .taken i

/-- Every step keeps the laws of the result log: R116, R118, that some port wants the oldest held record (R120), R111
for the fields of every record held, and R73 for every outcome on its way to one, with the start that a slot in GATING or
STOPPING holds (R70). -/
def Obligations.StepKeepsLogLaws : Prop :=
  ∀ s t : State, s.LogLaws → step s = .next t → t.LogLaws

/-- Every step keeps the law of R32, that no slot outside IDLE names an input in CALIBRATING; and every step keeps every
plan in its ranges and every chain running upward in slot number (R55, R59, R61). A plan names input A always, input B under
INTERVAL and the arm input under INPUT_EDGE; and a sense of an input is demanded when a slot outside IDLE has the input in a
role that applies with that sense, TOTALIZE demanding none of its input A (R23, R56). -/
def Obligations.StepKeepsGuardAndPlans : Prop :=
  (∀ s t : State, s.UsageGuard → step s = .next t → t.UsageGuard)
  ∧ (∀ s t : State, s.PlansLegal → step s = .next t → t.PlansLegal)
  ∧ (∀ (p : Plan) (i : InputId), p.names i = true ↔
      i = p.inputA ∨ (p.kind = .interval ∧ i = p.inputB) ∨ (p.armSource = .inputEdge ∧ i = p.armInput))
  ∧ (∀ (s : State) (i : InputId) (sense : Sense), s.demanded i sense = true ↔ ∃ n, (s.slot n).state ≠ .idle
      ∧ let p := (s.slot n).plan
        (p.kind ≠ .totalize ∧ p.inputA = i ∧ p.senseA = sense)
        ∨ (p.kind = .interval ∧ p.inputB = i ∧ p.senseB = sense)
        ∨ (p.armSource = .inputEdge ∧ p.armInput = i ∧ p.armSense = sense))

/-- Every step keeps every table nondecreasing, every hit total below 65,536, and every histogram empty in READY under
FIXED (R40, R42, R43). -/
def Obligations.StepKeepsCalibrationLegal : Prop :=
  ∀ s t : State, s.CalibrationLegal → step s = .next t → t.CalibrationLegal

/-- Every step keeps a pending candidate within its window, and no edge kept that lies more than 288 coarse periods back
(R18, R22). A command other than device reset adds to the edges kept exactly those that it qualifies, at the head, and each
raises the count of its sense: so what is kept holds every qualified edge that the horizon has not passed. And every step
keeps the stamps in flight in nondecreasing order of corrected raw time, and close enough to raw time for that order to be
one, so that they are offered in it (R27, R29). -/
def Obligations.StepKeepsEdgesLegal : Prop :=
  (∀ s t : State, s.EdgesLegal → step s = .next t → t.EdgesLegal)
  ∧ (∀ (c : Instr) (s t : State) (i : InputId), exec c s = .next t → (∀ a b l, c ≠ .deviceReset a b l) →
      ∃ new, (t.input i).recent = new ++ (s.input i).recent
        ∧ (t.input i).rising = (s.input i).rising + BitVec.ofNat 48 (new.countP fun e => decide (e.sense = .rising))
        ∧ (t.input i).falling = (s.input i).falling + BitVec.ofNat 48 (new.countP fun e => decide (e.sense = .falling)))
  ∧ (∀ s t : State, s.EdgesLegal → s.HorizonLegal → step s = .next t → t.HorizonLegal)

/-- Every step keeps every port with exactly the response and the request on its way that its link state holds (R143,
R156, R164). -/
def Obligations.StepKeepsLinksLegal : Prop :=
  ∀ s t : State, s.LinksLegal → step s = .next t → t.LinksLegal

/-- Every state that device reset leaves is legal: it meets every law that the statements on steps keep (R18,
R22, R29, R32, R40, R42, R55, R70, R73, R116, R118, R143). -/
def Obligations.ReleaseIsLegal : Prop :=
  ∀ (a b : BitVec 4) (lines : ResetLines) (s : State),
    ∃ t, exec (.deviceReset a b lines) s = .next t ∧ t.Legal

/-- A set attention flag stays set until READ_ATTENTION or PORT_RESET at its port, or device reset (R165). -/
def Obligations.FlagsStayUntilRead : Prop :=
  ∀ (c : Instr) (s t : State) (p : PortId) (k : Nat), exec c s = .next t → (s.port p).flags.getLsbD k = true →
    (∀ a b l, c ≠ .deviceReset a b l) → (∀ tag, c ≠ .readAttention p tag ∧ c ≠ .portReset p tag) →
    (t.port p).flags.getLsbD k = true

/-- The four generations move by their own applied requests alone: the time-scale generation by SET_TIME and STEP_TIME,
an input's settings generation by SET_INPUT, a slot's plan generation by WRITE_PLAN, the log generation by SET_LOG, each
by exactly one or not at all; the next sequence moves by a completion, by one or not at all; and device reset sets all to
0 (R9, R16, R57, R117, R127). -/
def Obligations.GenerationsCountOwnRequests : Prop :=
  ∀ (c : Instr) (s t : State), exec c s = .next t → (∀ a b l, c ≠ .deviceReset a b l) →
    (t.timeGen = s.timeGen ∨ t.timeGen = s.timeGen + 1 ∧ ∃ p tag g v, c = .setTime p tag g v ∨ c = .stepTime p tag g v)
    ∧ (t.offset = s.offset ∨ t.timeGen = s.timeGen + 1)
    ∧ (∀ i, (t.input i).settingsGen = (s.input i).settingsGen
        ∨ (t.input i).settingsGen = (s.input i).settingsGen + 1
          ∧ ∃ p tag g src w k m, c = .setInput p tag (BitVec.ofNat 8 i.val) g src w k m)
    ∧ (∀ n, (t.slot n).planGen = (s.slot n).planGen ∧ (t.slot n).plan = (s.slot n).plan
        ∨ (t.slot n).planGen = (s.slot n).planGen + 1
          ∧ ∃ p tag g items, c = .writePlan p tag (BitVec.ofNat 8 n.val) g items)
    ∧ (t.log.gen = s.log.gen ∧ t.log.policy = s.log.policy
        ∨ t.log.gen = s.log.gen + 1 ∧ ∃ p tag g pol, c = .setLog p tag g pol)
    ∧ (t.log.nextSeq = s.log.nextSeq ∨ t.log.nextSeq = s.log.nextSeq + 1 ∧ c = .serviceCompletion)
end

