-- ==== Sys2Proof/Laws/State.lean ====
section
/-! SUPPORT. The fields of State after each of its updates: one lemma a field and update, so that no proof unfolds a
record update; and what reading one input, slot or port gives after writing one. -/

namespace Sys2Proof.Machine

variable (s : State)

/-! ## setInput -/

@[simp] theorem State.setInput_pending (i : InputId) (x : Input) : (s.setInput i x).pending = s.pending := rfl
@[simp] theorem State.setInput_coarse (i : InputId) (x : Input) : (s.setInput i x).coarse = s.coarse := rfl
@[simp] theorem State.setInput_tick (i : InputId) (x : Input) : (s.setInput i x).tick = s.tick := rfl
@[simp] theorem State.setInput_refState (i : InputId) (x : Input) : (s.setInput i x).refState = s.refState := rfl
@[simp] theorem State.setInput_refPresent (i : InputId) (x : Input) : (s.setInput i x).refPresent = s.refPresent := rfl
@[simp] theorem State.setInput_presenceTimer (i : InputId) (x : Input) : (s.setInput i x).presenceTimer = s.presenceTimer := rfl
@[simp] theorem State.setInput_gapTimer (i : InputId) (x : Input) : (s.setInput i x).gapTimer = s.gapTimer := rfl
@[simp] theorem State.setInput_horizonStarted (i : InputId) (x : Input) : (s.setInput i x).horizonStarted = s.horizonStarted := rfl
@[simp] theorem State.setInput_horizonRef (i : InputId) (x : Input) : (s.setInput i x).horizonRef = s.horizonRef := rfl
@[simp] theorem State.setInput_refChanges (i : InputId) (x : Input) : (s.setInput i x).refChanges = s.refChanges := rfl
@[simp] theorem State.setInput_offset (i : InputId) (x : Input) : (s.setInput i x).offset = s.offset := rfl
@[simp] theorem State.setInput_timeGen (i : InputId) (x : Input) : (s.setInput i x).timeGen = s.timeGen := rfl
@[simp] theorem State.setInput_stamps (i : InputId) (x : Input) : (s.setInput i x).stamps = s.stamps := rfl
@[simp] theorem State.setInput_slots (i : InputId) (x : Input) : (s.setInput i x).slots = s.slots := rfl
@[simp] theorem State.setInput_unit (i : InputId) (x : Input) : (s.setInput i x).unit = s.unit := rfl
@[simp] theorem State.setInput_log (i : InputId) (x : Input) : (s.setInput i x).log = s.log := rfl
@[simp] theorem State.setInput_latest (i : InputId) (x : Input) : (s.setInput i x).latest = s.latest := rfl
@[simp] theorem State.setInput_ports (i : InputId) (x : Input) : (s.setInput i x).ports = s.ports := rfl
@[simp] theorem State.setInput_rawTime (i : InputId) (x : Input) : (s.setInput i x).rawTime = s.rawTime := rfl
@[simp] theorem State.setInput_arrivalTime (i : InputId) (x : Input) : (s.setInput i x).arrivalTime = s.arrivalTime := rfl
@[simp] theorem State.setInput_horizonTime (i : InputId) (x : Input) : (s.setInput i x).horizonTime = s.horizonTime := rfl
@[simp] theorem State.setInput_arrivalHorizon (i : InputId) (x : Input) : (s.setInput i x).arrivalHorizon = s.arrivalHorizon := rfl

/-! ## setSlot -/

@[simp] theorem State.setSlot_pending (n : SlotId) (x : Slot) : (s.setSlot n x).pending = s.pending := rfl
@[simp] theorem State.setSlot_coarse (n : SlotId) (x : Slot) : (s.setSlot n x).coarse = s.coarse := rfl
@[simp] theorem State.setSlot_tick (n : SlotId) (x : Slot) : (s.setSlot n x).tick = s.tick := rfl
@[simp] theorem State.setSlot_refState (n : SlotId) (x : Slot) : (s.setSlot n x).refState = s.refState := rfl
@[simp] theorem State.setSlot_refPresent (n : SlotId) (x : Slot) : (s.setSlot n x).refPresent = s.refPresent := rfl
@[simp] theorem State.setSlot_presenceTimer (n : SlotId) (x : Slot) : (s.setSlot n x).presenceTimer = s.presenceTimer := rfl
@[simp] theorem State.setSlot_gapTimer (n : SlotId) (x : Slot) : (s.setSlot n x).gapTimer = s.gapTimer := rfl
@[simp] theorem State.setSlot_horizonStarted (n : SlotId) (x : Slot) : (s.setSlot n x).horizonStarted = s.horizonStarted := rfl
@[simp] theorem State.setSlot_horizonRef (n : SlotId) (x : Slot) : (s.setSlot n x).horizonRef = s.horizonRef := rfl
@[simp] theorem State.setSlot_refChanges (n : SlotId) (x : Slot) : (s.setSlot n x).refChanges = s.refChanges := rfl
@[simp] theorem State.setSlot_offset (n : SlotId) (x : Slot) : (s.setSlot n x).offset = s.offset := rfl
@[simp] theorem State.setSlot_timeGen (n : SlotId) (x : Slot) : (s.setSlot n x).timeGen = s.timeGen := rfl
@[simp] theorem State.setSlot_inputs (n : SlotId) (x : Slot) : (s.setSlot n x).inputs = s.inputs := rfl
@[simp] theorem State.setSlot_stamps (n : SlotId) (x : Slot) : (s.setSlot n x).stamps = s.stamps := rfl
@[simp] theorem State.setSlot_unit (n : SlotId) (x : Slot) : (s.setSlot n x).unit = s.unit := rfl
@[simp] theorem State.setSlot_log (n : SlotId) (x : Slot) : (s.setSlot n x).log = s.log := rfl
@[simp] theorem State.setSlot_latest (n : SlotId) (x : Slot) : (s.setSlot n x).latest = s.latest := rfl
@[simp] theorem State.setSlot_ports (n : SlotId) (x : Slot) : (s.setSlot n x).ports = s.ports := rfl
@[simp] theorem State.setSlot_rawTime (n : SlotId) (x : Slot) : (s.setSlot n x).rawTime = s.rawTime := rfl
@[simp] theorem State.setSlot_arrivalTime (n : SlotId) (x : Slot) : (s.setSlot n x).arrivalTime = s.arrivalTime := rfl
@[simp] theorem State.setSlot_horizonTime (n : SlotId) (x : Slot) : (s.setSlot n x).horizonTime = s.horizonTime := rfl
@[simp] theorem State.setSlot_arrivalHorizon (n : SlotId) (x : Slot) : (s.setSlot n x).arrivalHorizon = s.arrivalHorizon := rfl

/-! ## setPort -/

@[simp] theorem State.setPort_pending (p : PortId) (x : Port) : (s.setPort p x).pending = s.pending := rfl
@[simp] theorem State.setPort_coarse (p : PortId) (x : Port) : (s.setPort p x).coarse = s.coarse := rfl
@[simp] theorem State.setPort_tick (p : PortId) (x : Port) : (s.setPort p x).tick = s.tick := rfl
@[simp] theorem State.setPort_refState (p : PortId) (x : Port) : (s.setPort p x).refState = s.refState := rfl
@[simp] theorem State.setPort_refPresent (p : PortId) (x : Port) : (s.setPort p x).refPresent = s.refPresent := rfl
@[simp] theorem State.setPort_presenceTimer (p : PortId) (x : Port) : (s.setPort p x).presenceTimer = s.presenceTimer := rfl
@[simp] theorem State.setPort_gapTimer (p : PortId) (x : Port) : (s.setPort p x).gapTimer = s.gapTimer := rfl
@[simp] theorem State.setPort_horizonStarted (p : PortId) (x : Port) : (s.setPort p x).horizonStarted = s.horizonStarted := rfl
@[simp] theorem State.setPort_horizonRef (p : PortId) (x : Port) : (s.setPort p x).horizonRef = s.horizonRef := rfl
@[simp] theorem State.setPort_refChanges (p : PortId) (x : Port) : (s.setPort p x).refChanges = s.refChanges := rfl
@[simp] theorem State.setPort_offset (p : PortId) (x : Port) : (s.setPort p x).offset = s.offset := rfl
@[simp] theorem State.setPort_timeGen (p : PortId) (x : Port) : (s.setPort p x).timeGen = s.timeGen := rfl
@[simp] theorem State.setPort_inputs (p : PortId) (x : Port) : (s.setPort p x).inputs = s.inputs := rfl
@[simp] theorem State.setPort_stamps (p : PortId) (x : Port) : (s.setPort p x).stamps = s.stamps := rfl
@[simp] theorem State.setPort_slots (p : PortId) (x : Port) : (s.setPort p x).slots = s.slots := rfl
@[simp] theorem State.setPort_unit (p : PortId) (x : Port) : (s.setPort p x).unit = s.unit := rfl
@[simp] theorem State.setPort_log (p : PortId) (x : Port) : (s.setPort p x).log = s.log := rfl
@[simp] theorem State.setPort_latest (p : PortId) (x : Port) : (s.setPort p x).latest = s.latest := rfl
@[simp] theorem State.setPort_rawTime (p : PortId) (x : Port) : (s.setPort p x).rawTime = s.rawTime := rfl
@[simp] theorem State.setPort_arrivalTime (p : PortId) (x : Port) : (s.setPort p x).arrivalTime = s.arrivalTime := rfl
@[simp] theorem State.setPort_horizonTime (p : PortId) (x : Port) : (s.setPort p x).horizonTime = s.horizonTime := rfl
@[simp] theorem State.setPort_arrivalHorizon (p : PortId) (x : Port) : (s.setPort p x).arrivalHorizon = s.arrivalHorizon := rfl

/-! ## mapSlots -/

@[simp] theorem State.mapSlots_pending (f : SlotId → Slot → Slot) : (s.mapSlots f).pending = s.pending := by
  simp only [State.mapSlots]
@[simp] theorem State.mapSlots_coarse (f : SlotId → Slot → Slot) : (s.mapSlots f).coarse = s.coarse := by
  simp only [State.mapSlots]
@[simp] theorem State.mapSlots_tick (f : SlotId → Slot → Slot) : (s.mapSlots f).tick = s.tick := by
  simp only [State.mapSlots]
@[simp] theorem State.mapSlots_refState (f : SlotId → Slot → Slot) : (s.mapSlots f).refState = s.refState := by
  simp only [State.mapSlots]
@[simp] theorem State.mapSlots_refPresent (f : SlotId → Slot → Slot) : (s.mapSlots f).refPresent = s.refPresent := by
  simp only [State.mapSlots]
@[simp] theorem State.mapSlots_presenceTimer (f : SlotId → Slot → Slot) : (s.mapSlots f).presenceTimer = s.presenceTimer := by
  simp only [State.mapSlots]
@[simp] theorem State.mapSlots_gapTimer (f : SlotId → Slot → Slot) : (s.mapSlots f).gapTimer = s.gapTimer := by
  simp only [State.mapSlots]
@[simp] theorem State.mapSlots_horizonStarted (f : SlotId → Slot → Slot) : (s.mapSlots f).horizonStarted = s.horizonStarted := by
  simp only [State.mapSlots]
@[simp] theorem State.mapSlots_horizonRef (f : SlotId → Slot → Slot) : (s.mapSlots f).horizonRef = s.horizonRef := by
  simp only [State.mapSlots]
@[simp] theorem State.mapSlots_refChanges (f : SlotId → Slot → Slot) : (s.mapSlots f).refChanges = s.refChanges := by
  simp only [State.mapSlots]
@[simp] theorem State.mapSlots_offset (f : SlotId → Slot → Slot) : (s.mapSlots f).offset = s.offset := by
  simp only [State.mapSlots]
@[simp] theorem State.mapSlots_timeGen (f : SlotId → Slot → Slot) : (s.mapSlots f).timeGen = s.timeGen := by
  simp only [State.mapSlots]
@[simp] theorem State.mapSlots_inputs (f : SlotId → Slot → Slot) : (s.mapSlots f).inputs = s.inputs := by
  simp only [State.mapSlots]
@[simp] theorem State.mapSlots_stamps (f : SlotId → Slot → Slot) : (s.mapSlots f).stamps = s.stamps := by
  simp only [State.mapSlots]
@[simp] theorem State.mapSlots_unit (f : SlotId → Slot → Slot) : (s.mapSlots f).unit = s.unit := by
  simp only [State.mapSlots]
@[simp] theorem State.mapSlots_log (f : SlotId → Slot → Slot) : (s.mapSlots f).log = s.log := by
  simp only [State.mapSlots]
@[simp] theorem State.mapSlots_latest (f : SlotId → Slot → Slot) : (s.mapSlots f).latest = s.latest := by
  simp only [State.mapSlots]
@[simp] theorem State.mapSlots_ports (f : SlotId → Slot → Slot) : (s.mapSlots f).ports = s.ports := by
  simp only [State.mapSlots]
@[simp] theorem State.mapSlots_rawTime (f : SlotId → Slot → Slot) : (s.mapSlots f).rawTime = s.rawTime := by
  simp only [State.mapSlots, State.rawTime]
@[simp] theorem State.mapSlots_arrivalTime (f : SlotId → Slot → Slot) : (s.mapSlots f).arrivalTime = s.arrivalTime := by
  simp only [State.mapSlots, State.arrivalTime]
@[simp] theorem State.mapSlots_horizonTime (f : SlotId → Slot → Slot) : (s.mapSlots f).horizonTime = s.horizonTime := by
  simp only [State.mapSlots, State.horizonTime, State.rawTime]
@[simp] theorem State.mapSlots_arrivalHorizon (f : SlotId → Slot → Slot) : (s.mapSlots f).arrivalHorizon = s.arrivalHorizon := by
  simp only [State.mapSlots, State.arrivalHorizon, State.arrivalTime]

/-! ## mapPorts -/

@[simp] theorem State.mapPorts_pending (f : Port → Port) : (s.mapPorts f).pending = s.pending := rfl
@[simp] theorem State.mapPorts_coarse (f : Port → Port) : (s.mapPorts f).coarse = s.coarse := rfl
@[simp] theorem State.mapPorts_tick (f : Port → Port) : (s.mapPorts f).tick = s.tick := rfl
@[simp] theorem State.mapPorts_refState (f : Port → Port) : (s.mapPorts f).refState = s.refState := rfl
@[simp] theorem State.mapPorts_refPresent (f : Port → Port) : (s.mapPorts f).refPresent = s.refPresent := rfl
@[simp] theorem State.mapPorts_presenceTimer (f : Port → Port) : (s.mapPorts f).presenceTimer = s.presenceTimer := rfl
@[simp] theorem State.mapPorts_gapTimer (f : Port → Port) : (s.mapPorts f).gapTimer = s.gapTimer := rfl
@[simp] theorem State.mapPorts_horizonStarted (f : Port → Port) : (s.mapPorts f).horizonStarted = s.horizonStarted := rfl
@[simp] theorem State.mapPorts_horizonRef (f : Port → Port) : (s.mapPorts f).horizonRef = s.horizonRef := rfl
@[simp] theorem State.mapPorts_refChanges (f : Port → Port) : (s.mapPorts f).refChanges = s.refChanges := rfl
@[simp] theorem State.mapPorts_offset (f : Port → Port) : (s.mapPorts f).offset = s.offset := rfl
@[simp] theorem State.mapPorts_timeGen (f : Port → Port) : (s.mapPorts f).timeGen = s.timeGen := rfl
@[simp] theorem State.mapPorts_inputs (f : Port → Port) : (s.mapPorts f).inputs = s.inputs := rfl
@[simp] theorem State.mapPorts_stamps (f : Port → Port) : (s.mapPorts f).stamps = s.stamps := rfl
@[simp] theorem State.mapPorts_slots (f : Port → Port) : (s.mapPorts f).slots = s.slots := rfl
@[simp] theorem State.mapPorts_unit (f : Port → Port) : (s.mapPorts f).unit = s.unit := rfl
@[simp] theorem State.mapPorts_log (f : Port → Port) : (s.mapPorts f).log = s.log := rfl
@[simp] theorem State.mapPorts_latest (f : Port → Port) : (s.mapPorts f).latest = s.latest := rfl
@[simp] theorem State.mapPorts_rawTime (f : Port → Port) : (s.mapPorts f).rawTime = s.rawTime := rfl
@[simp] theorem State.mapPorts_arrivalTime (f : Port → Port) : (s.mapPorts f).arrivalTime = s.arrivalTime := rfl
@[simp] theorem State.mapPorts_horizonTime (f : Port → Port) : (s.mapPorts f).horizonTime = s.horizonTime := rfl
@[simp] theorem State.mapPorts_arrivalHorizon (f : Port → Port) : (s.mapPorts f).arrivalHorizon = s.arrivalHorizon := rfl

/-! ## raise -/

@[simp] theorem State.raise_pending (f : Flag) (who : PortId → Bool) : (s.raise f who).pending = s.pending := rfl
@[simp] theorem State.raise_coarse (f : Flag) (who : PortId → Bool) : (s.raise f who).coarse = s.coarse := rfl
@[simp] theorem State.raise_tick (f : Flag) (who : PortId → Bool) : (s.raise f who).tick = s.tick := rfl
@[simp] theorem State.raise_refState (f : Flag) (who : PortId → Bool) : (s.raise f who).refState = s.refState := rfl
@[simp] theorem State.raise_refPresent (f : Flag) (who : PortId → Bool) : (s.raise f who).refPresent = s.refPresent := rfl
@[simp] theorem State.raise_presenceTimer (f : Flag) (who : PortId → Bool) : (s.raise f who).presenceTimer = s.presenceTimer := rfl
@[simp] theorem State.raise_gapTimer (f : Flag) (who : PortId → Bool) : (s.raise f who).gapTimer = s.gapTimer := rfl
@[simp] theorem State.raise_horizonStarted (f : Flag) (who : PortId → Bool) : (s.raise f who).horizonStarted = s.horizonStarted := rfl
@[simp] theorem State.raise_horizonRef (f : Flag) (who : PortId → Bool) : (s.raise f who).horizonRef = s.horizonRef := rfl
@[simp] theorem State.raise_refChanges (f : Flag) (who : PortId → Bool) : (s.raise f who).refChanges = s.refChanges := rfl
@[simp] theorem State.raise_offset (f : Flag) (who : PortId → Bool) : (s.raise f who).offset = s.offset := rfl
@[simp] theorem State.raise_timeGen (f : Flag) (who : PortId → Bool) : (s.raise f who).timeGen = s.timeGen := rfl
@[simp] theorem State.raise_inputs (f : Flag) (who : PortId → Bool) : (s.raise f who).inputs = s.inputs := rfl
@[simp] theorem State.raise_stamps (f : Flag) (who : PortId → Bool) : (s.raise f who).stamps = s.stamps := rfl
@[simp] theorem State.raise_slots (f : Flag) (who : PortId → Bool) : (s.raise f who).slots = s.slots := rfl
@[simp] theorem State.raise_unit (f : Flag) (who : PortId → Bool) : (s.raise f who).unit = s.unit := rfl
@[simp] theorem State.raise_log (f : Flag) (who : PortId → Bool) : (s.raise f who).log = s.log := rfl
@[simp] theorem State.raise_latest (f : Flag) (who : PortId → Bool) : (s.raise f who).latest = s.latest := rfl
@[simp] theorem State.raise_rawTime (f : Flag) (who : PortId → Bool) : (s.raise f who).rawTime = s.rawTime := rfl
@[simp] theorem State.raise_arrivalTime (f : Flag) (who : PortId → Bool) : (s.raise f who).arrivalTime = s.arrivalTime := rfl
@[simp] theorem State.raise_horizonTime (f : Flag) (who : PortId → Bool) : (s.raise f who).horizonTime = s.horizonTime := rfl
@[simp] theorem State.raise_arrivalHorizon (f : Flag) (who : PortId → Bool) : (s.raise f who).arrivalHorizon = s.arrivalHorizon := rfl

/-! ## Reading one part -/

theorem State.input_eq (i : InputId) : s.input i = s.inputs[i] := rfl
theorem State.slot_eq (n : SlotId) : s.slot n = s.slots[n] := rfl
theorem State.port_eq (p : PortId) : s.port p = s.ports[p] := rfl

@[simp] theorem State.slot_setInput (i : InputId) (x : Input) (n : SlotId) : (s.setInput i x).slot n = s.slot n := rfl
@[simp] theorem State.port_setInput (i : InputId) (x : Input) (p : PortId) : (s.setInput i x).port p = s.port p := rfl
@[simp] theorem State.input_setSlot (n : SlotId) (x : Slot) (i : InputId) : (s.setSlot n x).input i = s.input i := rfl
@[simp] theorem State.port_setSlot (n : SlotId) (x : Slot) (p : PortId) : (s.setSlot n x).port p = s.port p := rfl
@[simp] theorem State.input_setPort (p : PortId) (x : Port) (i : InputId) : (s.setPort p x).input i = s.input i := rfl
@[simp] theorem State.slot_setPort (p : PortId) (x : Port) (n : SlotId) : (s.setPort p x).slot n = s.slot n := rfl
@[simp] theorem State.input_mapSlots (f : SlotId → Slot → Slot) (i : InputId) : (s.mapSlots f).input i = s.input i := by
  simp only [State.mapSlots, State.input]
@[simp] theorem State.port_mapSlots (f : SlotId → Slot → Slot) (p : PortId) : (s.mapSlots f).port p = s.port p := by
  simp only [State.mapSlots, State.port]
@[simp] theorem State.input_mapPorts (f : Port → Port) (i : InputId) : (s.mapPorts f).input i = s.input i := rfl
@[simp] theorem State.slot_mapPorts (f : Port → Port) (n : SlotId) : (s.mapPorts f).slot n = s.slot n := rfl
@[simp] theorem State.input_raise (f : Flag) (who : PortId → Bool) (i : InputId) :
    (s.raise f who).input i = s.input i := rfl
@[simp] theorem State.slot_raise (f : Flag) (who : PortId → Bool) (n : SlotId) : (s.raise f who).slot n = s.slot n := rfl

@[simp] theorem State.input_setInput (i : InputId) (x : Input) (j : InputId) :
    (s.setInput i x).input j = if i = j then x else s.input j := by
  simp only [State.input, State.setInput, Fin.getElem_fin, Vector.getElem_set, Fin.ext_iff]

@[simp] theorem State.slot_setSlot (n : SlotId) (x : Slot) (m : SlotId) :
    (s.setSlot n x).slot m = if n = m then x else s.slot m := by
  simp only [State.slot, State.setSlot, Fin.getElem_fin, Vector.getElem_set, Fin.ext_iff]

@[simp] theorem State.port_setPort (p : PortId) (x : Port) (q : PortId) :
    (s.setPort p x).port q = if p = q then x else s.port q := by
  simp only [State.port, State.setPort, Fin.getElem_fin, Vector.getElem_set, Fin.ext_iff]

@[simp] theorem State.slot_mapSlots (f : SlotId → Slot → Slot) (n : SlotId) : (s.mapSlots f).slot n = f n (s.slot n) := by
  simp [State.slot, State.mapSlots]

@[simp] theorem State.port_mapPorts (f : Port → Port) (p : PortId) : (s.mapPorts f).port p = f (s.port p) := by
  simp [State.port, State.mapPorts]

@[simp] theorem State.port_raise (f : Flag) (who : PortId → Bool) (p : PortId) :
    (s.raise f who).port p = if who p then (s.port p).setFlag f else s.port p := by
  simp [State.port, State.raise]

/-- Two vectors with the same entries are equal. -/
theorem Vector.ext_fin {α : Type} {n : Nat} {v w : Vector α n} (h : ∀ i : Fin n, v[i] = w[i]) : v = w := by
  apply Vector.ext
  intro i hi
  exact h ⟨i, hi⟩

/-! ## Writing back and writing twice -/

@[simp] theorem State.setPort_port (p : PortId) : s.setPort p (s.port p) = s := by
  cases s; simp [State.setPort, State.port]

@[simp] theorem State.setSlot_slot (n : SlotId) : s.setSlot n (s.slot n) = s := by
  cases s; simp [State.setSlot, State.slot]

@[simp] theorem State.setInput_input (i : InputId) : s.setInput i (s.input i) = s := by
  cases s; simp [State.setInput, State.input]

@[simp] theorem State.setPort_setPort (p : PortId) (x y : Port) : (s.setPort p x).setPort p y = s.setPort p y := by
  simp [State.setPort]

@[simp] theorem State.setSlot_setSlot (n : SlotId) (x y : Slot) : (s.setSlot n x).setSlot n y = s.setSlot n y := by
  simp [State.setSlot]

@[simp] theorem State.setInput_setInput (i : InputId) (x y : Input) :
    (s.setInput i x).setInput i y = s.setInput i y := by
  simp [State.setInput]

end Sys2Proof.Machine
end

