-- ==== Sys2Proof/Laws/Ops.lean ====
section
/-! SUPPORT. What the shared operations of Machine/Ops.lean and Machine/Flags.lean can do: responses, attention flags,
the grant, and the retirement check. -/

namespace Sys2Proof.Machine

/-! ## Responses -/

/-- A response changes the sending port's pending response and nothing else. -/
theorem State.respond_eq (s : State) (p : PortId) (tag : Byte) (c : Command) (st : Status) (bs : List Byte) :
    s.respond p tag c st bs = s.setPort p { s.port p with response := some ⟨st, tag, c.code, bs⟩ } := rfl

/-- A request without its right is answered NOT_PERMITTED and changes nothing else. -/
theorem State.withRight_lacking {s : State} {p : PortId} {c : Command} (tag : Byte) (act : State → State)
    (h : c.permitted (s.port p).rights = false) : s.withRight p tag c act = s.respond p tag c .notPermitted [] := by
  simp [State.withRight, h]

/-- A request with its right acts. -/
theorem State.withRight_held {s : State} {p : PortId} {c : Command} (tag : Byte) (act : State → State)
    (h : c.permitted (s.port p).rights = true) : s.withRight p tag c act = act s := by
  simp [State.withRight, h]

/-- Either way of withRight. -/
theorem State.withRight_cases {s : State} {p : PortId} {tag : Byte} {c : Command} {act : State → State}
    (P : State → Prop) (hact : P (act s)) (hrefuse : P (s.respond p tag c .notPermitted [])) :
    P (s.withRight p tag c act) := by
  unfold State.withRight
  split
  · exact hact
  · exact hrefuse

/-! ## Attention flags -/

/-- What only sets attention flags at a port. -/
structure FlagsOnly (q r : Port) : Prop where
  rest : r = { q with flags := r.flags }
  rise : q.flags &&& r.flags = q.flags

theorem FlagsOnly.refl (q : Port) : FlagsOnly q q := ⟨rfl, by simp⟩

theorem FlagsOnly.trans {q r u : Port} (h : FlagsOnly q r) (k : FlagsOnly r u) : FlagsOnly q u := by
  refine ⟨?_, ?_⟩
  · have a := k.rest
    rw [h.rest] at a
    exact a
  · have a := h.rise
    have b := k.rise
    rw [← a, BitVec.and_assoc, b]

theorem Port.setFlag_flagsOnly (q : Port) (f : Flag) : FlagsOnly q (q.setFlag f) := by
  refine ⟨rfl, ?_⟩
  show q.flags &&& (q.flags ||| f.bit) = q.flags
  ext i
  simp
  exact Or.inl

/-! ## What the engine's own work can change -/

theorem DoneOnly.refl (q : Port) : DoneOnly q q := Or.inl rfl

theorem DoneOnly.trans {q r u : Port} (h : DoneOnly q r) (k : DoneOnly r u) : DoneOnly q u := by
  rcases h with rfl | rfl
  · exact k
  · rcases k with rfl | rfl
    · exact Or.inr rfl
    · right
      simp only [BitVec.or_assoc, BitVec.or_self]

theorem DoneOnly.flagsOnly {q r : Port} (h : DoneOnly q r) : FlagsOnly q r := by
  rcases h with rfl | rfl
  · exact .refl _
  · exact Port.setFlag_flagsOnly q .done

theorem EngineFrame.refl (s : State) : EngineFrame s s := ⟨rfl, fun _ => .refl _, fun _ => ⟨rfl, rfl⟩, fun _ h => h⟩

theorem EngineFrame.trans {s t u : State} (h : EngineFrame s t) (k : EngineFrame t u) : EngineFrame s u := by
  refine ⟨?_, fun p => (h.ports p).trans (k.ports p), fun n => ?_, fun n a => k.idle n (h.idle n a)⟩
  · have a := k.rest
    rw [h.rest] at a
    exact a
  · exact ⟨(k.plans n).1.trans (h.plans n).1, (k.plans n).2.trans (h.plans n).2⟩

/-- Setting DONE flags is an engine step. -/
theorem State.raise_done_engine (s : State) (who : PortId → Bool) : EngineFrame s (s.raise .done who) := by
  refine ⟨rfl, fun p => ?_, fun _ => ⟨rfl, rfl⟩, fun _ h => h⟩
  rw [State.port_raise]
  split
  · exact Or.inr rfl
  · exact .refl _

/-- A slot replaced by one with the same plan, IDLE only if it was or may be, is an engine step. -/
theorem State.setSlot_engine (s : State) (n : SlotId) (x : Slot)
    (hp : x.plan = (s.slot n).plan) (hg : x.planGen = (s.slot n).planGen)
    (hi : (s.slot n).state = .idle → x.state = .idle) : EngineFrame s (s.setSlot n x) := by
  refine ⟨rfl, fun _ => .refl _, fun m => ?_, fun m h => ?_⟩
  · rw [State.slot_setSlot]
    split
    · next e => subst e; exact ⟨hp, hg⟩
    · exact ⟨rfl, rfl⟩
  · rw [State.slot_setSlot]
    split
    · next e => subst e; exact hi h
    · exact h

/-- All slots replaced by ones with their plans is an engine step. -/
theorem State.mapSlots_engine (s : State) (f : SlotId → Slot → Slot)
    (hp : ∀ n x, (f n x).plan = x.plan ∧ (f n x).planGen = x.planGen)
    (hi : ∀ n x, x.state = .idle → (f n x).state = .idle) : EngineFrame s (s.mapSlots f) :=
  ⟨by simp only [State.mapSlots], fun p => by rw [State.port_mapSlots]; exact .refl _,
    fun n => by rw [State.slot_mapSlots]; exact hp _ _,
    fun n h => by rw [State.slot_mapSlots]; exact hi _ _ h⟩

/-! ## The grant -/

/-- The unit may change with an engine step. -/
theorem EngineFrame.withUnit {s t : State} (h : EngineFrame s t) (u : ArithUnit) : EngineFrame s { t with unit := u } := by
  refine ⟨?_, h.ports, h.plans, h.idle⟩
  exact congrArg (fun z : State => { z with unit := u }) h.rest

theorem State.take_engine (s : State) (n : SlotId) (o : Outcome) : EngineFrame s (s.take n o) :=
  (s.setSlot_engine n { s.slot n with finished := none } rfl rfl fun h => h).withUnit _

theorem State.arbitrate_engine (s : State) : EngineFrame s s.arbitrate := by
  unfold State.arbitrate
  split
  · split
    · exact State.take_engine _ _ _
    · exact .refl _
  · exact .refl _

theorem State.withdrawGrant_engine (s : State) : EngineFrame s s.withdrawGrant := by
  unfold State.withdrawGrant
  split
  · exact .refl _
  · split
    · next v _ _ =>
      exact (s.setSlot_engine v.slot ((s.slot v.slot).giveBack v.outcome) rfl rfl fun h => h).withUnit _
    · exact .refl _

/-- A grant is an engine step. -/
theorem State.grant_engine (s : State) : EngineFrame s s.grant := s.withdrawGrant_engine.trans (State.arbitrate_engine _)

/-- Granting an entry empties it at most, and only while the unit is FREE, at the slot that round robin gives. -/
theorem State.arbitrate_slot (s : State) (m : SlotId) :
    s.arbitrate.slot m = s.slot m
    ∨ (s.unit.service = none ∧ nextGrant s.unit.lastGranted s.waiting = some m ∧ (s.slot m).finished ≠ none
      ∧ s.arbitrate.slot m = { s.slot m with finished := none }) := by
  unfold State.arbitrate
  split
  · next n h1 h2 =>
    split
    · next o ho =>
      show ((s.setSlot n { s.slot n with finished := none }).slot m) = _ ∨ (_ ∧ _ ∧ _ ∧
        ((s.setSlot n { s.slot n with finished := none }).slot m) = _)
      rw [State.slot_setSlot]
      split
      · next e => subst e; exact .inr ⟨h1, h2, by rw [ho]; simp, rfl⟩
      · exact .inl rfl
    · exact .inl rfl
  · exact .inl rfl

/-- Taking back a grant of this instant leaves the state, or gives the entry back to its slot and frees the unit, and round
robin over what then waits gives another slot. -/
theorem State.withdrawGrant_cases (s : State) :
    s.withdrawGrant = s
    ∨ ∃ v, s.unit.service = some v ∧ v.takenAt = s.rawTime
      ∧ nextGrant s.withdrawGrant.unit.lastGranted s.withdrawGrant.waiting ≠ some v.slot
      ∧ ∀ m, s.withdrawGrant.slot m = if m = v.slot then (s.slot m).giveBack v.outcome else s.slot m := by
  unfold State.withdrawGrant
  split
  · exact .inl rfl
  · next v hv =>
    split
    · next hg =>
      have hs : ∀ m, ({ s.setSlot v.slot ((s.slot v.slot).giveBack v.outcome) with unit := ⟨none, v.grantedBefore⟩ }
          : State).slot m = if m = v.slot then (s.slot m).giveBack v.outcome else s.slot m := by
        intro m
        show (s.setSlot v.slot ((s.slot v.slot).giveBack v.outcome)).slot m = _
        rw [State.slot_setSlot]
        by_cases e : v.slot = m
        · subst e; rw [if_pos rfl]
        · rw [if_neg e, if_neg fun h => e h.symm]
      refine .inr ⟨v, hv, hg.1, ?_, hs⟩
      have hw : ({ s.setSlot v.slot ((s.slot v.slot).giveBack v.outcome) with unit := ⟨none, v.grantedBefore⟩ }
          : State).waiting = allSlots.filter fun n => decide (n = v.slot) || (s.slot n).finished.isSome := by
        unfold State.waiting
        congr 1
        funext n
        rw [hs n]
        by_cases e : n = v.slot
        · simp [e, Slot.giveBack]
        · simp [e]
      rw [hw]
      exact hg.2
    · exact .inl rfl

/-- A slot as the grant may leave it. -/
theorem State.grant_slot (s : State) (m : SlotId) : s.GrantOnly m (s.slot m) (s.grant.slot m) := by
  have c := s.withdrawGrant.arbitrate_slot m
  unfold State.grant State.GrantOnly
  rcases s.withdrawGrant_cases with w | ⟨v, hv, ht, hn, hs⟩
  · rw [w] at c ⊢
    rcases c with c | ⟨h1, _, h3, h4⟩
    · exact .inl c
    · exact .inr (.inl ⟨h3, h4, fun v hv => by rw [h1] at hv; cases hv⟩)
  · have vt : ∀ u, s.unit.service = some u → u.takenAt = s.rawTime := by
      intro u hu; rw [hv] at hu; cases hu; exact ht
    rw [hs m] at c
    by_cases e : m = v.slot
    · rw [if_pos e] at c
      rcases c with c | ⟨_, h2, _, _⟩
      · refine .inr (.inr ⟨v, hv, e.symm, ht, c.trans ?_⟩)
        unfold Slot.giveBack satAdd32
        rfl
      · rw [e] at h2; exact absurd h2 hn
    · rw [if_neg e] at c
      rcases c with c | ⟨_, _, h3, h4⟩
      · exact .inl c
      · exact .inr (.inl ⟨h3, h4, vt⟩)

theorem State.grant_ports (s : State) : s.grant.ports = s.ports := by
  have h1 : ∀ u : State, u.withdrawGrant.ports = u.ports := by
    intro u; unfold State.withdrawGrant; split
    · rfl
    · split <;> rfl
  have h2 : ∀ u : State, u.arbitrate.ports = u.ports := by
    intro u; unfold State.arbitrate; split
    · split <;> rfl
    · rfl
  exact (h2 _).trans (h1 s)

/-! ## The retirement check -/

/-- What a retirement check leaves of everything but the held records and the cursors. -/
theorem State.retirementCheck_rest (s : State) :
    s.retirementCheck = { s with
      log := { s.log with held := s.retirementCheck.log.held }, ports := s.retirementCheck.ports } := rfl

theorem State.retirementCheck_held (s : State) :
    s.retirementCheck.log.held = s.log.held.dropWhile fun e => !s.wantedByAny e := rfl

theorem State.retirementCheck_port (s : State) (p : PortId) :
    s.retirementCheck.port p =
      { s.port p with cursor := dragCursor s.retirementCheck.log.oldestSeq (s.port p).cursor } := by
  show (s.retire.drag).port p = _
  unfold State.drag
  rw [State.port_mapPorts]
  rfl

@[simp] theorem State.retirementCheck_slots (s : State) : s.retirementCheck.slots = s.slots := rfl
@[simp] theorem State.retirementCheck_inputs (s : State) : s.retirementCheck.inputs = s.inputs := rfl
@[simp] theorem State.retirementCheck_slot (s : State) (n : SlotId) : s.retirementCheck.slot n = s.slot n := rfl
@[simp] theorem State.retirementCheck_input (s : State) (i : InputId) : s.retirementCheck.input i = s.input i := rfl

end Sys2Proof.Machine
end

