-- ==== Sys2Proof/Laws/Engine.lean ====
section
/-! SUPPORT. What the measurement engine's operations can do: none changes a plan or a plan generation, none takes a slot
out of IDLE, and an event of the engine changes nothing but the slots, the stamps, the unit and attention flags. -/

namespace Sys2Proof.Machine

/-! ## Slots keep their plans -/

/-- Two slots with one plan under one generation. -/
def SamePlan (x y : Slot) : Prop := y.plan = x.plan ∧ y.planGen = x.planGen

theorem SamePlan.refl (x : Slot) : SamePlan x x := ⟨rfl, rfl⟩

theorem SamePlan.trans {x y z : Slot} (h : SamePlan x y) (k : SamePlan y z) : SamePlan x z :=
  ⟨k.1.trans h.1, k.2.trans h.2⟩

theorem Slot.place_samePlan (x : Slot) (o : Outcome) : SamePlan x (x.place o) := by
  unfold Slot.place; split <;> exact ⟨rfl, rfl⟩

theorem Slot.place_state (x : Slot) (o : Outcome) : (x.place o).state = x.state := by
  unfold Slot.place; split <;> rfl

theorem Slot.place_data (x : Slot) (o : Outcome) : (x.place o).data = x.data := by
  unfold Slot.place; split <;> rfl

theorem Slot.begin_samePlan (x : Slot) (a : Tick) (st l : Bool) : SamePlan x (x.begin a st l) := by
  unfold Slot.begin; cases x.plan.kind <;> exact ⟨rfl, rfl⟩

theorem Slot.rearm_samePlan (x : Slot) (h : Tick) (l : Bool) : SamePlan x (x.rearm h l) := by
  unfold Slot.rearm
  dsimp only
  split
  · exact SamePlan.trans (y := { x with state := .arming, data := { MeasData.empty with armingSince := h } }) ⟨rfl, rfl⟩
      (Slot.begin_samePlan _ _ _ _)
  · exact ⟨rfl, rfl⟩

theorem Slot.afterFinish_samePlan (x : Slot) (h : Tick) (l : Bool) (c : Slot) (hc : SamePlan x c) :
    SamePlan x (x.afterFinish h l c) := by
  unfold Slot.afterFinish
  split
  · exact ⟨rfl, rfl⟩
  · exact Slot.rearm_samePlan _ _ _
  · exact hc

theorem Slot.finishedBy_samePlan (x : Slot) (f : Offered) : SamePlan x (x.finishedBy f) := ⟨rfl, rfl⟩

theorem Slot.takeStart_samePlan (x : Slot) (f : Offered) : SamePlan x (x.takeStart f) := by
  unfold Slot.takeStart; dsimp only; split
  · split <;> exact ⟨rfl, rfl⟩
  · exact ⟨rfl, rfl⟩

theorem Slot.takeStop_samePlan (x : Slot) (n : SlotId) (h : Tick) (l : Bool) (f : Offered) :
    SamePlan x (x.takeStop n h l f).1 := by
  unfold Slot.takeStop
  dsimp only
  refine SamePlan.trans ?_ (Slot.afterFinish_samePlan _ _ _ _ ?_)
  · exact (x.finishedBy_samePlan f).trans (Slot.place_samePlan _ _)
  · split <;> exact ⟨rfl, rfl⟩

theorem Slot.takeTag_samePlan (x : Slot) (n : SlotId) (h : Tick) (l : Bool) (f : Offered) :
    SamePlan x (x.takeTag n h l f).1 := by
  unfold Slot.takeTag
  dsimp only
  have a : ∀ o, SamePlan x ((x.finishedBy f).place o) := fun o =>
    (x.finishedBy_samePlan f).trans (Slot.place_samePlan _ o)
  split
  · exact (a _).trans (Slot.afterFinish_samePlan _ _ _ _ (.refl _))
  · exact a _

/-- A slot makes something of a stamp only outside IDLE. -/
theorem Slot.judgeStamp_idle {x : Slot} (n : SlotId) (h : Tick) (l : Bool) (f : Offered) (hx : x.state = .idle) :
    x.judgeStamp n h l f = none := by
  simp [Slot.judgeStamp, hx]

theorem Slot.judgeStamp_samePlan {x : Slot} {n : SlotId} {h : Tick} {l : Bool} {f : Offered} {r : Slot × Option Finish}
    (e : x.judgeStamp n h l f = some r) : SamePlan x r.1 := by
  unfold Slot.judgeStamp at e
  split at e
  · cases e
  · split at e
    · cases e; exact Slot.begin_samePlan _ _ _ _
    · cases e
  · split at e
    · cases e; exact Slot.takeStart_samePlan _ _
    · cases e
  · split at e
    · cases e; exact Slot.takeStop_samePlan _ _ _ _ _
    · cases e
  · split at e
    · cases e; exact Slot.takeStop_samePlan _ _ _ _ _
    · cases e
  · split at e
    · cases e; exact Slot.takeTag_samePlan _ _ _ _ _
    · cases e

/-- What a slot makes of the stamps of one instant: it is outside IDLE, and keeps its plan. -/
theorem Slot.judgeInstant_spec {x : Slot} {n : SlotId} {h : Tick} {l : Bool} {r : Slot × Option Finish}
    (e : x.judgeInstant n h l = some r) : x.state ≠ .idle ∧ SamePlan x r.1 := by
  unfold Slot.judgeInstant at e
  split at e
  · next g hg =>
    cases e
    refine ⟨fun hx => ?_, Slot.begin_samePlan _ _ _ _⟩
    simp [Slot.seenFinish, Slot.awaitsArming, hx] at hg
  · obtain ⟨f, _, hf⟩ := List.exists_of_findSome?_eq_some e
    refine ⟨fun hx => ?_, Slot.judgeStamp_samePlan hf⟩
    rw [Slot.judgeStamp_idle n h l f hx] at hf
    cases hf

theorem Slot.abort_samePlan (x : Slot) (n : SlotId) (h : Tick) (l : Bool) : SamePlan x (x.abort n h l) := by
  unfold Slot.abort
  dsimp only
  split
  · exact Slot.place_samePlan _ _
  · exact .refl _

theorem Slot.closeGate_samePlan (x : Slot) : SamePlan x x.closeGate := ⟨rfl, rfl⟩

theorem Slot.timeOut_samePlan (x : Slot) (n : SlotId) (l : Bool) : SamePlan x (x.timeOut n l).1 := by
  unfold Slot.timeOut
  dsimp only
  refine SamePlan.trans (Slot.place_samePlan _ _) (Slot.afterFinish_samePlan _ _ _ _ ?_)
  split <;> exact ⟨rfl, rfl⟩

theorem Slot.stepNotice_samePlan (x : Slot) (a b c : Bool) (h o : Tick) : SamePlan x (x.stepNotice a b c h o) := by
  unfold Slot.stepNotice
  split
  · exact ⟨rfl, rfl⟩
  · split
    · exact Slot.begin_samePlan _ _ _ _
    · exact .refl _

theorem Slot.stepNotice_idle {x : Slot} (a b c : Bool) (h o : Tick) (hx : x.state = .idle) :
    (x.stepNotice a b c h o).state = .idle := by
  simp [Slot.stepNotice, Slot.inStepSpan, Slot.awaitsArming, hx]

theorem Slot.markRefFault_samePlan (x : Slot) : SamePlan x x.markRefFault := by
  unfold Slot.markRefFault; split <;> exact ⟨rfl, rfl⟩

theorem Slot.markRefFault_state (x : Slot) : x.markRefFault.state = x.state := by
  unfold Slot.markRefFault; split <;> rfl

/-! ## Events of the engine are engine steps -/

/-- A slot keeps its plan, and stays IDLE if it was, when it sees a finish of its arm slot. -/
theorem Slot.seeFinish_samePlan (x : Slot) (e : SeenFinish) (l : Bool) : SamePlan x (x.seeFinish e l) := by
  unfold Slot.seeFinish
  split
  · exact .refl _
  · split
    · exact Slot.begin_samePlan _ _ _ _
    · split <;> exact ⟨rfl, rfl⟩

theorem Slot.seeFinish_idle {x : Slot} (e : SeenFinish) (l : Bool) (hx : x.state = .idle) : x.seeFinish e l = x := by
  simp [Slot.seeFinish, Slot.awaitsArming, hx]

/-- A finish that the stamp of a finish of the slot itself has caused does nothing to the slot. -/
theorem Slot.seeFinish_usedUp {x : Slot} {e : SeenFinish} (l : Bool) (h : x.hasUsedUp e = true) : x.seeFinish e l = x := by
  simp [Slot.seeFinish, h]

/-- Once a stamp has finished a slot, its part in every later finish of the same instant is used up. -/
theorem Slot.finishedBy_hasUsedUp (x : Slot) (f : Offered) (t : Tick) :
    (x.finishedBy f).hasUsedUp ⟨t, some f.st, f.offeredAt⟩ = true := by
  simp [Slot.hasUsedUp, Slot.finishedBy]

theorem State.armDependents_engine (s : State) (n : SlotId) (t : Tick) (c : Option Stamp) :
    EngineFrame s (s.armDependents n t c) := by
  refine State.mapSlots_engine _ _ (fun _ x => ?_) fun _ x hx => ?_
  · split
    · exact Slot.seeFinish_samePlan _ _ _
    · exact ⟨rfl, rfl⟩
  · split
    · rw [Slot.seeFinish_idle _ _ hx]; exact hx
    · exact hx

theorem State.announce_engine (s : State) (n : SlotId) (e : Finish) : EngineFrame s (s.announce n e) := by
  unfold State.announce
  have h : EngineFrame s (if e.single then s.raiseSubscribed .done n else s) := by
    split
    · exact State.raise_done_engine _ _
    · exact .refl _
  dsimp only
  split
  · exact h
  · exact h.trans (State.armDependents_engine _ _ _ _)

theorem State.judgeSlot_engine (fuel : Nat) (n : SlotId) (s : State) : EngineFrame s (State.judgeSlot fuel n s) := by
  induction fuel generalizing s with
  | zero => exact .refl _
  | succ k ih =>
    unfold State.judgeSlot
    split
    · exact .refl _
    · next x e =>
      have a := Slot.judgeInstant_spec e
      exact (s.setSlot_engine n x a.2.1 a.2.2 fun hi => absurd hi a.1).trans (ih _)
    · next x f e =>
      have a := Slot.judgeInstant_spec e
      exact ((s.setSlot_engine n x a.2.1 a.2.2 fun hi => absurd hi a.1).trans (State.announce_engine _ _ _)).trans (ih _)

theorem State.settle_engine (s : State) : EngineFrame s s.settle := by
  unfold State.settle
  generalize allSlots = l
  induction l generalizing s with
  | nil => exact .refl _
  | cons n rest ih => exact (State.judgeSlot_engine _ _ _).trans (ih _)

/-- What ends every event of the engine is an engine step. -/
theorem State.conclude_engine (s : State) : EngineFrame s s.conclude := s.settle_engine.trans s.settle.grant_engine

theorem State.offer_engine (s : State) (st : Stamp) : EngineFrame s (s.offer st) := by
  unfold State.offer
  dsimp only
  have h : EngineFrame s { s with stamps := s.stamps.erase st } :=
    ⟨rfl, fun _ => .refl _, fun _ => ⟨rfl, rfl⟩, fun _ h => h⟩
  refine h.trans (State.mapSlots_engine _ _ (fun _ x => ?_) fun _ x hx => ?_)
  · split <;> exact ⟨rfl, rfl⟩
  · simp [hx]

theorem State.notifyStep_engine (s : State) (o : Tick) (f : Bool) : EngineFrame s (s.notifyStep o f) := by
  unfold State.notifyStep
  split
  · exact .refl _
  · exact State.mapSlots_engine _ _ (fun _ x => Slot.stepNotice_samePlan x _ _ _ _ _)
      fun _ x hx => Slot.stepNotice_idle _ _ _ _ _ hx

end Sys2Proof.Machine
end

