-- ==== Sys2Proof/Laws/Done.lean ====
section
/-! SUPPORT. Where DONE is set (R77, R131, R166): every part of an event of the engine sets DONE at exactly the ports whose
subscription holds a slot with a SINGLE plan that it moved to IDLE, and so does their sequence. -/

namespace Sys2Proof.Machine

/-! ## Engine steps compose -/

/-- An engine step that moves no slot to IDLE and leaves the ports alone. -/
theorem EngineFrame.silent {s t : State} (h : EngineFrame s t) (hp : t.ports = s.ports)
    (hi : ∀ n, (t.slot n).state = .idle → (s.slot n).state = .idle) : EngineStep s t := by
  have e : ∀ p, t.port p = s.port p := fun p => congrArg (fun v : Vector Port 4 => v[p]) hp
  exact ⟨h, fun p => ⟨fun ⟨n, _, _, a, b⟩ => absurd (hi n b) a, fun _ => e p⟩⟩

theorem EngineStep.refl (s : State) : EngineStep s s := (EngineFrame.refl s).silent rfl fun _ h => h

/-- The subscriptions and plans stand, so of two steps in a row, DONE is told by the first or by the second. -/
theorem EngineStep.trans {s t u : State} (h : EngineStep s t) (k : EngineStep t u) : EngineStep s u := by
  have sub : ∀ p, (t.port p).subscription = (s.port p).subscription := by
    intro p; rcases h.ports p with e | e <;> rw [e]
  have told : ∀ p, s.DoneTold u p ↔ s.DoneTold t p ∨ t.DoneTold u p := by
    intro p
    unfold State.DoneTold
    rw [sub p]
    constructor
    · rintro ⟨n, a, b, c, d⟩
      by_cases e : (t.slot n).state = .idle
      · exact .inl ⟨n, a, b, c, e⟩
      · exact .inr ⟨n, a, by rw [(h.plans n).1]; exact b, e, d⟩
    · rintro (⟨n, a, b, c, d⟩ | ⟨n, a, b, c, d⟩)
      · exact ⟨n, a, b, c, k.idle n d⟩
      · exact ⟨n, a, by rw [← (h.plans n).1]; exact b, fun i => c (h.idle n i), d⟩
  refine ⟨h.toEngineFrame.trans k.toEngineFrame, fun p => ⟨fun a => ?_, fun a => ?_⟩⟩
  · by_cases c : t.DoneTold u p
    · rw [(k.told p).1 c]
      by_cases b : s.DoneTold t p
      · rw [(h.told p).1 b]
        simp only [BitVec.or_assoc, BitVec.or_self]
      · rw [(h.told p).2 b]
    · rw [(k.told p).2 c]
      exact (h.told p).1 (((told p).1 a).resolve_right c)
  · rw [told p, not_or] at a
    rw [(k.told p).2 a.2, (h.told p).2 a.1]

/-! ## What of a slot tells DONE -/

/-- Whether what a slot makes of a part of an event fits what it announces: it moves to IDLE exactly when it announces the
finish of a SINGLE plan, which it then has. -/
def Slot.TellsRight (x y : Slot) (single : Bool) : Prop :=
  (y.state = .idle ↔ single = true) ∧ (single = true → x.plan.repeatMode = .single)

theorem Slot.begin_state (x : Slot) (a : Tick) (b l : Bool) : (x.begin a b l).state ≠ .idle := by
  unfold Slot.begin; cases x.plan.kind <;> exact nofun

theorem Slot.rearm_state (x : Slot) (h : Tick) (l : Bool) : (x.rearm h l).state ≠ .idle := by
  unfold Slot.rearm
  dsimp only
  split
  · exact Slot.begin_state _ _ _ _
  · exact nofun

theorem Slot.takeStart_state (x : Slot) (f : Offered) : (x.takeStart f).state ≠ .idle := by
  unfold Slot.takeStart
  dsimp only
  split
  · split <;> exact nofun
  · exact nofun

/-- After a finish, a slot is in IDLE exactly under SINGLE. -/
theorem Slot.afterFinish_tells {x y : Slot} (h : Tick) (l : Bool) (c : Slot) (hp : y.plan = x.plan) (hc : c.state ≠ .idle) :
    x.TellsRight (y.afterFinish h l c) x.isSingle := by
  unfold Slot.TellsRight Slot.afterFinish Slot.isSingle
  rw [hp]
  cases e : x.plan.repeatMode
  · simp [Slot.toIdle]
  · simp [hc]
  · simp [Slot.rearm_state]

theorem Slot.nextReciprocal_state (x : Slot) (f : Offered) (l : Bool) : (x.nextReciprocal f l).state ≠ .idle := by
  unfold Slot.nextReciprocal
  dsimp only
  split <;> (split <;> exact nofun)

theorem Slot.takeStop_tells (x : Slot) (n : SlotId) (h : Tick) (l : Bool) (f : Offered) :
    x.TellsRight (x.takeStop n h l f).1 (x.takeStop n h l f).2.single := by
  unfold Slot.takeStop
  refine Slot.afterFinish_tells h l _ ((x.finishedBy_samePlan f).trans (Slot.place_samePlan _ _)).1 ?_
  split
  · exact Slot.nextReciprocal_state _ _ _
  · exact nofun

theorem Slot.takeTag_tells {x : Slot} (n : SlotId) (h : Tick) (l : Bool) (f : Offered) (hx : x.state ≠ .idle) :
    x.TellsRight (x.takeTag n h l f).1 (x.takeTag n h l f).2.single := by
  have e : ∀ o, ((x.finishedBy f).place o).state = x.state := fun o => Slot.place_state _ o
  unfold Slot.takeTag
  dsimp only
  split
  · refine Slot.afterFinish_tells h l _ ((x.finishedBy_samePlan f).trans (Slot.place_samePlan _ _)).1 ?_
    rw [e]; exact hx
  · refine ⟨?_, nofun⟩
    show ((x.finishedBy f).place _).state = .idle ↔ _
    rw [e]
    simp [hx]

/-- What a finish announces of DONE, or nothing. -/
def finishSingle : Option Finish → Bool
  | none => false
  | some e => e.single

theorem Slot.judgeStamp_tells {x : Slot} {n : SlotId} {h : Tick} {l : Bool} {f : Offered} {r : Slot × Option Finish}
    (e : x.judgeStamp n h l f = some r) : x.TellsRight r.1 (finishSingle r.2) := by
  unfold Slot.judgeStamp at e
  split at e
  · cases e
  · split at e
    · cases e; exact ⟨by simp [finishSingle, Slot.begin_state], nofun⟩
    · cases e
  · split at e
    · cases e; exact ⟨by simp [finishSingle, Slot.takeStart_state], nofun⟩
    · cases e
  · split at e
    · cases e; exact Slot.takeStop_tells _ _ _ _ _
    · cases e
  · split at e
    · cases e; exact Slot.takeStop_tells _ _ _ _ _
    · cases e
  · next hs =>
    split at e
    · cases e; exact Slot.takeTag_tells _ _ _ _ (by rw [hs]; exact nofun)
    · cases e

theorem Slot.judgeInstant_tells {x : Slot} {n : SlotId} {h : Tick} {l : Bool} {r : Slot × Option Finish}
    (e : x.judgeInstant n h l = some r) : x.TellsRight r.1 (finishSingle r.2) := by
  unfold Slot.judgeInstant at e
  split at e
  · cases e
    refine ⟨?_, nofun⟩
    show (x.begin _ false l).state = .idle ↔ _
    simp [finishSingle, Slot.begin_state]
  · obtain ⟨f, _, hf⟩ := List.exists_of_findSome?_eq_some e
    exact Slot.judgeStamp_tells hf

theorem Slot.timeOut_tells (x : Slot) (n : SlotId) (l : Bool) :
    x.TellsRight (x.timeOut n l).1 (x.timeOut n l).2.single := by
  unfold Slot.timeOut
  refine Slot.afterFinish_tells _ l _ (Slot.place_samePlan _ _).1 ?_
  split <;> exact nofun

/-! ## Every part of an event -/

/-- All slots replaced by ones with their plans, IDLE exactly where they were, is an engine step. -/
theorem State.mapSlots_step (s : State) (f : SlotId → Slot → Slot)
    (hp : ∀ n x, (f n x).plan = x.plan ∧ (f n x).planGen = x.planGen)
    (hi : ∀ n x, (f n x).state = .idle ↔ x.state = .idle) : EngineStep s (s.mapSlots f) :=
  (State.mapSlots_engine s f hp fun n x => (hi n x).2).silent rfl fun n h => by
    rw [State.slot_mapSlots] at h; exact (hi _ _).1 h

/-- A slot replaced by one with its plan that is not in IDLE is an engine step. -/
theorem State.setSlot_step (s : State) (n : SlotId) (x : Slot) (hp : SamePlan (s.slot n) x)
    (ho : (s.slot n).state ≠ .idle) (hx : x.state ≠ .idle) : EngineStep s (s.setSlot n x) :=
  (s.setSlot_engine n x hp.1 hp.2 fun h => absurd h ho).silent rfl fun m h => by
    rw [State.slot_setSlot] at h
    split at h
    · exact absurd h hx
    · exact h

theorem Slot.seeFinish_state (x : Slot) (e : SeenFinish) (l : Bool) (h : (x.seeFinish e l).state = .idle) :
    x.state = .idle := by
  unfold Slot.seeFinish at h
  split at h
  · exact h
  · split at h
    · exact absurd h (Slot.begin_state _ _ _ _)
    · split at h <;> exact h

/-- A finish tells the dependents and sets no flag. -/
theorem State.armDependents_step (s : State) (n : SlotId) (t : Tick) (c : Option Stamp) :
    EngineStep s (s.armDependents n t c) := by
  refine State.mapSlots_step _ _ (fun _ x => ?_) fun _ x => ⟨fun h => ?_, fun h => ?_⟩
  · split
    · exact Slot.seeFinish_samePlan _ _ _
    · exact ⟨rfl, rfl⟩
  · split at h
    · exact Slot.seeFinish_state _ _ _ h
    · exact h
  · split
    · rw [Slot.seeFinish_idle _ _ h]; exact h
    · exact h

/-- A slot that moves on with its finish announced is an engine step, where the move fits what is announced: this is where
DONE is set. -/
theorem State.finish_step (s : State) (n : SlotId) (x : Slot) (e : Finish) (hp : SamePlan (s.slot n) x)
    (ho : (s.slot n).state ≠ .idle) (ht : (s.slot n).TellsRight x e.single) :
    EngineStep s ((s.setSlot n x).announce n e) := by
  have a : EngineStep s (if e.single then (s.setSlot n x).raiseSubscribed .done n else s.setSlot n x) := by
    have f := s.setSlot_engine n x hp.1 hp.2 fun h => absurd h ho
    split
    · next hs =>
      have g := f.trans (State.raise_done_engine (s.setSlot n x) fun p => (s.setSlot n x).ports[p].subscription.getLsbD n)
      have told : ∀ p, s.DoneTold (s.setSlot n x) p ↔ (s.port p).subscription.getLsbD n = true := by
        intro p
        unfold State.DoneTold
        constructor
        · rintro ⟨m, a, b, c, d⟩
          rw [State.slot_setSlot] at d
          split at d
          · next k => subst k; exact a
          · exact absurd d c
        · intro k
          exact ⟨n, k, ht.2 hs, ho, by rw [State.slot_setSlot, if_pos rfl]; exact ht.1.2 hs⟩
      refine ⟨g, fun p => ?_⟩
      have k : s.DoneTold ((s.setSlot n x).raiseSubscribed .done n) p ↔ (s.port p).subscription.getLsbD n = true := told p
      rw [k]
      show (_ → State.port ((s.setSlot n x).raise .done _) p = _) ∧ (_ → State.port ((s.setSlot n x).raise .done _) p = _)
      rw [State.port_raise]
      exact ⟨fun c => if_pos c, fun c => if_neg c⟩
    · next hs => exact s.setSlot_step n x hp ho fun h => hs (ht.1.1 h)
  unfold State.announce
  dsimp only
  split
  · exact a
  · exact a.trans (State.armDependents_step _ _ _ _)

theorem State.judgeSlot_step (fuel : Nat) (n : SlotId) (s : State) : EngineStep s (State.judgeSlot fuel n s) := by
  induction fuel generalizing s with
  | zero => exact .refl _
  | succ k ih =>
    unfold State.judgeSlot
    split
    · exact .refl _
    · next x e =>
      have a := Slot.judgeInstant_spec e
      have b := Slot.judgeInstant_tells e
      exact (s.setSlot_step n x a.2 a.1 fun h => absurd (b.1.1 h) nofun).trans (ih _)
    · next x f e =>
      have a := Slot.judgeInstant_spec e
      exact (s.finish_step n x f a.2 a.1 (Slot.judgeInstant_tells e)).trans (ih _)

theorem State.settle_step (s : State) : EngineStep s s.settle := by
  unfold State.settle
  generalize allSlots = l
  induction l generalizing s with
  | nil => exact .refl _
  | cons n rest ih => exact (State.judgeSlot_step _ _ _).trans (ih _)

theorem State.grant_step (s : State) : EngineStep s s.grant :=
  s.grant_engine.silent s.grant_ports fun n h => by
    rcases s.grant_slot n with e | ⟨_, e, _⟩ | ⟨_, _, _, _, e⟩ <;> (rw [e] at h; exact h)

/-- What ends every event of the engine is an engine step. -/
theorem State.conclude_step (s : State) : EngineStep s s.conclude := s.settle_step.trans s.settle.grant_step

theorem State.offer_step (s : State) (st : Stamp) : EngineStep s (s.offer st) :=
  (s.offer_engine st).silent rfl fun n h => by
    unfold State.offer at h
    dsimp only at h
    rw [State.slot_mapSlots] at h
    split at h <;> exact h

end Sys2Proof.Machine
end

