-- ==== Sys2Proof/Laws/Requests.lean ====
section
/-! SUPPORT. What a request meets before its owner acts: the number it names, the right it needs, the generation it
carries, the usage of an input; and the comparisons of times as bounds on differences. -/

namespace Sys2Proof.Machine

/-! ## Numbers and codes -/

theorem numberOf_input (i : InputId) : numberOf 8 (BitVec.ofNat 8 i.val) = some i := by
  revert i; decide

theorem numberOf_slot (n : SlotId) : numberOf 16 (BitVec.ofNat 8 n.val) = some n := by
  revert n; decide

theorem numberOf_above {k : Nat} {b : Byte} (h : k ≤ b.toNat) : numberOf k b = none := by
  simp [numberOf]; omega

/-- The number a byte names, read back. -/
theorem numberOf_eq_some {k : Nat} {b : Byte} {i : Fin k} (h : numberOf k b = some i) : b.toNat = i.val := by
  unfold numberOf at h
  split at h
  · cases h; rfl
  · cases h

/-! ## Rights -/

theorem permitted_time {c : Command} {r : BitVec 3} (hc : c.needs = 4#3) : c.permitted r = r.getLsbD 2 := by
  unfold Command.permitted; rw [hc]; revert r; decide

theorem permitted_input {c : Command} {r : BitVec 3} (hc : c.needs = 2#3) : c.permitted r = r.getLsbD 1 := by
  unfold Command.permitted; rw [hc]; revert r; decide

theorem permitted_measure {c : Command} {r : BitVec 3} (hc : c.needs = 1#3) : c.permitted r = r.getLsbD 0 := by
  unfold Command.permitted; rw [hc]; revert r; decide

/-! ## Generations -/

theorem generationMatches_of_passes {g : Option Gen} {cur : Gen} (h : Passes g cur) : generationMatches g cur = true := by
  rcases h with rfl | rfl <;> simp [generationMatches]

/-! ## Comparisons -/

theorem atOrBefore_iff (a b : Tick) : atOrBefore a b = true ↔ (b - a).toNat < 2 ^ 63 := by
  unfold atOrBefore; exact decide_eq_true_iff

theorem atOrBefore_eq_false (a b : Tick) : atOrBefore a b = false ↔ ¬(b - a).toNat < 2 ^ 63 := by
  unfold atOrBefore; exact decide_eq_false_iff_not

theorem before_iff (a b : Tick) : before a b = true ↔ (b - a).toNat < 2 ^ 63 ∧ a ≠ b := by
  unfold before; rw [Bool.and_eq_true, atOrBefore_iff, decide_eq_true_iff]

theorem coarseAtOrBefore_iff (a b : Coarse) : coarseAtOrBefore a b = true ↔ (b - a).toNat < 2 ^ 55 := by
  unfold coarseAtOrBefore; exact decide_eq_true_iff

theorem State.reached_iff (s : State) (t : Tick) :
    s.reached t = true ↔ s.horizonStarted = true ∧ (s.horizonTime - t).toNat < 2 ^ 63 := by
  unfold State.reached; rw [Bool.and_eq_true, atOrBefore_iff]

theorem ticksOf_eq (w : BitVec 64) : ticksOf w = w * 256 := rfl

/-! ## Usage -/

theorem State.usage_eq_nil (s : State) (i : InputId) :
    s.usage i = [] ↔ ∀ n, (s.slot n).state = .idle ∨ (s.slot n).plan.names i = false := by
  simp only [State.usage, List.filter_eq_nil_iff]
  constructor
  · intro h n
    have := h n (List.mem_finRange n)
    by_cases a : (s.slot n).state = .idle
    · exact Or.inl a
    · simp [a] at this; exact Or.inr this
  · intro h n _
    rcases h n with h | h <;> simp [h]

theorem State.inputBusy_iff (s : State) (i : InputId) :
    s.inputBusy i = true ↔
      (s.input i).state = .calibrating ∨ ∃ n, (s.slot n).state ≠ .idle ∧ (s.slot n).plan.names i = true := by
  have h := s.usage_eq_nil i
  unfold State.inputBusy
  rw [Bool.or_eq_true, decide_eq_true_iff, Bool.not_eq_true', List.isEmpty_eq_false_iff, ne_eq, h, not_forall]
  constructor
  · rintro (⟨n, a⟩ | a)
    · right
      refine ⟨n, fun e => a (Or.inl e), ?_⟩
      cases e : (s.slot n).plan.names i
      · exact absurd (Or.inr e) a
      · rfl
    · exact Or.inl a
  · rintro (a | ⟨n, a, b⟩)
    · exact Or.inr a
    · left
      refine ⟨n, fun e => ?_⟩
      rcases e with e | e
      · exact a e
      · rw [b] at e; cases e

theorem State.namesCalibrating_iff (s : State) (p : Plan) :
    s.namesCalibrating p = true ↔ ∃ i, p.names i = true ∧ (s.input i).state = .calibrating := by
  simp [State.namesCalibrating, allInputs, List.mem_finRange]

end Sys2Proof.Machine
end

