-- ==== Sys2Proof/Laws/Log.lean ====
section
/-! SUPPORT. The result log's operations: the size of a record, the walk of READ_RESULTS, and where consecutive sequence
numbers stand. -/

namespace Sys2Proof.Machine

/-! ## Sizes -/

@[simp] theorem bytesBE_length (n v : Nat) : (bytesBE n v).length = n := by
  induction n with
  | zero => rfl
  | succ k ih => simp [bytesBE, ih]

theorem recordItem_length {w : Nat} (tag : Byte) (size : Nat) (v : Option (BitVec w)) :
    (recordItem tag size v).length = if v.isSome then size + 1 else 0 := by
  cases v <;> simp [recordItem]

/-- A record of the fields R111 allows takes at most 59 bytes (R186). -/
theorem recordBytes_length {r : Record} (h : r.Shaped) (seq : Option Seq) : (recordBytes seq r).length ≤ 59 := by
  unfold recordBytes
  simp only [List.length_append, recordItem_length, bytesBE_length, List.length_cons, List.length_nil]
  rcases h with h | ⟨h1, h2, h3, h4⟩
  · rw [h]
    cases seq <;> cases r.start <;> cases r.stop <;> cases r.edges <;> cases r.duration <;> cases r.value <;>
      cases r.lost <;> simp
  · rw [h1, h2, h3, h4]
    cases seq <;> cases r.start <;> cases r.edgesSince <;> cases r.lost <;> simp

/-! ## The walk -/

/-- The walk with room for k records of the largest size delivers the first k records of the subscription, and stops
after the k-th or at the end of the log (R133). -/
theorem walkLog_spec (sub : BitVec 16) (l : List LogEntry) (hl : ∀ e ∈ l, e.record.Shaped) (k room : Nat) (hk : 1 ≤ k)
    (hr : 59 * k ≤ room) :
    walkLog sub k room l =
      ((l.filter fun e => sub.getLsbD e.record.slot).take k,
        if k ≤ (l.filter fun e => sub.getLsbD e.record.slot).length then
          (((l.filter fun e => sub.getLsbD e.record.slot).take k).getLast?.map fun e => e.seq + 1) else none) := by
  induction l generalizing k room with
  | nil =>
    have : ¬k ≤ 0 := by omega
    simp [walkLog, this]
  | cons e rest ih =>
    have he : e.bytes.length ≤ 59 := recordBytes_length (hl e List.mem_cons_self) _
    have ih' := ih (fun x hx => hl x (List.mem_cons_of_mem _ hx))
    unfold walkLog
    by_cases hs : sub.getLsbD e.record.slot = true
    · rw [if_pos hs, if_neg (by omega), List.filter_cons_of_pos (by simpa using hs)]
      by_cases k1 : k ≤ 1
      · have : k = 1 := by omega
        subst this
        simp
      · rw [if_neg k1]
        dsimp only
        rw [ih' (k - 1) (room - e.bytes.length) (by omega) (by omega)]
        obtain ⟨j, rfl⟩ : ∃ j, k = j + 1 := ⟨k - 1, by omega⟩
        simp only [Nat.add_sub_cancel, List.take_succ_cons, List.length_cons, Nat.add_le_add_iff_right]
        congr 1
        split
        · next hj =>
          generalize hw : (rest.filter fun e => sub.getLsbD e.record.slot).take j = w
          have : w ≠ [] := by
            intro e'
            have := congrArg List.length hw
            rw [e', List.length_take, Nat.min_eq_left hj, List.length_nil] at this
            omega
          rw [List.getLast?_cons]
          obtain ⟨x, hx⟩ := Option.ne_none_iff_exists'.1 (fun h => this (List.getLast?_eq_none_iff.1 h))
          rw [hx]; rfl
        · rfl
    · rw [if_neg hs, List.filter_cons_of_neg (by simpa using hs)]
      exact ih' k room hk hr

/-! ## Consecutive sequence numbers -/

/-- Dropping to the record numbered c, c lying j records after the oldest, keeps exactly the records from c on. -/
theorem dropWhile_consecutive (l : List LogEntry) (q c : Seq) (hc : consecutiveFrom q l) (hl : l.length ≤ 512)
    (hj : (c - q).toNat ≤ l.length) :
    (l.dropWhile fun e => decide (e.seq ≠ c)) = l.filter fun e => seqAtOrBefore c e.seq := by
  induction l generalizing q with
  | nil => rfl
  | cons e rest ih =>
    obtain ⟨he, hc⟩ := hc
    subst he
    have small : ∀ (l : List LogEntry) (q : Seq), consecutiveFrom q l → (q - c).toNat + l.length < 2 ^ 31 →
        (l.filter fun e => seqAtOrBefore c e.seq) = l := by
      intro l
      induction l with
      | nil => intros; rfl
      | cons x r ih2 =>
        intro q h1 h2
        obtain ⟨hx, h1⟩ := h1
        subst hx
        simp only [List.length_cons] at h2
        rw [List.filter_cons_of_pos (by unfold seqAtOrBefore; exact decide_eq_true (by omega))]
        congr 1
        by_cases hr : r = []
        · subst hr; rfl
        · refine ih2 _ h1 ?_
          have : (x.seq + 1 - c).toNat ≤ (x.seq - c).toNat + 1 := by
            have e1 : x.seq + 1 - c = (x.seq - c) + 1 := by
              rw [BitVec.sub_eq_add_neg, BitVec.sub_eq_add_neg, BitVec.add_assoc, BitVec.add_comm 1, BitVec.add_assoc]
            rw [e1, BitVec.toNat_add]
            exact Nat.mod_le _ _
          omega
    by_cases h : e.seq = c
    · rw [List.dropWhile_cons_of_neg (by simp [h])]
      refine (small (e :: rest) e.seq ⟨rfl, hc⟩ ?_).symm
      rw [h, BitVec.sub_self]
      simp at hl ⊢
      omega
    · rw [List.dropWhile_cons_of_pos (by simp [h])]
      simp only [List.length_cons] at hl hj
      have hd : (c - e.seq).toNat ≠ 0 := by
        intro z
        apply h
        have z' : c - e.seq = 0#32 := BitVec.eq_of_toNat_eq (by simpa using z)
        have := BitVec.sub_add_cancel c e.seq
        rw [z', BitVec.zero_add] at this
        exact this
      have e1 : c - (e.seq + 1) = (c - e.seq) - 1 := by rw [BitVec.sub_sub]
      have h1 : (c - (e.seq + 1)).toNat = (c - e.seq).toNat - 1 := by
        rw [e1]
        generalize c - e.seq = d at *
        rw [BitVec.toNat_sub]
        have := d.isLt
        simp
        omega
      rw [List.filter_cons_of_neg, ih _ hc (by omega) (by omega)]
      have h2 : (e.seq - c).toNat = 2 ^ 32 - (c - e.seq).toNat := by
        have e2 : e.seq - c = -(c - e.seq) := by rw [BitVec.neg_sub, BitVec.sub_eq_add_neg, BitVec.add_comm]
        rw [e2, BitVec.toNat_neg]
        have := (c - e.seq).isLt
        omega
      unfold seqAtOrBefore
      rw [decide_eq_true_iff, h2]
      omega

end Sys2Proof.Machine
end

