-- ==== Sys2Proof/Laws/PerInstr.lean ====
section
/-! SUPPORT. The round trip of requests, one lemma for each command: the payload a controller sends for a well-formed
request fits a frame, and the port reads it back as that request (R155, R182 to R184). -/

namespace Sys2Proof.Machine

/-! ## Numbers -/

theorem natOfBytes_append (v : Nat) (bs : List Byte) :
    bs.foldl (fun v b => v * 256 + b.toNat) v = v * 256 ^ bs.length + natOfBytes bs := by
  induction bs generalizing v with
  | nil => simp [natOfBytes]
  | cons b rest ih =>
    simp only [natOfBytes, List.foldl_cons, List.length_cons] at ih ⊢
    rw [ih, ih (0 * 256 + b.toNat)]
    ring

theorem natOfBytes_cons (b : Byte) (bs : List Byte) : natOfBytes (b :: bs) = b.toNat * 256 ^ bs.length + natOfBytes bs := by
  show bs.foldl _ (0 * 256 + b.toNat) = _
  rw [natOfBytes_append]
  simp

/-- The n low bytes of a number, read back. -/
theorem natOfBytes_bytesBE (n v : Nat) : natOfBytes (bytesBE n v) = v % 256 ^ n := by
  induction n with
  | zero => simp [bytesBE, natOfBytes, Nat.mod_one]
  | succ k ih =>
    have e : v % 256 ^ (k + 1) = v % 256 ^ k + 256 ^ k * (v / 256 ^ k % 256) := by rw [pow_succ, Nat.mod_mul]
    rw [bytesBE, natOfBytes_cons, ih, bytesBE_length, BitVec.toNat_ofNat, e, Nat.add_comm, Nat.mul_comm]

theorem ofNat_bytesBE {w : Nat} (n : Nat) (v : BitVec w) (h : w = 8 * n) :
    BitVec.ofNat w (natOfBytes (bytesBE n v.toNat)) = v := by
  rw [natOfBytes_bytesBE]
  have : (256 : Nat) ^ n = 2 ^ w := by rw [h, pow_mul]; norm_num
  rw [this, Nat.mod_eq_of_lt v.isLt]
  simp

/-- The two bytes of a 16-bit number, joined. -/
theorem bytesBE_two (v : BitVec 16) : ∃ h l : Byte, bytesBE 2 v.toNat = [h, l] ∧ h ++ l = v := by
  refine ⟨_, _, rfl, ?_⟩
  apply BitVec.eq_of_toNat_eq
  rw [BitVec.toNat_append, BitVec.toNat_ofNat, BitVec.toNat_ofNat, ← Nat.shiftLeft_add_eq_or_of_lt (Nat.mod_lt _ (by norm_num)),
    Nat.shiftLeft_eq]
  have := v.isLt
  simp only [Nat.pow_one, Nat.pow_zero, Nat.div_one]
  omega

/-! ## Conditions and items -/

theorem parseCondition_conditionBytes (g : Option Gen) (rest : List Byte) :
    parseCondition (conditionBytes g ++ rest) = some (g, rest) := by
  cases g with
  | none => rfl
  | some g =>
    obtain ⟨h, l, e, j⟩ := bytesBE_two g
    simp [parseCondition, conditionBytes, e, j]

theorem conditionBytes_length (g : Option Gen) : (conditionBytes g).length ≤ 3 := by
  cases g <;> simp [conditionBytes]

theorem itemBytes_length (x : PlanItem) : (itemBytes x).length = x.size := by
  cases x <;> simp [itemBytes, PlanItem.size]
  omega

/-- A known item is its identifier and a value of the size the identifier gives, and is read back from them. -/
theorem itemBytes_known (x : PlanItem) (h : x.isKnown = true) : ∃ b value n, itemBytes x = b :: value
    ∧ valueSize b = some n ∧ value.length = n ∧ itemOf b value = x := by
  cases x with
  | unknown b rest => cases h
  | gate v => exact ⟨_, _, 8, rfl, rfl, by simp, congrArg PlanItem.gate (ofNat_bytesBE 8 v rfl)⟩
  | waitLimit v => exact ⟨_, _, 8, rfl, rfl, by simp, congrArg PlanItem.waitLimit (ofNat_bytesBE 8 v rfl)⟩
  | armTime v => exact ⟨_, _, 8, rfl, rfl, by simp, congrArg PlanItem.armTime (ofNat_bytesBE 8 v rfl)⟩
  | prescale v => exact ⟨_, _, 4, rfl, rfl, by simp, congrArg PlanItem.prescale (ofNat_bytesBE 4 v rfl)⟩
  | quota v => exact ⟨_, _, 4, rfl, rfl, by simp, congrArg PlanItem.quota (ofNat_bytesBE 4 v rfl)⟩
  | kind c => exact ⟨_, _, 1, rfl, rfl, rfl, congrArg PlanItem.kind (by simp [natOfBytes])⟩
  | inputA c => exact ⟨_, _, 1, rfl, rfl, rfl, congrArg PlanItem.inputA (by simp [natOfBytes])⟩
  | senseA c => exact ⟨_, _, 1, rfl, rfl, rfl, congrArg PlanItem.senseA (by simp [natOfBytes])⟩
  | inputB c => exact ⟨_, _, 1, rfl, rfl, rfl, congrArg PlanItem.inputB (by simp [natOfBytes])⟩
  | senseB c => exact ⟨_, _, 1, rfl, rfl, rfl, congrArg PlanItem.senseB (by simp [natOfBytes])⟩
  | reportAs c => exact ⟨_, _, 1, rfl, rfl, rfl, congrArg PlanItem.reportAs (by simp [natOfBytes])⟩
  | armSource c => exact ⟨_, _, 1, rfl, rfl, rfl, congrArg PlanItem.armSource (by simp [natOfBytes])⟩
  | armInput c => exact ⟨_, _, 1, rfl, rfl, rfl, congrArg PlanItem.armInput (by simp [natOfBytes])⟩
  | armSense c => exact ⟨_, _, 1, rfl, rfl, rfl, congrArg PlanItem.armSense (by simp [natOfBytes])⟩
  | armSlot c => exact ⟨_, _, 1, rfl, rfl, rfl, congrArg PlanItem.armSlot (by simp [natOfBytes])⟩
  | repeatMode c => exact ⟨_, _, 1, rfl, rfl, rfl, congrArg PlanItem.repeatMode (by simp [natOfBytes])⟩

theorem valueSize_unknown {b : Byte} (h : isFieldIdentifier b = false) : valueSize b = none := by
  revert b; decide

/-- The division of a well-formed item list gives the list back. -/
theorem divideItems_itemBytes (items : List PlanItem) (hw : items.all PlanItem.wf = true) (hu : unknownOnlyLast items = true)
    (fuel : Nat) (hf : (items.flatMap itemBytes).length ≤ fuel) :
    divideItems fuel (items.flatMap itemBytes) = some items := by
  induction items generalizing fuel with
  | nil => cases fuel <;> rfl
  | cons x rest ih =>
    simp only [List.all_cons, Bool.and_eq_true] at hw
    cases hx : x.isKnown with
    | true =>
      obtain ⟨b, value, n, e1, e2, e3, e4⟩ := itemBytes_known x hx
      have hu' : unknownOnlyLast rest = true := by
        cases rest with
        | nil => rfl
        | cons y r => simp only [unknownOnlyLast, Bool.and_eq_true] at hu; exact hu.2
      rw [List.flatMap_cons, e1] at hf ⊢
      simp only [List.cons_append, List.length_cons, List.length_append] at hf
      obtain ⟨k, rfl⟩ : ∃ k, fuel = k + 1 := ⟨fuel - 1, by omega⟩
      simp only [List.cons_append, divideItems, e2, List.length_append, e3]
      rw [if_neg (by omega), ← e3, List.drop_left, List.take_left, ih hw.2 hu' k (by omega), e4]
      rfl
    | false =>
      cases x with
      | unknown b value =>
        have hr : rest = [] := by
          cases rest with
          | nil => rfl
          | cons y r => simp [unknownOnlyLast, PlanItem.isKnown] at hu
        subst hr
        have hb : valueSize b = none := valueSize_unknown (by simpa [PlanItem.wf] using hw.1)
        simp only [List.flatMap_cons, List.flatMap_nil, List.append_nil, itemBytes, List.length_cons] at hf ⊢
        obtain ⟨k, rfl⟩ : ∃ k, fuel = k + 1 := ⟨fuel - 1, by omega⟩
        simp [divideItems, hb]
      | _ => cases hx

theorem items_length (items : List PlanItem) : (items.flatMap itemBytes).length = itemsSize items := by
  induction items with
  | nil => rfl
  | cons x rest ih =>
    rw [List.flatMap_cons, List.length_append, ih, itemBytes_length]
    simp [itemsSize]

end Sys2Proof.Machine

namespace Sys2Proof.Laws.RequestRoundTrip

open Sys2Proof.Machine

/-- The payload of a well-formed request fits a frame, and reads back as the request. -/
def Statement (i : Instr) : Prop :=
  ∀ p tag c payload, i.wf = true → requestParts i = some (p, tag, c, payload) →
    payload.length ≤ Config.payloadMax ∧ parseRequest p tag c payload = some i

/-! ## Rows that are no request -/

theorem deviceReset (a b : BitVec 4) (lines : ResetLines) : Statement (.deviceReset a b lines) := by
  intro p' t' c' pl' _ h; cases h

theorem referenceEdge : Statement (.referenceEdge) := by
  intro p' t' c' pl' _ h; cases h

theorem referenceAbsent : Statement (.referenceAbsent) := by
  intro p' t' c' pl' _ h; cases h

theorem referenceLock : Statement (.referenceLock) := by
  intro p' t' c' pl' _ h; cases h

theorem horizonStart : Statement (.horizonStart) := by
  intro p' t' c' pl' _ h; cases h

theorem horizonRefChange : Statement (.horizonRefChange) := by
  intro p' t' c' pl' _ h; cases h

theorem selectionStart (p : PortId) : Statement (.selectionStart p) := by
  intro p' t' c' pl' _ h; cases h

theorem selectionEnd (p : PortId) (bits : List Bool) : Statement (.selectionEnd p bits) := by
  intro p' t' c' pl' _ h; cases h

theorem preparationEnd (p : PortId) : Statement (.preparationEnd p) := by
  intro p' t' c' pl' _ h; cases h

theorem inputLevelChange (i : InputId) (src : Source) (level : Level) (f : WithinTick) :
    Statement (.inputLevelChange i src level f) := by
  intro p' t' c' pl' _ h; cases h

theorem windowEndQualification (i : InputId) : Statement (.windowEndQualification i) := by
  intro p' t' c' pl' _ h; cases h

theorem deadTimeEnd (i : InputId) : Statement (.deadTimeEnd i) := by
  intro p' t' c' pl' _ h; cases h

theorem calibrationHit (i : InputId) (f : WithinTick) : Statement (.calibrationHit i f) := by
  intro p' t' c' pl' _ h; cases h

theorem stampOffer (i : InputId) : Statement (.stampOffer i) := by
  intro p' t' c' pl' _ h; cases h

theorem immediateArmInstant (n : SlotId) : Statement (.immediateArmInstant n) := by
  intro p' t' c' pl' _ h; cases h

theorem atTimeArming (n : SlotId) : Statement (.atTimeArming n) := by
  intro p' t' c' pl' _ h; cases h

theorem gateClose (n : SlotId) : Statement (.gateClose n) := by
  intro p' t' c' pl' _ h; cases h

theorem deadlineExpiry (n : SlotId) : Statement (.deadlineExpiry n) := by
  intro p' t' c' pl' _ h; cases h

theorem totalizeGateOpen (n : SlotId) : Statement (.totalizeGateOpen n) := by
  intro p' t' c' pl' _ h; cases h

theorem totalizeGateClose (n : SlotId) : Statement (.totalizeGateClose n) := by
  intro p' t' c' pl' _ h; cases h

theorem serviceCompletion : Statement (.serviceCompletion) := by
  intro p' t' c' pl' _ h; cases h

/-! ## Requests of fixed payloads -/

theorem null (p : PortId) (tag : Byte) : Statement (.null p tag) := by
  intro p' t' c' pl' _ h; cases h; exact ⟨by simp [Config.payloadMax], rfl⟩

theorem portReset (p : PortId) (tag : Byte) : Statement (.portReset p tag) := by
  intro p' t' c' pl' _ h; cases h; exact ⟨by simp [Config.payloadMax], rfl⟩

theorem readAttention (p : PortId) (tag : Byte) : Statement (.readAttention p tag) := by
  intro p' t' c' pl' _ h; cases h; exact ⟨by simp [Config.payloadMax], rfl⟩

theorem setAttention (p : PortId) (tag op flags : Byte) : Statement (.setAttention p tag op flags) := by
  intro p' t' c' pl' _ h; cases h; exact ⟨by simp [Config.payloadMax], rfl⟩

theorem readTime (p : PortId) (tag : Byte) : Statement (.readTime p tag) := by
  intro p' t' c' pl' _ h; cases h; exact ⟨by simp [Config.payloadMax], rfl⟩

theorem readInput (p : PortId) (tag i : Byte) : Statement (.readInput p tag i) := by
  intro p' t' c' pl' _ h; cases h; exact ⟨by simp [Config.payloadMax], rfl⟩

theorem calibrate (p : PortId) (tag i : Byte) : Statement (.calibrate p tag i) := by
  intro p' t' c' pl' _ h; cases h; exact ⟨by simp [Config.payloadMax], rfl⟩

theorem readPlan (p : PortId) (tag n : Byte) : Statement (.readPlan p tag n) := by
  intro p' t' c' pl' _ h; cases h; exact ⟨by simp [Config.payloadMax], rfl⟩

theorem arm (p : PortId) (tag n : Byte) : Statement (.arm p tag n) := by
  intro p' t' c' pl' _ h; cases h; exact ⟨by simp [Config.payloadMax], rfl⟩

theorem stop (p : PortId) (tag n : Byte) : Statement (.stop p tag n) := by
  intro p' t' c' pl' _ h; cases h; exact ⟨by simp [Config.payloadMax], rfl⟩

theorem readResults (p : PortId) (tag k : Byte) : Statement (.readResults p tag k) := by
  intro p' t' c' pl' _ h; cases h; exact ⟨by simp [Config.payloadMax], rfl⟩

theorem latest (p : PortId) (tag n : Byte) : Statement (.latest p tag n) := by
  intro p' t' c' pl' _ h; cases h; exact ⟨by simp [Config.payloadMax], rfl⟩

theorem logStatus (p : PortId) (tag : Byte) : Statement (.logStatus p tag) := by
  intro p' t' c' pl' _ h; cases h; exact ⟨by simp [Config.payloadMax], rfl⟩

theorem resetMeasurement (p : PortId) (tag : Byte) : Statement (.resetMeasurement p tag) := by
  intro p' t' c' pl' _ h; cases h; exact ⟨by simp [Config.payloadMax], rfl⟩

/-! ## Requests with numbers, conditions or items -/

theorem parse_setTime (p : PortId) (tag : Byte) (g : Option Gen) (rest : List Byte) (h : rest.length = 8) :
    parseRequest p tag .setTime (conditionBytes g ++ rest) = some (.setTime p tag g (BitVec.ofNat 64 (natOfBytes rest))) := by
  show (match parseCondition (conditionBytes g ++ rest) with
    | some (g, rest) => if rest.length = 8 then some (Instr.setTime p tag g (BitVec.ofNat 64 (natOfBytes rest))) else none
    | none => none) = _
  rw [parseCondition_conditionBytes]
  exact if_pos h

theorem parse_stepTime (p : PortId) (tag : Byte) (g : Option Gen) (rest : List Byte) (h : rest.length = 8) :
    parseRequest p tag .stepTime (conditionBytes g ++ rest) = some (.stepTime p tag g (BitVec.ofNat 64 (natOfBytes rest))) := by
  show (match parseCondition (conditionBytes g ++ rest) with
    | some (g, rest) => if rest.length = 8 then some (Instr.stepTime p tag g (BitVec.ofNat 64 (natOfBytes rest))) else none
    | none => none) = _
  rw [parseCondition_conditionBytes]
  exact if_pos h

theorem parse_setInput (p : PortId) (tag i : Byte) (g : Option Gen) (src w1 w0 k1 k0 m : Byte) :
    parseRequest p tag .setInput (i :: (conditionBytes g ++ [src, w1, w0, k1, k0, m])) =
      some (.setInput p tag i g src (w1 ++ w0) (k1 ++ k0) m) := by
  show (match parseCondition (conditionBytes g ++ [src, w1, w0, k1, k0, m]) with
    | some (g, [src, w1, w0, k1, k0, mode]) => some (Instr.setInput p tag i g src (w1 ++ w0) (k1 ++ k0) mode)
    | _ => none) = _
  rw [parseCondition_conditionBytes]

theorem parse_writePlan (p : PortId) (tag n : Byte) (g : Option Gen) (rest : List Byte) :
    parseRequest p tag .writePlan (n :: (conditionBytes g ++ rest)) = (parseItems rest).map (.writePlan p tag n g ·) := by
  show (match parseCondition (conditionBytes g ++ rest) with
    | some (g, rest) => (parseItems rest).map (Instr.writePlan p tag n g ·)
    | none => none) = _
  rw [parseCondition_conditionBytes]

theorem parse_setLog (p : PortId) (tag : Byte) (g : Option Gen) (pol : Byte) :
    parseRequest p tag .setLog (conditionBytes g ++ [pol]) = some (.setLog p tag g pol) := by
  show (match parseCondition (conditionBytes g ++ [pol]) with
    | some (g, [policy]) => some (Instr.setLog p tag g policy)
    | _ => none) = _
  rw [parseCondition_conditionBytes]

theorem setTime (p : PortId) (tag : Byte) (g : Option Gen) (v : BitVec 64) : Statement (.setTime p tag g v) := by
  intro p' t' c' pl' _ h
  cases h
  have a := conditionBytes_length g
  constructor
  · show _ ≤ 250
    rw [List.length_append, bytesBE_length]
    omega
  · rw [parse_setTime _ _ _ _ (bytesBE_length 8 _), ofNat_bytesBE 8 v rfl]

theorem stepTime (p : PortId) (tag : Byte) (g : Option Gen) (v : BitVec 64) : Statement (.stepTime p tag g v) := by
  intro p' t' c' pl' _ h
  cases h
  have a := conditionBytes_length g
  constructor
  · show _ ≤ 250
    rw [List.length_append, bytesBE_length]
    omega
  · rw [parse_stepTime _ _ _ _ (bytesBE_length 8 _), ofNat_bytesBE 8 v rfl]

theorem setInput (p : PortId) (tag i : Byte) (g : Option Gen) (src : Byte) (w k : BitVec 16) (m : Byte) :
    Statement (.setInput p tag i g src w k m) := by
  intro p' t' c' pl' _ h
  cases h
  have a := conditionBytes_length g
  obtain ⟨w1, w0, ew, jw⟩ := bytesBE_two w
  obtain ⟨k1, k0, ek, jk⟩ := bytesBE_two k
  rw [ew, ek]
  constructor
  · show _ ≤ 250
    simp only [List.length_cons, List.length_append, List.length_nil]
    omega
  · simp only [List.cons_append, List.nil_append]
    rw [parse_setInput, jw, jk]

theorem writePlan (p : PortId) (tag n : Byte) (g : Option Gen) (items : List PlanItem) :
    Statement (.writePlan p tag n g items) := by
  intro p' t' c' pl' hw h
  cases h
  simp only [Instr.wf, Bool.and_eq_true, decide_eq_true_iff] at hw
  refine ⟨?_, ?_⟩
  · have e : (n :: (conditionBytes g ++ items.flatMap itemBytes)).length = writePlanHead g + itemsSize items := by
      rw [List.length_cons, List.length_append, items_length]
      cases g <;> simp [conditionBytes, writePlanHead] <;> omega
    rw [e]
    exact hw.2
  · rw [parse_writePlan, parseItems, divideItems_itemBytes items hw.1.1 hw.1.2 _ (le_refl _)]
    rfl

theorem subscribe (p : PortId) (tag : Byte) (slots : BitVec 16) (op start : Byte) (t : Option (BitVec 16)) :
    Statement (.subscribe p tag slots op start t) := by
  intro p' t' c' pl' _ h
  cases h
  obtain ⟨m1, m0, em, jm⟩ := bytesBE_two slots
  rw [em, ← jm]
  cases t with
  | none => exact ⟨by simp [Config.payloadMax], rfl⟩
  | some v =>
    obtain ⟨v1, v0, ev, jv⟩ := bytesBE_two v
    rw [Option.elim_some, ev, ← jv]
    exact ⟨by simp [Config.payloadMax], rfl⟩

theorem setLog (p : PortId) (tag : Byte) (g : Option Gen) (pol : Byte) : Statement (.setLog p tag g pol) := by
  intro p' t' c' pl' _ h
  cases h
  have a := conditionBytes_length g
  constructor
  · show _ ≤ 250
    rw [List.length_append]
    simp only [List.length_cons, List.length_nil]
    omega
  · exact parse_setLog p tag g pol

end Sys2Proof.Laws.RequestRoundTrip
end

