-- ==== Sys2Proof/Laws/Schedule.lean ====
section
/-! SUPPORT. What the part does by itself: the event it takes is one that is due, and it takes one whenever one is. -/

namespace Sys2Proof.Machine

theorem firstDue_some {α : Type} {xs : List α} {due : α → Bool} {row : α → Instr} {c : Instr}
    (h : firstDue xs due row = some c) : ∃ a ∈ xs, due a = true ∧ c = row a := by
  unfold firstDue at h
  obtain ⟨a, ha, rfl⟩ := Option.map_eq_some_iff.1 h
  exact ⟨a, List.mem_of_find?_eq_some ha, List.find?_some ha, rfl⟩

theorem firstDue_none {α : Type} {xs : List α} {due : α → Bool} {row : α → Instr} (h : firstDue xs due row = none) :
    ∀ a ∈ xs, due a = false := by
  unfold firstDue at h
  rw [Option.map_eq_none_iff, List.find?_eq_none] at h
  intro a ha
  simpa using h a ha

theorem State.reached_iff_Reached (s : State) (t : Tick) : s.reached t = true ↔ s.Reached t := s.reached_iff t

theorem testLevel_eq (c : Coarse) : testLevel c = if c.toNat % 128 < 64 then .high else .low := by
  unfold testLevel
  have h : c.getLsbD 6 = true ↔ ¬c.toNat % 128 < 64 := by
    rw [BitVec.getLsbD, Nat.testBit_eq_decide_div_mod_eq]
    simp only [decide_eq_true_eq]
    omega
  by_cases g : c.toNat % 128 < 64
  · rw [if_pos g, if_neg (fun e => h.1 e g)]
  · rw [if_neg g, if_pos (h.2 g)]

/-! ## Each event's condition, as the spec states it -/

theorem State.due_iff_horizonStart (s : State) : s.horizonStartDue = true ↔ s.Due .horizonStart := by
  simp [State.horizonStartDue, State.Due, Config.horizonDelay]

theorem State.due_iff_referenceAbsent (s : State) : s.absenceDue = true ↔ s.Due .referenceAbsent := by
  unfold State.absenceDue
  rw [Bool.and_eq_true, decide_eq_true_iff]
  rfl

theorem State.due_iff_referenceLock (s : State) : s.lockDue = true ↔ s.Due .referenceLock := by
  unfold State.lockDue
  rw [Bool.and_eq_true, Bool.and_eq_true, decide_eq_true_iff, decide_eq_true_iff, and_assoc]
  rfl

theorem State.due_iff_horizonRefChange (s : State) :
    (s.refChanges.head?.any fun c => s.reached c.changeTime) = true ↔ s.Due .horizonRefChange := by
  simp only [State.Due]
  cases s.refChanges.head? <;> simp [State.reached_iff_Reached]

theorem State.due_iff_windowEnd (s : State) (i : InputId) : s.windowDue i = true ↔ s.Due (.windowEndQualification i) := by
  simp only [State.windowDue, State.Due]
  cases (s.input i).candidate <;> simp [atOrBefore]

theorem State.due_iff_deadTimeEnd (s : State) (i : InputId) : s.deadTimeDue i = true ↔ s.Due (.deadTimeEnd i) := by
  simp only [State.deadTimeDue, State.inDeadTime, State.Due]
  cases (s.input i).blockedUntil <;> simp [coarseAtOrBefore]

theorem State.due_iff_testEdge (s : State) (i : InputId) :
    s.testEdgeDue i = true ↔ s.Due (.inputLevelChange i .test (testLevel s.coarse) 0) := by
  simp [State.testEdgeDue, State.Due, testLevel_eq]

theorem State.due_iff_totalizeGateOpen (s : State) (n : SlotId) :
    (s.gateOpenDue n).isSome = true ↔ s.Due (.totalizeGateOpen n) := by
  simp only [State.gateOpenDue, State.Due]
  cases (s.slot n).data.gateOpen <;> simp [← State.reached_iff_Reached, and_assoc]

theorem State.due_iff_totalizeGateClose (s : State) (n : SlotId) :
    s.totalizeCloseDue n = true ↔ s.Due (.totalizeGateClose n) := by
  simp [State.totalizeCloseDue, State.Due, State.reached_iff_Reached, and_assoc]

theorem State.due_iff_immediate (s : State) (n : SlotId) :
    (s.immediateDue n).isSome = true ↔ s.Due (.immediateArmInstant n) := by
  simp only [State.immediateDue, State.Due, Slot.awaitsArming]
  cases (s.slot n).data.armInstant <;> simp [← State.reached_iff_Reached, and_assoc]

theorem State.due_iff_atTime (s : State) (n : SlotId) : s.atTimeDue n = true ↔ s.Due (.atTimeArming n) := by
  simp [State.atTimeDue, State.Due, Slot.awaitsArming, atOrBefore, and_assoc]

theorem State.due_iff_gateClose (s : State) (n : SlotId) : s.gateCloseDue n = true ↔ s.Due (.gateClose n) := by
  simp [State.gateCloseDue, State.Due, State.reached_iff_Reached, and_assoc]

theorem State.due_iff_stampOffer (s : State) (i : InputId) : (s.dueStamp i).isSome = true ↔ s.Due (.stampOffer i) := by
  simp [State.Due, Option.isSome_iff_exists]

theorem State.due_iff_deadline (s : State) (n : SlotId) : s.deadlineDue n = true ↔ s.Due (.deadlineExpiry n) := by
  simp [State.deadlineDue, State.Due, ← State.reached_iff_Reached, and_assoc]

theorem State.due_iff_service (s : State) : s.serviceDue = true ↔ s.Due .serviceCompletion := by
  simp only [State.serviceDue, State.Due]
  cases s.unit.service <;> simp [atOrBefore, Config.serviceBound]

theorem State.due_iff_preparation (s : State) (p : PortId) : s.preparationDue p = true ↔ s.Due (.preparationEnd p) := by
  simp [State.preparationDue, State.Due, Port.preparationCanEnd, atOrBefore, Config.preparationBound, and_assoc,
    Option.isSome_iff_ne_none]

theorem State.arrivalDue_iff (s : State) (p : PortId) : s.arrivalDue p = true ↔ s.Arrived p := by
  simp only [State.arrivalDue, State.Arrived]
  cases (s.port p).arriving <;> simp [coarseAtOrBefore]

/-! ## The event that is due -/

theorem ifDue_some {b : Bool} {c d : Instr} (h : (if b then some d else none) = some c) : b = true ∧ c = d := by
  split at h
  · next e => cases h; exact ⟨e, rfl⟩
  · cases h

theorem ifDue_none {b : Bool} {d : Instr} (h : (if b then some d else none) = none) : b = false := by
  split at h
  · cases h
  · next e => simpa using e

theorem orElse_some {a b : Option Instr} {c : Instr} (h : (a <|> b) = some c) : a = some c ∨ b = some c := by
  cases a
  · exact .inr h
  · exact .inl h

theorem orElse_none {a b : Option Instr} (h : (a <|> b) = none) : a = none ∧ b = none := by
  cases a
  · exact ⟨rfl, h⟩
  · cases h

/-- The event the part takes is due. -/
theorem State.dueEvent_due {s : State} {c : Instr} (h : s.dueEvent = some c) : s.Due c := by
  unfold State.dueEvent at h
  rcases orElse_some h with h | h
  · obtain ⟨e, rfl⟩ := ifDue_some h; exact s.due_iff_horizonStart.1 e
  rcases orElse_some h with h | h
  · obtain ⟨e, rfl⟩ := ifDue_some h; exact s.due_iff_referenceAbsent.1 e
  rcases orElse_some h with h | h
  · obtain ⟨e, rfl⟩ := ifDue_some h; exact s.due_iff_referenceLock.1 e
  rcases orElse_some h with h | h
  · obtain ⟨e, rfl⟩ := ifDue_some h; exact s.due_iff_horizonRefChange.1 e
  rcases orElse_some h with h | h
  · obtain ⟨i, _, e, rfl⟩ := firstDue_some h; exact (s.due_iff_windowEnd i).1 e
  rcases orElse_some h with h | h
  · obtain ⟨i, _, e, rfl⟩ := firstDue_some h; exact (s.due_iff_deadTimeEnd i).1 e
  rcases orElse_some h with h | h
  · obtain ⟨i, _, e, rfl⟩ := firstDue_some h; exact (s.due_iff_testEdge i).1 e
  rcases orElse_some h with h | h
  · obtain ⟨n, _, e, rfl⟩ := firstDue_some h; exact (s.due_iff_totalizeGateOpen n).1 e
  rcases orElse_some h with h | h
  · obtain ⟨n, _, e, rfl⟩ := firstDue_some h; exact (s.due_iff_totalizeGateClose n).1 e
  rcases orElse_some h with h | h
  · obtain ⟨n, _, e, rfl⟩ := firstDue_some h; exact (s.due_iff_immediate n).1 e
  rcases orElse_some h with h | h
  · obtain ⟨n, _, e, rfl⟩ := firstDue_some h; exact (s.due_iff_atTime n).1 e
  rcases orElse_some h with h | h
  · obtain ⟨n, _, e, rfl⟩ := firstDue_some h; exact (s.due_iff_gateClose n).1 e
  rcases orElse_some h with h | h
  · obtain ⟨i, _, e, rfl⟩ := firstDue_some h; exact (s.due_iff_stampOffer i).1 e
  rcases orElse_some h with h | h
  · obtain ⟨n, _, e, rfl⟩ := firstDue_some h; exact (s.due_iff_deadline n).1 e
  rcases orElse_some h with h | h
  · obtain ⟨e, rfl⟩ := ifDue_some h; exact s.due_iff_service.1 e
  · obtain ⟨p, _, e, rfl⟩ := firstDue_some h; exact (s.due_iff_preparation p).1 e

/-- Where the part takes no event, none is due. -/
theorem State.dueEvent_none {s : State} (h : s.dueEvent = none) : ∀ c, ¬s.Due c := by
  unfold State.dueEvent at h
  obtain ⟨h1, h⟩ := orElse_none h
  obtain ⟨h2, h⟩ := orElse_none h
  obtain ⟨h3, h⟩ := orElse_none h
  obtain ⟨h4, h⟩ := orElse_none h
  obtain ⟨h5, h⟩ := orElse_none h
  obtain ⟨h6, h⟩ := orElse_none h
  obtain ⟨h7, h⟩ := orElse_none h
  obtain ⟨h8, h⟩ := orElse_none h
  obtain ⟨h9, h⟩ := orElse_none h
  obtain ⟨h10, h⟩ := orElse_none h
  obtain ⟨h11, h⟩ := orElse_none h
  obtain ⟨h12, h⟩ := orElse_none h
  obtain ⟨h13, h⟩ := orElse_none h
  obtain ⟨h14, h⟩ := orElse_none h
  obtain ⟨h15, h16⟩ := orElse_none h
  have off : ∀ {b : Bool} {P : Prop}, b = false → (b = true ↔ P) → ¬P := by
    intro b P e k p; rw [k.2 p] at e; cases e
  intro c d
  cases c with
  | horizonStart => exact off (ifDue_none h1) s.due_iff_horizonStart d
  | referenceAbsent => exact off (ifDue_none h2) s.due_iff_referenceAbsent d
  | referenceLock => exact off (ifDue_none h3) s.due_iff_referenceLock d
  | horizonRefChange => exact off (ifDue_none h4) s.due_iff_horizonRefChange d
  | windowEndQualification i => exact off (firstDue_none h5 i (List.mem_finRange i)) (s.due_iff_windowEnd i) d
  | deadTimeEnd i => exact off (firstDue_none h6 i (List.mem_finRange i)) (s.due_iff_deadTimeEnd i) d
  | inputLevelChange i src level within =>
    obtain ⟨rfl, rfl, _, e, _⟩ := id d
    rw [← testLevel_eq] at e
    subst e
    exact off (firstDue_none h7 i (List.mem_finRange i)) (s.due_iff_testEdge i) d
  | totalizeGateOpen n => exact off (firstDue_none h8 n (List.mem_finRange n)) (s.due_iff_totalizeGateOpen n) d
  | totalizeGateClose n => exact off (firstDue_none h9 n (List.mem_finRange n)) (s.due_iff_totalizeGateClose n) d
  | immediateArmInstant n => exact off (firstDue_none h10 n (List.mem_finRange n)) (s.due_iff_immediate n) d
  | atTimeArming n => exact off (firstDue_none h11 n (List.mem_finRange n)) (s.due_iff_atTime n) d
  | gateClose n => exact off (firstDue_none h12 n (List.mem_finRange n)) (s.due_iff_gateClose n) d
  | stampOffer i => exact off (firstDue_none h13 i (List.mem_finRange i)) (s.due_iff_stampOffer i) d
  | deadlineExpiry n => exact off (firstDue_none h14 n (List.mem_finRange n)) (s.due_iff_deadline n) d
  | serviceCompletion => exact off (ifDue_none h15) s.due_iff_service d
  | preparationEnd p => exact off (firstDue_none h16 p (List.mem_finRange p)) (s.due_iff_preparation p) d
  | _ => exact d

end Sys2Proof.Machine
end

