-- ==== Sys2Proof/Laws/Settle.lean ====
section
/-! SUPPORT. What the end of an engine event makes of one slot: nothing when no stamp of the instant waits, and what the
slot itself makes of the one stamp of the instant when one does. -/

namespace Sys2Proof.Machine

/-! ## What an engine step leaves of the times -/

theorem EngineFrame.horizonTime {s t : State} (h : EngineFrame s t) : t.horizonTime = s.horizonTime := by
  rw [h.rest]; rfl

theorem EngineFrame.rawTime {s t : State} (h : EngineFrame s t) : t.rawTime = s.rawTime := by
  rw [h.rest]; rfl

theorem EngineFrame.horizonLocked {s t : State} (h : EngineFrame s t) : t.horizonLocked = s.horizonLocked := by
  rw [h.rest]; rfl

/-! ## Quiet states -/

/-- With no finish of this instant remembered, none arms the slot. -/
theorem Slot.seenFinish_none {x : Slot} {h : Tick} (q : ∀ e ∈ x.finishes, e.at' ≠ h) : x.seenFinish h = none := by
  unfold Slot.seenFinish
  split
  · rw [List.find?_eq_none]
    intro e he
    simp [q e he]
  · rfl

theorem Slot.judgeInstant_quiet {x : Slot} (n : SlotId) (h : Tick) (l : Bool)
    (q : (∀ f ∈ x.fresh, f.offeredAt ≠ h) ∧ ∀ e ∈ x.finishes, e.at' ≠ h) : x.judgeInstant n h l = none := by
  have e : (x.fresh.filter fun f => decide (f.offeredAt = h)) = [] := by
    rw [List.filter_eq_nil_iff]
    intro f hf
    simp [q.1 f hf]
  unfold Slot.judgeInstant
  rw [Slot.seenFinish_none q.2]
  dsimp only
  rw [e]
  rfl

theorem State.judgeSlot_none {s : State} {n : SlotId}
    (h : (s.slot n).judgeInstant n s.horizonTime s.horizonLocked = none) (fuel : Nat) : State.judgeSlot fuel n s = s := by
  cases fuel with
  | zero => rfl
  | succ k => unfold State.judgeSlot; rw [h]

/-- With no stamp of this instant at any slot, nothing is left to judge. -/
theorem State.settle_quiet {s : State} (q : s.Quiet) : s.settle = s := by
  unfold State.settle
  generalize allSlots = l
  induction l with
  | nil => rfl
  | cons n rest ih =>
    rw [List.foldl_cons, State.judgeSlot_none (Slot.judgeInstant_quiet n _ _ (q n)), ih]

theorem State.conclude_quiet {s : State} (q : s.Quiet) : s.conclude = s.grant := by
  unfold State.conclude; rw [State.settle_quiet q]

/-- A quiet state stays quiet when one slot is replaced by one with no more stamps and no more finishes. -/
theorem State.Quiet.setSlot {s : State} (q : s.Quiet) (n : SlotId) (x : Slot) (hx : ∀ f ∈ x.fresh, f ∈ (s.slot n).fresh)
    (he : ∀ e ∈ x.finishes, e ∈ (s.slot n).finishes) : (s.setSlot n x).Quiet := by
  intro m
  rw [State.slot_setSlot]
  split
  · exact ⟨fun f hf => (q n).1 f (hx f hf), fun e h => (q n).2 e (he e h)⟩
  · exact q m

/-! ## The grant, and an outcome that meets it -/

/-- While the unit serves an entry it did not take at this instant, there is no grant. -/
theorem State.grant_serving {s : State} {v : Service} (h : s.unit.service = some v) (ht : v.takenAt ≠ s.rawTime) :
    s.grant = s := by
  have a : s.withdrawGrant = s := by
    unfold State.withdrawGrant
    rw [h]
    dsimp only
    rw [if_neg]
    exact fun e => ht e.1
  unfold State.grant
  rw [a]
  unfold State.arbitrate
  rw [h]

/-- An outcome that the state left by the event has placed, and that the grant then sees, is formed: what the grant makes of
it while the unit serves an earlier entry is that nothing changes, and while it is FREE, what round robin gives. -/
theorem State.OutcomeFormed.of_left {s t left : State} {n : SlotId} {o : Outcome} (hu : left.unit = s.unit)
    (hr : left.rawTime = s.rawTime) (hp : (s.slot n).Placed (left.slot n) o) (hs : t.slots = left.grant.slots)
    (ht : t.unit = left.grant.unit) (hg : s.unit.service = none → s.GrantsNext left.grant left.slot) :
    s.OutcomeFormed t n o := by
  refine ⟨left, hu, hr, hp, hs, ht, fun v hv hn => ?_, fun hf => ?_⟩
  · rw [State.grant_serving (hu ▸ hv) (hr ▸ hn)] at hs ht
    exact ⟨hs, ht.trans hu⟩
  · have e : t.slot = left.grant.slot := by funext m; unfold State.slot; rw [hs]
    have h := hg hf
    unfold State.GrantsNext at h ⊢
    rw [e, ht]
    exact h

/-! ## Other slots and one slot -/

/-- Whether a slot has no part in the finishes of slot n: it is not under SLOT_DONE, or names another arm slot. -/
def Slot.ApartFrom (x : Slot) (n : SlotId) : Prop := ¬(x.plan.armSource = .slotDone ∧ x.plan.armSlot = n)

theorem State.armDependents_apart (s : State) (n m : SlotId) (t : Tick) (c : Option Stamp)
    (h : (s.slot m).ApartFrom n) : (s.armDependents n t c).slot m = s.slot m := by
  unfold State.armDependents
  rw [State.slot_mapSlots]
  exact if_neg h

/-- Of a slot that does not wait under SLOT_DONE, a finish changes at most the finishes it remembers. -/
theorem State.armDependents_slot (s : State) (n m : SlotId) (t : Tick) (c : Option Stamp)
    (h : (s.slot m).awaitsArming .slotDone = false) :
    ∃ l, (s.armDependents n t c).slot m = { s.slot m with finishes := l } := by
  unfold State.armDependents
  rw [State.slot_mapSlots]
  split
  · unfold Slot.seeFinish
    rw [h]
    split
    · exact ⟨_, rfl⟩
    · split
      · contradiction
      · split <;> exact ⟨_, rfl⟩
  · exact ⟨_, rfl⟩

/-- What holds of the part after a finish is announced, when it holds before, whatever DONE flags rise, and whatever the
dependents see of the finish. -/
theorem State.announce_induct {P : State → Prop} (s : State) (n : SlotId) (e : Finish)
    (hs : ∀ u : State, u.slots = s.slots → P u)
    (hd : ∀ (u : State) (t : Tick), u.slots = s.slots → P (u.armDependents n t e.cause)) : P (s.announce n e) := by
  unfold State.announce
  have a : (if e.single then s.raiseSubscribed .done n else s).slots = s.slots := by split <;> rfl
  dsimp only
  split
  · exact hs _ a
  · exact hd _ _ a

theorem State.slot_of_slots {s u : State} (h : u.slots = s.slots) (m : SlotId) : u.slot m = s.slot m := by
  rw [State.slot_eq, State.slot_eq, h]

theorem State.announce_apart (s : State) (n m : SlotId) (e : Finish) (h : (s.slot m).ApartFrom n) :
    (s.announce n e).slot m = s.slot m := by
  refine State.announce_induct (P := fun u => u.slot m = s.slot m) s n e (fun u a => State.slot_of_slots a m) ?_
  intro u t a
  have b := State.slot_of_slots a m
  rw [State.armDependents_apart _ _ _ _ _ (by rw [b]; exact h), b]

theorem State.announce_slot (s : State) (n m : SlotId) (e : Finish) (h : (s.slot m).awaitsArming .slotDone = false) :
    ∃ l, (s.announce n e).slot m = { s.slot m with finishes := l } := by
  refine State.announce_induct (P := fun u => ∃ l, u.slot m = { s.slot m with finishes := l }) s n e
    (fun u a => ⟨_, State.slot_of_slots a m⟩) ?_
  intro u t a
  have b := State.slot_of_slots a m
  obtain ⟨l, hl⟩ := State.armDependents_slot u n m t e.cause (by rw [b]; exact h)
  exact ⟨l, by rw [hl, b]⟩

/-- Judging one slot leaves every other slot that has no part in its finishes. -/
theorem State.judgeSlot_apart (fuel : Nat) (n m : SlotId) (s : State) (hn : n ≠ m) (h : (s.slot m).ApartFrom n) :
    (State.judgeSlot fuel n s).slot m = s.slot m := by
  induction fuel generalizing s with
  | zero => rfl
  | succ k ih =>
    have a : ∀ x, (s.setSlot n x).slot m = s.slot m := fun x => by rw [State.slot_setSlot, if_neg hn]
    unfold State.judgeSlot
    split
    · rfl
    · rw [ih _ (by rw [a]; exact h), a]
    · next x e _ =>
      have b := State.announce_apart (s.setSlot n x) n m e (by rw [a]; exact h)
      rw [ih _ (by rw [b, a]; exact h), b, a]

/-- Judging one slot changes, of another that does not wait under SLOT_DONE, at most the finishes it remembers. -/
theorem State.judgeSlot_other (fuel : Nat) (n m : SlotId) (s : State) (hn : n ≠ m)
    (h : (s.slot m).awaitsArming .slotDone = false) :
    ∃ l, (State.judgeSlot fuel n s).slot m = { s.slot m with finishes := l } := by
  induction fuel generalizing s with
  | zero => exact ⟨_, rfl⟩
  | succ k ih =>
    have a : ∀ x, (s.setSlot n x).slot m = s.slot m := fun x => by rw [State.slot_setSlot, if_neg hn]
    unfold State.judgeSlot
    split
    · exact ⟨_, rfl⟩
    · next x _ =>
      obtain ⟨l, hl⟩ := ih (s.setSlot n x) (by rw [a]; exact h)
      exact ⟨l, by rw [hl, a]⟩
    · next x e _ =>
      obtain ⟨l, hl⟩ := State.announce_slot (s.setSlot n x) n m e (by rw [a]; exact h)
      rw [a] at hl
      obtain ⟨l', hl'⟩ := ih ((s.setSlot n x).announce n e) (by rw [hl]; exact h)
      exact ⟨l', by rw [hl', hl]⟩

/-! ## What a slot makes of a stamp does not depend on the finishes it remembers -/

/-- A slot that differs from another at most in the finishes it remembers. -/
def UpToFinishes (x y : Slot) : Prop := ∃ l, y = { x with finishes := l }

theorem UpToFinishes.refl (x : Slot) : UpToFinishes x x := ⟨_, rfl⟩

theorem UpToFinishes.trans {x y z : Slot} (h : UpToFinishes x y) (k : UpToFinishes y z) : UpToFinishes x z := by
  obtain ⟨l, rfl⟩ := h
  obtain ⟨m, rfl⟩ := k
  exact ⟨m, rfl⟩

theorem UpToFinishes.withData {x y : Slot} (h : UpToFinishes x y) (d : MeasData) :
    UpToFinishes { x with data := d } { y with data := d } := by
  obtain ⟨l, rfl⟩ := h
  exact ⟨l, rfl⟩

theorem UpToFinishes.begin {x y : Slot} (h : UpToFinishes x y) (a : Tick) (b c : Bool) :
    UpToFinishes (x.begin a b c) (y.begin a b c) := by
  obtain ⟨l, rfl⟩ := h
  refine ⟨l, ?_⟩
  unfold Slot.begin
  dsimp only
  split <;> rfl

theorem UpToFinishes.place {x y : Slot} (h : UpToFinishes x y) (o : Outcome) : UpToFinishes (x.place o) (y.place o) := by
  obtain ⟨l, rfl⟩ := h
  refine ⟨l, ?_⟩
  unfold Slot.place
  dsimp only
  split <;> rfl

theorem UpToFinishes.rearm {x y : Slot} (h : UpToFinishes x y) (t : Tick) (k : Bool) :
    UpToFinishes (x.rearm t k) (y.rearm t k) := by
  obtain ⟨l, rfl⟩ := h
  unfold Slot.rearm
  dsimp only
  split
  · exact UpToFinishes.begin ⟨l, rfl⟩ _ _ _
  · exact ⟨l, rfl⟩

theorem UpToFinishes.afterFinish {x y c d : Slot} (h : UpToFinishes x y) (g : UpToFinishes c d) (t : Tick) (k : Bool) :
    UpToFinishes (x.afterFinish t k c) (y.afterFinish t k d) := by
  have r := h.rearm t k
  obtain ⟨l, rfl⟩ := h
  unfold Slot.afterFinish
  dsimp only
  split
  · exact ⟨[], rfl⟩
  · exact r
  · exact g

theorem UpToFinishes.takeStart {x y : Slot} (h : UpToFinishes x y) (f : Offered) :
    UpToFinishes (x.takeStart f) (y.takeStart f) := by
  obtain ⟨l, rfl⟩ := h
  refine ⟨l, ?_⟩
  unfold Slot.takeStart
  dsimp only
  split
  · split <;> rfl
  · rfl

theorem UpToFinishes.takeStop {x y : Slot} (h : UpToFinishes x y) (n : SlotId) (t : Tick) (k : Bool) (f : Offered) :
    UpToFinishes (x.takeStop n t k f).1 (y.takeStop n t k f).1 ∧ (y.takeStop n t k f).2 = (x.takeStop n t k f).2 := by
  obtain ⟨l, rfl⟩ := h
  refine ⟨?_, rfl⟩
  have p : ∀ o, UpToFinishes ((x.finishedBy f).place o) (({ x with finishes := l }.finishedBy f).place o) := fun o =>
    UpToFinishes.place ⟨_, rfl⟩ o
  unfold Slot.takeStop
  dsimp only
  refine (p _).afterFinish ?_ _ _
  obtain ⟨m, hm⟩ := p (x.outcome n k .valued { x.crossedMarks f.steps with
    calChanged := x.data.marks.calChanged || calibrationChanged x.data.start f.st } false x.data.start
    (some f.endpoint) none)
  split
  · exact ⟨m, congrArg (fun z => z.nextReciprocal f k) hm⟩
  · exact ⟨m, congrArg (fun z => z.nextInterval f.st.corrected true k) hm⟩

theorem UpToFinishes.takeTag {x y : Slot} (h : UpToFinishes x y) (n : SlotId) (t : Tick) (k : Bool) (f : Offered) :
    UpToFinishes (x.takeTag n t k f).1 (y.takeTag n t k f).1 ∧ (y.takeTag n t k f).2 = (x.takeTag n t k f).2 := by
  obtain ⟨l, rfl⟩ := h
  have p : ∀ o, UpToFinishes ((x.finishedBy f).place o) (({ x with finishes := l }.finishedBy f).place o) := fun o =>
    UpToFinishes.place ⟨_, rfl⟩ o
  unfold Slot.takeTag
  dsimp only
  split
  · exact ⟨(p _).afterFinish (p _) _ _, rfl⟩
  · exact ⟨(p _).withData _, rfl⟩

/-- Two slots that differ at most in the finishes they remember make the same of a stamp, up to those. -/
theorem UpToFinishes.judgeStamp {x y : Slot} (h : UpToFinishes x y) (n : SlotId) (t : Tick) (k : Bool) (f : Offered) :
    (x.judgeStamp n t k f = none → y.judgeStamp n t k f = none)
    ∧ ∀ r, x.judgeStamp n t k f = some r → ∃ z, y.judgeStamp n t k f = some (z, r.2) ∧ UpToFinishes r.1 z := by
  have hb := h.begin f.st.corrected false k
  have hs := h.takeStart f
  have ht := h.takeStop n t k f
  have hg := h.takeTag n t k f
  have facts : y.state = x.state ∧ y.plan = x.plan ∧ y.meetsArm f = x.meetsArm f ∧ y.meetsStart f = x.meetsStart f
      ∧ y.meetsStop f = x.meetsStop f ∧ y.meetsTag f = x.meetsTag f := by
    obtain ⟨l, rfl⟩ := h
    exact ⟨rfl, rfl, rfl, rfl, rfl, rfl⟩
  obtain ⟨e1, e2, e3, e4, e5, e6⟩ := facts
  have c : ∀ (b : Bool) (x' y' : Slot) (e e' : Option Finish), UpToFinishes x' y' → e' = e →
      ((if b then some (x', e) else none) = none → (if b then some (y', e') else none) = none)
      ∧ ∀ r, (if b then some (x', e) else none) = some r →
        ∃ z, (if b then some (y', e') else none) = some (z, r.2) ∧ UpToFinishes r.1 z := by
    intro b x' y' e e' hu he
    cases b
    · exact ⟨fun _ => rfl, fun r hr => by cases hr⟩
    · refine ⟨fun hr => (by cases hr), fun r hr => ⟨y', ?_, ?_⟩⟩
      · cases hr; subst he; rfl
      · cases hr; exact hu
  unfold Slot.judgeStamp
  rw [e1, e2, e3, e4, e5, e6]
  cases x.state
  · exact ⟨fun _ => rfl, fun r hr => by cases hr⟩
  · exact c _ _ _ _ _ hb rfl
  · exact c _ _ _ _ _ hs rfl
  · exact c _ _ _ _ _ ht.1 (congrArg some ht.2)
  · exact c _ _ _ _ _ ht.1 (congrArg some ht.2)
  · exact c _ _ _ _ _ hg.1 (congrArg some hg.2)

/-- The same of an instant, for slots that do not wait under SLOT_DONE. -/
theorem UpToFinishes.judgeInstant {x y : Slot} (h : UpToFinishes x y) (w : x.awaitsArming .slotDone = false)
    (n : SlotId) (t : Tick) (k : Bool) :
    (x.judgeInstant n t k = none → y.judgeInstant n t k = none)
    ∧ ∀ r, x.judgeInstant n t k = some r → ∃ z, y.judgeInstant n t k = some (z, r.2) ∧ UpToFinishes r.1 z := by
  have sn : ∀ z : Slot, z.awaitsArming .slotDone = false → z.seenFinish t = none := by
    intro z hz; unfold Slot.seenFinish; rw [hz]; rfl
  have wy : y.awaitsArming .slotDone = false := by obtain ⟨l, rfl⟩ := h; exact w
  have hf : y.fresh = x.fresh := by obtain ⟨l, rfl⟩ := h; rfl
  unfold Slot.judgeInstant
  rw [sn x w, sn y wy, hf]
  dsimp only
  generalize (x.fresh.filter fun f => decide (f.offeredAt = t)) = fs
  induction fs with
  | nil => exact ⟨fun _ => rfl, fun r hr => by cases hr⟩
  | cons f rest ih =>
    have j := h.judgeStamp n t k f
    rw [List.findSome?_cons, List.findSome?_cons]
    cases hx : x.judgeStamp n t k f with
    | none =>
      rw [j.1 hx]
      exact ih
    | some r =>
      obtain ⟨z, hz, hu⟩ := j.2 r hx
      rw [hz]
      exact ⟨fun a => (by cases a), fun r' a => ⟨z, by cases a; rfl, by cases a; exact hu⟩⟩

/-- The announcement of what a slot made of a stamp, when that was a finish. -/
def State.announced (s : State) (n : SlotId) : Option Finish → State
  | none => s
  | some e => s.announce n e

theorem State.announced_engine (s : State) (n : SlotId) (e : Option Finish) : EngineFrame s (s.announced n e) := by
  cases e with
  | none => exact .refl _
  | some e => exact State.announce_engine _ _ _

theorem State.announced_slot (s : State) (n m : SlotId) (e : Option Finish)
    (h : (s.slot m).awaitsArming .slotDone = false) : UpToFinishes (s.slot m) ((s.announced n e).slot m) := by
  cases e with
  | none => exact .refl _
  | some e => exact State.announce_slot _ _ _ _ h

theorem State.judgeSlot_some {s : State} {n : SlotId} {y : Slot} {e : Option Finish} (k : Nat)
    (h : (s.slot n).judgeInstant n s.horizonTime s.horizonLocked = some (y, e)) :
    State.judgeSlot (k + 1) n s = State.judgeSlot k n ((s.setSlot n y).announced n e) := by
  conv => lhs; unfold State.judgeSlot
  rw [h]
  cases e <;> rfl

/-- The slots of a list judged in turn, as settle does. -/
def State.judgeAll (l : List SlotId) (s : State) : State :=
  l.foldl (fun s n => State.judgeSlot (s.slot n).judgeFuel n s) s

theorem State.settle_eq (s : State) : s.settle = State.judgeAll allSlots s := rfl

theorem State.judgeAll_engine (l : List SlotId) (s : State) : EngineFrame s (State.judgeAll l s) := by
  induction l generalizing s with
  | nil => exact .refl _
  | cons n rest ih => exact (State.judgeSlot_engine _ _ _).trans (ih _)

theorem State.judgeAll_apart (l : List SlotId) (m : SlotId) (s : State) (hm : m ∉ l)
    (h : ∀ n ∈ l, (s.slot m).ApartFrom n) : (State.judgeAll l s).slot m = s.slot m := by
  induction l generalizing s with
  | nil => rfl
  | cons n rest ih =>
    have hn : n ≠ m := fun e => hm (e ▸ List.mem_cons_self)
    have a := State.judgeSlot_apart (s.slot n).judgeFuel n m s hn (h n List.mem_cons_self)
    show (State.judgeAll rest _).slot m = _
    rw [ih _ (fun e => hm (List.mem_cons_of_mem _ e)) (by rw [a]; exact fun k hk => h k (List.mem_cons_of_mem _ hk)), a]

theorem State.judgeAll_other (l : List SlotId) (m : SlotId) (s : State) (hm : m ∉ l)
    (h : (s.slot m).awaitsArming .slotDone = false) : UpToFinishes (s.slot m) ((State.judgeAll l s).slot m) := by
  induction l generalizing s with
  | nil => exact .refl _
  | cons n rest ih =>
    have hn : n ≠ m := fun e => hm (e ▸ List.mem_cons_self)
    obtain ⟨l', a⟩ := State.judgeSlot_other (s.slot n).judgeFuel n m s hn h
    have b := ih (State.judgeSlot (s.slot n).judgeFuel n s) (fun e => hm (List.mem_cons_of_mem _ e)) (by rw [a]; exact h)
    exact UpToFinishes.trans ⟨l', a⟩ b

/-- A slot that makes something of the stamps of the instant once and nothing after that, and waits under SLOT_DONE neither
before nor after: what it makes of them is what the end of the event leaves of it, up to the finishes it remembers, and the
announcement of its finish is made. -/
theorem State.settle_slot {s : State} {n : SlotId} {y : Slot} {e : Option Finish}
    (h1 : (s.slot n).judgeInstant n s.horizonTime s.horizonLocked = some (y, e))
    (h2 : y.judgeInstant n s.horizonTime s.horizonLocked = none)
    (w1 : (s.slot n).awaitsArming .slotDone = false) (w2 : y.awaitsArming .slotDone = false) :
    UpToFinishes y (s.settle.slot n)
    ∧ ∃ u z, EngineFrame s u ∧ UpToFinishes y z ∧ EngineFrame ((u.setSlot n z).announced n e) s.settle := by
  obtain ⟨l1, l2, hl⟩ := List.append_of_mem (List.mem_finRange n)
  have hnd : (allSlots).Nodup := List.nodup_finRange 16
  have hl' : allSlots = l1 ++ n :: l2 := hl
  rw [hl'] at hnd
  have n1 : n ∉ l1 := by
    intro a
    exact (List.nodup_append.1 hnd).2.2 n a n List.mem_cons_self rfl
  have n2 : n ∉ l2 := (List.nodup_cons.1 (List.nodup_append.1 hnd).2.1).1
  rw [State.settle_eq, hl']
  have split : State.judgeAll (l1 ++ n :: l2) s =
      State.judgeAll l2 (State.judgeSlot ((State.judgeAll l1 s).slot n).judgeFuel n (State.judgeAll l1 s)) := by
    simp only [State.judgeAll, List.foldl_append, List.foldl_cons]
  rw [split]
  generalize hu : State.judgeAll l1 s = u
  have eu : EngineFrame s u := hu ▸ State.judgeAll_engine l1 s
  have su : UpToFinishes (s.slot n) (u.slot n) := hu ▸ State.judgeAll_other l1 n s n1 w1
  obtain ⟨z, hz, uz⟩ := (su.judgeInstant w1 n s.horizonTime s.horizonLocked).2 _ h1
  have h1' : (u.slot n).judgeInstant n u.horizonTime u.horizonLocked = some (z, e) := by
    rw [eu.horizonTime, eu.horizonLocked]; exact hz
  obtain ⟨k, hk⟩ : ∃ k, (u.slot n).judgeFuel = k + 2 :=
    ⟨3 * (u.slot n).fresh.length + (u.slot n).finishes.length + 1, rfl⟩
  have aw : ∀ a b : Slot, UpToFinishes a b → a.awaitsArming .slotDone = false → b.awaitsArming .slotDone = false := by
    rintro a b ⟨l, rfl⟩ h; exact h
  have sz : (u.setSlot n z).slot n = z := by rw [State.slot_setSlot, if_pos rfl]
  have ud : UpToFinishes z (((u.setSlot n z).announced n e).slot n) := by
    have a := State.announced_slot (u.setSlot n z) n n e (by rw [sz]; exact aw _ _ uz w2)
    rwa [sz] at a
  have yd := uz.trans ud
  have ed := State.announced_engine (u.setSlot n z) n e
  have done : State.judgeSlot (u.slot n).judgeFuel n u = (u.setSlot n z).announced n e := by
    rw [hk, State.judgeSlot_some (k + 1) h1']
    refine State.judgeSlot_none ?_ _
    rw [ed.horizonTime, ed.horizonLocked]
    refine (yd.judgeInstant w2 n _ _).1 ?_
    show y.judgeInstant n u.horizonTime u.horizonLocked = none
    rw [eu.horizonTime, eu.horizonLocked]; exact h2
  rw [done]
  exact ⟨yd.trans (State.judgeAll_other l2 n _ n2 (aw _ _ yd w2)), u, z, eu, uz, State.judgeAll_engine _ _⟩

/-! ## Offers -/

/-- A stamp as it is offered now. -/
def State.offered (s : State) (st : Stamp) : Offered := ⟨st, st.corrected + s.offset, s.horizonTime, 0⟩

theorem State.offer_slot_idle (s : State) (st : Stamp) (n : SlotId) (h : (s.slot n).state = .idle) :
    (s.offer st).slot n = s.slot n := by
  unfold State.offer
  dsimp only
  rw [State.slot_mapSlots]
  exact if_pos h

/-- After an offer in a quiet state, a slot outside IDLE holds that stamp of the instant alone. -/
theorem State.offer_slot {s : State} (q : s.Quiet) (st : Stamp) (n : SlotId) (h : (s.slot n).state ≠ .idle) :
    (s.offer st).slot n = { s.slot n with fresh := [s.offered st] } := by
  have e : ((s.slot n).fresh.filter fun g => decide (g.offeredAt = s.horizonTime)) = [] := by
    rw [List.filter_eq_nil_iff]
    intro f hf
    simp [(q n).1 f hf]
  unfold State.offer
  dsimp only
  rw [State.slot_mapSlots]
  refine (if_neg h).trans ?_
  show ({ s.slot n with fresh := (s.slot n).fresh.filter (fun g => decide (g.offeredAt = s.horizonTime)) ++ _ } : Slot) = _
  rw [e]
  rfl

/-- A slot that holds one stamp of the instant, and no finish of it, makes of the instant what it makes of that stamp. -/
theorem Slot.judgeInstant_one (x : Slot) (n : SlotId) (l : Bool) (f : Offered) (q : ∀ e ∈ x.finishes, e.at' ≠ f.offeredAt) :
    { x with fresh := [f] }.judgeInstant n f.offeredAt l = { x with fresh := [f] }.judgeStamp n f.offeredAt l f := by
  unfold Slot.judgeInstant
  rw [Slot.seenFinish_none (x := { x with fresh := [f] }) q]
  simp

/-! ## The conditions of R71 -/

theorem Slot.meetsArm_iff (x : Slot) (f : Offered) : x.meetsArm f = true ↔
    x.state = .arming ∧ x.plan.armSource = .inputEdge ∧ x.data.gateOpen = none ∧ f.st.input = x.plan.armInput
      ∧ f.st.sense = x.plan.armSense ∧ (f.st.corrected - x.data.armingSince).toNat < 2 ^ 63 := by
  simp [Slot.meetsArm, Slot.awaitsArming, Offered.isOf, atOrBefore, and_assoc]

theorem Slot.meetsStart_iff (x : Slot) (f : Offered) : x.meetsStart f = true ↔
    f.st.input = x.plan.inputA ∧ f.st.sense = x.plan.senseA ∧ (f.st.corrected - x.data.startFrom).toNat < 2 ^ 63
      ∧ (x.data.startStrict = true → f.st.corrected ≠ x.data.startFrom) := by
  unfold Slot.meetsStart
  cases x.data.startStrict
  · simp [Offered.isOf, atOrBefore, and_assoc]
  · simp [Offered.isOf, atOrBefore, before, and_assoc, ne_comm (a := x.data.startFrom)]

/-- What a stamp ends is what the slot, in GATING, STOPPING or TAGGING, judges as its stop or as its tag. -/
theorem Slot.endsAt_iff (x : Slot) (f : Offered) : x.EndsAt f.st f.scale ↔
    ((x.state = .gating ∨ x.state = .stopping) ∧ x.meetsStop f = true)
    ∨ (x.state = .tagging ∧ x.plan.kind = .timetag ∧ x.meetsTag f = true) := by
  unfold Slot.EndsAt Slot.meetsStop Slot.meetsTag
  cases k : x.plan.kind <;> cases d : x.data.start <;> cases p : x.data.previousTag <;> cases a : x.data.armInstant
    <;> simp [Offered.isOf, Offered.endpoint, atOrBefore, before, and_assoc]
    <;> grind

/-- A stamp meets a condition of the slot's state exactly when the slot makes something of it (R71). -/
theorem Slot.meets_iff (x : Slot) (n : SlotId) (h : Tick) (l : Bool) (f : Offered) :
    x.Meets f.st f.scale ↔ x.judgeStamp n h l f ≠ none := by
  unfold Slot.Meets
  rw [Slot.endsAt_iff]
  have a := x.meetsArm_iff f
  have b := x.meetsStart_iff f
  unfold Slot.judgeStamp
  cases e : x.state <;> simp_all

/-! ## What one stamp does, state by state -/

theorem Slot.judgeStamp_arms {x : Slot} (n : SlotId) (h : Tick) (l : Bool) {f : Offered} (e : x.state = .arming)
    (m : x.meetsArm f = true) : x.judgeStamp n h l f = some (x.begin f.st.corrected false l, none) := by
  unfold Slot.judgeStamp; rw [e]; exact if_pos m

theorem Slot.judgeStamp_starts {x : Slot} (n : SlotId) (h : Tick) (l : Bool) {f : Offered} (e : x.state = .starting)
    (m : x.meetsStart f = true) : x.judgeStamp n h l f = some (x.takeStart f, none) := by
  unfold Slot.judgeStamp; rw [e]; exact if_pos m

theorem Slot.judgeStamp_stops {x : Slot} (n : SlotId) (h : Tick) (l : Bool) {f : Offered}
    (e : x.state = .gating ∨ x.state = .stopping) (m : x.meetsStop f = true) :
    x.judgeStamp n h l f = some ((x.takeStop n h l f).1, some (x.takeStop n h l f).2) := by
  unfold Slot.judgeStamp
  rcases e with e | e <;> (rw [e]; exact if_pos m)

theorem Slot.judgeStamp_tags {x : Slot} (n : SlotId) (h : Tick) (l : Bool) {f : Offered} (e : x.state = .tagging)
    (k : x.plan.kind = .timetag) (m : x.meetsTag f = true) :
    x.judgeStamp n h l f = some ((x.takeTag n h l f).1, some (x.takeTag n h l f).2) := by
  unfold Slot.judgeStamp
  rw [e]
  refine if_pos ?_
  rw [k, m]
  rfl

/-! ## The unit and the stamps stand -/

theorem State.judgeSlot_unit (fuel : Nat) (n : SlotId) (s : State) :
    (State.judgeSlot fuel n s).unit = s.unit ∧ (State.judgeSlot fuel n s).stamps = s.stamps := by
  induction fuel generalizing s with
  | zero => exact ⟨rfl, rfl⟩
  | succ k ih =>
    unfold State.judgeSlot
    split
    · exact ⟨rfl, rfl⟩
    · exact ih _
    · have a : ∀ (u : State) (e : Finish), (u.announce n e).unit = u.unit ∧ (u.announce n e).stamps = u.stamps := by
        intro u e
        have b : (if e.single then u.raiseSubscribed .done n else u).unit = u.unit
            ∧ (if e.single then u.raiseSubscribed .done n else u).stamps = u.stamps := by
          split
          · exact ⟨State.raise_unit _ _ _, State.raise_stamps _ _ _⟩
          · exact ⟨rfl, rfl⟩
        unfold State.announce
        dsimp only
        split
        · exact b
        · unfold State.armDependents
          rw [State.mapSlots_unit, State.mapSlots_stamps]
          exact b
      exact ⟨(ih _).1.trans (a _ _).1, (ih _).2.trans (a _ _).2⟩

/-- Judging the stamps of an instant changes neither the arithmetic unit nor the stamps in flight. -/
theorem State.settle_unit (s : State) : s.settle.unit = s.unit ∧ s.settle.stamps = s.stamps := by
  unfold State.settle
  generalize allSlots = l
  induction l generalizing s with
  | nil => exact ⟨rfl, rfl⟩
  | cons n rest ih =>
    have a := State.judgeSlot_unit (s.slot n).judgeFuel n s
    exact ⟨(ih _).1.trans a.1, (ih _).2.trans a.2⟩

/-- An offer while the unit serves: the end of the event makes no grant. -/
theorem State.conclude_offer_serving {s : State} {v : Service} (st : Stamp) (h : s.unit.service = some v)
    (ht : v.takenAt ≠ s.rawTime) : (s.offer st).conclude = (s.offer st).settle := by
  have e := (s.offer_engine st).trans (State.settle_engine _)
  unfold State.conclude
  refine State.grant_serving (v := v) ?_ ?_
  · rw [(State.settle_unit _).1]
    unfold State.offer
    dsimp only
    rw [State.mapSlots_unit]
    exact h
  · rw [e.rawTime]; exact ht

end Sys2Proof.Machine
end

