-- ==== Sys2Proof/Tests/Slice0.lean ====
section
/-! SUPPORT. Tests of the model, each by its expected result from the spec's rules, tables and worked examples (named in
the test's comment), and for every obligation with hypotheses a concrete state that meets them. -/

namespace Sys2Proof.Tests

set_option Elab.async false

open Sys2Proof Sys2Proof.Machine

/-! ## Small states -/

/-- The state a command leaves. -/
def after (c : Instr) (s : State) : State :=
  match exec c s with
  | .next t => t
  | _ => State.reset

/-- The part with every port holding all rights, every input READY, horizon time started and the reference LOCKED. -/
def base : State :=
  { State.atRelease 15 15 0 with
    inputs := Vector.ofFn fun _ : InputId => { Input.atRelease .low with state := .ready }
    horizonStarted := true, refState := .locked, horizonRef := .locked, refPresent := true }

/-- A state at a raw time. -/
def atRaw (t : Nat) (s : State) : State := { s with coarse := BitVec.ofNat 56 (t / 256), tick := BitVec.ofNat 8 t }

/-- A state at a horizon time. -/
def atHorizon (t : Nat) (s : State) : State := atRaw (t + 73728) s

/-- A slot changed. -/
def withSlot (n : SlotId) (f : Slot → Slot) (s : State) : State := s.setSlot n (f (s.slot n))

/-- An input changed. -/
def withInput (i : InputId) (f : Input → Input) (s : State) : State := s.setInput i (f (s.input i))

/-- A port changed. -/
def withPort (p : PortId) (f : Port → Port) (s : State) : State := s.setPort p (f (s.port p))

/-- A rising stamp of IN0 at a time, with a count. -/
def stampAt (t c : Nat) : Stamp := ⟨0, .rising, BitVec.ofNat 48 c, BitVec.ofNat 64 t, BitVec.ofNat 64 t, 0⟩

/-- The state at whose horizon time a stamp is due. -/
def withStamp (st : Stamp) (s : State) : State := { atHorizon st.corrected.toNat s with stamps := [st] }

/-- The status and payload of a port's pending response. -/
def answerOf (s : State) (p : PortId) : Option (Status × List Byte) := (s.port p).response.map fun r => (r.status, r.payload)

/-- An outcome of a slot, valued, of kind TIMETAG. -/
def tagOutcome (n : SlotId) (lost : BitVec 32) : Outcome :=
  ⟨n, .timetag, .frequency, 1, .valued, ⟨false, false, false, false, false, false⟩, some (.stamp (stampAt 0 1) 0), none,
    some 0, lost⟩

/-- A state whose unit serves an outcome, taken at the raw time 0. -/
def serving (o : Outcome) (s : State) : State := { s with unit := ⟨some ⟨o.slot, o, 0, 15⟩, o.slot⟩ }

/-- A held record of a slot. -/
def heldRecord (q : Nat) (n : SlotId) : LogEntry := ⟨BitVec.ofNat 32 q, (tagOutcome n 0).record⟩

/-! ## Smoke tests of WellFormed: an ill-formed term for each check -/

/-- An item list of more than 250 bytes fits no frame (R147, R157). -/
theorem smoke_refuses_long : (Instr.writePlan 0 1 0 none (List.replicate 28 (.gate 1))).wf = false := by decide

/-- 27 gate items and an identifier take 245 bytes beside the head. -/
theorem smoke_takes_long_enough : (Instr.writePlan 0 1 0 (some 0) (List.replicate 27 (.gate 1))).wf = true := by decide

/-- An unknown identifier has no size, so no item follows it (R184). -/
theorem smoke_refuses_unknown_inside : (Instr.writePlan 0 1 0 none [.unknown 0x1A [2], .gate 1]).wf = false := by decide

/-- A known identifier is not carried as an unknown one (R183). -/
theorem smoke_refuses_known_as_unknown : (Instr.writePlan 0 1 0 none [.unknown 0x06 []]).wf = false := by decide

/-! ## Reset, reference, horizon -/

/-- 3.1, R40: the default table maps code c to the least of 255 and floor(c × 256 / 125). -/
theorem test_default_table : (defaultTable[(1 : Code)], defaultTable[(124 : Code)], defaultTable[(159 : Code)]) = (2, 253, 255) := by
  decide

/-- The release of device reset with the given straps, nothing clocked and no selection in progress. -/
def released (a b : BitVec 4) : State := after (.deviceReset a b ⟨0, 0, Vector.replicate 4 0⟩) base

/-- R55 and R176: the default gate is one second, and the pending response is NONE. -/
theorem test_device_reset : ((released 1 2).slot 7).plan.gate = 250000000 ∧ answerOf (released 1 2) 2 = some (.none, []) := by
  decide

/-- R15 and R97: no reference change is on its way, and no slot holds measurement data. -/
theorem test_device_reset_in_flight : (released 1 2).refChanges = []
    ∧ ∀ n, ((released 1 2).slot n).data = MeasData.empty := by decide

/-- R164: ones only while reset is asserted; the selection in progress at the release is ignored, and the next is not. -/
theorem test_device_reset_ports :
    let s := after (.deviceReset 0 0 ⟨0, 0b0010, Vector.replicate 4 3⟩) base
    let t := after (.selectionEnd 1 (List.replicate 40 false)) s
    (s.port 1).shiftedOut = [true, true, true] ∧ (t.port 1).link = .ready ∧ (t.port 1).badFrames = 0
    ∧ ((after (.selectionStart 1) t).port 1).link = .selected := by decide

/-- R153, chapter 11: P0 strapped 10 holds MEASURE and INPUT, P1 strapped 00 only reads, P2 strapped 11 holds all. -/
theorem test_straps : let s := released 0b0101 0b0100
    (s.port 0).rights = 0b011 ∧ (s.port 1).rights = 0b000 ∧ (s.port 2).rights = 0b111 := by decide

/-- R3: a rising edge of the reference returns the gap timer to 0. -/
theorem test_reference_edge : (after .referenceEdge { base with gapTimer := 249 }).gapTimer = 0 := by decide

/-- R4, R5: absence in LOCKED is a change to LOST, with REF at every port. -/
theorem test_reference_absent : (after .referenceAbsent { base with gapTimer := 250 }).refState = .lost
    ∧ ((after .referenceAbsent { base with gapTimer := 250 }).port 3).flags = 0b0100000 := by decide

/-- R4: the count of 2,500,000 coarse periods locks the reference, and one less does not. -/
theorem test_reference_lock :
    (after .referenceLock { base with refState := .lost, presenceTimer := 2500000 }).refState = .locked
    ∧ (after .referenceLock { base with refState := .lost, presenceTimer := 2499999 }).refState = .lost := by decide

/-- R6: horizon time starts at coarse count 288. -/
theorem test_horizon_start : (after .horizonStart (atRaw 73728 State.reset)).horizonStarted = true
    ∧ (after .horizonStart (atRaw 73727 State.reset)).horizonStarted = false := by decide

/-- R7: a loss reaches the horizon 288 coarse periods later and marks the measurement in flight. -/
theorem test_horizon_ref_change :
    let s := atHorizon 256 (withSlot 3 (fun x => { x with state := .gating }) { base with refChanges := [⟨256, .lost⟩] })
    (after .horizonRefChange s).horizonRef = .lost ∧ ((after .horizonRefChange s).slot 3).data.marks.refFault = true
    ∧ ((after .horizonRefChange s).slot 4).data.marks.refFault = false := by decide

/-! ## Time scale -/

/-- R10: the time-scale time at the arrival, with fine part 0, the generation and the state (2, LOCKED). -/
theorem test_read_time : answerOf (after (.readTime 0 9) (atRaw 1000 { base with offset := 5, timeGen := 7 })) 0
    = some (.ok, [0, 0, 0, 0, 0, 0, 3, 5, 0, 7, 2]) := by decide

/-- R13: the new offset is the carried value less the raw time at arrival. -/
theorem test_set_time : (after (.setTime 1 9 none 100) (atRaw 256 base)).offset = -156 := by decide

/-- Example of chapter 1: expected generation 7 passes, the offset is 64,000,000,000 and the generation 8; CHANGE is set at
P0, P1 and P2; S4 in GATING is marked TIME_STEPPED. -/
theorem test_step_time :
    let s := after (.stepTime 3 9 (some 7) 64000000000)
      (withSlot 4 (fun x => { x with state := .gating }) { base with timeGen := 7 })
    s.offset = 64000000000 ∧ s.timeGen = 8 ∧ (s.port 0).flags = 8 ∧ (s.port 3).flags = 0
    ∧ (s.slot 4).data.marks.timeStepped = true := by decide

/-- The same example: a second STEP_TIME expecting generation 7 is STALE and leaves the offset. -/
theorem test_step_time_stale :
    let s := after (.stepTime 0 9 (some 7) 1) { base with timeGen := 8, offset := 64000000000 }
    s.offset = 64000000000 ∧ answerOf s 0 = some (.stale, [0, 8]) := by decide

/-! ## Inputs: the example of chapter 2 -/

/-- IN5 of the example of chapter 2, its filter width 2, skew +20 and counts as given, watched by S1 and S6. -/
def in5 : State :=
  let plan (c : Nat) (sense : Sense) (x : Slot) : Slot :=
    { x with state := .tagging, plan := { Plan.atRelease with kind := if c = 4 then .timetag else .reciprocal, inputA := 5, senseA := sense } }
  withSlot 1 (plan 1 .rising) (withSlot 6 (plan 4 .falling) (withInput 5 (fun x => { x with
    settings := ⟨.pin, 2, 20, .fixed⟩, rising := 7000, falling := 7000, rejects := 12, calGen := 3
    table := (defaultTable.set (1 : Code) 40).set (2 : Code) 10 }) base))

/-- Row 1: a candidate with window end 256,552, captured as fine 40, blocked until 1,003. -/
theorem test_level_change : let x := ((atRaw 256040 in5).levelChange 5 .high 1).input 5
    x.candidate = some ⟨.rising, 256040, 256552, some ⟨1, 1000, 256040, 256020, 3⟩⟩ ∧ x.blockedUntil = some 1003 := by decide +kernel

/-- Row 2: before the window end the falling change is a reversion: reject count 13 and nothing pending. -/
theorem test_reversion :
    let s := withInput 5 (fun x => { x with blockedUntil := some 1003, pinLevel := .high, candidate := some ⟨.rising, 256040, 256552, none⟩ }) in5
    let x := (after (.inputLevelChange 5 .pin .low 0) (atRaw 256356 s)).input 5
    x.candidate = none ∧ x.rejects = 13 ∧ x.rising = 7000 ∧ x.falling = 7000 := by decide

/-- Row 6: the falling candidate captured in period 1,010 qualifies at 259,082; the stamp is as the example gives. -/
theorem test_window_end :
    let s := withInput 5 (fun x => { x with
      qualified := .high, rising := 7001, candidate := some ⟨.falling, 258570, 259082, some ⟨2, 1010, 258570, 258550, 3⟩⟩ }) in5
    let t := after (.windowEndQualification 5) (atRaw 259082 s)
    (t.input 5).falling = 7001 ∧ (t.input 5).qualified = .low ∧ t.stamps = [⟨5, .falling, 7001, 258570, 258550, 3⟩] := by decide

/-- R25: the dead time ends when the coarse count reaches c + 3. -/
theorem test_dead_time_end :
    let s := withInput 5 (fun x => { x with blockedUntil := some 1003 }) in5
    ((after (.deadTimeEnd 5) (atRaw (1003 * 256) s)).input 5).blockedUntil = none
    ∧ ((after (.deadTimeEnd 5) (atRaw (1003 * 256 - 1) s)).input 5).blockedUntil = some 1003 := by decide

/-- R39, R42: a hit is counted under its code. -/
theorem test_calibration_hit :
    ((State.reset.hit 2 17).input 2).histogram[(17 : Code)] = 1
    ∧ hitTotal ((State.reset.hit 2 17).input 2).histogram = 1 := by decide +kernel

/-- R34, R187: source 1, width 2, skew +20, mode 1, generation 0, state 1, the counts, calibration generation 3, outcome
0 and hit total 0. -/
theorem test_read_input : answerOf (after (.readInput 0 9 5) in5) 0
    = some (.ok, [1, 2, 0, 20, 1, 0, 0, 1, 0, 0, 0, 0, 0x1B, 0x58, 0, 0, 0, 0, 0x1B, 0x58, 0, 0, 0, 12, 0, 0, 0, 3, 0, 0, 0, 0, 0]) := by
  decide +kernel

/-- R35, R36: a width of 300 is stored as 255, a skew of −2,000 as −1,024, and the status is CLAMPED. -/
theorem test_set_input :
    let s := after (.setInput 0 9 2 none 1 300 (-2000) 2) base
    (s.input 2).settings = ⟨.pin, 255, -1024, .track⟩ ∧ (s.input 2).settingsGen = 1
    ∧ answerOf s 0 = some (.clamped, [1, 255, 0xFC, 0, 2, 0, 1]) := by decide

/-- R35: an input in the usage of a slot outside IDLE is BUSY. -/
theorem test_set_input_busy : answerOf (after (.setInput 0 9 5 none 1 0 0 1) in5) 0 = some (.busy, [0, 0, 1]) := by decide

/-- R48: the input enters CALIBRATING. -/
theorem test_calibrate : ((after (.calibrate 0 9 2) base).input 2).state = .calibrating := by decide

/-! ## Plans -/

/-- R67, R183: the default plan as the plan block, with generation 0 and state 0. -/
theorem test_read_plan : answerOf (after (.readPlan 0 9 15) base) 0
    = some (.ok, [1, 0, 1, 0, 1, 0, 0, 0, 0, 0x0E, 0xE6, 0xB2, 0x80, 0, 0, 0, 0, 0x0E, 0xE6, 0xB2, 0x80, 0, 0, 0, 1,
      0, 0, 0, 0, 1, 1, 0, 0, 0, 0, 0, 0, 0, 0, 0, 1, 0, 1, 0, 0, 0]) := by decide

/-- The example of chapters 4 and 10: gate 0, PERIOD and gate 25,000,000 apply as CLAMPED, with the last gate stored. -/
theorem test_write_plan :
    let s := after (.writePlan 1 9 5 (some 11) [.gate 0, .reportAs 2, .gate 25000000])
      (withSlot 5 (fun x => { x with planGen := 11 }) base)
    (s.slot 5).plan.gate = 25000000 ∧ (s.slot 5).plan.reportAs = .period ∧ (s.slot 5).planGen = 12
    ∧ (answerOf s 1).map (·.1) = some .clamped := by decide

/-- The same example with identifier 1Ah: BAD_VALUE, and no change to S5. -/
theorem test_write_plan_unknown :
    let s := after (.writePlan 1 9 5 none [.gate 0, .unknown 0x1A [2, 6, 0, 0, 0, 0, 1, 0x7D, 0x78, 0x40]]) base
    (s.slot 5) = base.slot 5 ∧ answerOf s 1 = some (.badValue, []) := by decide

/-- The division of chapter 10: the three items of the list at offset 4. -/
theorem test_item_list : parseItems [6, 0, 0, 0, 0, 0, 0, 0, 0, 10, 2, 6, 0, 0, 0, 0, 1, 0x7D, 0x78, 0x40]
    = some [.gate 0, .reportAs 2, .gate 25000000] := by decide

/-- The same list with the last byte missing does not fit. -/
theorem test_item_list_short : parseItems [6, 0, 0, 0, 0, 0, 0, 0, 0, 10, 2, 6, 0, 0, 0, 0, 1, 0x7D, 0x78] = none := by decide

/-- R78, R82: ARM under IMMEDIATE enters ARMING with the raw time of the arrival as arm instant. -/
theorem test_arm : let x := (after (.arm 0 9 9) (atRaw 2560000 base)).slot 9
    x.state = .arming ∧ x.data.armInstant = some 2560000 := by decide

/-- R78: an arm time that is not later than the time-scale horizon is TOO_LATE. -/
theorem test_arm_too_late :
    let s := withSlot 6 (fun x => { x with plan := { x.plan with armSource := .atTime, armTime := 1000 } }) base
    (answerOf (after (.arm 0 9 6) (atHorizon 1024 s)) 0).map (·.1) = some .tooLate := by decide

/-- R80, R131: STOP of a SINGLE measurement in flight returns to IDLE with DONE at the subscriber. -/
theorem test_stop :
    let s := withPort 2 (fun q => { q with subscription := 0b1000 }) (withSlot 3 (fun x => { x with state := .starting }) base)
    ((after (.stop 0 9 3) s).slot 3).state = .idle ∧ ((after (.stop 0 9 3) s).port 2).flags = 0b0000100
    ∧ ((after (.stop 0 9 3) s).port 0).flags = 0 := by decide

/-- R81: STOP at the instant of a finish, after it: a TRIGGERED slot has returned to ARMING, and no outcome is formed. -/
theorem test_stop_after_finish :
    let s := atHorizon 5120 (withSlot 3 (fun x => { x with
      plan := { Plan.atRelease with repeatMode := .triggered }, state := .starting
      data := { MeasData.empty with armingSince := 5120, armInstant := some 5120 } }) base)
    ((after (.stop 0 9 3) s).slot 3).state = .idle ∧ (after (.stop 0 9 3) s).unit.service = none := by decide

/-! ## Slots: the examples of chapter 5 -/

/-- S9 of the example on a slowing signal, with gate 1,000 and wait limit 10,000 under CONTINUOUS. -/
def s9Plan : Plan := { Plan.atRelease with gate := 1000, waitLimit := 10000, repeatMode := .continuous }

/-- S9 in STARTING after its arm instant 2,560,000. -/
def s9Starting : State :=
  withSlot 9 (fun x => { x with
    plan := s9Plan, state := .starting
    data := { MeasData.empty with
      armInstant := some 2560000, gateOpen := some 2560000, gateClose := 2816000, runOrigin := 2560000, gateIndex := 1
      startFrom := 2560000, deadline := 5120000 } }) base

/-- S9 in m2 of the example, in STOPPING after its gate close 3,072,000. -/
def s9Second : State :=
  withSlot 9 (fun x => { x with
    plan := s9Plan, state := .stopping
    data := { MeasData.empty with
      gateOpen := some 3000000, gateClose := 3072000, runOrigin := 2560000, gateIndex := 2
      startFrom := 3000000, start := some (.stamp (stampAt 3000000 503) 3000000), deadline := 5632000 } }) base

/-- Row 1: the arm instant opens m1 with close 2,816,000 and deadline 5,120,000. -/
theorem test_immediate_arm_instant :
    let s := withSlot 9 (fun x => { x with plan := s9Plan, state := .arming, data := { MeasData.empty with armInstant := some 2560000 } }) base
    let x := (after (.immediateArmInstant 9) (atHorizon 2560000 s)).slot 9
    x.state = .starting ∧ x.data.gateClose = 2816000 ∧ x.data.deadline = 5120000 := by decide +kernel

/-- Row 2: stamp 501 at 2,600,000 is m1's start, in GATING. -/
theorem test_start : let x := (after (.stampOffer 0) (withStamp (stampAt 2600000 501) s9Starting)).slot 9
    x.state = .gating ∧ x.data.start = some (.stamp (stampAt 2600000 501) 2600000) := by decide +kernel

/-- Row 7: stamp 504 at 3,700,000 stops m2 with N 1 and T 700,000; m3 starts in STOPPING on close 3,328,000. -/
theorem test_stop_starts_next :
    let s := after (.stampOffer 0) (withStamp (stampAt 3700000 504) s9Second)
    (s.slot 9).state = .stopping ∧ (s.slot 9).data.gateClose = 3328000 ∧ (s.slot 9).data.deadline = 6260000
    ∧ (s.unit.service.map fun v => (v.outcome.edges, v.outcome.duration)) = some (some 1, some 700000) := by decide +kernel

/-- Row 4: the gate close 2,816,000 moves m1 to STOPPING with deadline 5,376,000. -/
theorem test_gate_close :
    let s := withSlot 9 (fun x => { x with
      state := .gating, data := { x.data with start := some (.stamp (stampAt 2600000 501) 2600000) } }) s9Starting
    let x := (after (.gateClose 9) (atHorizon 2816000 s)).slot 9
    x.state = .stopping ∧ x.data.deadline = 5376000 := by decide +kernel

/-- The last row: the deadline 7,060,000 ends m4 NO_SIGNAL and opens a run with close 7,316,000 and deadline 9,620,000. -/
theorem test_deadline_expiry :
    let s := withSlot 9 (fun x => { x with data := { x.data with deadline := 7060000, start := some (.stamp (stampAt 4500000 505) 4500000) } }) s9Second
    let t := after (.deadlineExpiry 9) (atHorizon 7060000 s)
    (t.slot 9).state = .starting ∧ (t.slot 9).data.gateClose = 7316000 ∧ (t.slot 9).data.deadline = 9620000
    ∧ (t.unit.service.map fun v => v.outcome.result) = some .noSignal := by decide +kernel

/-- R83: a slot waiting under AT_TIME arms when horizon time plus the offset reaches its arm time. -/
theorem test_at_time_arming :
    let s := withSlot 6 (fun x => { x with plan := { x.plan with armSource := .atTime, armTime := 5000 }, state := .arming })
      { base with offset := 1000 }
    ((after (.atTimeArming 6) (atHorizon 4000 s)).slot 6).data.armInstant = some 4000
    ∧ ((after (.atTimeArming 6) (atHorizon 3999 s)).slot 6).state = .arming := by decide +kernel

/-- S12 of the time-tag example: previous tag 1,004, tag 2 held while the unit serves another slot. -/
def s12 : State :=
  withSlot 12 (fun x => { x with
    plan := { Plan.atRelease with kind := .timetag, inputA := 6, senseA := .falling, prescale := 4, quota := some 3 }
    state := .tagging, data := { MeasData.empty with armInstant := some 0, previousTag := some ⟨1004, 0⟩, tags := 2 }
    finished := some (tagOutcome 12 0) }) (serving (tagOutcome 0 0) (withPort 1 (fun q => { q with subscription := 0x1000 }) base))

/-- The last offer: count 1,009 reaches the quota; tag 3 is dropped, the lost count is 1, IDLE, DONE at P1. -/
theorem test_tag_at_quota :
    let t := after (.stampOffer 6) (withStamp ⟨6, .falling, 1009, 900000, 900000, 0⟩ s12)
    (t.slot 12).state = .idle ∧ (t.slot 12).lost = 1 ∧ (t.slot 12).finished = some (tagOutcome 12 0)
    ∧ (t.port 1).flags = 0b0000100 := by decide +kernel

/-- R22, R93: at gate open the boundary count leaves out the edge whose period is not below the boundary. -/
theorem test_totalize_gate_open :
    let s := withInput 1 (fun x => { x with falling := 10, recent := [⟨.falling, 2⟩, ⟨.falling, 1⟩] })
      (withSlot 2 (fun x => { x with
        plan := { Plan.atRelease with kind := .totalize, inputA := 1, senseA := .falling }, state := .arming
        data := { MeasData.empty with gateOpen := some 512, gateClose := 1024 } }) base)
    let x := (after (.totalizeGateOpen 2) (atHorizon 512 s)).slot 2
    x.state = .gating ∧ x.data.start = some (.boundary 512 512 9) := by decide +kernel

/-- R93, R103, R104: at gate close N is the difference of the boundary counts and T that of the boundaries. -/
theorem test_totalize_gate_close :
    let s := withInput 1 (fun x => { x with falling := 10 })
      (withSlot 2 (fun x => { x with
        plan := { Plan.atRelease with kind := .totalize, inputA := 1, senseA := .falling }, state := .gating
        data := { MeasData.empty with gateOpen := some 512, gateClose := 1024, start := some (.boundary 512 512 7) } }) base)
    let t := after (.totalizeGateClose 2) (atHorizon 1024 s)
    (t.slot 2).state = .idle
    ∧ (t.unit.service.map fun v => (v.outcome.edges, v.outcome.duration)) = some (some 3, some 512) := by decide +kernel

/-! ## Arithmetic unit and log -/

/-- The worked case of chapter 6: 10,000 edges over 64,000,123 ticks are 9,999,980,781,287 µHz. -/
theorem test_frequency : frequencyValue 10000 64000123 = 9999980781287 := by decide

/-- The example of chapter 6: after S5 of S2 and S11 the arbiter grants S11; after S11 of S2 and S5, S2; after S2, S5. -/
theorem test_arbiter : (nextGrant 5 [2, 11], nextGrant 11 [2, 5], nextGrant 2 [2, 5, 11]) = (some 11, some 2, some 5) := by decide

/-- R99, R101: S5 was taken at this instant before S2 placed; after S15 the set of the two gives S2, and S5 waits again. -/
theorem test_grant_of_one_instant :
    let s := { withSlot 2 (fun x => { x with finished := some (tagOutcome 2 0) }) base with
      unit := ⟨some ⟨5, tagOutcome 5 0, 0, 15⟩, 5⟩ }
    s.grant.unit.lastGranted = 2 ∧ (s.grant.slot 5).finished = some (tagOutcome 5 0) ∧ (s.grant.slot 2).finished = none := by
  decide

/-- The log of the example of chapter 7, with P0 subscribed to S0 and S1 under threshold 2 and P2 to S1. -/
def readers (held : List LogEntry) (next : Nat) : State :=
  let port (subscription : BitVec 16) (threshold : BitVec 16) (q : Port) : Port :=
    { q with subscription := subscription, cursor := 5000, threshold := threshold }
  withPort 0 (port 3 2) (withPort 1 (port 0 1) (withPort 2 (port 2 1) (withPort 3 (port 0 1)
    { base with log := ⟨held, BitVec.ofNat 32 next, .overwrite, 0⟩ })))

/-- Row 2 of the example: the record of S1 is 5,001 and sets RESULTS at P0 and P2; its latest entry carries 5,001. -/
theorem test_service_completion :
    let t := after .serviceCompletion (serving (tagOutcome 1 0) (readers [heldRecord 5000 0] 5001))
    t.log.held = [heldRecord 5000 0, heldRecord 5001 1] ∧ t.log.nextSeq = 5002 ∧ (t.port 0).flags = 1 ∧ (t.port 2).flags = 1
    ∧ (t.port 1).flags = 0 ∧ (t.latest[1].map (·.seq)) = some (some 5001) := by decide

/-- Row 5: P0 reads one record; 5,000 retires, P0's cursor is 5,001 and P1's is dragged to it. -/
theorem test_read_results :
    let t := after (.readResults 0 9 1) (readers [heldRecord 5000 0, heldRecord 5001 1, heldRecord 5002 5] 5003)
    t.log.held = [heldRecord 5001 1, heldRecord 5002 5] ∧ (t.port 0).cursor = 5001 ∧ (t.port 1).cursor = 5001 := by decide

/-- Row 4: P2's walk steps over 5,000 and 5,002 and reaches the end. -/
theorem test_read_results_to_end :
    let t := after (.readResults 2 9 4) (readers [heldRecord 5000 0, heldRecord 5001 1, heldRecord 5002 5] 5003)
    t.log.held.length = 3 ∧ (t.port 2).cursor = 5003 := by decide

/-- R129, R130: REPLACE with S0, FROM_NEXT and threshold 4. -/
theorem test_subscribe : let q := (after (.subscribe 3 9 1 3 2 (some 4)) (readers [] 100)).port 3
    q.subscription = 1 ∧ q.cursor = 100 ∧ q.threshold = 4 := by decide

/-- R137: an entry that is none is an empty payload. -/
theorem test_latest : answerOf (after (.latest 1 9 5) base) 1 = some (.ok, []) := by decide

/-- R136, R187: occupancy 1, oldest 5,000, next 5,001, P0's subscription 3, cursor 5,000, backlog 1, threshold 2. -/
theorem test_log_status : answerOf (after (.logStatus 0 9) (readers [heldRecord 5000 0] 5001)) 0
    = some (.ok, [0, 1, 0, 0, 0x13, 0x88, 0, 0, 0x13, 0x89, 0, 3, 0, 0, 0x13, 0x88, 0, 1, 0, 2, 0, 0, 0, 0, 1, 0, 0]) := by decide

/-- Chapter 11: SET_LOG HOLD; the log generation is 1, and CHANGE is set at P1, P2 and P3. -/
theorem test_set_log : let s := after (.setLog 0 9 (some 0) 2) base
    s.log.policy = .hold ∧ s.log.gen = 1 ∧ (s.port 0).flags = 0 ∧ (s.port 3).flags = 8 := by decide

/-- R139: the log is empty, the next sequence kept, and the cursors stand at it. -/
theorem test_reset_measurement : let s := after (.resetMeasurement 0 9) (readers [heldRecord 5000 0] 5001)
    s.log.held = [] ∧ s.log.nextSeq = 5001 ∧ (s.port 2).cursor = 5001 := by decide

/-- Chapter 10: the TIMETAG record with a start, edges-since-previous and lost count 1 takes 32 bytes, and the ABORTED one
with a start 20. -/
theorem test_record_sizes :
    (recordBytes (some 7202) { (tagOutcome 12 1).record with start := some 1 }).length = 32
    ∧ (recordBytes (some 7203) { (tagOutcome 0 0).record with start := some 1, edgesSince := none }).length = 20 := by decide

/-! ## Ports -/

/-- R148: the check of "123456789" is 29B1h. -/
theorem test_crc : crc [0x31, 0x32, 0x33, 0x34, 0x35, 0x36, 0x37, 0x38, 0x39] = 0x29B1 := by decide +kernel

/-- R143: READY to SELECTED. -/
theorem test_selection_start : ((after (.selectionStart 1) base).port 1).link = .selected := by decide

/-- Chapter 8: READ_PLAN S3, tag 21, shifted in after reset is taken, and NONE is shifted out. -/
theorem test_selection_end :
    let frame := ((requestFrame (.readPlan 1 21 3)).getD []).flatMap bitsOfByte
    let q := (after (.selectionEnd 1 frame) (after (.selectionStart 1) base)).port 1
    q.link = .preparing ∧ q.arriving = some ⟨1, .readPlan 1 21 3⟩ ∧ (bytesOfBits q.shiftedOut).take 4 = [0x31, 0, 0, 0] := by decide +kernel

/-- Chapter 8: four bytes clocked are a truncated frame: BAD_FRAME, the count raised and LINK set. -/
theorem test_selection_end_truncated :
    let q := (after (.selectionEnd 1 (List.replicate 32 false)) (after (.selectionStart 1) base)).port 1
    q.badFrames = 1 ∧ q.flags = 0b1000000 ∧ (q.response.map (·.status)) = some .badFrame := by decide

/-- R156: with its response formed, preparation ends and the port is READY. -/
theorem test_preparation_end :
    ((after (.preparationEnd 1) (withPort 1 (fun q => { q with link := .preparing, prepared := false }) base)).port 1).link = .ready := by
  decide

/-- Chapter 8: P1 strapped low and high answers NULL with port 1, rights MEASURE and bad-frame count 0. -/
theorem test_null : answerOf (after (.null 1 22) (State.atRelease 0 2 0)) 1 = some (.ok, [1, 1, 0, 0]) := by decide

/-- R162: PORT_RESET empties the subscription and is answered with NONE. -/
theorem test_port_reset : ((after (.portReset 2 9) (readers [] 5000)).port 2).subscription = 0
    ∧ answerOf (after (.portReset 2 9) (readers [] 5000)) 2 = some (.none, []) := by decide

/-- Chapter 9: CAL and RESULTS are reported with the mask RESULTS, LOSS, CHANGE, and cleared. -/
theorem test_read_attention :
    let t := after (.readAttention 0 9) (withPort 0 (fun q => { q with flags := 0b0010001, mask := 0b0001011 }) base)
    (t.port 0).flags = 0 ∧ answerOf t 0 = some (.ok, [0x11, 0x0B]) := by decide

/-- Chapter 9: SET {CHANGE} on mask LOSS with CHANGE set asserts the line. -/
theorem test_set_attention :
    let t := after (.setAttention 0 9 1 8) (withPort 0 (fun q => { q with flags := 0b0001001, mask := 0b0000010 }) base)
    (t.port 0).mask = 0b0001010 ∧ (t.port 0).attentionLine = true := by decide

/-- R154: a request whose right the port lacks changes nothing but the response. -/
theorem test_not_permitted : answerOf (after (.setTime 1 23 none 0) (State.atRelease 0 2 0)) 1 = some (.notPermitted, []) := by
  decide

/-! ## States that meet the hypotheses of the obligations -/

theorem of_none {α : Type} {P : α → Prop} {o : Option α} (h : o = none) : ∀ a, o = some a → P a := by
  subst h; nofun

theorem of_some {α : Type} {P : α → Prop} {o : Option α} {b : α} (h : o = some b) (hb : P b) : ∀ a, o = some a → P a := by
  intro a e; rw [h] at e; cases e; exact hb

theorem quiet_of_empty {s : State} (h : ∀ n, (s.slot n).fresh = [] ∧ (s.slot n).finishes = []) : s.Quiet := by
  intro n
  rw [(h n).1, (h n).2]
  exact ⟨nofun, nofun⟩

theorem noOther_of_quiet {s : State} (h : s.Quiet) (n : SlotId) : s.NoOtherCause n :=
  ⟨fun f hf e => absurd e ((h n).1 f hf), fun _ _ => h⟩

theorem quietly_of_empty {s : State} (h : ∀ n, (s.slot n).fresh = [] ∧ (s.slot n).finishes = []) :
    s.Quiet ∧ ∀ n, s.NoOtherCause n := ⟨quiet_of_empty h, noOther_of_quiet (quiet_of_empty h)⟩

theorem shaped_tagOutcome (n : SlotId) (lost : BitVec 32) : (tagOutcome n lost).Shaped :=
  ⟨fun _ => rfl, by simp [tagOutcome], by simp [tagOutcome], by simp [tagOutcome], by simp [tagOutcome]⟩

/-- The reference edges have stayed away for 250 coarse periods: an event is due. -/
theorem witness_EmptyQueueSteps_event : { base with gapTimer := 250 }.pending = []
    ∧ ∃ c, { base with gapTimer := 250 }.Due c := ⟨rfl, .referenceAbsent, rfl, by decide⟩

/-- Nothing is due while the requests of P1 and P2 come to their arrival, and while none does, in a coarse period's last tick
and before. -/
theorem witness_EmptyQueueSteps_rest :
    (let s := withPort 2 (fun q => { q with arriving := some ⟨5, .null 2 9⟩ })
      (withPort 1 (fun q => { q with arriving := some ⟨5, .null 1 9⟩ }) { base with coarse := 5 });
      (∀ c, ¬s.Due c) ∧ (s.port 1).arriving = some ⟨5, .null 1 9⟩ ∧ (s.coarse - 5).toNat < 2 ^ 55
        ∧ (∀ q, q < 1 → ¬s.Arrived q) ∧ s.Arrived 2)
    ∧ (base.tick ≠ 255 ∧ (∀ c, ¬base.Due c) ∧ ∀ p, ¬base.Arrived p)
    ∧ ((∀ c, ¬{ base with tick := 255 }.Due c) ∧ ∀ p, ¬{ base with tick := 255 }.Arrived p) := by
  refine ⟨⟨State.dueEvent_none (by decide +kernel), by decide, by decide, fun q hq h => ?_, ⟨_, rfl, by decide⟩⟩,
    ⟨by decide, State.dueEvent_none (by decide +kernel), fun p h => ?_⟩,
    State.dueEvent_none (by decide +kernel), fun p h => ?_⟩
  all_goals rw [← State.arrivalDue_iff] at h; revert h
  · revert q; decide
  all_goals revert p; decide

theorem witness_RightsFollowStraps_kept : (∃ t, exec .referenceEdge base = .next t)
    ∧ ∀ a b l, Instr.referenceEdge ≠ .deviceReset a b l := ⟨⟨_, rfl⟩, nofun⟩

theorem witness_RightsFollowStraps_lacking : (State.reset.port 0).rights.getLsbD 2 = false
    ∧ (State.reset.port 0).rights.getLsbD 1 = false ∧ (State.reset.port 0).rights.getLsbD 0 = false := by decide

theorem witness_ReferenceTimersMoveState :
    ({ base with gapTimer := 250 }.refPresent = true ∧ 250 ≤ { base with gapTimer := 250 }.gapTimer
      ∧ { base with gapTimer := 250 }.refState = .locked)
    ∧ ({ base with gapTimer := 250, refState := .acquiring }.refState ≠ .locked)
    ∧ ({ base with presenceTimer := 2500000, refState := .lost }.refPresent = true
      ∧ 2500000 ≤ { base with presenceTimer := 2500000, refState := .lost }.presenceTimer
      ∧ { base with presenceTimer := 2500000, refState := .lost }.refState ≠ .locked) := by decide

theorem witness_HorizonTimeAndReference :
    (atRaw 73728 State.reset).horizonStarted = false ∧ 73728 ≤ (atRaw 73728 State.reset).rawTime.toNat
    ∧ (atRaw 73727 State.reset).rawTime.toNat < 73728
    ∧ let s := atHorizon 256 { base with refChanges := [⟨256, .lost⟩] }
      s.refChanges = [⟨256, .lost⟩] ∧ s.horizonStarted = true ∧ (s.horizonTime - 256).toNat < 2 ^ 63 := by decide

/-- No change at the present instant: horizon time not started, and one that lies ahead. Two changes at it, and one after it:
the later of the two counts. -/
theorem witness_HorizonTimeAndReference_locked :
    State.reset.horizonStarted = false
    ∧ (let s := atHorizon 256 { base with refChanges := [⟨512, .lost⟩] }
      (∀ c ∈ s.refChanges, c.changeTime ≠ s.horizonTime) ∧ s.horizonLocked = true)
    ∧ (let s := atHorizon 256 { base with refChanges := [⟨256, .locked⟩, ⟨256, .lost⟩, ⟨512, .locked⟩] }
      s.horizonStarted = true ∧ s.refChanges = [⟨256, .locked⟩] ++ ⟨256, .lost⟩ :: [⟨512, .locked⟩] ∧ 256 = s.horizonTime
        ∧ (∀ d ∈ [(⟨512, .locked⟩ : RefChange)], d.changeTime ≠ s.horizonTime) ∧ s.horizonLocked = false) := by decide

/-- The three directions of a SET_TIME: the offset stays, moves forward by 2^63 − 1, moves back by 2^63 − 1. -/
theorem witness_SetTimeSetsTimeScale : (base.port 1).rights.getLsbD 2 = true ∧ Passes none base.timeGen
    ∧ (after (.setTime 1 9 none 0) base).offset = base.offset
    ∧ (after (.setTime 1 9 none (2 ^ 63 - 1)) base).offset = 2 ^ 63 - 1
    ∧ (after (.setTime 1 9 none (2 ^ 63 + 1)) base).offset = 2 ^ 63 + 1 :=
  ⟨by decide, .inl rfl, by decide +kernel, by decide +kernel, by decide +kernel⟩

theorem witness_StepTimeAddsAmount : (base.port 1).rights.getLsbD 2 = true ∧ Passes (some 0) base.timeGen
    ∧ ¬Passes (some 1) base.timeGen ∧ (0 : BitVec 64) = 0 ∧ (-1 : BitVec 64) ≠ 0 :=
  ⟨by decide, .inr rfl, (fun h => by rcases h with h | h <;> cases h), rfl, by decide⟩

theorem witness_RefusedRequestsChangeNothing_stale : (base.port 0).rights.getLsbD 2 = true ∧ (1 : Gen) ≠ base.timeGen
    ∧ (base.port 0).rights.getLsbD 1 = true ∧ (1 : Gen) ≠ (base.input 7).settingsGen
    ∧ (base.port 0).rights.getLsbD 0 = true ∧ (1 : Gen) ≠ (base.slot 15).planGen ∧ (1 : Gen) ≠ base.log.gen := by decide

theorem witness_ReadingRequestsReport : 8 ≤ (8 : Byte).toNat ∧ 16 ≤ (16 : Byte).toNat := by decide

theorem witness_RefusedRequestsChangeNothing : 8 ≤ (8 : Byte).toNat ∧ 16 ≤ (16 : Byte).toNat
    ∧ (base.port 0).rights.getLsbD 1 = true ∧ (base.port 0).rights.getLsbD 0 = true
    ∧ Passes none (base.input 2).settingsGen ∧ (State.reset.input 2).state = .calibrating
    ∧ (∃ n, (in5.slot n).state ≠ .idle ∧ (in5.slot n).plan.names 5 = true)
    ∧ (base.input 2).state = .ready ∧ (∀ n, (base.slot n).state = .idle ∨ (base.slot n).plan.names 2 = false)
    ∧ ¬(((1 : Byte) = 1 ∨ (1 : Byte) = 2) ∧ ((3 : Byte) = 1 ∨ (3 : Byte) = 2)) :=
  ⟨by decide, by decide, by decide, by decide, .inl rfl, by decide, by decide +kernel, by decide, by decide, by decide⟩

theorem witness_SetInputStoresRecord : (base.port 0).rights.getLsbD 1 = true ∧ Passes none (base.input 2).settingsGen
    ∧ (base.input 2).state = .ready ∧ (∀ n, (base.slot n).state = .idle ∨ (base.slot n).plan.names 2 = false)
    ∧ (1 : Byte) = (match (base.input 2).settings.source with | .pin => 1 | .test => 2) :=
  ⟨by decide, .inl rfl, by decide, by decide, by decide⟩

/-- A switch to TEST at coarse count 64, where its level is LOW as the qualified level, and at 63, where it is HIGH; with a
pending candidate whose window has one tick left, its level LOW and HIGH. -/
theorem witness_SourceSwitchPresentsLevel : (base.port 0).rights.getLsbD 1 = true ∧ (base.input 2).state = .ready
    ∧ Passes none (base.input 2).settingsGen ∧ (∀ n, (base.slot n).state = .idle ∨ (base.slot n).plan.names 2 = false)
    ∧ Source.test ≠ (base.input 2).settings.source ∧ (base.input 2).candidate = none
    ∧ Level.low = (if (atRaw (64 * 256) base).coarse.toNat % 128 < 64 then .high else .low)
    ∧ Level.low = (base.input 2).watched
    ∧ Level.high = (if (atRaw (63 * 256) base).coarse.toNat % 128 < 64 then .high else .low)
    ∧ Level.high ≠ (base.input 2).watched
    ∧ (let s := atRaw (64 * 256 + 5) (withInput 2 (fun x => { x with candidate := some ⟨.rising, 0, 64 * 256 + 6, none⟩ }) base)
      (s.input 2).candidate = some ⟨.rising, 0, 64 * 256 + 6, none⟩ ∧ ¬(s.rawTime - (64 * 256 + 6)).toNat < 2 ^ 63
        ∧ Level.low = (if s.coarse.toNat % 128 < 64 then .high else .low) ∧ Level.low ≠ (s.input 2).watched) :=
  ⟨by decide, by decide, .inl rfl, by decide, by decide, by decide, by decide, by decide, by decide, by decide, by decide⟩

theorem witness_CalibrateStarts : (base.port 0).rights.getLsbD 1 = true ∧ (base.input 2).state = .ready
    ∧ (∀ n, (base.slot n).state = .idle ∨ (base.slot n).plan.names 2 = false) := by decide

/-- A change that is captured, one in a dead time, one that reverts a candidate, one under width 0, captured in TRACK and
in FIXED, and one exactly at a window end. -/
theorem witness_PinChangeJudgedByFilter :
    ((in5.input 5).settings.source = .pin ∧ (in5.input 5).candidate = none ∧ Level.high ≠ (in5.input 5).watched
      ∧ (in5.input 5).settings.width ≠ 0 ∧ in5.demanded 5 .rising = true ∧ in5.inDeadTime 5 = false)
    ∧ (withInput 5 (fun x => { x with blockedUntil := some 3 }) in5).inDeadTime 5 = true
    ∧ (let s := withInput 5 (fun x => { x with candidate := some ⟨.rising, 0, 512, none⟩ }) in5
      (s.input 5).candidate = some ⟨.rising, 0, 512, none⟩ ∧ ¬(s.rawTime - 512).toNat < 2 ^ 63
        ∧ Level.low ≠ (s.input 5).watched
        ∧ ((atRaw 512 s).rawTime - 512).toNat < 2 ^ 63
        ∧ ∃ u, exec (.windowEndQualification 5) (atRaw 512 s) = .next u)
    ∧ ((base.input 0).settings.source = .pin ∧ (base.input 0).candidate = none ∧ Level.high ≠ (base.input 0).watched
      ∧ (base.input 0).settings.width = 0 ∧ base.demanded 0 .rising = false)
    ∧ (let s := fun mode => withInput 5 (fun x => { x with settings := ⟨.pin, 0, 20, mode⟩ }) in5
      ((s .track).input 5).settings.width = 0 ∧ (s .track).demanded 5 .rising = true ∧ ((s .track).input 5).state = .ready
        ∧ (s .track).inDeadTime 5 = false ∧ ((s .fixed).input 5).settings.mode = .fixed) := by
  refine ⟨by decide +kernel, by decide +kernel, ⟨by decide +kernel, by decide +kernel, by decide +kernel,
    by decide +kernel, ⟨_, rfl⟩⟩, by decide +kernel, by decide +kernel⟩

/-- An input that watches the test signal with a width above 0, its qualified level LOW. -/
def onTest : State := withInput 2 (fun x => { x with settings := ⟨.test, 2, 0, .fixed⟩ }) base

/-- An edge of the test signal, HIGH at coarse count 0: under width 2 and under width 0, one that no slot demands; one that
reverts a pending candidate of width 65; and one exactly at a window end. -/
theorem witness_OtherLevelChanges : (onTest.input 2).settings.source = .test
    ∧ ((base.input 2).candidate = none ∧ (base.input 2).qualified = .low)
    ∧ (let s := withInput 5 (fun x => { x with candidate := some ⟨.rising, 0, 512, none⟩ }) in5
      (s.input 5).candidate = some ⟨.rising, 0, 512, none⟩ ∧ ¬(s.rawTime - 512).toNat < 2 ^ 63
        ∧ Level.high = (match Sense.rising with | .rising => .high | .falling => .low) ∧ (s.input 5).settings.source = .pin)
    ∧ (base.input 2).settings.source = .pin
    ∧ Level.low ≠ (if onTest.coarse.toNat % 128 < 64 then .high else .low)
    ∧ Level.high = (if onTest.coarse.toNat % 128 < 64 then .high else .low)
    ∧ (onTest.input 2).candidate = none ∧ Level.high ≠ (onTest.input 2).watched ∧ (onTest.input 2).settings.width ≠ 0
    ∧ ((withInput 2 (fun x => { x with settings := ⟨.test, 0, 0, .fixed⟩ }) onTest).input 2).settings.width = 0
    ∧ (let s := atRaw (64 * 256) (withInput 2 (fun x => { x with
          settings := ⟨.test, 65, 0, .fixed⟩, candidate := some ⟨.rising, 0, 65 * 256, none⟩ }) onTest)
      (s.input 2).candidate = some ⟨.rising, 0, 65 * 256, none⟩ ∧ ¬(s.rawTime - 65 * 256).toNat < 2 ^ 63
        ∧ Level.low = (if s.coarse.toNat % 128 < 64 then .high else .low) ∧ Level.low ≠ (s.input 2).watched)
    ∧ (let s := atRaw 512 (withInput 2 (fun x => { x with candidate := some ⟨.rising, 0, 512, none⟩ }) onTest)
      (s.input 2).candidate = some ⟨.rising, 0, 512, none⟩ ∧ (s.rawTime - 512).toNat < 2 ^ 63
        ∧ Level.high = (if s.coarse.toNat % 128 < 64 then .high else .low)
        ∧ ∃ u, exec (.windowEndQualification 2) s = .next u) :=
  ⟨by decide, by decide, by decide, by decide, by decide, by decide, by decide, by decide, by decide, by decide, by decide,
    by decide, by decide, by decide, ⟨_, rfl⟩⟩

/-- A candidate at its window end, with a capture, READY in FIXED and in TRACK, and without, and one tick before it; a dead
time at its end and before. -/
theorem witness_WindowAndDeadTimeEnd :
    let s := fun cap => atRaw 512 (withInput 5 (fun x => { x with candidate := some ⟨.rising, 0, 512, cap⟩ }) in5)
    ((s none).input 5).candidate = some ⟨.rising, 0, 512, none⟩ ∧ ((s none).rawTime - 512).toNat < 2 ^ 63
    ∧ ((s (some ⟨1, 0, 40, 20, 3⟩)).input 5).candidate = some ⟨.rising, 0, 512, some ⟨1, 0, 40, 20, 3⟩⟩
    ∧ ((s none).input 5).state = .ready ∧ ((s none).input 5).settings.mode = .fixed
    ∧ ((withInput 5 (fun x => { x with settings := ⟨.pin, 2, 20, .track⟩ }) (s none)).input 5).settings.mode = .track
    ∧ ¬((atRaw 511 (s none)).rawTime - 512).toNat < 2 ^ 63
    ∧ (let d := withInput 5 (fun x => { x with blockedUntil := some 3 }) in5
      (d.input 5).blockedUntil = some 3 ∧ ((atRaw 768 d).coarse - 3).toNat < 2 ^ 55
        ∧ ¬((atRaw 767 d).coarse - 3).toNat < 2 ^ 55) := by decide +kernel

/-- A histogram of 65,535 hits spread over all codes. -/
def spreadHits : Vector Nat 160 := (Vector.replicate 160 409).set (0 : Code) 504

/-- A histogram of 65,535 hits in one code. -/
def gatheredHits : Vector Nat 160 := (Vector.replicate 160 0).set (0 : Code) 65535

/-- A hit, a last hit that passes and one that fails, an edge in a dead time and one in READY, and two ticks of one coarse
period. -/
theorem witness_CalibrationHitCountsOrCompletes :
    ((State.reset.input 2).state = .calibrating ∧ State.reset.inDeadTime 2 = false
      ∧ hitTotal (State.reset.input 2).histogram < 65535)
    ∧ (hitTotal spreadHits = 65535 ∧ (∀ d : Code, (spreadHits.set (5 : Code) 410)[d] ≤ 1024)
      ∧ 64 ≤ (spreadHits.set (5 : Code) 410).toList.countP fun n => decide (0 < n))
    ∧ (hitTotal gatheredHits = 65535 ∧ ¬∀ d : Code, (gatheredHits.set (5 : Code) 1)[d] ≤ 1024)
    ∧ (base.input 2).state = .ready
    ∧ (withInput 2 (fun x => { x with blockedUntil := some 3 }) State.reset).inDeadTime 2 = true
    ∧ (atRaw 256 base).coarse = (atRaw 511 base).coarse ∧ (atRaw 256 base).tick.toNat * 15625 + (15624 : WithinTick).val
      ≤ (atRaw 511 base).tick.toNat * 15625 + (0 : WithinTick).val := by
  decide +kernel

theorem witness_BuiltTablesAndTheirTest :
    let h : Vector Nat 160 := (Vector.replicate 160 0).set (0 : Code) 65536
    hitTotal h = 65536 ∧ h.toList.countP (fun n => decide (0 < n)) < 64 := by decide +kernel

/-- A slot waiting in ARMING under AT_TIME for an arm time 1,000 ticks ahead. -/
def waiting : State :=
  atHorizon 1000 (withSlot 3 (fun x => { x with
    plan := { Plan.atRelease with armSource := .atTime, armTime := 2000 }, state := .arming }) base)

/-- A slot in ARMING, and one in IDLE. -/
theorem witness_WritePlanApplies : (waiting.port 0).rights.getLsbD 0 = true ∧ Passes none (waiting.slot 3).planGen
    ∧ (∀ item ∈ [PlanItem.gate 0], item.isKnown = true ∧ itemValid item = true)
    ∧ (resultingPlan (waiting.slot 3).plan [.gate 0]).ChainsUpward 3 ∧ (base.slot 3).state = .idle
    ∧ (waiting.slot 3).state = .arming ∧ (∀ i, (resultingPlan (waiting.slot 3).plan [.gate 0]).names i = true →
      (waiting.input i).state ≠ .calibrating)
    ∧ ¬(waiting.coarse ++ (0 : BitVec 8) - 73728 + waiting.offset - 2000).toNat < 2 ^ 63 :=
  ⟨by decide, .inl rfl, by decide, ⟨by decide, by decide⟩, by decide, by decide, by decide, by decide⟩

/-- Codes of every field at both ends of their ranges, and an item that is clamped. -/
theorem witness_PlanItemsClampAndReplace : ((4 : Byte) = (match Kind.timetag with | .reciprocal => 1 | .interval => 2 | .totalize => 3 | .timetag => 4))
    ∧ ((2 : Byte) = (match Sense.falling with | .rising => 1 | .falling => 2))
    ∧ ((2 : Byte) = (match ReportAs.period with | .frequency => 1 | .period => 2))
    ∧ ((4 : Byte) = (match ArmSource.slotDone with
      | .immediate => 1 | .atTime => 2 | .inputEdge => 3 | .slotDone => 4))
    ∧ ((3 : Byte) = (match RepeatMode.triggered with | .single => 1 | .continuous => 2 | .triggered => 3))
    ∧ itemClamped (.prescale 0) = true := by decide

theorem witness_WritePlanRefusals : (waiting.port 0).rights.getLsbD 0 = true
    ∧ (¬∀ item ∈ [PlanItem.kind 5], item.isKnown = true ∧ itemValid item = true)
    ∧ (¬∀ item ∈ [PlanItem.unknown 0x1A []], item.isKnown = true ∧ itemValid item = true)
    ∧ (let p := resultingPlan (waiting.slot 3).plan [.repeatMode 3]
      p.repeatMode = .triggered ∧ p.armSource = .atTime)
    ∧ (let p := resultingPlan (waiting.slot 3).plan [.armSource 4, .armSlot 3]
      p.armSource = .slotDone ∧ (3 : SlotId) ≤ p.armSlot)
    ∧ (let s := withInput 4 (fun x => { x with state := .calibrating }) waiting
      (s.slot 3).state ≠ .idle ∧ (resultingPlan (s.slot 3).plan [.inputA 4]).names 4 = true ∧ (s.input 4).state = .calibrating)
    ∧ (let p := resultingPlan (waiting.slot 3).plan [.armTime 1000]
      p.armSource = .atTime
        ∧ ((atHorizon 1024 waiting).coarse ++ (0 : BitVec 8) - 73728 + waiting.offset - p.armTime).toNat < 2 ^ 63) := by
  decide

theorem witness_WritePlanRefusals_chains : (resultingPlan (waiting.slot 3).plan [.inputA 4]).ChainsUpward 3
    ∧ (resultingPlan (waiting.slot 3).plan [.armTime 1000]).ChainsUpward 3 := by
  exact ⟨⟨by decide, by decide⟩, ⟨by decide, by decide⟩⟩

/-- A calibrating input; an arm time at the horizon and one just later; an IMMEDIATE plan; a slot in ARMING and in IDLE. -/
theorem witness_ArmEntersArming : (base.port 0).rights.getLsbD 0 = true
    ∧ (∃ i, (State.reset.slot 3).plan.names i = true ∧ (State.reset.input i).state = .calibrating)
    ∧ (¬∃ i, (waiting.slot 3).plan.names i = true ∧ (waiting.input i).state = .calibrating)
    ∧ (let horizon := (atHorizon 2048 waiting).coarse ++ (0 : BitVec 8) - 73728 + waiting.offset
      ¬(((2048 : Tick) - horizon).toNat < 2 ^ 63 ∧ (2048 : Tick) ≠ horizon)
        ∧ (((2049 : Tick) - horizon).toNat < 2 ^ 63 ∧ (2049 : Tick) ≠ horizon))
    ∧ (base.slot 3).plan.armSource ≠ .atTime ∧ (waiting.slot 3).state = .arming ∧ (base.slot 3).state = .idle := by decide

theorem witness_StopReturnsToIdle : (base.port 0).rights.getLsbD 0 = true ∧ (base.slot 3).state = .idle
    ∧ (waiting.slot 3).state = .arming ∧ (s9Starting.slot 9).state = .starting := by decide

/-- S9 in flight while the unit serves, its entry empty and held. -/
def busy : State := serving (tagOutcome 0 0) (atRaw 3000000 s9Starting)

/-- The arithmetic unit FREE, serving an entry taken earlier, and serving one taken at this very instant. -/
theorem witness_OutcomeFormed : s9Second.unit.service = none
    ∧ (busy.unit.service = some ⟨0, tagOutcome 0 0, 0, 15⟩ ∧ (0 : Tick) ≠ busy.rawTime)
    ∧ (0 : Tick) = (serving (tagOutcome 0 0) base).rawTime := by decide

/-- STOP; ARM and WRITE_PLAN that are accepted, under IMMEDIATE and under AT_TIME for an arm time one tick after the horizon;
an empty entry and a held one; and a slot that a TRIGGERED finish of this instant has re-armed. -/
theorem witness_AbortPlacesOutcome : (busy.port 0).rights.getLsbD 0 = true ∧ (busy.slot 9).state ≠ .idle
    ∧ (busy.slot 9).state ≠ .arming ∧ busy.unit.service = some ⟨0, tagOutcome 0 0, 0, 15⟩ ∧ (0 : Tick) ≠ busy.rawTime
    ∧ ((busy.slot 9).plan.armSource = .immediate
      ∧ ∀ i, (busy.slot 9).plan.names i = true → (busy.input i).state ≠ .calibrating)
    ∧ (let plan := resultingPlan (busy.slot 9).plan [.armSource 2, .armTime (busy.coarse ++ (0 : BitVec 8) - 73727)]
      let horizon := busy.coarse ++ (0 : BitVec 8) - 73728 + busy.offset
      plan.armSource = .atTime ∧ ¬(horizon - plan.armTime).toNat < 2 ^ 63 ∧ (plan.armTime - horizon).toNat < 2 ^ 63)
    ∧ (busy.slot 9).finished = none ∧ (busy.slot 9).plan.repeatMode ≠ .triggered
    ∧ ((withSlot 9 (fun x => { x with finished := some (tagOutcome 9 0) }) busy).slot 9).finished ≠ none
    ∧ (let s := withSlot 9 (fun x => { x with
          plan := { s9Plan with repeatMode := .triggered }
          data := { MeasData.empty with armingSince := busy.horizonTime, armInstant := some busy.horizonTime } }) busy
      (s.slot 9).data.armInstant = some s.horizonTime ∧ (s.slot 9).data.armingSince = s.horizonTime
        ∧ (s.slot 9).state = .starting) := by decide

theorem witness_AbortPlacesOutcome_plan : Passes none (busy.slot 9).planGen
    ∧ (∀ item ∈ [PlanItem.gate 0], item.isKnown = true ∧ itemValid item = true)
    ∧ (resultingPlan (busy.slot 9).plan [.gate 0]).ChainsUpward 9 :=
  ⟨.inl rfl, by decide, ⟨by decide, by decide⟩⟩

/-- A due stamp; and, of two stamps in order that horizon time has reached, on one input and on two, the first. -/
theorem witness_OffersComeInTimeOrder :
    (withStamp (stampAt 2600000 501) s9Starting).dueStamp 0 = some (stampAt 2600000 501)
    ∧ ∀ o ∈ [stampAt 2601000 502, ⟨1, .rising, 7, 2600000, 2600000, 0⟩],
      let s := { atHorizon 2601000 base with stamps := [stampAt 2600000 501, o] }
      stampAt 2600000 501 ∈ s.stamps ∧ s.Reached 2600000
      ∧ s.stamps.Pairwise (fun a b => (b.corrected - a.corrected).toNat < 2 ^ 63)
      ∧ (∀ o ∈ s.stamps, (o.corrected - 2600000).toNat < 2 ^ 63)
      ∧ ∀ o ∈ s.stamps, o.input = 0 → o.corrected = 2600000 → o = stampAt 2600000 501 := by
  unfold State.Reached
  decide +kernel

/-- Slots that ignore the stamp of IN0 at 700: S1 in GATING before its gate close, S4 in TAGGING below P, S5 in STARTING and S6
in ARMING from 701 on, S8 in STOPPING with that stamp as its start; and S7, which waits for a finish of S1. -/
def ignorant : State :=
  let at' (n : SlotId) (plan : Plan) (st : SlotState) (d : MeasData) := withSlot n fun x => { x with plan := plan, state := st, data := d }
  withStamp (stampAt 700 1) (at' 1 Plan.atRelease .gating
      { MeasData.empty with gateClose := 701, start := some (.stamp (stampAt 600 0) 600) }
    (at' 4 { Plan.atRelease with kind := .timetag, prescale := 2 } .tagging { MeasData.empty with previousTag := some ⟨0, 0⟩ }
    (at' 5 Plan.atRelease .starting { MeasData.empty with startFrom := 701 }
    (at' 6 { Plan.atRelease with armSource := .inputEdge } .arming { MeasData.empty with armingSince := 701 }
    (at' 7 { Plan.atRelease with armSource := .slotDone, armSlot := 1 } .arming MeasData.empty
    (at' 8 { Plan.atRelease with kind := .interval } .stopping { MeasData.empty with start := some (.stamp (stampAt 700 1) 700) }
      base))))))

theorem ignores_of_none {x : Slot} {st : Stamp} {scale h : Tick} (hf : x.fresh = [])
    (hj : x.judgeStamp 0 0 true ⟨st, scale, 0, 0⟩ = none) : x.Ignores st scale h :=
  ⟨fun m => (x.meets_iff 0 0 true ⟨st, scale, 0, 0⟩).1 m hj, by rw [hf]; exact nofun⟩

/-- The stamp is due, and the six slots meet together what is asked of slots that ignore it. -/
theorem witness_OffersComeInTimeOrder_ignored : ignorant.dueStamp 0 = some (stampAt 700 1)
    ∧ ∀ n ∈ ([1, 4, 5, 6, 7, 8] : List SlotId), (ignorant.slot n).state ≠ .idle
      ∧ (ignorant.slot n).Ignores (stampAt 700 1) (700 + ignorant.offset) ignorant.horizonTime
      ∧ ((ignorant.slot n).WaitsForFinish → (∀ e ∈ (ignorant.slot n).finishes, e.at' ≠ ignorant.horizonTime)
        ∧ (ignorant.slot n).plan.armSlot ∈ ([1, 4, 5, 6, 7, 8] : List SlotId)) := by
  refine ⟨by decide +kernel, ?_⟩
  unfold Slot.WaitsForFinish
  have h : ∀ n ∈ ([1, 4, 5, 6, 7, 8] : List SlotId), (ignorant.slot n).fresh = []
      ∧ (ignorant.slot n).judgeStamp 0 0 true ⟨stampAt 700 1, 700 + ignorant.offset, 0, 0⟩ = none := by decide +kernel
  have k : ∀ n ∈ ([1, 4, 5, 6, 7, 8] : List SlotId), (ignorant.slot n).state ≠ .idle
      ∧ (((ignorant.slot n).state = .arming ∧ (ignorant.slot n).plan.armSource = .slotDone
          ∧ (ignorant.slot n).data.gateOpen = none) →
        (∀ e ∈ (ignorant.slot n).finishes, e.at' ≠ ignorant.horizonTime)
        ∧ (ignorant.slot n).plan.armSlot ∈ ([1, 4, 5, 6, 7, 8] : List SlotId)) := by decide +kernel
  exact fun n hn => ⟨(k n hn).1, ignores_of_none (h n hn).1 (h n hn).2, (k n hn).2⟩

/-- A slot with a falling stamp of IN3 offered to it at an instant, which no plan of the tests can use. -/
def foreign (t : Tick) (x : Slot) : Slot := { x with fresh := [⟨⟨3, .falling, 7, t, t, 0⟩, t, t, 0⟩] }

theorem noOther_of_foreign {s : State} {n : SlotId} {x : Slot} {t : Tick} (h : s.slot n = foreign t x)
    (hA : x.plan.inputA ≠ 3) (hB : x.plan.inputB ≠ 3) (hR : x.plan.armInput ≠ 3) : s.NoOtherStamp n := by
  intro f hf _ ht
  rw [h] at hf ht
  obtain rfl := List.mem_singleton.1 hf
  rcases ht with ⟨_, e, _⟩ | ⟨_, e, _⟩ | ⟨_, e, _⟩
  · exact hA e.symm
  · exact hB e.symm
  · exact hR e.symm

/-- S9 in STARTING, a foreign stamp of the instant beside it; a start before its close and one at it. -/
theorem witness_StampStartsMeasurement :
    let s := withStamp (stampAt 2600000 501) (withSlot 9 (foreign 2600000) s9Starting)
    s.NoOtherStamp 9 ∧ ((s.slot 9).fresh.map (·.offeredAt)) = [s.horizonTime] ∧ s.dueStamp 0 = some (stampAt 2600000 501) ∧ (s.slot 9).state = .starting
    ∧ (s.slot 9).plan.kind = .reciprocal ∧ (s.slot 9).data.startStrict = false
    ∧ ((2600000 : Tick) - (s.slot 9).data.startFrom).toNat < 2 ^ 63
    ∧ (((s.slot 9).data.gateClose - 2600000).toNat < 2 ^ 63 ∧ 2600000 ≠ (s.slot 9).data.gateClose)
    ∧ ¬(((s.slot 9).data.gateClose - 2816000).toNat < 2 ^ 63 ∧ 2816000 ≠ (s.slot 9).data.gateClose) :=
  ⟨noOther_of_foreign (x := s9Starting.slot 9) rfl (by decide) (by decide) (by decide), by decide, by decide +kernel, by decide, by decide, by decide, by decide, by decide, by decide⟩

/-- An instant before which nothing of the part is due: before the start of horizon time, with nothing in flight. -/
theorem witness_EarlyEventsChangeNothing : State.reset.refPresent = false ∧ State.reset.refChanges = []
    ∧ State.reset.stamps = [] ∧ (State.reset.slot 0).state ≠ .arming ∧ (State.reset.slot 0).state ≠ .gating
    ∧ ((State.reset.slot 0).state ≠ .starting ∧ (State.reset.slot 0).state ≠ .stopping)
    ∧ State.reset.unit.service = none ∧ (State.reset.port 0).link = .ready
    ∧ (let s := atHorizon 1999 { waiting with refChanges := [⟨2000, .lost⟩] }
      s.refChanges.head? = some ⟨2000, .lost⟩ ∧ ¬(s.horizonTime - 2000).toNat < 2 ^ 63
        ∧ ¬(s.horizonTime + s.offset - (s.slot 3).plan.armTime).toNat < 2 ^ 63) := by decide

/-- An INTERVAL slot from IN1 RISING to IN0 RISING, in a state. -/
def intervalSlot (st : SlotState) (start : Option Endpoint) : State :=
  withSlot 2 (fun x => { x with
    plan := { Plan.atRelease with kind := .interval, inputA := 1 }, state := st, data := { MeasData.empty with start := start } })
    (serving (tagOutcome 0 0) base)

/-- An INTERVAL from IN0 to IN0 in STARTING, and one that waits for a start later than the stop at 699. -/
theorem witness_StampStartsMeasurement_interval :
    let s := withSlot 2 (fun x => { x with
      plan := { x.plan with inputA := 0 }, data := { x.data with startFrom := 699, startStrict := true } })
      (withStamp (stampAt 700 1) (intervalSlot .starting none))
    s.NoOtherStamp 2 ∧ s.dueStamp 0 = some (stampAt 700 1) ∧ (s.slot 2).plan.kind = .interval
    ∧ (s.slot 2).state = .starting
    ∧ (s.slot 2).plan.inputA = (s.slot 2).plan.inputB ∧ ((700 : Tick) - (s.slot 2).data.startFrom).toNat < 2 ^ 63
    ∧ (700 : Tick) ≠ (s.slot 2).data.startFrom :=
  ⟨(noOther_of_quiet (quiet_of_empty (by decide)) 2).1, by decide +kernel, by decide, by decide, by decide, by decide,
    by decide⟩

/-- S9's second measurement under a repeat mode, at a stop stamp, while the unit serves. -/
def stopping (r : RepeatMode) : State :=
  withStamp (stampAt 3700000 504) (withSlot 9 (fun x => { x with plan := { x.plan with repeatMode := r } })
    (serving (tagOutcome 0 0) s9Second))

theorem chains_atRelease {p : Plan} {n : SlotId} (h : p.armSource = .immediate) : p.ChainsUpward n := by
  unfold Plan.ChainsUpward; rw [h]; exact ⟨fun a => (by cases a.2), fun a => by cases a⟩

/-- S9's stop, under SINGLE and under TRIGGERED, its entry empty and held. -/
theorem witness_StampStopsReciprocal :
    let s := stopping .single
    s.NoOtherCause 9 ∧ s.dueStamp 0 = some (stampAt 3700000 504) ∧ s.unit.service = some ⟨0, tagOutcome 0 0, 0, 15⟩
    ∧ (0 : Tick) ≠ s.rawTime ∧ (s.slot 9).state = .stopping ∧ (s.slot 9).plan.kind = .reciprocal
    ∧ (s.slot 9).plan.ChainsUpward 9
    ∧ (s.slot 9).plan.repeatMode = .single ∧ (s.slot 9).data.start = some (.stamp (stampAt 3000000 503) 3000000)
    ∧ ((3700000 : Tick) - (s.slot 9).data.gateClose).toNat < 2 ^ 63 ∧ ((3700000 : Tick) - 3000000).toNat < 2 ^ 63
    ∧ (s.slot 9).finished = none ∧ ((stopping .triggered).slot 9).plan.repeatMode = .triggered
    ∧ ((withSlot 9 (fun x => { x with finished := some (tagOutcome 9 0) }) s).slot 9).finished ≠ none :=
  ⟨noOther_of_quiet (quiet_of_empty (by decide)) 9, by decide +kernel, by decide, by decide, by decide, by decide,
    chains_atRelease (by decide), by decide, by decide, by decide, by decide, by decide, by decide, by decide⟩

/-- The next close 3,328,000 is passed at 3,700,000 and not at 3,100,000. -/
theorem witness_ContinuousReciprocalGoesOn :
    let s := stopping .continuous
    s.NoOtherStamp 9 ∧ s.dueStamp 0 = some (stampAt 3700000 504) ∧ (s.slot 9).plan.repeatMode = .continuous
    ∧ (let close := (s.slot 9).data.runOrigin + ((s.slot 9).data.gateIndex + 1).setWidth 64 * (s.slot 9).plan.gate * 256
      ¬(2 ^ 62 ≤ ((3700000 : Tick) - close).toNat ∧ ((3700000 : Tick) - close).toNat < 2 ^ 63)
      ∧ ¬((close - 3700000).toNat < 2 ^ 63 ∧ 3700000 ≠ close) ∧ ((close - 3100000).toNat < 2 ^ 63 ∧ 3100000 ≠ close)) :=
  ⟨(noOther_of_quiet (quiet_of_empty (by decide)) 9).1, by decide +kernel, by decide, by decide⟩

/-- The same measurement stopped 2^62 ticks after the next close: the run ends. -/
theorem witness_ContinuousReciprocalGoesOn_lags :
    let s := withStamp (stampAt (3328000 + 2 ^ 62) 504) (stopping .continuous)
    let close := (s.slot 9).data.runOrigin + ((s.slot 9).data.gateIndex + 1).setWidth 64 * (s.slot 9).plan.gate * 256
    let at' : Tick := 3328000 + 2 ^ 62
    s.NoOtherStamp 9 ∧ s.dueStamp 0 = some (stampAt (3328000 + 2 ^ 62) 504) ∧ (s.slot 9).plan.InRange
    ∧ (2 ^ 62 ≤ (at' - close).toNat ∧ (at' - close).toNat < 2 ^ 63) ∧ (at' - (s.slot 9).data.gateClose).toNat < 2 ^ 63
    ∧ (at' - 3000000).toNat < 2 ^ 63 :=
  ⟨(noOther_of_quiet (quiet_of_empty (by decide)) 9).1, by decide +kernel,
    ⟨by decide +kernel, by decide +kernel, by decide +kernel, by decide⟩,
    by decide +kernel, by decide +kernel, by decide +kernel⟩

/-- A stop at the very time of the start on another input, the start offered at this instant, under SINGLE and under
TRIGGERED; and one on the start's own input, later. -/
theorem witness_StampStopsInterval :
    let first : Stamp := ⟨1, .rising, 1, 700, 700, 0⟩
    let s := withStamp (stampAt 700 1) (withSlot 2 (fun x => { x with fresh := [⟨first, 700, 700, 0⟩] })
      (intervalSlot .stopping (some (.stamp first 700))))
    (∀ f ∈ (s.slot 2).fresh, f.offeredAt = s.horizonTime ∧ f.endpoint = .stamp first 700) ∧ (s.slot 2).fresh ≠ []
    ∧ s.unit.service = some ⟨0, tagOutcome 0 0, 0, 15⟩ ∧ (s.slot 2).plan.armSource ≠ .slotDone ∧ s.dueStamp 0 = some (stampAt 700 1) ∧ (0 : Tick) ≠ s.rawTime ∧ (s.slot 2).state = .stopping
    ∧ (s.slot 2).plan.kind = .interval ∧ (s.slot 2).plan.ChainsUpward 2 ∧ (s.slot 2).plan.inputB = 0
    ∧ Endpoint.stamp first 700 ≠ .stamp (stampAt 700 1) (700 + s.offset)
    ∧ ((700 : Tick) - first.corrected).toNat < 2 ^ 63 ∧ (s.slot 2).finished = none
    ∧ (let own := stampAt 600 0
      own.input = (stampAt 700 1).input ∧ Endpoint.stamp own 600 ≠ .stamp (stampAt 700 1) (700 + s.offset)
        ∧ ((700 : Tick) - own.corrected).toNat < 2 ^ 63) :=
  ⟨by decide, by decide, by decide, by decide, by decide +kernel, by decide, by decide, by decide,
    chains_atRelease (by decide), by decide, by decide, by decide, by decide, by decide⟩

/-- A start at 700 on IN1 offered after a stop of the same time on IN0: the stop is judged again and ends the measurement;
and without a stamp of this instant, a stop after its start. -/
theorem witness_StampStopsInterval_stopFirst :
    (let st : Stamp := ⟨1, .rising, 1, 700, 700, 0⟩
      let g : Offered := ⟨stampAt 700 1, 700, 700, 1⟩
      let s := withStamp st (withSlot 2 (fun x => { x with fresh := [g] }) (intervalSlot .starting none))
      s.dueStamp 1 = some st ∧ s.unit.service = some ⟨0, tagOutcome 0 0, 0, 15⟩ ∧ (0 : Tick) ≠ s.rawTime
      ∧ (s.slot 2).state = .starting ∧ (s.slot 2).plan.kind = .interval ∧ (s.slot 2).plan.ChainsUpward 2
      ∧ (s.slot 2).plan.armSource ≠ .slotDone ∧ (s.slot 2).plan.inputA = 1 ∧ (s.slot 2).plan.inputB = 0
      ∧ ((700 : Tick) - (s.slot 2).data.startFrom).toNat < 2 ^ 63 ∧ (s.slot 2).data.startStrict = false
      ∧ ((s.slot 2).fresh.filter fun f => decide (f.offeredAt = s.horizonTime)) = [g]
      ∧ (g.st.corrected - st.corrected).toNat < 2 ^ 63)
    ∧ (withStamp (stampAt 700 1) (intervalSlot .stopping (some (.stamp ⟨1, .rising, 1, 600, 600, 0⟩ 600)))).Quiet :=
  ⟨⟨by decide +kernel, by decide, by decide, by decide, by decide, chains_atRelease (by decide), by decide, by decide,
    by decide, by decide, by decide, by decide, by decide⟩, quiet_of_empty (by decide)⟩

/-- S12 with its entry empty: with no quota, the edges since the previous tag being P; with the quota 3, which this tag
reaches, and its entry held; and at its first tag, at the arm instant itself. -/
theorem witness_StampIsTagged :
    let st : Stamp := ⟨6, .falling, 1008, 900000, 900000, 0⟩
    let s := withStamp st (withSlot 12 (fun x => { x with plan := { x.plan with quota := none }, finished := none }) s12)
    s.NoOtherCause 12 ∧ s.dueStamp 6 = some st ∧ (0 : Tick) ≠ s.rawTime ∧ (s.slot 12).state = .tagging
    ∧ (s.slot 12).plan.ChainsUpward 12
    ∧ (s.slot 12).data.previousTag = some ⟨1004, 0⟩ ∧ (s.slot 12).finished = none
    ∧ (s.slot 12).plan.prescale.toNat ≤ ((1008 : EdgeCount) - 1004).toNat
    ∧ ((s12.slot 12).plan.repeatMode ≠ .continuous ∧ (s12.slot 12).plan.quota = some 3
      ∧ (3 : BitVec 32).toNat ≤ (s12.slot 12).data.tags + 1 ∧ (s12.slot 12).finished ≠ none)
    ∧ (let y := { s12.slot 12 with data := { MeasData.empty with armInstant := some 900000 } }
      y.data.previousTag = none ∧ y.data.armInstant = some 900000 ∧ (st.corrected - 900000).toNat < 2 ^ 63) :=
  ⟨noOther_of_quiet (quiet_of_empty (by decide)) 12, by decide +kernel, by decide, by decide, chains_atRelease (by decide), by decide, by decide,
    by decide, by decide, by decide⟩

/-- A slot waiting under INPUT_EDGE, armed by IN0 RISING and starting on an input. -/
def edgeWaits (i : InputId) : State :=
  withSlot 2 (fun x => { x with
    plan := { Plan.atRelease with armSource := .inputEdge, inputA := i }, state := .arming, data := { MeasData.empty with armingSince := 700 } }) base

/-- Armed by the start's own stamp and by another, as RECIPROCAL and as TIMETAG with a quota of 2, while the unit serves. -/
theorem witness_InputEdgeArms :
    let s := withStamp (stampAt 700 1) (edgeWaits 1)
    s.NoOtherStamp 2 ∧ s.dueStamp 0 = some (stampAt 700 1) ∧ (s.slot 2).state = .arming ∧ (s.slot 2).data.gateOpen = none
    ∧ ((700 : Tick) - (s.slot 2).data.armingSince).toNat < 2 ^ 63
    ∧ ((s.slot 2).plan.armInput, (s.slot 2).plan.armSense) ≠ ((s.slot 2).plan.inputA, (s.slot 2).plan.senseA)
    ∧ (let y := (edgeWaits 0).slot 2
      (y.plan.armInput, y.plan.armSense) = (y.plan.inputA, y.plan.senseA) ∧ y.plan.kind = .reciprocal ∧ y.finished = none)
    ∧ (let z := (withSlot 2 (fun x => { x with plan := { x.plan with kind := .timetag, quota := some 2 } }) (edgeWaits 0)).slot 2
      z.plan.kind = .timetag ∧ (∀ q, z.plan.quota = some q → 1 < q.toNat))
    ∧ ∃ v, (serving (tagOutcome 0 0) s).unit.service = some v ∧ v.takenAt ≠ s.rawTime :=
  ⟨(noOther_of_quiet (quiet_of_empty (by decide)) 2).1, by decide +kernel, by decide, by decide, by decide, by decide,
    by decide, ⟨by decide, of_some rfl (by decide)⟩, ⟨_, rfl, by decide⟩⟩

/-- A TIMETAG run on the arm input whose first tag reaches its quota of 1, under SINGLE and under TRIGGERED. -/
theorem witness_InputEdgeArms_quota : ∀ r ∈ [RepeatMode.single, .triggered],
    let x := (withSlot 2 (fun x => { x with plan := { x.plan with kind := .timetag, quota := some 1, repeatMode := r } })
      (edgeWaits 0)).slot 2
    (x.plan.armInput, x.plan.armSense) = (x.plan.inputA, x.plan.senseA) ∧ x.plan.kind = .timetag
    ∧ x.plan.repeatMode ≠ .continuous ∧ x.plan.quota = some 1 ∧ (1 : BitVec 32).toNat ≤ 1 := by decide

/-- The first role's stamp, of IN1, was offered before the arm stamp of the same instant; as INTERVAL, where the arm stamp is
also of input B, as TIMETAG with a quota of 1 and of 2, and as TOTALIZE. -/
theorem witness_InputEdgeArms_startFirst :
    let g : Offered := ⟨⟨1, .rising, 4, 700, 700, 0⟩, 700, 700, 0⟩
    let s := withStamp (stampAt 700 1) (withSlot 2 (fun x => { x with fresh := [g] }) (edgeWaits 1))
    s.dueStamp 0 = some (stampAt 700 1) ∧ (s.slot 2).state = .arming ∧ (s.slot 2).plan.armSource = .inputEdge
    ∧ (s.slot 2).data.gateOpen = none ∧ ((700 : Tick) - (s.slot 2).data.armingSince).toNat < 2 ^ 63
    ∧ ((s.slot 2).fresh.filter fun f => decide (f.offeredAt = s.horizonTime)) = [g] ∧ (s.slot 2).plan.inputA = 1
    ∧ (s.slot 2).plan.senseA = .rising ∧ (s.slot 2).plan.kind = .reciprocal
    ∧ (g.st.corrected - (stampAt 700 1).corrected).toNat < 2 ^ 63 ∧ g.st.input ≠ (stampAt 700 1).input
    ∧ (let p := { (s.slot 2).plan with kind := .interval }
      ((stampAt 700 1).input, (stampAt 700 1).sense) = (p.inputB, p.senseB) ∧ (stampAt 700 1).corrected = g.st.corrected)
    ∧ (let p := { (s.slot 2).plan with kind := .timetag, quota := some 1 }
      p.repeatMode ≠ .continuous ∧ p.quota = some 1 ∧ (1 : BitVec 32).toNat ≤ 1 ∧ ¬(2 : BitVec 32).toNat ≤ 1) :=
  ⟨by decide +kernel, by decide, by decide, by decide, by decide, by decide, by decide, by decide, by decide, by decide,
    by decide, by decide, by decide⟩

theorem witness_TimedArmingAndGateClose :
    (let s := atHorizon 2000 waiting;
      (s.Quiet ∧ ∀ n, s.NoOtherCause n) ∧ s.horizonStarted = true ∧ (s.slot 3).state = .arming ∧ (s.slot 3).data.gateOpen = none
      ∧ (s.horizonTime + s.offset - (s.slot 3).plan.armTime).toNat < 2 ^ 63)
    ∧ (let s := atHorizon 2000 (withSlot 3 (fun x => { x with
          plan := Plan.atRelease, data := { MeasData.empty with armInstant := some 2000 } }) waiting)
      (s.Quiet ∧ ∀ n, s.NoOtherCause n) ∧ (s.slot 3).plan.armSource = .immediate ∧ (s.slot 3).data.armInstant = some 2000
      ∧ (s.horizonTime - 2000).toNat < 2 ^ 63)
    ∧ (let s := atHorizon 2816000 (withSlot 9 (fun x => { x with
          state := .gating, data := { x.data with start := some (.stamp (stampAt 2600000 501) 2600000) } }) s9Starting)
      (s.Quiet ∧ ∀ n, s.NoOtherCause n) ∧ (s.slot 9).state = .gating ∧ (s.slot 9).plan.kind = .reciprocal
      ∧ (s.horizonTime - (s.slot 9).data.gateClose).toNat < 2 ^ 63) :=
  ⟨⟨quietly_of_empty (by decide), by decide, by decide, by decide, by decide⟩,
    ⟨quietly_of_empty (by decide), by decide, by decide, by decide⟩,
    ⟨quietly_of_empty (by decide), by decide, by decide, by decide⟩⟩

/-- The first role's stamp, of IN0, was offered at the arm instant before the slot armed: under IMMEDIATE at the arm instant
itself and at the close of its gate, and under AT_TIME; as TIMETAG with a quota of 1 and of 2; and with the stop of an
INTERVAL, of IN1, beside it. -/
theorem witness_TimedArmingAndGateClose_stampFirst :
    let g : Offered := ⟨stampAt 2000 1, 2000, 2000, 0⟩
    let f : Offered := ⟨⟨1, .rising, 4, 2000, 2000, 0⟩, 2000, 2000, 0⟩
    let s := atHorizon 2000 (withSlot 3 (fun x => { x with
      plan := Plan.atRelease, data := { MeasData.empty with armInstant := some 2000 }, fresh := [g] }) waiting)
    s.horizonStarted = true ∧ (s.slot 3).state = .arming ∧ (s.slot 3).data.gateOpen = none
    ∧ ((s.slot 3).plan.armSource = .immediate ∧ (s.slot 3).data.armInstant = some 2000 ∧ (s.horizonTime - 2000).toNat < 2 ^ 63)
    ∧ ((waiting.slot 3).plan.armSource = .atTime ∧ (2000 : Tick) = (waiting.slot 3).plan.armTime - s.offset
      ∧ (s.horizonTime + s.offset - (waiting.slot 3).plan.armTime).toNat < 2 ^ 63)
    ∧ ((s.slot 3).fresh.filter fun e => decide (e.offeredAt = s.horizonTime)) = [g]
    ∧ g.st.input = (s.slot 3).plan.inputA ∧ g.st.sense = (s.slot 3).plan.senseA ∧ (g.st.corrected - 2000).toNat < 2 ^ 63
    ∧ (let close := 2000 + (s.slot 3).plan.gate * 256
      ((close - g.st.corrected).toNat < 2 ^ 63 ∧ g.st.corrected ≠ close) ∧ ¬((close - close).toNat < 2 ^ 63 ∧ close ≠ close))
    ∧ (let p := { (s.slot 3).plan with kind := .timetag, quota := some 1 }
      p.repeatMode ≠ .continuous ∧ p.quota = some 1 ∧ (1 : BitVec 32).toNat ≤ 1 ∧ ¬(2 : BitVec 32).toNat ≤ 1)
    ∧ ([f, g].filter fun e => decide (e.offeredAt = s.horizonTime)) = [f, g]
    ∧ (let p := { Plan.atRelease with kind := .interval, inputB := 1 }
      f.st.input = p.inputB ∧ f.st.sense = p.senseB ∧ f.st.input ≠ g.st.input)
    ∧ (f.st.corrected - g.st.corrected).toNat < 2 ^ 63 := by decide

/-- S9 in GATING at its gate close, with a stamp of that instant that it has not taken; under each repeat mode. -/
theorem witness_TimedArmingAndGateClose_stopFirst : ∀ r ∈ [RepeatMode.single, .triggered, .continuous],
    let g : Offered := ⟨stampAt 2816000 504, 2816000, 2816000, 0⟩
    let s := atHorizon 2816000 (withSlot 9 (fun x => { x with
      plan := { x.plan with repeatMode := r }, state := .gating, fresh := [g]
      data := { x.data with start := some (.stamp (stampAt 2600000 501) 2600000) } }) s9Starting)
    s.horizonStarted = true ∧ (s.slot 9).state = .gating ∧ (s.slot 9).plan.kind = .reciprocal
    ∧ (s.slot 9).plan.armSource = .immediate ∧ (s.slot 9).plan.repeatMode = r
    ∧ (s.slot 9).data.start = some (.stamp (stampAt 2600000 501) 2600000)
    ∧ (s.horizonTime - (s.slot 9).data.gateClose).toNat < 2 ^ 63
    ∧ ((s.slot 9).fresh.filter fun f => decide (f.offeredAt = s.horizonTime)) = [g]
    ∧ (g.st.corrected - (s.slot 9).data.gateClose).toNat < 2 ^ 63 ∧ (g.st.corrected - 2600000).toNat < 2 ^ 63
    ∧ g.st.corrected ≠ 2600000 := by decide

theorem witness_DeadlineEndsNoSignal :
    let s := atHorizon 5632000 (withSlot 9 (fun x => { x with plan := { x.plan with repeatMode := .single } })
      (serving (tagOutcome 0 0) s9Second))
    (s.Quiet ∧ ∀ n, s.NoOtherCause n) ∧ s.horizonStarted = true ∧ s.unit.service = some ⟨0, tagOutcome 0 0, 0, 15⟩ ∧ (0 : Tick) ≠ s.rawTime
    ∧ (s.slot 9).state = .stopping ∧ (s.horizonTime - (s.slot 9).data.deadline).toNat < 2 ^ 63 ∧ s.stamps = []
    ∧ (s.slot 9).plan.repeatMode = .single ∧ (s9Second.slot 9).plan.repeatMode = .continuous
    ∧ ((stopping .triggered).slot 9).plan.repeatMode = .triggered ∧ (s.slot 9).finished = none :=
  ⟨quietly_of_empty (by decide), by decide, by decide, by decide, by decide, by decide, by decide, by decide, by decide,
    by decide, by decide⟩

/-- A TOTALIZE slot S2 under a repeat mode, in a state, its gate from 512 to 1,024, while the unit serves. -/
def totalizing (r : RepeatMode) (st : SlotState) (start : Option Endpoint) : State :=
  withSlot 2 (fun x => { x with
    plan := { Plan.atRelease with kind := .totalize, inputA := 1, repeatMode := r }, state := st
    data := { MeasData.empty with gateOpen := some 512, gateClose := 1024, start := start } }) (serving (tagOutcome 0 0) base)

theorem witness_GateOfTotalize :
    (let s := atHorizon 512 (totalizing .single .arming none);
      (s.Quiet ∧ ∀ n, s.NoOtherCause n) ∧ s.horizonStarted = true ∧ (s.slot 2).state = .arming ∧ (s.slot 2).plan.kind = .totalize
      ∧ (s.slot 2).data.gateOpen = some 512 ∧ (s.horizonTime - 512).toNat < 2 ^ 63)
    ∧ (let s := atHorizon 1024 (totalizing .continuous .gating (some (.boundary 512 512 7)))
      (s.Quiet ∧ ∀ n, s.NoOtherCause n) ∧ s.unit.service = some ⟨0, tagOutcome 0 0, 0, 15⟩ ∧ (0 : Tick) ≠ s.rawTime ∧ (s.slot 2).state = .gating
      ∧ (s.slot 2).data.start = some (.boundary 512 512 7) ∧ (s.slot 2).finished = none
      ∧ (s.slot 2).plan.ChainsUpward 2 ∧ (s.slot 2).plan.repeatMode = .continuous ∧ (s.horizonTime - (s.slot 2).data.gateClose).toNat < 2 ^ 63) :=
  ⟨⟨quietly_of_empty (by decide), by decide, by decide, by decide, by decide, by decide⟩,
    ⟨quietly_of_empty (by decide), by decide, by decide, by decide, by decide, by decide, chains_atRelease (by decide),
      by decide, by decide⟩⟩

/-- Beside the close of S2's gate, S5 in STARTING under SLOT_DONE of S2, and S6 under another arm source. -/
theorem witness_GateOfTotalize_others :
    let s := atHorizon 1024 (withSlot 5 (fun x => { x with
      plan := { Plan.atRelease with armSource := .slotDone, armSlot := 2 }, state := .starting })
      (totalizing .single .gating (some (.boundary 512 512 7))))
    s.Quiet ∧ ¬(s.slot 5).WaitsForFinish ∧ (s.slot 5).plan.armSlot = 2 ∧ (s.slot 6).plan.armSource ≠ .slotDone :=
  ⟨quiet_of_empty (by decide), fun h => absurd h.1 (by decide), by decide, by decide⟩

theorem witness_SlotDoneArmsDependents :
    let s := atHorizon 1024 (withSlot 5 (fun x => { x with
      plan := { Plan.atRelease with armSource := .slotDone, armSlot := 2 }, state := .arming })
      (totalizing .single .gating (some (.boundary 512 512 7))))
    (s.Quiet ∧ ∀ n, s.NoOtherCause n) ∧ s.horizonStarted = true ∧ (2 : SlotId) < 5 ∧ (s.slot 2).state = .gating ∧ (s.slot 2).plan.kind = .totalize
    ∧ (s.horizonTime - (s.slot 2).data.gateClose).toNat < 2 ^ 63 ∧ (s.slot 5).state = .arming
    ∧ (s.slot 5).plan.armSource = .slotDone ∧ (s.slot 5).data.gateOpen = none ∧ (s.slot 5).plan.armSlot = 2 :=
  ⟨quietly_of_empty (by decide), by decide, by decide, by decide, by decide, by decide, by decide, by decide, by decide,
    by decide⟩

/-- S2's stop, as RECIPROCAL, as INTERVAL and as a tag, arms S5, which waits for it. -/
theorem witness_SlotDoneArmsDependents_stamp :
    let s := withSlot 5 (fun x => { x with
      plan := { Plan.atRelease with armSource := .slotDone, armSlot := 2 }, state := .arming })
      (withStamp (stampAt 700 2) (intervalSlot .stopping (some (.stamp ⟨1, .rising, 1, 700, 700, 0⟩ 700))))
    (s.Quiet ∧ ∀ n, s.NoOtherCause n) ∧ s.dueStamp 0 = some (stampAt 700 2) ∧ (s.slot 2).EndsAt (stampAt 700 2) 700
    ∧ ({ s.slot 2 with
         plan := { Plan.atRelease with inputA := 0 }
         data := { MeasData.empty with gateClose := 700, start := some (.stamp (stampAt 699 1) 699) } } : Slot).EndsAt
        (stampAt 700 2) 700
    ∧ ({ s.slot 2 with
         plan := { Plan.atRelease with kind := .timetag }, state := .tagging
         data := { MeasData.empty with previousTag := some ⟨1, 0⟩ } } : Slot).EndsAt (stampAt 700 2) 700
    ∧ (s.slot 5).state = .arming ∧ (s.slot 5).plan.armSlot = 2 ∧ (s.slot 5).usedUp = [] :=
  ⟨quietly_of_empty (by decide), by decide +kernel,
    .inr (.inl ⟨by decide, by decide, by decide, by decide, _, rfl, by decide, by decide⟩),
    .inl ⟨rfl, .inr (by decide), by decide, by decide, by decide, _, rfl, by decide, by decide⟩,
    .inr (.inr ⟨rfl, rfl, by decide, by decide, by decide⟩), by decide, by decide, by decide⟩

/-- S5, which waits for S2, as TIMETAG on the input of S2's stop, with a quota of 1, under SINGLE and under TRIGGERED. -/
theorem witness_SlotDoneArmsDependents_tag : ∀ r ∈ [RepeatMode.single, .triggered],
    let y := (withSlot 5 (fun x => { x with
      plan := { Plan.atRelease with kind := .timetag, quota := some 1, repeatMode := r, armSource := .slotDone, armSlot := 2 }
      state := .arming }) base).slot 5
    y.plan.kind = .timetag ∧ (stampAt 700 2).input = y.plan.inputA ∧ (stampAt 700 2).sense = y.plan.senseA
    ∧ y.plan.repeatMode = r ∧ y.plan.repeatMode ≠ .continuous ∧ y.plan.quota = some 1 ∧ (1 : BitVec 32).toNat ≤ 1
    ∧ y.finishes = [] ∧ y.usedUp = [] := by decide

/-- A TRIGGERED slot S5 under SLOT_DONE of S2 that stops at 700, where the finish of S2 was seen at that instant. -/
theorem witness_FinishSeenArmsAtItsInstant :
    let s := withSlot 5 (fun x => { x with
      plan := { Plan.atRelease with armSource := .slotDone, armSlot := 2, repeatMode := .triggered }, state := .stopping
      data := { MeasData.empty with gateClose := 700, start := some (.stamp (stampAt 600 1) 600) }
      finishes := [⟨700, none, 700⟩] }) (withStamp (stampAt 700 2) base)
    s.dueStamp 0 = some (stampAt 700 2) ∧ (∀ k, (s.slot k).fresh = []) ∧ (s.slot 5).EndsAt (stampAt 700 2) 700
    ∧ (s.slot 5).plan.armSlot < 5 ∧ (s.slot 5).finishes = [⟨700, none, 700⟩] ∧ (700 : Tick) = s.horizonTime
    ∧ (none : Option Stamp) ≠ some (stampAt 700 2) :=
  ⟨by decide +kernel, by decide,
    .inl ⟨by decide, .inr (by decide), by decide, by decide, by decide, _, rfl, by decide, by decide⟩, by decide, by decide,
    by decide, by decide⟩

/-- The same slot as TIMETAG, whose second tag at 700 reaches its quota of 2. -/
theorem witness_FinishSeenArmsAtItsInstant_tag :
    let x : Slot := { base.slot 5 with
      plan := { Plan.atRelease with kind := .timetag, quota := some 2, armSource := .slotDone, armSlot := 2, repeatMode := .triggered }
      state := .tagging, data := { MeasData.empty with previousTag := some ⟨1, 0⟩, tags := 1 } }
    x.EndsAt (stampAt 700 2) 700 ∧ x.plan.kind = .timetag ∧ x.plan.quota = some 2 ∧ (2 : BitVec 32).toNat ≤ x.data.tags + 1 :=
  ⟨.inr (.inr ⟨rfl, rfl, by decide, by decide, by decide⟩), rfl, rfl, by decide⟩

/-- A stamp of IN0 and one of IN5 at 700. S2 is TIMETAG on IN0, armed by IN5; S5 waits, or stops by the stamp of IN0, under
SLOT_DONE of S2 and TRIGGERED. -/
def oneInstant (x : Slot → Slot) : State :=
  withSlot 5 (fun y => x { y with
      plan := { Plan.atRelease with armSource := .slotDone, armSlot := 2, repeatMode := .triggered, inputA := 0 } })
    (withSlot 2 (fun y => { y with
        plan := { Plan.atRelease with kind := .timetag, armSource := .inputEdge, armInput := 5 }, state := .arming
        data := { MeasData.empty with armingSince := 690 } })
      { atHorizon 700 base with stamps := [stampAt 700 2, ⟨5, .rising, 8, 700, 700, 0⟩] })

/-- R71, R72, R77: the stamp that has finished S5 does not arm it as S2's tag, whichever stamp of the instant is offered
first. -/
theorem test_used_up_stamp :
    let s := oneInstant fun y => { y with
      state := .stopping, data := { MeasData.empty with gateClose := 700, start := some (.stamp (stampAt 600 1) 600) } }
    ∀ t ∈ [after (.stampOffer 5) (after (.stampOffer 0) s), after (.stampOffer 0) (after (.stampOffer 5) s)],
      (t.slot 5).state = .arming ∧ (t.slot 5).data = { MeasData.empty with armingSince := 700 }
      ∧ (t.slot 2).data.tags = 1 := by decide +kernel

/-- S5 waits while the stamp of IN5 arms S2, which then tags that of IN0: where it has finished S5, and where it has not. -/
theorem witness_FinishSeenArmsAtItsInstant_usedUp : ∀ u ∈ [[], [(⟨stampAt 700 2, 700, 700, 0⟩ : Offered)]],
    let f : Offered := ⟨stampAt 700 2, 700, 700, 0⟩
    let s := withSlot 2 (fun y => { y with fresh := [f] })
      { oneInstant fun y => { y with state := .arming, usedUp := u } with stamps := [⟨5, .rising, 8, 700, 700, 0⟩] }
    s.dueStamp 5 = some ⟨5, .rising, 8, 700, 700, 0⟩ ∧ (s.slot 5).plan.armSlot = 2 ∧ (s.slot 5).state = .arming
    ∧ (s.slot 5).data.gateOpen = none ∧ (s.slot 5).fresh = [] ∧ (s.slot 5).finishes = [] ∧ (s.slot 5).plan.inputA ≠ 5
    ∧ (s.slot 2).state = .arming ∧ (s.slot 2).plan.armInput = 5 ∧ (s.slot 2).plan.inputA = 0
    ∧ ((s.slot 2).fresh.filter fun g => decide (g.offeredAt = s.horizonTime)) = [f]
    ∧ (f.st.corrected - 700).toNat < 2 ^ 63 ∧ ((700 : Tick) - (s.slot 2).data.armingSince).toNat < 2 ^ 63
    ∧ (u = [] ∨ ∃ g ∈ (s.slot 5).usedUp, g.offeredAt = s.horizonTime ∧ g.st = f.st) := by decide +kernel

/-- A unit that is FREE, one that serves an entry taken earlier, and one that took S5's at this instant, with S2 or with S9
waiting beside it. -/
theorem witness_ArbiterGrantsRoundRobin : ([2, 5, 11] : List SlotId).Pairwise (· < ·) ∧ nextGrant 5 [2, 5, 11] = some 11
    ∧ nextGrant 11 [2, 5, 11] = some 2 ∧ base.unit.service = none
    ∧ (let v : Service := ⟨5, tagOutcome 5 0, 0, 15⟩
      v.takenAt = base.rawTime ∧ v.takenAt ≠ (atRaw 1 base).rawTime
        ∧ nextGrant v.grantedBefore [2, 5] = some 2 ∧ nextGrant v.grantedBefore [5, 9] = some v.slot) := by decide

/-- A valued RECIPROCAL outcome of S4: the worked case of chapter 6. -/
def worked (r : ReportAs) : Outcome :=
  ⟨4, .reciprocal, r, 0, .valued, ⟨false, false, false, false, false, false⟩, some (.stamp (stampAt 256000075 1) 256000075),
    some (.stamp (stampAt 320000198 10001) 320000198), none, 0⟩

/-- A valued outcome of each kind and both report forms, one that ended NO_SIGNAL and one that ended ABORTED. -/
theorem witness_CompletionRecordsOutcome : (∀ o, (serving o base).unit.service = some ⟨o.slot, o, 0, 15⟩)
    ∧ (∀ r, (worked r).Shaped ∧ (worked r).kind = .reciprocal ∧ (worked r).result = .valued)
    ∧ ({ worked .frequency with kind := .interval } : Outcome).Shaped
    ∧ ({ worked .frequency with
      kind := .totalize, start := some (.boundary 512 512 9), stop := some (.boundary 1024 1024 12) } : Outcome).Shaped
    ∧ (tagOutcome 1 0).Shaped
    ∧ ({ worked .frequency with result := .noSignal, flags := ⟨false, true, false, false, false, false⟩, stop := none }
      : Outcome).Shaped
    ∧ ({ worked .frequency with
      result := .aborted, flags := ⟨true, false, false, false, false, false⟩, start := none, stop := none } : Outcome).Shaped
    ∧ ((worked .frequency).record.edges, (worked .frequency).record.duration, (worked .frequency).record.value)
      = (some 10000, some 64000123, some 9999980781287) := by
  refine ⟨fun _ => rfl, fun r => ⟨⟨?_, ?_, ?_, ?_, ?_⟩, rfl, rfl⟩, ⟨?_, ?_, ?_, ?_, ?_⟩, ⟨?_, ?_, ?_, ?_, ?_⟩,
    shaped_tagOutcome 1 0, ⟨?_, ?_, ?_, ?_, ?_⟩, ⟨?_, ?_, ?_, ?_, ?_⟩, by decide⟩ <;> simp [worked]

theorem witness_CompletionWritesRecord :
    let s := serving (tagOutcome 1 0) (readers [heldRecord 5000 0] 5001)
    s.unit.service = some ⟨1, tagOutcome 1 0, 0, 15⟩ ∧ s.log.held.length < 512 := by decide

/-- A full log: 512 records of S0 from 5,000 on, which P0 wants and P1 does not. -/
def fullLog (policy : FullPolicy) : State :=
  let s := readers ((List.range 512).map fun k => heldRecord (5000 + k) 0) 5512
  serving (tagOutcome 0 0) { s with log := { s.log with policy := policy } }

theorem witness_FullLogPolicies : ((fullLog .overwrite).unit.service = some ⟨0, tagOutcome 0 0, 0, 15⟩
      ∧ (fullLog .overwrite).log.held.head? = some (heldRecord 5000 0) ∧ 512 ≤ (fullLog .overwrite).log.held.length
      ∧ ((fullLog .overwrite).port 0).wants (heldRecord 5000 0) = true
      ∧ ((fullLog .overwrite).port 1).wants (heldRecord 5000 0) = false)
    ∧ (fullLog .hold).log.policy = .hold := by decide +kernel

theorem witness_SubscribeChangesOwnReading : ((3 : Byte) = 1 ∨ (3 : Byte) = 2 ∨ (3 : Byte) = 3)
    ∧ ((0 : Byte) = 0 ∨ (0 : Byte) = 1 ∨ (0 : Byte) = 2)
    ∧ ¬(((1 : Byte) = 1 ∨ (1 : Byte) = 2 ∨ (1 : Byte) = 3) ∧ ((3 : Byte) = 0 ∨ (3 : Byte) = 1 ∨ (3 : Byte) = 2)) := by decide

/-- The log of the example of chapter 7 after its first two rows is legal, with P0 wanting its oldest record. -/
theorem witness_LogLaws : (readers [heldRecord 5000 0, heldRecord 5001 1] 5002).LogLaws where
  runs := ⟨by decide, ⟨rfl, rfl, trivial⟩, by decide⟩
  cursors := fun p => by unfold Port.CursorInLog; revert p; decide
  thresholds := fun p => by unfold Port.ThresholdInRange; revert p; decide
  oldestWanted := fun e h => by cases h; decide
  records := by
    intro e h
    have : e = heldRecord 5000 0 ∨ e = heldRecord 5001 1 := by simpa [readers, withPort, State.setPort] using h
    rcases this with rfl | rfl <;> exact Or.inr ⟨rfl, rfl, rfl, rfl⟩
  starts := by decide
  finished := fun n o h => by revert n; exact fun n => of_none (by revert n; decide) o
  service := fun v h => by cases h

/-- LOG_STATUS on that log. -/
theorem witness_ReadingRequestsReport_log : (readers [heldRecord 5000 0, heldRecord 5001 1] 5002).log.Runs :=
  witness_LogLaws.runs

/-- READ_RESULTS on that log; k at both ends of its clamp. -/
theorem witness_ReadResultsDelivers : (readers [heldRecord 5000 0, heldRecord 5001 1] 5002).LogLaws
    ∧ ((0 : Byte) = 0 ∨ 4 < (0 : Byte).toNat) ∧ ¬((4 : Byte) = 0 ∨ 4 < (4 : Byte).toNat) := ⟨witness_LogLaws, by decide, by decide⟩

theorem witness_SetLogSetsPolicy : (base.port 0).rights.getLsbD 0 = true ∧ Passes (some 0) base.log.gen
    ∧ ((2 : Byte) = 1 ∨ (2 : Byte) = 2) ∧ ¬((0 : Byte) = 1 ∨ (0 : Byte) = 2)
    ∧ ¬(State.reset.port 0).rights.getLsbD 0 = true ∧ ¬Passes (some 1) base.log.gen :=
  ⟨by decide, .inr rfl, by decide, by decide, by decide, fun h => by rcases h with h | h <;> cases h⟩

theorem witness_ResetMeasurementClears : (base.port 0).rights.getLsbD 0 = true := by decide

/-- Each link state, a selection without a complete byte, a preparation whose response is formed, and an ignored selection. -/
theorem witness_SelectionsAndPreparation :
    let s := fun link => withPort 1 (fun q => { q with link := link, prepared := false }) base
    (base.port 1).link = .ready ∧ (base.port 1).ignoring = false ∧ ((s .preparing).port 1).link = .preparing
    ∧ ((s .selected).port 1).link = .selected ∧ ((s .selected).port 1).response = some ⟨.none, 0, 0, []⟩
    ∧ [true, false, true, false, true, false, true].length < 8 ∧ ((s .early).port 1).link = .early
    ∧ ((s .early).port 1).response ≠ none ∧ ((s .early).port 1).arriving = none ∧ ((s .early).port 1).prepared = false
    ∧ ((withPort 1 (fun q => { q with ignoring := true }) base).port 1).ignoring = true := by decide

/-- Eight bits of a byte 85h, and five of a partial one behind them. -/
theorem witness_SelectionEndJudgesFrame :
    let s := after (.selectionStart 1) base
    let bits := [true, false, false, false, false, true, false, true, true, true, true, true, true]
    let bytes : List Byte := [0x85]
    (s.port 1).ignoring = false ∧ (s.port 1).link = .selected ∧ 8 ≤ bits.length
    ∧ (s.port 1).response = some ⟨.none, 0, 0, []⟩ ∧ bytes.length = bits.length / 8
    ∧ ∀ (j k : Nat), j < bytes.length → k < 8 → bits[8 * j + k]? = (bytes[j]?).map fun b => b.getLsbD (7 - k) := by
  refine ⟨by decide, by decide, by decide, by decide, by decide, fun j k hj => ?_⟩
  obtain rfl : j = 0 := by simpa using hj
  revert k
  decide

theorem witness_PortOwnRequests : ((1 : Byte) = 1 ∨ (1 : Byte) = 2 ∨ (1 : Byte) = 3) ∧ (127 : Byte).toNat < 128
    ∧ ¬(((1 : Byte) = 1 ∨ (1 : Byte) = 2 ∨ (1 : Byte) = 3) ∧ (128 : Byte).toNat < 128)
    ∧ ¬(((4 : Byte) = 1 ∨ (4 : Byte) = 2 ∨ (4 : Byte) = 3) ∧ (0 : Byte).toNat < 128) := by decide

theorem witness_RequestFrameIsTaken :
    let i := Instr.writePlan 1 9 5 (some 11) [.gate 0, .reportAs 2, .gate 25000000]
    i.wf = true ∧ (∃ payload, requestParts i = some (1, 9, .writePlan, payload)) ∧ (∃ frame, requestFrame i = some frame)
    ∧ Command.writePlan.permitted 0b001 = true := ⟨by decide, ⟨_, rfl⟩, ⟨_, rfl⟩, by decide⟩

/-- Two bytes; a length byte of 251 and one of 250 with nothing after it; a sound NULL frame, and one with the code 0; a
frame whose right is lacking, and one whose payload is no NULL's. -/
theorem witness_FrameVerdicts : ([1, 2] : List Byte).length < 3 ∧ 250 < (251 : Byte).toNat
    ∧ ((250 : Byte).toNat ≤ 250 ∧ ¬(250 : Byte).toNat + 2 ≤ ([] : List Byte).length)
    ∧ (let sum (code len : Byte) (payload : List Byte) := (crc (code :: 9 :: len :: payload)).toNat
      let rest (code len : Byte) (payload : List Byte) : List Byte :=
        payload ++ [BitVec.ofNat 8 (sum code len payload / 256), BitVec.ofNat 8 (sum code len payload)]
      judgeFrame 1 0 (1 :: 9 :: 0 :: rest 1 0 []) = .taken (.null 1 9)
      ∧ judgeFrame 1 0 (0 :: 9 :: 0 :: rest 0 0 []) = .unknownCommand 9 0
      ∧ judgeFrame 1 0 (0x32 :: 9 :: 1 :: rest 0x32 1 [3]) = .notPermitted 9 .arm
      ∧ judgeFrame 1 0 (1 :: 9 :: 1 :: rest 1 1 [3]) = .badPayload 9 .null) := by decide +kernel

theorem witness_LayoutsOfPlanRecordAndResponse : (tagOutcome 12 1).record.Shaped ∧ 79 < 80 := ⟨.inr ⟨rfl, rfl, rfl, rfl⟩, by decide⟩

/-- Horizon time started, two stamps in flight in order, the first just reached, and a candidate with a capture. -/
def inFlight : State :=
  { atHorizon 1000 (withInput 5 (fun x => { x with
      candidate := some ⟨.rising, 74500, 75012, some ⟨1, 291, 74536, 74516, 3⟩⟩ }) in5) with
    stamps := [stampAt 1000 4, stampAt 9000 5], pending := [.referenceEdge] }

theorem witness_StepKeepsEdgesLegal_horizon :
    inFlight.EdgesLegal ∧ inFlight.HorizonLegal ∧ ∃ t, step inFlight = .next t := by
  have k : (inFlight.input 5).candidate = some ⟨.rising, 74500, 75012, some ⟨1, 291, 74536, 74516, 3⟩⟩ := by decide +kernel
  have e : ∀ i : InputId, (i ≠ 5 → (inFlight.input i).candidate = none) ∧ (inFlight.input i).recent = [] := by decide +kernel
  refine ⟨fun i => ⟨fun c h => ?_, by rw [(e i).2]; nofun⟩, ⟨by decide, by decide, by decide, fun i c cap h h' => ?_⟩, ⟨_, rfl⟩⟩
  · by_cases g : i = 5
    · subst g; cases k.symm.trans h; exact ⟨2, by decide, by decide, by decide⟩
    · cases ((e i).1 g).symm.trans h
  · by_cases g : i = 5
    · subst g; cases k.symm.trans h; cases h'; decide
    · cases ((e i).1 g).symm.trans h

/-- A candidate in the last tick of its window with an edge kept beside it; a pin change takes a step. -/
theorem witness_StepKeepsEdgesLegal :
    (atRaw 511 (withInput 5 (fun x => { x with
      candidate := some ⟨.rising, 0, 512, none⟩, recent := [⟨.falling, 1⟩] }) in5)).EdgesLegal
    ∧ (∃ t, exec (.inputLevelChange 5 .pin .high 0) in5 = .next t)
    ∧ ∀ a b l, Instr.inputLevelChange 5 .pin .high 0 ≠ .deviceReset a b l := by
  refine ⟨fun i => ?_, ⟨_, rfl⟩, nofun⟩
  by_cases h : i = 5
  · subst h
    exact ⟨of_some rfl ⟨2, by decide, by decide, by decide⟩, by decide⟩
  · have e : ∀ i : InputId, i ≠ 5 → ((atRaw 511 (withInput 5 (fun x => { x with
        candidate := some ⟨.rising, 0, 512, none⟩, recent := [⟨.falling, 1⟩] }) in5)).input i).candidate = none
      ∧ ((atRaw 511 (withInput 5 (fun x => { x with
        candidate := some ⟨.rising, 0, 512, none⟩, recent := [⟨.falling, 1⟩] }) in5)).input i).recent = [] := by
      decide +kernel
    exact ⟨of_none (e i h).1, by rw [(e i h).2]; nofun⟩

/-- A legal state takes a step: the record of S1 is written. -/
theorem witness_StepKeepsLogLaws : (readers [heldRecord 5000 0, heldRecord 5001 1] 5002).LogLaws
    ∧ ∃ t, step { readers [heldRecord 5000 0, heldRecord 5001 1] 5002 with pending := [.readResults 0 9 1] } = .next t :=
  ⟨witness_LogLaws, ⟨_, rfl⟩⟩

/-- No slot outside IDLE names a calibrating input, while one input calibrates and one slot runs. -/
theorem witness_StepKeepsGuardAndPlans : (withInput 4 (fun x => { x with state := .calibrating }) in5).UsageGuard
    ∧ base.PlansLegal ∧ ∃ t, step { in5 with pending := [.arm 0 9 1] } = .next t := by
  refine ⟨?_, ?_, ⟨_, rfl⟩⟩
  · unfold State.UsageGuard; decide +kernel
  · intro n
    have h : ∀ n, (base.slot n).plan = Plan.atRelease := by decide
    rw [h n]
    exact ⟨⟨by decide, by decide, by decide, by decide⟩, ⟨by decide, fun h => by cases h⟩⟩

/-- The part after device reset with every table level at 7. -/
def levelTables : State :=
  { State.reset with inputs := Vector.ofFn fun _ : InputId => { Input.atRelease .low with table := Vector.replicate 160 7 } }

theorem witness_StepKeepsCalibrationLegal : levelTables.CalibrationLegal
    ∧ ∃ t, step { levelTables with pending := [.calibrationHit 2 0] } = .next t := by
  refine ⟨fun i => ?_, ⟨_, rfl⟩⟩
  have h : levelTables.input i = { Input.atRelease .low with table := Vector.replicate 160 7 } := by
    simp [State.input, levelTables]
  rw [h]
  exact ⟨fun c d _ => by simp, by decide +kernel, fun _ _ => rfl⟩

theorem witness_StepKeepsLinksLegal : base.LinksLegal ∧ ∃ t, step { base with pending := [.selectionStart 1] } = .next t := by
  refine ⟨fun p => ?_, ⟨_, rfl⟩⟩
  have h : ∀ p, (base.port p).link = .ready ∧ (base.port p).prepared = true ∧ (base.port p).response.isSome = true
    ∧ (base.port p).arriving = none := by decide
  obtain ⟨h1, h2, h3, h4⟩ := h p
  exact ⟨fun _ => h2, fun _ => ⟨h3, h4⟩, (fun e => by rw [h1] at e; cases e), (fun e => by rw [h2] at e; cases e), of_none h4, (fun _ => h1)⟩

theorem witness_FlagsStayUntilRead : (∃ t, exec (.readAttention 1 9) (withPort 0 (fun q => { q with flags := 1 }) base) = .next t)
    ∧ ((withPort 0 (fun q => { q with flags := 1 }) base).port 0).flags.getLsbD 0 = true
    ∧ (∀ a b l, Instr.readAttention 1 9 ≠ .deviceReset a b l)
    ∧ ∀ tag, Instr.readAttention 1 9 ≠ .readAttention 0 tag ∧ Instr.readAttention 1 9 ≠ .portReset 0 tag :=
  ⟨⟨_, rfl⟩, by decide, nofun, fun tag => ⟨by simp, nofun⟩⟩

theorem witness_GenerationsCountOwnRequests : (∃ t, exec (.setLog 0 9 none 2) base = .next t)
    ∧ ∀ a b l, Instr.setLog 0 9 none 2 ≠ .deviceReset a b l := ⟨⟨_, rfl⟩, nofun⟩

end Sys2Proof.Tests
end

section
/-! PROOFS. The step on an empty queue, device reset, and the reference (01_time_scale_and_reference.md). -/

namespace Sys2Proof.Machine

/-! ## Times as numbers -/

/-- A coarse count with a fine part, as a number of ticks (R2). -/
theorem toNat_coarse_append (c : Coarse) (f : BitVec 8) : (c ++ f : Tick).toNat = c.toNat * 256 + f.toNat := by
  rw [BitVec.toNat_append, ← Nat.shiftLeft_add_eq_or_of_lt f.isLt, Nat.shiftLeft_eq]

/-- One tick of raw time is one more (R1, R6). -/
theorem State.advance_rawTime (s : State) : s.advance.rawTime = s.rawTime + 1 := by
  apply BitVec.eq_of_toNat_eq
  unfold State.advance
  split
  · next h =>
    have h' : s.tick.toNat = 255 := congrArg BitVec.toNat h
    simp only [State.rawTime, toNat_coarse_append, BitVec.toNat_add, h']
    have := s.coarse.isLt
    simp
    omega
  · next h =>
    have h' : s.tick.toNat ≠ 255 := fun e => h (BitVec.eq_of_toNat_eq e)
    have h1 := s.tick.isLt
    have h2 := s.coarse.isLt
    simp only [State.rawTime, toNat_coarse_append, BitVec.toNat_add]
    simp
    omega

/-! ## The step on an empty queue -/

theorem step_dueEvent {s : State} {c : Instr} (hp : s.pending = []) (h : s.dueEvent = some c) : step s = exec c s := by
  unfold step; rw [hp]; dsimp only; rw [h]

theorem step_dueArrival {s t : State} {c : Instr} (hp : s.pending = []) (h : s.dueEvent = none)
    (ha : s.dueArrival = some (c, t)) : step s = exec c t := by
  unfold step; rw [hp]; dsimp only; rw [h, ha]

theorem step_tick {s : State} (hp : s.pending = []) (h : s.dueEvent = none) (ha : s.dueArrival = none) :
    step s = .next s.advance := by
  unfold step; rw [hp]; dsimp only; rw [h, ha]

/-- The request that arrives is that of the lowest-numbered port whose taken request has come to its arrival. -/
theorem State.dueArrival_lowest {s : State} {p : PortId} {a : Arrival} (ha : (s.port p).arriving = some a)
    (hd : s.Arrived p) (hl : ∀ q, q < p → ¬s.Arrived q) :
    s.dueArrival = some (a.request, s.setPort p { s.port p with arriving := none }) := by
  have hf : allPorts.find? s.arrivalDue = some p := by
    obtain ⟨q, hq⟩ := Option.isSome_iff_exists.1
      (List.find?_isSome.2 ⟨p, List.mem_finRange p, (s.arrivalDue_iff p).2 hd⟩ : (allPorts.find? s.arrivalDue).isSome = true)
    obtain ⟨hqd, before, after, hsplit, hbefore⟩ := List.find?_eq_some_iff_append.1 hq
    have hsorted : allPorts.Pairwise (· < ·) := List.pairwise_lt_finRange 4
    have hmem : p ∈ allPorts := List.mem_finRange p
    rw [hsplit] at hsorted hmem
    rcases List.mem_append.1 hmem with h | h
    · have := hbefore p h
      rw [(s.arrivalDue_iff p).2 hd] at this
      cases this
    · rcases List.mem_cons.1 h with rfl | h
      · exact hq
      · exact absurd ((s.arrivalDue_iff q).1 hqd) (hl q ((List.pairwise_cons.1 (List.pairwise_append.1 hsorted).2.1).1 p h))
  unfold State.dueArrival
  rw [hf]
  dsimp only
  rw [ha]
  rfl

theorem State.dueArrival_none {s : State} (h : ∀ p, ¬s.Arrived p) : s.dueArrival = none := by
  have hf : allPorts.find? s.arrivalDue = none := by
    rw [List.find?_eq_none]
    exact fun p _ hp => h p ((s.arrivalDue_iff p).1 hp)
  unfold State.dueArrival
  rw [hf]

/-- Settles O3, from what the part takes by itself: an event that is due, else the lowest-numbered arrival, else a tick. -/
theorem emptyQueueSteps : Obligations.EmptyQueueSteps := by
  intro s hp
  refine ⟨fun ⟨c, hc⟩ => ?_, fun hnone => ?_⟩
  · cases he : s.dueEvent with
    | none => exact absurd hc (State.dueEvent_none he c)
    | some d => exact ⟨d, State.dueEvent_due he, step_dueEvent hp he⟩
  · have he : s.dueEvent = none := by
      cases he : s.dueEvent with
      | none => rfl
      | some d => exact absurd (State.dueEvent_due he) (hnone d)
    refine ⟨fun p a ha hr hl => step_dueArrival hp he (State.dueArrival_lowest ha ⟨a, ha, hr⟩ hl), fun ha => ?_⟩
    refine ⟨s.advance, step_tick hp he (State.dueArrival_none ha), s.advance_rawTime, ?_⟩
    unfold State.advance
    split
    · next h =>
      refine ⟨rfl, fun hn => absurd h hn, fun _ => ⟨rfl, rfl, rfl, fun i => ?_⟩⟩
      simp [State.input, Input.forgetPassed, Config.horizonPeriods]
    · next h => exact ⟨rfl, fun _ => ⟨rfl, rfl, rfl, rfl⟩, fun e => absurd e h⟩

/-! ## Device reset -/

theorem hitTotal_emptyHistogram : hitTotal emptyHistogram = 0 := by
  simp [hitTotal, emptyHistogram]

theorem defaultTable_toNat (c : Code) : defaultTable[c].toNat = min 255 (c.val * 256 / 125) := by
  simp only [defaultTable, Fin.getElem_fin, Vector.getElem_ofFn, BitVec.toNat_ofNat]
  omega

/-- Settles O4, by reading each block of the state that device reset leaves. -/
theorem deviceResetValues : Obligations.DeviceResetValues := by
  intro a b lines s
  have hraw : ((0 : Coarse) ++ (0 : BitVec 8) : Tick) = 0 := by decide
  refine ⟨_, rfl, rfl, rfl, hraw, rfl, rfl, rfl, rfl, rfl, rfl, rfl, rfl, rfl, rfl, fun i => ?_, fun n => ?_, rfl, rfl,
    rfl, rfl, rfl, rfl, fun n => ?_, fun p => ?_⟩
  · simpa [State.input, State.atRelease, Input.atRelease, levelOfPin, hitTotal_emptyHistogram] using defaultTable_toNat
  · simp [State.slot, State.atRelease, Slot.atRelease, Plan.atRelease]
  · simp [State.atRelease]
  · simp [State.port, State.atRelease, Port.atRelease, Response.noneResponse]

/-! ## The reference and the horizon -/

/-- A change of the reference state sets REF at every port and is on its way to the horizon (R4, R5, R7). -/
theorem State.changeRef_port (s : State) (r : RefState) (p : PortId) :
    (s.changeRef r).port p = { s.port p with flags := (s.port p).flags ||| 0b0100000 } := by
  unfold State.changeRef State.raiseAll
  rw [State.port_raise]
  rfl

theorem execReferenceAbsent_due {s : State} (h : s.Due .referenceAbsent) : execReferenceAbsent s =
    .next (if s.refState = .locked then State.changeRef { s with refPresent := false, presenceTimer := 0 } .lost
      else { s with refPresent := false, presenceTimer := 0 }) := by
  unfold execReferenceAbsent
  rw [if_pos (s.due_iff_referenceAbsent.2 h)]
  split <;> rfl

/-- Settles O6, by the three meanings of the reference's events. -/
theorem referenceTimersMoveState : Obligations.ReferenceTimersMoveState := by
  refine ⟨fun s => rfl, fun s hp hg => ⟨fun hn => ?_, fun hl => ?_⟩, fun s hp hl hn => ?_⟩
  · show execReferenceAbsent s = _
    rw [execReferenceAbsent_due ⟨hp, hg⟩, if_neg hn]
  · refine ⟨_, (execReferenceAbsent_due ⟨hp, hg⟩).trans (by rw [if_pos hl]), rfl, fun p => ?_⟩
    exact State.changeRef_port _ _ _
  · refine ⟨s.changeRef .locked, ?_, rfl, fun p => State.changeRef_port _ _ _⟩
    show execReferenceLock s = _
    unfold execReferenceLock
    exact if_pos (s.due_iff_referenceLock.2 ⟨hp, hl, hn⟩)

theorem Slot.markRefFault_eq (x : Slot) : x.markRefFault =
    if x.state ≠ .idle ∧ x.state ≠ .arming then
      { x with data := { x.data with marks := { x.data.marks with refFault := true } } } else x := by
  unfold Slot.markRefFault
  cases h : x.state <;> simp [SlotState.inFlight]

/-- The last of the changes on their way whose time is now, where one is (R7). -/
theorem State.horizonRefNow_last {s : State} {earlier later : List RefChange} {c : RefChange}
    (hs : s.horizonStarted = true) (hc : s.refChanges = earlier ++ c :: later) (ht : c.changeTime = s.horizonTime)
    (hl : ∀ d ∈ later, d.changeTime ≠ s.horizonTime) : s.horizonRefNow = c.state := by
  have hlater : (later.filter fun d => s.horizonStarted && decide (d.changeTime = s.horizonTime)) = [] := by
    rw [List.filter_eq_nil_iff]
    intro d hd
    simp [hl d hd]
  unfold State.horizonRefNow
  rw [hc, List.filter_append, List.filter_cons_of_pos (by simp [hs, ht]), hlater, List.getLast?_append]
  rfl

/-- Where no change on its way has its time now, the horizon reference state stands (R7). -/
theorem State.horizonRefNow_none {s : State}
    (h : s.horizonStarted = false ∨ ∀ c ∈ s.refChanges, c.changeTime ≠ s.horizonTime) : s.horizonRefNow = s.horizonRef := by
  have hnil : (s.refChanges.filter fun c => s.horizonStarted && decide (c.changeTime = s.horizonTime)) = [] := by
    rw [List.filter_eq_nil_iff]
    intro c hc
    rcases h with h | h
    · simp [h]
    · simp [h c hc]
  unfold State.horizonRefNow
  rw [hnil]
  rfl

theorem State.horizonLocked_iff (s : State) : s.horizonLocked = true ↔ s.horizonRefNow = .locked := decide_eq_true_iff

/-- Settles O7: the start of horizon time, the change that reaches the horizon, and the reference state now. -/
theorem horizonTimeAndReference : Obligations.HorizonTimeAndReference := by
  refine ⟨fun s => ⟨fun hs hr => ?_, fun h => ?_⟩, fun s c rest hc hs hr => ?_, fun s => ⟨rfl, rfl, fun h => ?_, ?_⟩⟩
  · exact if_pos (s.due_iff_horizonStart.2 ⟨hs, hr⟩)
  · refine if_neg fun hd => ?_
    obtain ⟨h1, h2⟩ := s.due_iff_horizonStart.1 hd
    rcases h with h | h
    · rw [h] at h1; cases h1
    · omega
  · have hr' : s.reached c.changeTime = true := (s.reached_iff _).2 ⟨hs, hr⟩
    have he : exec .horizonRefChange s = .next (if c.state = .locked then
        { s with horizonRef := c.state, refChanges := rest }
        else State.mapSlots { s with horizonRef := c.state, refChanges := rest } fun _ x => x.markRefFault) := by
      show execHorizonRefChange s = _
      unfold execHorizonRefChange
      rw [hc]
      dsimp only
      rw [if_pos hr']
      split <;> rfl
    refine ⟨_, he, ?_, fun n => ?_⟩
    · split <;> rfl
    · split
      · next hl => rw [if_neg fun h => h.1 hl]; rfl
      · next hl =>
        rw [State.slot_mapSlots, Slot.markRefFault_eq]
        show (if (s.slot n).state ≠ .idle ∧ (s.slot n).state ≠ .arming then _ else _) = _
        simp only [hl, not_false_eq_true, true_and, ne_eq]
        rfl
  · rw [s.horizonLocked_iff, State.horizonRefNow_none h]
  · intro earlier later c hs hc ht hl
    rw [s.horizonLocked_iff, State.horizonRefNow_last hs hc ht hl]

end Sys2Proof.Machine
end

section
/-! PROOFS. Requests of the time-scale unit and the reading requests (R8 to R14, R34, R67, R136, R137), and what every
request meets before its owner acts. -/

namespace Sys2Proof.Machine

/-! ## Answers -/

theorem State.respond_answer (s : State) (p : PortId) (tag : Byte) (c : Command) (st : Status) (bs : List Byte) :
    s.respond p tag c st bs = s.setPort p ((s.port p).answer st tag c.code bs) := rfl

/-! ## The log's numbers on a legal log -/

theorem Log.Runs.occupancy_toNat {l : Log} (h : l.Runs) : l.occupancy.toNat = l.held.length := by
  have hle := h.atMost512
  have e : l.occupancy = BitVec.ofNat 32 l.held.length := by
    unfold Log.occupancy
    rw [← h.upToNext, BitVec.add_comm, BitVec.add_sub_cancel]
  rw [e, BitVec.toNat_ofNat]
  omega

theorem Log.Runs.oldestSeq_eq {l : Log} (h : l.Runs) : l.oldestSeq = l.nextSeq - BitVec.ofNat 32 l.held.length := by
  rw [← h.upToNext, BitVec.add_sub_cancel]

/-! ## The reading requests -/

theorem execReadTime_eq (p : PortId) (tag : Byte) (s : State) : execReadTime p tag s =
    .next (s.setPort p ((s.port p).answer .ok tag 0x10
      (bytesBE 8 s.timeAtArrival.toNat ++ bytesBE 2 s.timeGen.toNat ++ [s.refState.code]))) := rfl

theorem execReadInput_known (p : PortId) (tag : Byte) (i : InputId) (s : State) :
    execReadInput p tag (BitVec.ofNat 8 i.val) s =
      .next (s.setPort p ((s.port p).answer .ok tag 0x20 (readInputPayload (s.input i)))) := by
  unfold execReadInput; rw [numberOf_input]; rfl

theorem execReadPlan_known (p : PortId) (tag : Byte) (n : SlotId) (s : State) :
    execReadPlan p tag (BitVec.ofNat 8 n.val) s = .next (s.setPort p ((s.port p).answer .ok tag 0x30
      (planBlock (s.slot n).plan ++ slotStatusBytes (s.slot n).planGen (s.slot n).state))) := by
  unfold execReadPlan; rw [numberOf_slot]; rfl

theorem execReadInput_unknown (p : PortId) (tag : Byte) {b : Byte} (s : State) (h : 8 ≤ b.toNat) :
    execReadInput p tag b s = .next (s.setPort p ((s.port p).answer .badValue tag 0x20 [])) := by
  unfold execReadInput; rw [numberOf_above h]; rfl

theorem execReadPlan_unknown (p : PortId) (tag : Byte) {b : Byte} (s : State) (h : 16 ≤ b.toNat) :
    execReadPlan p tag b s = .next (s.setPort p ((s.port p).answer .badValue tag 0x30 [])) := by
  unfold execReadPlan; rw [numberOf_above h]; rfl

theorem execLatest_unknown (p : PortId) (tag : Byte) {b : Byte} (s : State) (h : 16 ≤ b.toNat) :
    execLatest p tag b s = .next (s.setPort p ((s.port p).answer .badValue tag 0x42 [])) := by
  unfold execLatest; rw [numberOf_above h]; rfl

/-- Settles O8: each reading request answers with the payload its rule tabulates, its codes those of R180. -/
theorem readingRequestsReport : Obligations.ReadingRequestsReport := by
  refine ⟨fun p tag s => ?_, fun p tag i s => ?_, fun p tag n s => ?_, fun p tag n s => ?_, fun p tag s h => ?_,
    fun p tag b s => ⟨execReadInput_unknown p tag s, fun h => ⟨execReadPlan_unknown p tag s h, execLatest_unknown p tag s h⟩⟩⟩
  · refine (execReadTime_eq p tag s).trans ?_
    cases s.refState <;> rfl
  · refine (execReadInput_known p tag i s).trans ?_
    unfold readInputPayload
    cases (s.input i).settings.source <;> cases (s.input i).settings.mode <;> cases (s.input i).state <;>
      cases (s.input i).lastOutcome <;> rfl
  · refine (execReadPlan_known p tag n s).trans ?_
    unfold slotStatusBytes
    rw [← List.append_assoc]
    cases (s.slot n).state <;> rfl
  · show execLatest p tag _ s = _
    unfold execLatest
    rw [numberOf_slot]
    dsimp only
    cases s.latest[n] <;> rfl
  · show Host.Outcome.next (s.setPort p ((s.port p).answer .ok tag 0x43 (logStatusPayload s.log (s.port p)))) = _
    unfold logStatusPayload
    rw [h.occupancy_toNat, h.oldestSeq_eq]
    cases s.log.policy <;> rfl

/-! ## Refusals -/

theorem generationMatches_other {g cur : Gen} (h : g ≠ cur) : generationMatches (some g) cur = false := decide_eq_false h

theorem generationMatches_iff (g : Option Gen) (cur : Gen) : generationMatches g cur = true ↔ Passes g cur := by
  cases g <;> simp [generationMatches, Passes]

theorem generationMatches_of_not_passes {g : Option Gen} {cur : Gen} (h : ¬Passes g cur) :
    generationMatches g cur = false := by
  rw [← generationMatches_iff] at h; simpa using h

theorem execStepTime_stale {p : PortId} {g : Option Gen} {s : State} (tag : Byte) (v : BitVec 64)
    (hr : (s.port p).rights.getLsbD 2 = true) (hg : ¬Passes g s.timeGen) : execStepTime p tag g v s =
      .next (s.setPort p ((s.port p).answer .stale tag 0x12 (bytesBE 2 s.timeGen.toNat))) := by
  unfold execStepTime
  rw [State.withRight_held tag _ ((permitted_time rfl).trans hr), generationMatches_of_not_passes hg]
  rfl

theorem execSetTime_stale {p : PortId} {g : Option Gen} {s : State} (tag : Byte) (v : BitVec 64)
    (hr : (s.port p).rights.getLsbD 2 = true) (hg : ¬Passes g s.timeGen) : execSetTime p tag g v s =
      .next (s.setPort p ((s.port p).answer .stale tag 0x11 (bytesBE 2 s.timeGen.toNat))) := by
  unfold execSetTime
  rw [State.withRight_held tag _ ((permitted_time rfl).trans hr), generationMatches_of_not_passes hg]
  rfl

theorem not_passes_some {g cur : Gen} (h : g ≠ cur) : ¬Passes (some g) cur := by
  rintro (e | e)
  · cases e
  · cases e; exact h rfl

theorem execSetInput_stale {p : PortId} {i : InputId} {g : Gen} {s : State} (tag src : Byte) (w k : BitVec 16) (m : Byte)
    (hr : (s.port p).rights.getLsbD 1 = true) (hg : g ≠ (s.input i).settingsGen) :
    execSetInput p tag (BitVec.ofNat 8 i.val) (some g) src w k m s =
      .next (s.setPort p ((s.port p).answer .stale tag 0x21 (bytesBE 2 (s.input i).settingsGen.toNat))) := by
  unfold execSetInput
  rw [State.withRight_held tag _ ((permitted_input rfl).trans hr), numberOf_input]
  dsimp only
  rw [generationMatches_other hg]
  rfl

theorem execSetInput_busy {p : PortId} {i : InputId} {g : Option Gen} {s : State} (tag src : Byte) (w k : BitVec 16)
    (m : Byte) (hr : (s.port p).rights.getLsbD 1 = true) (hg : Passes g (s.input i).settingsGen)
    (hb : s.inputBusy i = true) : execSetInput p tag (BitVec.ofNat 8 i.val) g src w k m s =
      .next (s.setPort p ((s.port p).answer .busy tag 0x21
        (bytesBE 2 (s.input i).settingsGen.toNat ++ [(s.input i).state.code]))) := by
  unfold execSetInput
  rw [State.withRight_held tag _ ((permitted_input rfl).trans hr), numberOf_input]
  dsimp only
  rw [generationMatches_of_passes hg, hb]
  rfl

theorem execSetInput_badCode {p : PortId} {i : InputId} {g : Option Gen} {s : State} {src m : Byte} (tag : Byte)
    (w k : BitVec 16) (hr : (s.port p).rights.getLsbD 1 = true) (hg : Passes g (s.input i).settingsGen)
    (hb : s.inputBusy i = false) (hc : sourceOfCode src = none ∨ CalMode.ofCode m = none) :
    execSetInput p tag (BitVec.ofNat 8 i.val) g src w k m s =
      .next (s.setPort p ((s.port p).answer .badValue tag 0x21 [])) := by
  unfold execSetInput
  rw [State.withRight_held tag _ ((permitted_input rfl).trans hr), numberOf_input]
  dsimp only
  rw [generationMatches_of_passes hg, hb]
  rcases hc with e | e
  · rw [e]; rfl
  · rw [e]; cases sourceOfCode src <;> rfl

theorem execSetInput_applied {p : PortId} {i : InputId} {g : Option Gen} {s : State} {src m : Byte} {source : Source}
    {mode : CalMode} (tag : Byte) (w k : BitVec 16) (hr : (s.port p).rights.getLsbD 1 = true)
    (hg : Passes g (s.input i).settingsGen) (hb : s.inputBusy i = false) (hs : sourceOfCode src = some source)
    (hm : CalMode.ofCode m = some mode) : execSetInput p tag (BitVec.ofNat 8 i.val) g src w k m s =
      .next ((s.applySettings p i ⟨source, clampWidth w, clampSkew k, mode⟩).respond p tag .setInput
        (clampStatus (decide (255 < w.toNat ∨ k.toInt < -1024 ∨ 1023 < k.toInt)))
        (setInputPayload ⟨source, clampWidth w, clampSkew k, mode⟩ ((s.input i).settingsGen + 1))) := by
  unfold execSetInput
  rw [State.withRight_held tag _ ((permitted_input rfl).trans hr), numberOf_input]
  dsimp only
  rw [generationMatches_of_passes hg, hb, hs, hm]
  rfl

theorem execSetInput_unknown {p : PortId} {b : Byte} {s : State} (tag : Byte) (g : Option Gen) (src : Byte)
    (w k : BitVec 16) (m : Byte) (hr : (s.port p).rights.getLsbD 1 = true) (h : 8 ≤ b.toNat) :
    execSetInput p tag b g src w k m s = .next (s.setPort p ((s.port p).answer .badValue tag 0x21 [])) := by
  unfold execSetInput
  rw [State.withRight_held tag _ ((permitted_input rfl).trans hr), numberOf_above h]
  rfl

theorem execCalibrate_unknown {p : PortId} {b : Byte} {s : State} (tag : Byte)
    (hr : (s.port p).rights.getLsbD 1 = true) (h : 8 ≤ b.toNat) :
    execCalibrate p tag b s = .next (s.setPort p ((s.port p).answer .badValue tag 0x22 [])) := by
  unfold execCalibrate
  rw [State.withRight_held tag _ ((permitted_input rfl).trans hr), numberOf_above h]
  rfl

theorem execCalibrate_busy {p : PortId} {i : InputId} {s : State} (tag : Byte)
    (hr : (s.port p).rights.getLsbD 1 = true) (h : s.inputBusy i = true) :
    execCalibrate p tag (BitVec.ofNat 8 i.val) s =
      .next (s.setPort p ((s.port p).answer .busy tag 0x22 [(s.input i).state.code])) := by
  unfold execCalibrate
  rw [State.withRight_held tag _ ((permitted_input rfl).trans hr), numberOf_input]
  dsimp only
  rw [if_pos h]
  rfl

theorem execWritePlan_stale {p : PortId} {n : SlotId} {g : Gen} {s : State} (tag : Byte) (items : List PlanItem)
    (hr : (s.port p).rights.getLsbD 0 = true) (hg : g ≠ (s.slot n).planGen) :
    execWritePlan p tag (BitVec.ofNat 8 n.val) (some g) items s =
      .next (s.setPort p ((s.port p).answer .stale tag 0x31 (bytesBE 2 (s.slot n).planGen.toNat))) := by
  have hc : s.writePlanCheck n (some g) items = some .stale := by
    unfold State.writePlanCheck
    dsimp only
    rw [generationMatches_other hg]
    rfl
  unfold execWritePlan
  rw [State.withRight_held tag _ ((permitted_measure rfl).trans hr), numberOf_slot]
  dsimp only
  rw [hc]
  rfl

theorem execWritePlan_unknown {p : PortId} {b : Byte} {s : State} (tag : Byte) (g : Option Gen) (items : List PlanItem)
    (hr : (s.port p).rights.getLsbD 0 = true) (h : 16 ≤ b.toNat) :
    execWritePlan p tag b g items s = .next (s.setPort p ((s.port p).answer .badValue tag 0x31 [])) := by
  unfold execWritePlan
  rw [State.withRight_held tag _ ((permitted_measure rfl).trans hr), numberOf_above h]
  rfl

theorem execArm_unknown {p : PortId} {b : Byte} {s : State} (tag : Byte)
    (hr : (s.port p).rights.getLsbD 0 = true) (h : 16 ≤ b.toNat) :
    execArm p tag b s = .next (s.setPort p ((s.port p).answer .badValue tag 0x32 [])) := by
  unfold execArm
  rw [State.withRight_held tag _ ((permitted_measure rfl).trans hr), numberOf_above h]
  rfl

theorem execStop_unknown {p : PortId} {b : Byte} {s : State} (tag : Byte)
    (hr : (s.port p).rights.getLsbD 0 = true) (h : 16 ≤ b.toNat) :
    execStop p tag b s = .next (s.setPort p ((s.port p).answer .badValue tag 0x33 [])) := by
  unfold execStop
  rw [State.withRight_held tag _ ((permitted_measure rfl).trans hr), numberOf_above h]
  rfl

theorem execSetLog_stale {p : PortId} {g : Gen} {s : State} (tag pol : Byte)
    (hr : (s.port p).rights.getLsbD 0 = true) (hg : g ≠ s.log.gen) : execSetLog p tag (some g) pol s =
      .next (s.setPort p ((s.port p).answer .stale tag 0x44 (bytesBE 2 s.log.gen.toNat))) := by
  unfold execSetLog
  rw [State.withRight_held tag _ ((permitted_measure rfl).trans hr), generationMatches_other hg]
  rfl

/-- A source and a mode code that do not both name something (R35, R180). -/
theorem settings_codes_unknown {src m : Byte} (h : ¬((src = 1 ∨ src = 2) ∧ (m = 1 ∨ m = 2))) :
    sourceOfCode src = none ∨ CalMode.ofCode m = none := by
  unfold sourceOfCode CalMode.ofCode
  by_cases h1 : src = 1 ∨ src = 2
  · right
    rw [if_neg fun e => h ⟨h1, .inl e⟩, if_neg fun e => h ⟨h1, .inr e⟩]
  · left
    rw [if_neg fun e => h1 (.inl e), if_neg fun e => h1 (.inr e)]

theorem State.inputBusy_eq_false {s : State} {i : InputId} (hs : (s.input i).state = .ready)
    (hu : ∀ n, (s.slot n).state = .idle ∨ (s.slot n).plan.names i = false) : s.inputBusy i = false := by
  unfold State.inputBusy
  rw [(s.usage_eq_nil i).2 hu, hs]
  rfl

/-- Settles O11: each refusal is the first check that fails, and answers alone. -/
theorem refusedRequestsChangeNothing : Obligations.RefusedRequestsChangeNothing := by
  refine ⟨fun p tag g s => ⟨fun v hr hg => ?_, fun i src w k m hr hg => ?_, fun n items hr hg => ?_, fun pol hr hg => ?_⟩,
    fun p tag b s => ⟨fun hb hr => ?_, fun hb hr => ?_⟩, fun p tag i g src w k m s hr hg => ⟨fun hb => ?_, fun hs hu hc => ?_⟩⟩
  · exact ⟨execSetTime_stale tag v hr (not_passes_some hg), execStepTime_stale tag v hr (not_passes_some hg)⟩
  · exact execSetInput_stale tag src w k m hr hg
  · exact execWritePlan_stale tag items hr hg
  · exact execSetLog_stale tag pol hr hg
  · exact ⟨fun g src w k m => execSetInput_unknown tag g src w k m hr hb, execCalibrate_unknown tag hr hb⟩
  · exact ⟨fun g items => execWritePlan_unknown tag g items hr hb, execArm_unknown tag hr hb, execStop_unknown tag hr hb⟩
  · have busy := (s.inputBusy_iff i).2 hb
    refine ⟨(execSetInput_busy tag src w k m hr hg busy).trans ?_, (execCalibrate_busy tag hr busy).trans ?_⟩ <;>
      cases (s.input i).state <;> rfl
  · exact execSetInput_badCode tag w k hr hg (State.inputBusy_eq_false hs hu) (settings_codes_unknown hc)

end Sys2Proof.Machine
end

section
/-! PROOFS. Arming (R69, R87, R91, R93, R94) and the applied changes of the offset with their step notices (R8 to R14,
R84). -/

namespace Sys2Proof.Machine

/-! ## Coarse boundaries -/

/-- Clearing the low eight bits takes a number to the multiple of 256 below it. -/
theorem toNat_clearLow (v : Tick) : (v &&& ~~~(255 : Tick)).toNat = v.toNat / 256 * 256 := by
  have h : v &&& ~~~(255 : Tick) = (v >>> 8) <<< 8 := by
    apply BitVec.eq_of_getLsbD_eq
    intro i hi
    have hlow : (255 : Tick).getLsbD i = decide (i < 8) := Nat.testBit_two_pow_sub_one 8 i
    rw [BitVec.getLsbD_and, BitVec.getLsbD_not, hlow, BitVec.getLsbD_shiftLeft, BitVec.getLsbD_ushiftRight]
    by_cases h8 : i < 8
    · simp [h8]
    · have : 8 + (i - 8) = i := by omega
      simp [h8, hi, this]
  rw [h, BitVec.toNat_shiftLeft, BitVec.toNat_ushiftRight, Nat.shiftLeft_eq, Nat.shiftRight_eq_div_pow]
  have := v.isLt
  omega

/-- The first coarse boundary at or after a time is a multiple of 256, less than 256 ticks after it (R93). -/
theorem boundaryAtOrAfter_spec (a : Tick) :
    (boundaryAtOrAfter a).toNat % 256 = 0 ∧ (boundaryAtOrAfter a - a).toNat < 256 := by
  have h : (boundaryAtOrAfter a).toNat = (a.toNat + 255) % 2 ^ 64 / 256 * 256 := by
    unfold boundaryAtOrAfter
    rw [toNat_clearLow, BitVec.toNat_add]
    rfl
  have := a.isLt
  rw [BitVec.toNat_sub, h]
  omega

/-! ## Arming -/

/-- What an arm instant makes of a slot is what the spec says of an arming (R69, R74, R87, R91, R93, R94). -/
theorem Slot.begin_armedAt (x : Slot) (a : Tick) (stepped locked : Bool) :
    x.ArmedAt (x.begin a stepped locked) a stepped locked := by
  unfold Slot.ArmedAt Slot.begin
  cases x.plan.kind with
  | totalize =>
    exact ⟨rfl, rfl, rfl, rfl, rfl, rfl, rfl, rfl, rfl, _, rfl, (boundaryAtOrAfter_spec a).1, (boundaryAtOrAfter_spec a).2,
      rfl⟩
  | _ => exact ⟨rfl, rfl, rfl, rfl, rfl, rfl, rfl, rfl, by simp [ticksOf, Marks.begin, MeasData.empty]⟩

/-- An arming is told by the plan, its generation, the state and the data alone. -/
theorem Slot.ArmedAt.of_data {x y z : Slot} {a : Tick} {stepped locked : Bool} (h : x.ArmedAt y a stepped locked)
    (hz : SamePlan y z) (hs : z.state = y.state) (hd : z.data = y.data) : x.ArmedAt z a stepped locked := by
  unfold Slot.ArmedAt at h ⊢
  rw [hz.1, hz.2, hs, hd]
  exact h

@[simp] theorem Slot.begin_fresh (x : Slot) (a : Tick) (b l : Bool) : (x.begin a b l).fresh = x.fresh := by
  unfold Slot.begin; cases x.plan.kind <;> rfl

@[simp] theorem Slot.begin_finishes (x : Slot) (a : Tick) (b l : Bool) : (x.begin a b l).finishes = x.finishes := by
  unfold Slot.begin; cases x.plan.kind <;> rfl

@[simp] theorem Slot.begin_lost (x : Slot) (a : Tick) (b l : Bool) : (x.begin a b l).lost = x.lost := by
  unfold Slot.begin; cases x.plan.kind <;> rfl

@[simp] theorem Slot.begin_finished (x : Slot) (a : Tick) (b l : Bool) : (x.begin a b l).finished = x.finished := by
  unfold Slot.begin; cases x.plan.kind <;> rfl

@[simp] theorem Slot.begin_usedUp (x : Slot) (a : Tick) (b l : Bool) : (x.begin a b l).usedUp = x.usedUp := by
  unfold Slot.begin; cases x.plan.kind <;> rfl

theorem Slot.awaitsArming_iff (x : Slot) (src : ArmSource) :
    x.awaitsArming src = true ↔ x.state = .arming ∧ x.plan.armSource = src ∧ x.data.gateOpen = none := by
  simp [Slot.awaitsArming, and_assoc]

/-! ## Step notices -/

theorem Slot.inStepSpan_iff (x : Slot) : x.inStepSpan = true ↔
    x.state = .gating ∨ x.state = .stopping ∨ (x.state = .tagging ∧ x.data.previousTag ≠ none) := by
  unfold Slot.inStepSpan
  cases x.state <;> simp [Option.isSome_iff_ne_none]

/-- A step notice at every slot, where the offset has changed, is what the spec says of one (R8, R11, R84). -/
theorem State.notifyStep_seen {s t : State} {forward : Bool}
    (ht : ∀ n, t.slot n = ((s.slot n).stepNotice forward s.horizonStarted s.horizonLocked s.arrivalHorizon
      t.offset).passNotice s.horizonTime) (n : SlotId) : StepSeen s t forward n := by
  unfold StepSeen
  dsimp only
  rw [ht n, ← Slot.inStepSpan_iff, ← Slot.awaitsArming_iff]
  unfold Slot.stepNotice
  refine ⟨fun h => ?_, fun ⟨hw, hf, hs, hp⟩ => ?_, fun ⟨h, hw⟩ => ?_⟩
  · rw [if_pos h]; rfl
  · have hspan : ¬(s.slot n).inStepSpan = true := by
      rw [Slot.inStepSpan_iff, ((Slot.awaitsArming_iff _ _).1 hw).1]; exact nofun
    have hreach : atOrBefore (s.slot n).plan.armTime (s.arrivalHorizon + t.offset) = true := (atOrBefore_iff _ _).2 hp
    rw [if_neg hspan, if_pos (by rw [hw, hf, hs, hreach]; rfl)]
    refine ⟨((s.slot n).begin_armedAt s.arrivalHorizon true s.horizonLocked).of_data ⟨rfl, rfl⟩ rfl rfl, rfl, ?_, ?_⟩
    · exact Slot.begin_lost _ _ _ _
    · exact Slot.begin_finished _ _ _ _
  · rw [if_neg h, if_neg]
    · rfl
    · intro hc
      simp only [Bool.and_eq_true, atOrBefore_iff] at hc
      obtain ⟨⟨⟨h1, h2⟩, h3⟩, h4⟩ := hc
      exact hw ⟨h1, h2, h3, h4⟩

/-! ## Applied changes of the offset -/

/-- The CHANGE notices and the answer of an applied change, whatever is done to the slots (R12, R160). -/
theorem changeNoticed_of {s u : State} {p : PortId} {tag : Byte} {c : Command} {st : Status} {bs : List Byte}
    (hu : ∀ q, u.port q = if q ≠ p then (s.port q).setFlag .change else s.port q) :
    ChangeNoticed s (u.respond p tag c st bs) p ((s.port p).answer st tag c.code bs) := by
  refine ⟨?_, fun q hq => ?_⟩
  · rw [State.respond_answer, State.port_setPort, if_pos rfl, hu p, if_neg (fun h => h rfl)]
  · rw [State.respond_answer, State.port_setPort, if_neg hq.symm, hu q, if_pos hq]
    rfl

theorem State.raiseOthers_port (s : State) (f : Flag) (p q : PortId) :
    (s.raiseOthers f p).port q = if q ≠ p then (s.port q).setFlag f else s.port q := by
  unfold State.raiseOthers
  rw [State.port_raise]
  simp

theorem State.notifyStep_unchanged {s : State} {o : Tick} (f : Bool) (h : s.offset = o) : s.notifyStep o f = s := by
  unfold State.notifyStep; exact if_pos h

theorem State.notifyStep_slot {s : State} {o : Tick} (f : Bool) (h : s.offset ≠ o) (n : SlotId) :
    (s.notifyStep o f).slot n = ((s.slot n).stepNotice f s.horizonStarted s.horizonLocked s.arrivalHorizon
      s.offset).passNotice s.horizonTime := by
  unfold State.notifyStep
  rw [if_neg h, State.slot_mapSlots]

theorem State.notifyStep_port (s : State) (o : Tick) (f : Bool) (q : PortId) : (s.notifyStep o f).port q = s.port q := by
  unfold State.notifyStep
  split
  · rfl
  · rw [State.port_mapSlots]

/-- What an applied change of the offset changes (R9, R11, R12): the offset, the generation, the slots by a step notice
and the ports by their notices. -/
theorem State.applyOffset_spec (s : State) (p : PortId) (tag : Byte) (c : Command) (offset : Tick) (forward : Bool) :
    let t := s.applyOffset p tag c offset forward
    t = { s with offset := offset, timeGen := s.timeGen + 1, slots := t.slots, ports := t.ports }
    ∧ ChangeNoticed s t p ((s.port p).answer .ok tag c.code
        (bytesBE 2 (s.timeGen + 1).toNat ++ bytesBE 8 (s.arrivalTime + offset).toNat))
    ∧ (offset = s.offset → t.slots = s.slots)
    ∧ (offset ≠ s.offset → ∀ n, StepSeen s t forward n) := by
  unfold State.applyOffset
  dsimp only
  generalize hu : State.notifyStep (State.raiseOthers .change p { s with offset := offset, timeGen := s.timeGen + 1 })
    s.offset forward = u
  have frame : u = { s with offset := offset, timeGen := s.timeGen + 1, slots := u.slots, ports := u.ports } := by
    rw [← hu]
    unfold State.notifyStep
    split <;> rfl
  refine ⟨?_, changeNoticed_of fun q => ?_, fun ho => ?_, fun ho n => ?_⟩
  · conv => lhs; rw [frame]
    rw [frame]
    rfl
  · rw [← hu, State.notifyStep_port, State.raiseOthers_port]
    rfl
  · show u.slots = s.slots
    rw [← hu, State.notifyStep_unchanged forward]
    · rfl
    · exact ho
  · have huo : u.offset = offset := by rw [frame]
    refine State.notifyStep_seen (fun m => ?_) n
    show u.slot m = ((s.slot m).stepNotice _ _ _ _ u.offset).passNotice _
    rw [huo, ← hu, State.notifyStep_slot forward]
    · rfl
    · exact ho

/-- The direction of a SET_TIME follows from how far it moves the time-scale time (R2, R13). -/
theorem movesForward_of_lt {old new : Tick} (h0 : 0 < (new - old).toNat) (h : (new - old).toNat < 2 ^ 63) :
    movesForward old new = true := by
  unfold movesForward
  rw [if_neg, before_iff]
  · refine ⟨h, fun e => ?_⟩
    rw [e, BitVec.sub_self] at h0
    exact absurd h0 (by decide)
  · intro e
    rw [e] at h
    exact absurd h (by decide)

theorem movesForward_of_gt {old new : Tick} (h : 2 ^ 63 < (new - old).toNat) : movesForward old new = false := by
  unfold movesForward
  rw [if_neg]
  · rw [Bool.eq_false_iff, ne_eq, before_iff]
    omega
  · intro e
    rw [e] at h
    exact absurd h (by decide)

theorem execSetTime_passes {p : PortId} {g : Option Gen} {s : State} (tag : Byte) (v : BitVec 64)
    (hr : (s.port p).rights.getLsbD 2 = true) (hg : Passes g s.timeGen) : execSetTime p tag g v s =
      .next (s.applyOffset p tag .setTime (v - s.arrivalTime) (movesForward s.timeAtArrival v)) := by
  unfold execSetTime
  rw [State.withRight_held tag _ ((permitted_time rfl).trans hr), if_pos (generationMatches_of_passes hg)]

theorem execStepTime_passes {p : PortId} {g : Option Gen} {s : State} (tag : Byte) (v : BitVec 64)
    (hr : (s.port p).rights.getLsbD 2 = true) (hg : Passes g s.timeGen) : execStepTime p tag g v s =
      .next (s.applyOffset p tag .stepTime (s.offset + v) (decide (0 < v.toInt))) := by
  unfold execStepTime
  rw [State.withRight_held tag _ ((permitted_time rfl).trans hr), if_pos (generationMatches_of_passes hg)]

/-- Settles O9: the applied change of the offset, with the direction by how far the time-scale time moves. -/
theorem setTimeSetsTimeScale : Obligations.SetTimeSetsTimeScale := by
  intro p tag g v s hr hg
  obtain ⟨hframe, hports, hsame, hseen⟩ :=
    s.applyOffset_spec p tag .setTime (v - s.arrivalTime) (movesForward s.timeAtArrival v)
  have hv : s.arrivalTime + (v - s.arrivalTime) = v := by rw [BitVec.add_comm, BitVec.sub_add_cancel]
  have hmove : v - s.arrivalTime - s.offset = v - s.timeAtArrival := BitVec.sub_sub _ _ _
  rw [hv] at hports
  have hoff : (s.applyOffset p tag .setTime (v - s.arrivalTime) (movesForward s.timeAtArrival v)).offset =
      v - s.arrivalTime := by rw [hframe]
  refine ⟨_, execSetTime_passes tag v hr hg, ?_, ?_, hports, ?_, ?_, ?_⟩ <;> rw [hoff]
  · exact hframe
  · exact hv
  · exact hsame
  · intro h0 h
    rw [hmove] at h0 h
    rw [movesForward_of_lt h0 h] at hseen ⊢
    refine hseen fun e => ?_
    rw [← hmove, e, BitVec.sub_self] at h0
    exact absurd h0 (by decide)
  · intro h
    rw [hmove] at h
    rw [movesForward_of_gt h] at hseen ⊢
    refine hseen fun e => ?_
    rw [← hmove, e, BitVec.sub_self] at h
    exact absurd h (by decide)

/-- Settles O10: the refusal by generation, and the applied change of the offset. -/
theorem stepTimeAddsAmount : Obligations.StepTimeAddsAmount := by
  intro p tag g v s hr
  refine ⟨fun hg => execStepTime_stale tag v hr hg, fun hg => ?_⟩
  obtain ⟨hframe, hports, hsame, hseen⟩ := s.applyOffset_spec p tag .stepTime (s.offset + v) (decide (0 < v.toInt))
  have hoff : (s.applyOffset p tag .stepTime (s.offset + v) (decide (0 < v.toInt))).offset = s.offset + v := by
    rw [hframe]
  refine ⟨_, execStepTime_passes tag v hr hg, hframe, ?_, fun hv => hsame ?_, fun hv => hseen fun e => hv ?_⟩
  · rw [hoff]; exact hports
  · simp [hv]
  · simpa using e

end Sys2Proof.Machine
end

section
/-! PROOFS. A source switch of an input (R18 to R21, R36, R37), and events that are sent before their instant (log
entry 3). -/

namespace Sys2Proof.Machine

/-! ## Clamped settings -/

theorem clampWidth_eq (w : BitVec 16) : clampWidth w = BitVec.ofNat 8 (min w.toNat 255) := by
  apply BitVec.eq_of_toNat_eq
  unfold clampWidth
  split
  · rw [Nat.min_eq_right (by omega)]; rfl
  · rw [Nat.min_eq_left (by omega), BitVec.toNat_setWidth, BitVec.toNat_ofNat]

theorem clampSkew_eq (k : BitVec 16) : clampSkew k = BitVec.ofInt 11 (max (-1024) (min 1023 k.toInt)) := by
  unfold clampSkew
  split
  · rw [max_eq_left (by omega)]
  · split
    · rw [min_eq_left (by omega), max_eq_right (by omega)]
    · rw [min_eq_right (by omega), max_eq_right (by omega), ← BitVec.signExtend_eq_setWidth_of_le k (by omega)]
      rfl

theorem clampStatus_decide (P : Prop) [Decidable P] : clampStatus (decide P) = if P then .clamped else .ok := by
  by_cases h : P <;> simp [clampStatus, h]

/-- The ticks of a filter width (R16, R18). -/
theorem width_ticks (w : BitVec 8) : w.setWidth 64 * 256 = BitVec.ofNat 64 (w.toNat * 256) := by
  apply BitVec.eq_of_toNat_eq
  simp [BitVec.toNat_mul]

/-- The coarse count of a coarse count with a fine part (R2). -/
theorem coarseOf_append (c : Coarse) (f : BitVec 8) : coarseOf (c ++ f) = c := by
  apply BitVec.eq_of_toNat_eq
  unfold coarseOf
  rw [BitVec.extractLsb'_toNat, toNat_coarse_append, Nat.shiftRight_eq_div_pow]
  have := c.isLt
  have := f.isLt
  omega

/-! ## The change a source switch presents -/

theorem State.settleWindow_open {s : State} {i : InputId}
    (h : ∀ c, (s.input i).candidate = some c → ¬(s.rawTime - c.windowEnd).toNat < 2 ^ 63) : s.settleWindow i = s := by
  unfold State.settleWindow
  split
  · rfl
  · next c hc =>
    rw [if_neg]
    rw [atOrBefore_iff]
    exact h c hc

/-- What an input makes of another source's level presented to its filter in a coarse period (R18 to R21): nothing where it
is the level watched; else a pending candidate reverts, a width above 0 forms a candidate dated with fine part 0, and width
0 qualifies the edge at once. Nothing is captured. -/
def Input.Presented (x : Input) (period : Coarse) (level : Level) (y : Input) : Prop :=
  let arrival : Tick := period ++ (0 : BitVec 8)
  (level = x.watched → y = x)
  ∧ (level ≠ x.watched → x.candidate ≠ none → y = { x with candidate := none, rejects := x.rejects + 1 })
  ∧ (level ≠ x.watched → x.candidate = none → x.settings.width ≠ 0 → y = { x with
      candidate := some ⟨senseTo level, arrival, arrival + BitVec.ofNat 64 (x.settings.width.toNat * 256), none⟩ })
  ∧ (level ≠ x.watched → x.candidate = none → x.settings.width = 0 → y = { x with
      qualified := level, recent := ⟨senseTo level, period⟩ :: x.recent
      rising := x.rising + (if level = .high then 1 else 0)
      falling := x.falling + (if level = .low then 1 else 0) })

/-- A source switch to a level, with no window end reached, changes the input alone, as the filter judges the level
(R18 to R21). -/
theorem State.switchLevel_spec {s : State} {i : InputId} (level : Level)
    (h : ∀ c, (s.input i).candidate = some c → ¬(s.rawTime - c.windowEnd).toNat < 2 ^ 63) :
    ∃ y, s.switchLevel i level = s.setInput i y ∧ (s.input i).Presented s.coarse level y := by
  unfold Input.Presented State.switchLevel
  dsimp only
  rw [State.settleWindow_open h]
  by_cases hl : level = (s.input i).watched
  · rw [if_pos hl]
    exact ⟨s.input i, (s.setInput_input i).symm, fun _ => rfl, fun n => absurd hl n, fun n => absurd hl n, fun n => absurd hl n⟩
  rw [if_neg hl]
  unfold State.judgeChange
  dsimp only
  cases hc : (s.input i).candidate with
  | some c => exact ⟨_, rfl, fun e => absurd e hl, fun _ _ => rfl, nofun, nofun⟩
  | none =>
    dsimp only
    rw [width_ticks]
    by_cases hw : (s.input i).settings.width = 0
    · rw [if_pos hw]
      refine ⟨_, rfl, fun e => absurd e hl, fun _ n => absurd rfl n, fun _ _ n => absurd hw n, fun _ _ _ => ?_⟩
      unfold Input.countEdge
      rw [State.arrivalTime, coarseOf_append]
      cases level <;> simp [senseTo, Sense.level, hc]
    · rw [if_neg hw]
      exact ⟨_, rfl, fun e => absurd e hl, fun _ n => absurd rfl n, fun _ _ _ => rfl, fun _ _ e => absurd e hw⟩

/-- An input with the settings of an applied SET_INPUT stored (R37, R53). -/
def Input.stored (x : Input) (new : Settings) : Input :=
  { x with
    settings := new, settingsGen := x.settingsGen + 1
    histogram := if x.settings.mode = .track ∧ new.mode = .fixed then emptyHistogram else x.histogram }

/-- An applied SET_INPUT that changes the source stores the record and presents the new source's level under it (R20). -/
theorem State.applySettings_switch {s : State} {i : InputId} {new : Settings} (p : PortId) {level : Level}
    (hsrc : new.source ≠ (s.input i).settings.source)
    (hlevel : (s.setInput i ((s.input i).stored new)).selectedLevel new.source i = level)
    (h : ∀ c, (s.input i).candidate = some c → ¬(s.rawTime - c.windowEnd).toNat < 2 ^ 63) :
    ∃ y, s.applySettings p i new = (s.setInput i y).raiseOthers .change p
      ∧ ((s.input i).stored new).Presented s.coarse level y := by
  have hin : (s.setInput i ((s.input i).stored new)).input i = (s.input i).stored new := by
    rw [State.input_setInput, if_pos rfl]
  obtain ⟨y, hy, hp⟩ := State.switchLevel_spec (s := s.setInput i ((s.input i).stored new)) (i := i) level
    (by rw [hin]; exact h)
  rw [hin] at hp
  refine ⟨y, ?_, hp⟩
  show State.raiseOthers .change p (if new.source = (s.input i).settings.source then _ else
    (s.setInput i ((s.input i).stored new)).switchLevel i
      ((s.setInput i ((s.input i).stored new)).selectedLevel new.source i)) = _
  rw [if_neg hsrc, hlevel, hy, State.setInput_setInput]

/-- A change of one input with its CHANGE notices and its answer (R37, R48, R160). -/
theorem State.inputChanged_spec (s : State) (i : InputId) (y : Input) (p : PortId) (tag : Byte) (c : Command) (st : Status)
    (bs : List Byte) :
    let t := ((s.setInput i y).raiseOthers .change p).respond p tag c st bs
    t = { s with inputs := t.inputs, ports := t.ports } ∧ (∀ j, j ≠ i → t.input j = s.input j) ∧ t.input i = y
    ∧ ChangeNoticed s t p ((s.port p).answer st tag c.code bs) := by
  refine ⟨rfl, fun j hj => ?_, ?_, changeNoticed_of fun q => State.raiseOthers_port _ _ _ _⟩
  · show (s.setInput i y).input j = s.input j
    rw [State.input_setInput, if_neg hj.symm]
  · show (s.setInput i y).input i = y
    rw [State.input_setInput, if_pos rfl]

/-- Settles O13: the stored record, then the new source's level as the filter judges it with the new width. -/
theorem sourceSwitchPresentsLevel : Obligations.SourceSwitchPresentsLevel := by
  intro p tag i g src w k m mode level s
  dsimp only
  intro hr hg hs hu hm hsrc hwin hlevel
  have hcode : sourceOfCode (sourceCode src) = some src := by cases src <;> rfl
  have hmode : CalMode.ofCode m = some mode := by rw [hm]; cases mode <;> rfl
  have hexec := execSetInput_applied tag w k hr hg (State.inputBusy_eq_false hs hu) hcode hmode
  rw [clampWidth_eq, clampSkew_eq, clampStatus_decide] at hexec
  obtain ⟨y, hy, hsame, hreverts, hforms, hqualifies⟩ := State.applySettings_switch (s := s) (i := i) (new :=
    ⟨src, BitVec.ofNat 8 (min w.toNat 255), BitVec.ofInt 11 (max (-1024) (min 1023 k.toInt)), mode⟩) p (level := level)
    hsrc (by
      unfold State.selectedLevel
      rw [hlevel, State.input_setInput, if_pos rfl]
      cases src
      · rfl
      · exact testLevel_eq s.coarse) hwin
  rw [hy] at hexec
  obtain ⟨hframe, hothers, hinput, hports⟩ := s.inputChanged_spec i y p tag .setInput
    (if 255 < w.toNat ∨ k.toInt < -1024 ∨ 1023 < k.toInt then .clamped else .ok)
    (setInputPayload ⟨src, BitVec.ofNat 8 (min w.toNat 255), BitVec.ofInt 11 (max (-1024) (min 1023 k.toInt)), mode⟩
      ((s.input i).settingsGen + 1))
  have hm' : mode.code = m := by rw [hm]; cases mode <;> rfl
  refine ⟨_, hexec, hframe, hothers, ?_, ?_⟩
  · rw [← hm']
    exact hports
  · rw [hinput]
    exact ⟨hsame, hreverts, hforms, hqualifies⟩

/-! ## Events before their instant -/

theorem State.dueStamp_spec {s : State} {i : InputId} {st : Stamp} (h : s.dueStamp i = some st) :
    st ∈ s.stamps ∧ st.input = i ∧ s.Reached st.corrected := by
  unfold State.dueStamp at h
  split at h
  · cases h
  · next o ho =>
    split at h
    · next hc =>
      cases h
      rw [Bool.and_eq_true] at hc
      exact ⟨List.mem_of_find?_eq_some ho, of_decide_eq_true (List.find?_some ho :), (s.reached_iff_Reached _).1 hc.1⟩
    · cases h

section
variable {s : State}

theorem exec_referenceAbsent_early (h : ¬s.Due .referenceAbsent) : exec .referenceAbsent s = .next s :=
  if_neg (mt s.due_iff_referenceAbsent.1 h)

theorem exec_referenceLock_early (h : ¬s.Due .referenceLock) : exec .referenceLock s = .next s :=
  if_neg (mt s.due_iff_referenceLock.1 h)

theorem exec_horizonRefChange_early (h : ¬s.Due .horizonRefChange) : exec .horizonRefChange s = .next s := by
  show execHorizonRefChange s = _
  unfold execHorizonRefChange
  split
  · rfl
  · next c rest hc =>
    rw [if_neg]
    intro hr
    exact h ⟨c, by rw [hc]; rfl, (s.reached_iff_Reached _).1 hr⟩

theorem exec_stampOffer_early {i : InputId} (h : ¬s.Due (.stampOffer i)) : exec (.stampOffer i) s = .next s := by
  show execStampOffer i s = _
  unfold execStampOffer
  split
  · rfl
  · next st hst => exact absurd ⟨st, hst⟩ h

theorem exec_immediateArmInstant_early {n : SlotId} (h : ¬s.Due (.immediateArmInstant n)) :
    exec (.immediateArmInstant n) s = .next s := by
  show execImmediateArmInstant n s = _
  unfold execImmediateArmInstant
  split
  · rfl
  · next a ha => exact absurd ((s.due_iff_immediate n).1 (by rw [ha]; rfl)) h

theorem exec_atTimeArming_early {n : SlotId} (h : ¬s.Due (.atTimeArming n)) : exec (.atTimeArming n) s = .next s :=
  if_neg (mt (s.due_iff_atTime n).1 h)

theorem exec_gateClose_early {n : SlotId} (h : ¬s.Due (.gateClose n)) : exec (.gateClose n) s = .next s :=
  if_neg (mt (s.due_iff_gateClose n).1 h)

theorem exec_deadlineExpiry_early {n : SlotId} (h : ¬s.Due (.deadlineExpiry n)) : exec (.deadlineExpiry n) s = .next s :=
  if_neg (mt (s.due_iff_deadline n).1 h)

theorem exec_totalizeGateOpen_early {n : SlotId} (h : ¬s.Due (.totalizeGateOpen n)) :
    exec (.totalizeGateOpen n) s = .next s := by
  show execTotalizeGateOpen n s = _
  unfold execTotalizeGateOpen
  split
  · rfl
  · next g hg => exact absurd ((s.due_iff_totalizeGateOpen n).1 (by rw [hg]; rfl)) h

theorem exec_totalizeGateClose_early {n : SlotId} (h : ¬s.Due (.totalizeGateClose n)) :
    exec (.totalizeGateClose n) s = .next s :=
  if_neg (mt (s.due_iff_totalizeGateClose n).1 h)

theorem exec_serviceCompletion_free (h : s.unit.service = none) : exec .serviceCompletion s = .next s := by
  show execServiceCompletion s = _
  unfold execServiceCompletion
  rw [h]

theorem exec_preparationEnd_early {p : PortId} (h : (s.port p).preparationCanEnd = false) :
    exec (.preparationEnd p) s = .next s := by
  show execPreparationEnd p s = _
  unfold execPreparationEnd
  dsimp only
  rw [h]
  rfl

end

theorem Port.preparationCanEnd_iff (q : Port) : q.preparationCanEnd = true ↔
    (q.link = .preparing ∨ (q.link = .early ∧ q.prepared = false)) ∧ q.arriving = none ∧ q.response ≠ none := by
  simp [Port.preparationCanEnd, and_assoc, Option.isSome_iff_ne_none]

/-- Settles O27: where an event's condition fails, the event is not due, and what is not due changes nothing. -/
theorem earlyEventsChangeNothing : Obligations.EarlyEventsChangeNothing := by
  intro s
  refine ⟨fun h => exec_referenceAbsent_early ?_, fun h => exec_referenceLock_early ?_,
    fun h => exec_horizonRefChange_early ?_, fun i h => exec_stampOffer_early ?_, fun n => ⟨fun h => ?_, fun h => ?_,
      fun h => ?_, fun h => ?_, fun h => ?_, fun h => ?_⟩, exec_serviceCompletion_free, fun p h => ?_⟩
  · rintro ⟨hp, hg⟩
    rcases h with h | h
    · rw [h] at hp; cases hp
    · omega
  · rintro ⟨hp, hg, hl⟩
    rcases h with h | h | h
    · rw [h] at hp; cases hp
    · omega
    · exact hl h
  · rintro ⟨c, hc, hr⟩
    rcases h with h | ⟨d, hd, hn⟩
    · rw [h] at hc; cases hc
    · rw [hd] at hc; cases hc; exact hn hr
  · rintro ⟨st, hst⟩
    obtain ⟨hmem, hin, hr⟩ := State.dueStamp_spec hst
    exact h st hmem hin hr
  · refine exec_immediateArmInstant_early ?_
    rintro ⟨h1, h2, h3, a, h4, h5⟩
    rcases h with h | h | h | h
    · exact h h1
    · exact h h2
    · exact h h3
    · exact h a h4 h5
  · refine exec_atTimeArming_early ?_
    rintro ⟨h1, h2, h3, h4, h5⟩
    rcases h with h | h | h | h | h
    · exact h h1
    · exact h h2
    · exact h h3
    · rw [h] at h4; cases h4
    · exact h h5
  · refine exec_gateClose_early ?_
    rintro ⟨h1, h2, h3⟩
    rcases h with h | h | h
    · exact h h1
    · exact h h2
    · exact h h3
  · refine exec_deadlineExpiry_early ?_
    rintro ⟨h1, h2, h3, h4⟩
    rcases h with ⟨ha, hb⟩ | h | h | h | ⟨st, hst, hr⟩
    · exact h1.elim ha hb
    · rw [h] at h2; exact h2.elim nofun nofun
    · rw [h] at h2; exact h2.elim nofun nofun
    · exact h h3
    · exact h4 st hst hr
  · refine exec_totalizeGateOpen_early ?_
    rintro ⟨h1, h2, g, h3, h4⟩
    rcases h with h | h | h
    · exact h h1
    · exact h h2
    · exact h g h3 h4
  · refine exec_totalizeGateClose_early ?_
    rintro ⟨h1, h2, h3⟩
    rcases h with h | h | h
    · exact h h1
    · exact h h2
    · exact h h3
  · refine exec_preparationEnd_early (Bool.eq_false_iff.2 fun hc => ?_)
    obtain ⟨h1, h2, h3⟩ := (Port.preparationCanEnd_iff _).1 hc
    rcases h with h | h | h | h
    · exact h3 h
    · exact h h2
    · rw [h] at h1; exact h1.elim nofun fun e => nomatch e.1
    · rw [h] at h1; exact h1.elim nofun fun e => nomatch e.1

end Sys2Proof.Machine
end

section
/-! PROOFS. The generations and the next sequence (R9, R16, R57, R117, R127): what each command makes of them. -/

namespace Sys2Proof.Machine

/-- The generations of the part, what they are the generations of, and the next sequence. -/
structure Counts where
  timeGen : Gen
  offset : Tick
  settingsGen : InputId → Gen
  plans : SlotId → Gen × Plan
  log : Gen × FullPolicy
  nextSeq : Seq

/-- The generations and the next sequence as they stand. -/
def State.counts (s : State) : Counts where
  timeGen := s.timeGen
  offset := s.offset
  settingsGen i := (s.input i).settingsGen
  plans n := ((s.slot n).planGen, (s.slot n).plan)
  log := (s.log.gen, s.log.policy)
  nextSeq := s.log.nextSeq

/-! ## What the shared operations make of them -/

section
variable (s : State)

@[simp] theorem State.counts_setPort (p : PortId) (q : Port) : (s.setPort p q).counts = s.counts := rfl
@[simp] theorem State.counts_mapPorts (f : Port → Port) : (s.mapPorts f).counts = s.counts := rfl
@[simp] theorem State.counts_raise (f : Flag) (who : PortId → Bool) : (s.raise f who).counts = s.counts := rfl
@[simp] theorem State.counts_raiseAll (f : Flag) : (s.raiseAll f).counts = s.counts := rfl
@[simp] theorem State.counts_raiseOthers (f : Flag) (p : PortId) : (s.raiseOthers f p).counts = s.counts := rfl
@[simp] theorem State.counts_retirementCheck : s.retirementCheck.counts = s.counts := rfl
@[simp] theorem State.counts_respond (p : PortId) (tag : Byte) (c : Command) (st : Status) (bs : List Byte) :
    (s.respond p tag c st bs).counts = s.counts := rfl

@[simp] theorem State.counts_forceRetire : s.forceRetire.counts = s.counts := by
  unfold State.forceRetire; split <;> rfl

theorem State.counts_mapSlots (f : SlotId → Slot → Slot) (h : ∀ n, SamePlan (s.slot n) (f n (s.slot n))) :
    (s.mapSlots f).counts = s.counts := by
  have hplans : ∀ n, (((s.mapSlots f).slot n).planGen, ((s.mapSlots f).slot n).plan) =
      ((s.slot n).planGen, (s.slot n).plan) := fun n => by
    rw [State.slot_mapSlots, (h n).1, (h n).2]
  unfold State.counts
  rw [funext hplans]
  simp only [State.mapSlots_timeGen, State.mapSlots_offset, State.input_mapSlots, State.mapSlots_log]

end

/-- An input written with the settings generation it has. -/
theorem State.counts_setInput {s : State} {i : InputId} {x : Input}
    (h : x.settingsGen = (s.input i).settingsGen) : (s.setInput i x).counts = s.counts := by
  have hgen : ∀ j, ((s.setInput i x).input j).settingsGen = (s.input j).settingsGen := fun j => by
    rw [State.input_setInput]
    split
    · next e => rw [h, e]
    · rfl
  unfold State.counts
  rw [funext hgen]
  rfl

/-- The engine's own work moves no generation. -/
theorem EngineFrame.counts {s t : State} (h : EngineFrame s t) : t.counts = s.counts := by
  have hplans : ∀ n, ((t.slot n).planGen, (t.slot n).plan) = ((s.slot n).planGen, (s.slot n).plan) := fun n => by
    rw [(h.plans n).1, (h.plans n).2]
  unfold State.counts
  rw [funext hplans, h.rest]
  rfl

@[simp] theorem State.counts_grant (s : State) : s.grant.counts = s.counts := s.grant_engine.counts
@[simp] theorem State.counts_conclude (s : State) : s.conclude.counts = s.counts := s.conclude_engine.counts

/-- A slot written with the plan it has. -/
theorem State.counts_setSlot {s : State} {n : SlotId} {x : Slot} (h : SamePlan (s.slot n) x) :
    (s.setSlot n x).counts = s.counts := by
  have hplans : ∀ m, (((s.setSlot n x).slot m).planGen, ((s.setSlot n x).slot m).plan) =
      ((s.slot m).planGen, (s.slot m).plan) := fun m => by
    rw [State.slot_setSlot]
    split
    · next e => rw [← e, h.1, h.2]
    · rfl
  unfold State.counts
  rw [funext hplans]
  rfl

theorem State.counts_withRight {s : State} {p : PortId} {tag : Byte} {c : Command} {act : State → State}
    (h : (act s).counts = s.counts) : (s.withRight p tag c act).counts = s.counts :=
  State.withRight_cases (P := fun t => t.counts = s.counts) h rfl

/-! ## The input channels -/

theorem Input.complete_settingsGen (x : Input) (h : Vector Nat 160) : (x.complete h).settingsGen = x.settingsGen := by
  unfold Input.complete; split <;> rfl

theorem Input.countEdge_settingsGen (x : Input) (e : Sense) (c : Coarse) :
    (x.countEdge e c).settingsGen = x.settingsGen := by
  unfold Input.countEdge; cases e <;> rfl

@[simp] theorem State.counts_hit (s : State) (i : InputId) (c : Code) : (s.hit i c).counts = s.counts := by
  unfold State.hit
  dsimp only
  split
  · rw [State.counts_raiseAll]
    exact State.counts_setInput (Input.complete_settingsGen _ _)
  · exact State.counts_setInput rfl

@[simp] theorem State.counts_qualify (s : State) (i : InputId) (c : Candidate) : (s.qualify i c).counts = s.counts := by
  have h : ∀ x : Input, x = { (s.input i).countEdge c.sense (coarseOf c.edgeTime) with
      qualified := c.sense.level, candidate := none } → (s.setInput i x).counts = s.counts := by
    rintro x rfl
    exact State.counts_setInput (Input.countEdge_settingsGen _ _ _)
  unfold State.qualify
  dsimp only
  split
  · exact h _ rfl
  · split
    · rw [State.counts_hit]; exact h _ rfl
    · exact h _ rfl

@[simp] theorem State.counts_settleWindow (s : State) (i : InputId) : (s.settleWindow i).counts = s.counts := by
  unfold State.settleWindow
  split
  · rfl
  · split
    · exact State.counts_qualify _ _ _
    · rfl

@[simp] theorem State.counts_judgeChange (s : State) (i : InputId) (l : Level) (t : Tick) (k : Option Capture) :
    (s.judgeChange i l t k).counts = s.counts := by
  unfold State.judgeChange
  dsimp only
  split
  · exact State.counts_setInput rfl
  · split
    · exact State.counts_qualify _ _ _
    · exact State.counts_setInput rfl

@[simp] theorem State.counts_block (s : State) (i : InputId) : (s.block i).counts = s.counts :=
  State.counts_setInput rfl

@[simp] theorem State.counts_levelChange (s : State) (i : InputId) (l : Level) (c : Code) :
    (s.levelChange i l c).counts = s.counts := by
  unfold State.levelChange
  dsimp only
  split
  · exact State.counts_settleWindow _ _
  · split
    · rw [State.counts_judgeChange, State.counts_block, State.counts_settleWindow]
    · rw [State.counts_judgeChange, State.counts_settleWindow]

@[simp] theorem State.counts_switchLevel (s : State) (i : InputId) (l : Level) : (s.switchLevel i l).counts = s.counts := by
  unfold State.switchLevel
  dsimp only
  split
  · exact State.counts_settleWindow _ _
  · rw [State.counts_judgeChange, State.counts_settleWindow]

/-! ## Writing a generation -/

theorem State.counts_setInput_update (s : State) (i : InputId) (x : Input) : (s.setInput i x).counts =
    { s.counts with settingsGen := Function.update s.counts.settingsGen i x.settingsGen } := by
  have hgen : (fun j => ((s.setInput i x).input j).settingsGen) =
      Function.update s.counts.settingsGen i x.settingsGen := by
    funext j
    rw [State.input_setInput, Function.update_apply]
    by_cases e : i = j
    · rw [if_pos e, if_pos e.symm]
    · rw [if_neg e, if_neg fun h => e h.symm]; rfl
  rw [← hgen]
  rfl

theorem State.counts_setSlot_update (s : State) (n : SlotId) (x : Slot) : (s.setSlot n x).counts =
    { s.counts with plans := Function.update s.counts.plans n (x.planGen, x.plan) } := by
  have hplans : (fun m => (((s.setSlot n x).slot m).planGen, ((s.setSlot n x).slot m).plan)) =
      Function.update s.counts.plans n (x.planGen, x.plan) := by
    funext m
    rw [State.slot_setSlot, Function.update_apply]
    by_cases e : n = m
    · rw [if_pos e, if_pos e.symm]
    · rw [if_neg e, if_neg fun h => e h.symm]; rfl
  rw [← hplans]
  rfl

theorem State.counts_applyOffset (s : State) (p : PortId) (tag : Byte) (c : Command) (offset : Tick) (f : Bool) :
    (s.applyOffset p tag c offset f).counts = { s.counts with timeGen := s.timeGen + 1, offset := offset } :=
  (State.notifyStep_engine _ _ _).counts

theorem State.counts_applySettings (s : State) (p : PortId) (i : InputId) (new : Settings) :
    (s.applySettings p i new).counts =
      { s.counts with settingsGen := Function.update s.counts.settingsGen i ((s.input i).settingsGen + 1) } := by
  refine Eq.trans ?_ (s.counts_setInput_update i ((s.input i).stored new))
  show (if new.source = (s.input i).settings.source then s.setInput i ((s.input i).stored new) else _).counts = _
  split
  · rfl
  · exact State.counts_switchLevel _ _ _

theorem State.counts_writeRecord (s : State) (r : Record) :
    (s.writeRecord r).counts = { s.counts with nextSeq := s.log.nextSeq + 1 } := rfl

theorem State.counts_offerRecord (s : State) (r : Record) : (s.offerRecord r).1.counts = s.counts
    ∨ (s.offerRecord r).1.counts = { s.counts with nextSeq := s.log.nextSeq + 1 } := by
  unfold State.offerRecord
  split
  · exact .inr rfl
  · split
    · right
      have h := s.counts_forceRetire
      show (State.writeRecord s.forceRetire r).counts = _
      rw [State.counts_writeRecord, h]
      exact congrArg (fun q => { s.counts with nextSeq := q + 1 }) (congrArg Counts.nextSeq h)
    · exact .inl (State.counts_setSlot ⟨rfl, rfl⟩)

theorem State.counts_cleared (s : State) (f : SlotId → Slot → Slot) (u : ArithUnit) (v : Vector (Option LatestEntry) 16) :
    State.counts { s.mapSlots f with unit := u, latest := v, log := { s.log with held := [] } } =
      (s.mapSlots f).counts := rfl

theorem byte_of_numberOf {k : Nat} {b : Byte} {i : Fin k} (h : numberOf k b = some i) : b = BitVec.ofNat 8 i.val := by
  rw [← numberOf_eq_some h, BitVec.ofNat_toNat, BitVec.setWidth_eq]

theorem Slot.rewrite_plan (x : Slot) (n : SlotId) (now : Tick) (l : Bool) (h raw : Tick) (p : Plan) :
    (x.rewrite n now l h raw p).planGen = x.planGen + 1 := by
  unfold Slot.rewrite; split <;> rfl

/-! ## What each command makes of them -/

/-- Whether a command, done in a state, leaves the generations and the next sequence as they are. -/
def KeepsCounts (s : State) (o : Host.Outcome State Fault Refusal) : Prop := ∀ t, o = .next t → t.counts = s.counts

theorem KeepsCounts.next {s t : State} (h : t.counts = s.counts) : KeepsCounts s (.next t) := by
  intro u e; cases e; exact h

theorem KeepsCounts.ite {s t : State} {c : Prop} [Decidable c] (h : t.counts = s.counts) :
    KeepsCounts s (if c then .next t else .next s) := by
  split
  · exact .next h
  · exact .next rfl

/-- The commands that may move a generation or the next sequence (R9, R16, R57, R117, R127). -/
def movesCounts : Instr → Bool
  | .deviceReset .. | .setTime .. | .stepTime .. | .setInput .. | .writePlan .. | .setLog .. | .serviceCompletion => true
  | _ => false

theorem exec_keepsCounts (c : Instr) (s : State) (h : movesCounts c = false) : KeepsCounts s (exec c s) := by
  cases c with
  | deviceReset | setTime | stepTime | setInput | writePlan | setLog | serviceCompletion => cases h
  | referenceEdge => exact .next rfl
  | referenceAbsent =>
    show KeepsCounts s (execReferenceAbsent s)
    unfold execReferenceAbsent
    split
    · dsimp only
      split
      · exact .next rfl
      · exact .next rfl
    · exact .next rfl
  | referenceLock => exact .ite rfl
  | horizonStart => exact .ite rfl
  | horizonRefChange =>
    show KeepsCounts s (execHorizonRefChange s)
    unfold execHorizonRefChange
    split
    · exact .next rfl
    · split
      · dsimp only
        split
        · exact .next rfl
        · exact .next (State.counts_mapSlots _ _ fun n => Slot.markRefFault_samePlan _)
      · exact .next rfl
  | selectionStart p =>
    show KeepsCounts s (execSelectionStart p s)
    unfold execSelectionStart
    dsimp only
    split
    · exact .next rfl
    · split <;> exact .next rfl
  | selectionEnd p bits =>
    show KeepsCounts s (execSelectionEnd p bits s)
    unfold execSelectionEnd
    dsimp only
    split
    · exact .next rfl
    · split <;> exact .next rfl
  | preparationEnd p => exact .ite rfl
  | null p tag => exact .next rfl
  | portReset p tag => exact .next rfl
  | readAttention p tag => exact .next rfl
  | setAttention p tag operation flags =>
    show KeepsCounts s (execSetAttention p tag operation flags s)
    unfold execSetAttention
    dsimp only
    split <;> exact .next rfl
  | readTime p tag => exact .next rfl
  | readInput p tag input =>
    show KeepsCounts s (execReadInput p tag input s)
    unfold execReadInput
    split <;> exact .next rfl
  | calibrate p tag input =>
    refine .next (State.counts_withRight ?_)
    split
    · rfl
    · dsimp only
      split
      · rfl
      · rw [State.counts_respond, State.counts_raiseOthers]
        exact State.counts_setInput rfl
  | readPlan p tag slot =>
    show KeepsCounts s (execReadPlan p tag slot s)
    unfold execReadPlan
    split <;> exact .next rfl
  | arm p tag slot =>
    refine .next (State.counts_withRight ?_)
    split
    · rfl
    · dsimp only
      split
      · rfl
      · split
        · rfl
        · rw [State.counts_respond, State.counts_grant]
          exact State.counts_setSlot (Slot.abort_samePlan _ _ _ _)
  | stop p tag slot =>
    refine .next (State.counts_withRight ?_)
    split
    · rfl
    · next n _ =>
      have h : (s.setSlot n (if (s.slot n).state = .idle then s.slot n
          else ((s.slot n).abort n s.horizonTime s.horizonLocked).toIdle)).counts = s.counts := by
        refine State.counts_setSlot ?_
        split
        · exact .refl _
        · exact Slot.abort_samePlan _ _ _ _
      dsimp only
      rw [State.counts_respond, State.counts_grant]
      split <;> exact h
  | subscribe p tag slots operation start threshold =>
    show KeepsCounts s (execSubscribe p tag slots operation start threshold s)
    unfold execSubscribe
    split
    · refine .next ?_
      rw [State.counts_respond, State.counts_retirementCheck, State.counts_setPort]
    · exact .next rfl
  | readResults p tag count =>
    refine .next ?_
    rw [State.counts_respond, State.counts_retirementCheck, State.counts_setPort]
  | latest p tag slot =>
    show KeepsCounts s (execLatest p tag slot s)
    unfold execLatest
    split
    · exact .next rfl
    · split <;> exact .next rfl
  | logStatus p tag => exact .next rfl
  | resetMeasurement p tag =>
    refine .next (State.counts_withRight ?_)
    dsimp only
    rw [State.counts_respond, State.counts_raiseOthers, State.counts_mapPorts]
    exact (State.counts_cleared s _ _ _).trans (State.counts_mapSlots s _ fun n => ⟨rfl, rfl⟩)
  | inputLevelChange i src level within =>
    show KeepsCounts s (execInputLevelChange i src level within s)
    unfold execInputLevelChange
    split
    · dsimp only
      split
      · refine .next ?_
        rw [State.counts_levelChange]
        exact State.counts_setInput rfl
      · exact .next (State.counts_setInput rfl)
    · split
      · refine .next ?_
        rw [State.counts_levelChange, State.counts_settleWindow]
      · exact .next rfl
  | windowEndQualification i => exact .next (State.counts_settleWindow _ _)
  | deadTimeEnd i =>
    show KeepsCounts s (execDeadTimeEnd i s)
    unfold execDeadTimeEnd
    split
    · exact .next rfl
    · exact .next (State.counts_setInput rfl)
  | calibrationHit i within => exact .ite ((State.counts_hit _ _ _).trans (State.counts_block _ _))
  | stampOffer i =>
    show KeepsCounts s (execStampOffer i s)
    unfold execStampOffer
    split
    · exact .next rfl
    · exact .next ((State.counts_conclude _).trans (State.offer_engine _ _).counts)
  | immediateArmInstant n =>
    show KeepsCounts s (execImmediateArmInstant n s)
    unfold execImmediateArmInstant
    split
    · exact .next rfl
    · exact .next ((State.counts_conclude _).trans (State.counts_setSlot (Slot.begin_samePlan _ _ _ _)))
  | atTimeArming n => exact .ite ((State.counts_conclude _).trans (State.counts_setSlot (Slot.begin_samePlan _ _ _ _)))
  | gateClose n => exact .ite ((State.counts_conclude _).trans (State.counts_setSlot (Slot.closeGate_samePlan _)))
  | deadlineExpiry n =>
    refine .ite ((State.counts_conclude _).trans ((State.announce_engine _ _ _).counts.trans ?_))
    exact State.counts_setSlot (Slot.timeOut_samePlan _ _ _)
  | totalizeGateOpen n =>
    show KeepsCounts s (execTotalizeGateOpen n s)
    unfold execTotalizeGateOpen
    split
    · exact .next rfl
    · exact .next ((State.counts_conclude _).trans (State.counts_setSlot ⟨rfl, rfl⟩))
  | totalizeGateClose n =>
    refine .ite ((State.counts_conclude _).trans ((State.announce_engine _ _ _).counts.trans (State.counts_setSlot ?_)))
    exact (Slot.place_samePlan _ _).trans (Slot.afterFinish_samePlan _ _ _ _ ⟨rfl, rfl⟩)

/-- A change of the offset moves the time-scale generation with it, or is refused (R9, R12). -/
theorem execOffset_counts {p : PortId} {tag : Byte} {c : Command} {g : Option Gen} {s : State} {offset : State → Tick}
    {forward : State → Bool} :
    let t := s.withRight p tag c fun s => if generationMatches g s.timeGen then
      s.applyOffset p tag c (offset s) (forward s) else s.respond p tag c .stale (bytesBE 2 s.timeGen.toNat)
    t.counts = s.counts ∨ t.counts = { s.counts with timeGen := s.timeGen + 1, offset := t.offset } := by
  dsimp only
  refine State.withRight_cases (P := fun t => t.counts = s.counts
    ∨ t.counts = { s.counts with timeGen := s.timeGen + 1, offset := t.offset }) ?_ (.inl rfl)
  split
  · right
    have h := s.counts_applyOffset p tag c (offset s) (forward s)
    rw [h]
    exact congrArg (fun o => { s.counts with timeGen := s.timeGen + 1, offset := o }) (congrArg Counts.offset h).symm
  · exact .inl rfl

theorem exec_setInput_counts {p : PortId} {tag input : Byte} {g : Option Gen} {src : Byte} {w k : BitVec 16} {m : Byte}
    {s t : State} (h : exec (.setInput p tag input g src w k m) s = .next t) : t.counts = s.counts
    ∨ ∃ i : InputId, input = BitVec.ofNat 8 i.val ∧ t.counts =
      { s.counts with settingsGen := Function.update s.counts.settingsGen i ((s.input i).settingsGen + 1) } := by
  cases h
  refine State.withRight_cases (P := fun t => t.counts = s.counts
    ∨ ∃ i : InputId, input = BitVec.ofNat 8 i.val ∧ t.counts =
      { s.counts with settingsGen := Function.update s.counts.settingsGen i ((s.input i).settingsGen + 1) }) ?_ (.inl rfl)
  split
  · exact .inl rfl
  · next i hi =>
    dsimp only
    split
    · exact .inl rfl
    · split
      · exact .inl rfl
      · split
        · refine .inr ⟨i, byte_of_numberOf hi, ?_⟩
          rw [State.counts_respond]
          exact State.counts_applySettings _ _ _ _
        · exact .inl rfl

theorem exec_writePlan_counts {p : PortId} {tag slot : Byte} {g : Option Gen} {items : List PlanItem}
    {s t : State} (h : exec (.writePlan p tag slot g items) s = .next t) : t.counts = s.counts
    ∨ ∃ n : SlotId, slot = BitVec.ofNat 8 n.val ∧ ∃ plan, t.counts =
      { s.counts with plans := Function.update s.counts.plans n ((s.slot n).planGen + 1, plan) } := by
  cases h
  refine State.withRight_cases (P := fun t => t.counts = s.counts
    ∨ ∃ n : SlotId, slot = BitVec.ofNat 8 n.val ∧ ∃ plan, t.counts =
      { s.counts with plans := Function.update s.counts.plans n ((s.slot n).planGen + 1, plan) }) ?_ (.inl rfl)
  split
  · exact .inl rfl
  · next n hn =>
    split
    · exact .inl rfl
    · refine .inr ⟨n, byte_of_numberOf hn, ((s.slot n).rewrite n s.horizonTime s.horizonLocked s.arrivalHorizon
        s.arrivalTime (resultingPlan (s.slot n).plan items)).plan, ?_⟩
      dsimp only
      rw [State.counts_respond, State.counts_raise, State.counts_grant, State.counts_setSlot_update, Slot.rewrite_plan]

theorem exec_setLog_counts {p : PortId} {tag pol : Byte} {g : Option Gen} {s t : State}
    (h : exec (.setLog p tag g pol) s = .next t) : t.counts = s.counts
    ∨ ∃ policy, t.counts = { s.counts with log := (s.log.gen + 1, policy) } := by
  cases h
  refine State.withRight_cases (P := fun t => t.counts = s.counts
    ∨ ∃ policy, t.counts = { s.counts with log := (s.log.gen + 1, policy) }) ?_ (.inl rfl)
  split
  · exact .inl rfl
  · split
    · exact .inl rfl
    · exact .inr ⟨_, rfl⟩

theorem exec_serviceCompletion_counts {s t : State} (h : exec .serviceCompletion s = .next t) :
    t.counts = s.counts ∨ t.counts = { s.counts with nextSeq := s.log.nextSeq + 1 } := by
  change execServiceCompletion s = .next t at h
  unfold execServiceCompletion at h
  split at h
  · cases h; exact .inl rfl
  · next v _ =>
    cases h
    rw [State.counts_grant]
    exact s.counts_offerRecord v.outcome.record

/-- What a command other than device reset makes of the generations and the next sequence: nothing, or it moves the one
that is its own. -/
theorem exec_counts {c : Instr} {s t : State} (h : exec c s = .next t) (hreset : ∀ a b l, c ≠ .deviceReset a b l) :
    t.counts = s.counts
    ∨ (∃ p tag g v, c = .setTime p tag g v ∨ c = .stepTime p tag g v)
      ∧ t.counts = { s.counts with timeGen := s.timeGen + 1, offset := t.offset }
    ∨ (∃ (i : InputId) (p : PortId) (tag : Byte) (g : Option Gen) (src : Byte) (w k : BitVec 16) (m : Byte),
        c = .setInput p tag (BitVec.ofNat 8 i.val) g src w k m ∧ t.counts =
          { s.counts with settingsGen := Function.update s.counts.settingsGen i ((s.input i).settingsGen + 1) })
    ∨ (∃ (n : SlotId) (p : PortId) (tag : Byte) (g : Option Gen) (items : List PlanItem) (plan : Plan),
        c = .writePlan p tag (BitVec.ofNat 8 n.val) g items ∧ t.counts =
          { s.counts with plans := Function.update s.counts.plans n ((s.slot n).planGen + 1, plan) })
    ∨ (∃ p tag g pol policy, c = .setLog p tag g pol ∧ t.counts = { s.counts with log := (s.log.gen + 1, policy) })
    ∨ c = .serviceCompletion ∧ t.counts = { s.counts with nextSeq := s.log.nextSeq + 1 } := by
  cases hm : movesCounts c
  · exact .inl (exec_keepsCounts c s hm t h)
  · cases c with
    | deviceReset a b l => exact absurd rfl (hreset a b l)
    | setTime p tag g v =>
      cases h
      exact execOffset_counts.imp_right fun e => .inl ⟨⟨p, tag, g, v, .inl rfl⟩, e⟩
    | stepTime p tag g v =>
      cases h
      exact execOffset_counts.imp_right fun e => .inl ⟨⟨p, tag, g, v, .inr rfl⟩, e⟩
    | setInput p tag input g src w k m =>
      refine (exec_setInput_counts h).imp_right fun ⟨i, hi, e⟩ => .inr (.inl ⟨i, p, tag, g, src, w, k, m, ?_, e⟩)
      rw [hi]
    | writePlan p tag slot g items =>
      refine (exec_writePlan_counts h).imp_right fun ⟨n, hn, plan, e⟩ =>
        .inr (.inr (.inl ⟨n, p, tag, g, items, plan, ?_, e⟩))
      rw [hn]
    | setLog p tag g pol =>
      exact (exec_setLog_counts h).imp_right fun ⟨policy, e⟩ => .inr (.inr (.inr (.inl ⟨p, tag, g, pol, policy, rfl, e⟩)))
    | serviceCompletion =>
      exact (exec_serviceCompletion_counts h).imp_right fun e => .inr (.inr (.inr (.inr ⟨rfl, e⟩)))
    | _ => cases hm

/-! ## The statement -/

section
variable {s t : State} {k : Counts}

theorem State.input_gen_of_counts (e : t.counts = k) (hk : k.settingsGen = s.counts.settingsGen) (i : InputId) :
    (t.input i).settingsGen = (s.input i).settingsGen := congrFun ((congrArg Counts.settingsGen e).trans hk) i

theorem State.slot_plan_of_counts (e : t.counts = k) (hk : k.plans = s.counts.plans) (n : SlotId) :
    (t.slot n).planGen = (s.slot n).planGen ∧ (t.slot n).plan = (s.slot n).plan :=
  Prod.ext_iff.1 (congrFun ((congrArg Counts.plans e).trans hk) n)

theorem State.log_of_counts (e : t.counts = k) (hk : k.log = s.counts.log) :
    t.log.gen = s.log.gen ∧ t.log.policy = s.log.policy := Prod.ext_iff.1 ((congrArg Counts.log e).trans hk)

end

/-- Settles O60: all but five kinds of request and the completion keep every count, and each of those moves its own. -/
theorem generationsCountOwnRequests : Obligations.GenerationsCountOwnRequests := by
  intro c s t h hreset
  rcases exec_counts h hreset with e | ⟨hc, e⟩ | ⟨i, p, tag, g, src, w, k, m, hc, e⟩ | ⟨n, p, tag, g, items, plan, hc, e⟩
    | ⟨p, tag, g, pol, policy, hc, e⟩ | ⟨hc, e⟩
  · exact ⟨.inl (congrArg Counts.timeGen e), .inl (congrArg Counts.offset e),
      fun i => .inl (State.input_gen_of_counts e rfl i),
      fun n => .inl (State.slot_plan_of_counts e rfl n),
      .inl (State.log_of_counts e rfl), .inl (congrArg Counts.nextSeq e)⟩
  · exact ⟨.inr ⟨congrArg Counts.timeGen e, hc⟩, .inr (congrArg Counts.timeGen e),
      fun i => .inl (State.input_gen_of_counts e rfl i),
      fun n => .inl (State.slot_plan_of_counts e rfl n),
      .inl (State.log_of_counts e rfl), .inl (congrArg Counts.nextSeq e)⟩
  · refine ⟨.inl (congrArg Counts.timeGen e), .inl (congrArg Counts.offset e), fun j => ?_,
      fun n => .inl (State.slot_plan_of_counts e rfl n),
      .inl (State.log_of_counts e rfl), .inl (congrArg Counts.nextSeq e)⟩
    have hj := congrFun (congrArg Counts.settingsGen e) j
    dsimp only at hj
    rw [Function.update_apply] at hj
    split at hj
    · next hij => subst hij; exact .inr ⟨hj, p, tag, g, src, w, k, m, hc⟩
    · exact .inl hj
  · refine ⟨.inl (congrArg Counts.timeGen e), .inl (congrArg Counts.offset e),
      fun i => .inl (State.input_gen_of_counts e rfl i), fun j => ?_,
      .inl (State.log_of_counts e rfl), .inl (congrArg Counts.nextSeq e)⟩
    have hj := congrFun (congrArg Counts.plans e) j
    dsimp only at hj
    rw [Function.update_apply] at hj
    split at hj
    · next hij => subst hij; exact .inr ⟨(Prod.ext_iff.1 hj).1, p, tag, g, items, hc⟩
    · exact .inl (Prod.ext_iff.1 hj)
  · exact ⟨.inl (congrArg Counts.timeGen e), .inl (congrArg Counts.offset e),
      fun i => .inl (State.input_gen_of_counts e rfl i),
      fun n => .inl (State.slot_plan_of_counts e rfl n),
      .inr ⟨(Prod.ext_iff.1 (congrArg Counts.log e)).1, p, tag, g, pol, hc⟩, .inl (congrArg Counts.nextSeq e)⟩
  · exact ⟨.inl (congrArg Counts.timeGen e), .inl (congrArg Counts.offset e),
      fun i => .inl (State.input_gen_of_counts e rfl i),
      fun n => .inl (State.slot_plan_of_counts e rfl n),
      .inl (State.log_of_counts e rfl), .inr ⟨congrArg Counts.nextSeq e, hc⟩⟩

end Sys2Proof.Machine
end

section
/-! PROOFS. What one slot makes of the stamps of an instant (R71, R72): which stamp it takes, when it is done, and that
after it no finish of another slot reaches it where it is apart from them. -/

namespace Sys2Proof.Machine

/-! ## The stamps of an instant -/

/-- The stamps that a slot was offered at horizon time h and may still judge (R72). -/
def Slot.stampsAt (x : Slot) (h : Tick) : List Offered := x.fresh.filter fun f => decide (f.offeredAt = h)

theorem Slot.mem_stampsAt {x : Slot} {h : Tick} {f : Offered} : f ∈ x.stampsAt h ↔ f ∈ x.fresh ∧ f.offeredAt = h := by
  simp [Slot.stampsAt]

/-- Of a list of which one entry alone gives a value, that value is the first. -/
theorem findSome?_of_unique {α β : Type} {l : List α} {p : α → Option β} {a : α} {b : β} (ha : a ∈ l) (hb : p a = some b)
    (h : ∀ c ∈ l, c ≠ a → p c = none) : l.findSome? p = some b := by
  induction l with
  | nil => cases ha
  | cons c rest ih =>
    by_cases e : c = a
    · rw [e, List.findSome?_cons, hb]
    · rw [List.findSome?_cons, h c List.mem_cons_self e]
      exact ih (List.mem_of_ne_of_mem (Ne.symm e) ha) fun d hd => h d (List.mem_cons_of_mem _ hd)

theorem Slot.seenFinish_not_waiting {x : Slot} (h : Tick) (w : x.awaitsArming .slotDone = false) : x.seenFinish h = none := by
  unfold Slot.seenFinish; rw [w]; rfl

/-- A slot that takes one stamp of the instant alone makes of the instant what it makes of that stamp. -/
theorem Slot.judgeInstant_takes {x : Slot} {n : SlotId} {h : Tick} {l : Bool} {f : Offered} {r : Slot × Option Finish}
    (hs : x.seenFinish h = none) (hf : f ∈ x.stampsAt h) (hr : x.judgeStamp n h l f = some r)
    (ho : ∀ g ∈ x.stampsAt h, g ≠ f → x.judgeStamp n h l g = none) : x.judgeInstant n h l = some r := by
  unfold Slot.judgeInstant
  rw [hs]
  exact findSome?_of_unique hf hr ho

/-- A slot that takes no stamp of the instant makes nothing of it. -/
theorem Slot.judgeInstant_ignores {x : Slot} {n : SlotId} {h : Tick} {l : Bool} (hs : x.seenFinish h = none)
    (ho : ∀ g ∈ x.stampsAt h, x.judgeStamp n h l g = none) : x.judgeInstant n h l = none := by
  unfold Slot.judgeInstant
  rw [hs]
  exact List.findSome?_eq_none_iff.2 ho

/-- After an offer, a slot outside IDLE holds the stamp behind those of the instant. -/
theorem State.offer_slot_active (s : State) (st : Stamp) (n : SlotId) (h : (s.slot n).state ≠ .idle) :
    (s.offer st).slot n = { s.slot n with fresh := (s.slot n).stampsAt s.horizonTime ++ [s.offered st] } := by
  unfold State.offer
  dsimp only
  rw [State.slot_mapSlots]
  exact if_neg h

theorem Slot.stampsAt_offered (x : Slot) (h : Tick) {f : Offered} (hf : f.offeredAt = h) :
    { x with fresh := x.stampsAt h ++ [f] }.stampsAt h = x.stampsAt h ++ [f] := by
  unfold Slot.stampsAt
  simp [List.filter_filter, hf]

/-! ## When a stamp is ignored -/

theorem Offered.isOf_iff (f : Offered) (i : InputId) (e : Sense) :
    f.isOf i e = true ↔ f.st.input = i ∧ f.st.sense = e := by
  simp [Offered.isOf]

/-- A stamp that a slot can stop at is one of its plan (R87, R91). -/
theorem Slot.meetsStop_isOf {x : Slot} {f : Offered} (h : x.meetsStop f = true) :
    (x.plan.kind = .reciprocal ∧ f.isOf x.plan.inputA x.plan.senseA = true)
    ∨ (x.plan.kind = .interval ∧ f.isOf x.plan.inputB x.plan.senseB = true
      ∧ ∃ e, x.data.start = some e ∧ atOrBefore e.time f.st.corrected = true ∧ e ≠ f.endpoint) := by
  unfold Slot.meetsStop at h
  cases hs : x.data.start with
  | none => rw [hs] at h; cases h
  | some e =>
    rw [hs] at h
    cases hk : x.plan.kind <;> rw [hk] at h
    · simp only [Bool.and_eq_true] at h
      exact .inl ⟨rfl, h.1.1⟩
    · simp only [Bool.and_eq_true, decide_eq_true_eq] at h
      exact .inr ⟨rfl, h.1.1, e, rfl, h.1.2, h.2⟩
    · cases h
    · cases h

theorem Slot.meetsStart_isOf {x : Slot} {f : Offered} (h : x.meetsStart f = true) :
    f.isOf x.plan.inputA x.plan.senseA = true := by
  unfold Slot.meetsStart at h; rw [Bool.and_eq_true] at h; exact h.1

theorem Slot.meetsTag_isOf {x : Slot} {f : Offered} (h : x.meetsTag f = true) :
    f.isOf x.plan.inputA x.plan.senseA = true := by
  unfold Slot.meetsTag at h; rw [Bool.and_eq_true] at h; exact h.1

/-- A slot ignores a stamp that meets none of the conditions of its state (R71). -/
theorem Slot.judgeStamp_ignores {x : Slot} {f : Offered} (n : SlotId) (h : Tick) (l : Bool)
    (harm : x.state = .arming → x.meetsArm f = false)
    (hstart : x.state = .starting → x.meetsStart f = false)
    (hstop : x.state = .gating ∨ x.state = .stopping → x.meetsStop f = false)
    (htag : x.state = .tagging → x.plan.kind = .timetag → x.meetsTag f = false) : x.judgeStamp n h l f = none := by
  unfold Slot.judgeStamp
  cases hs : x.state with
  | idle => rfl
  | arming => dsimp only; rw [harm hs]; rfl
  | starting => dsimp only; rw [hstart hs]; rfl
  | gating => dsimp only; rw [hstop (.inl hs)]; rfl
  | stopping => dsimp only; rw [hstop (.inr hs)]; rfl
  | tagging =>
    dsimp only
    by_cases hk : x.plan.kind = .timetag
    · rw [htag hs hk, Bool.and_false]; rfl
    · rw [decide_eq_false hk]; rfl

/-- A slot ignores a stamp that its plan cannot use (R23, R71). -/
theorem Slot.judgeStamp_useless {x : Slot} {f : Offered} (n : SlotId) (h : Tick) (l : Bool) (hf : ¬x.plan.Takes f.st)
    (hk : x.state = .starting → x.plan.kind ≠ .totalize) : x.judgeStamp n h l f = none := by
  have hA : x.plan.kind ≠ .totalize → f.isOf x.plan.inputA x.plan.senseA = true → False := fun k e =>
    hf (.inl ⟨k, (f.isOf_iff _ _).1 e⟩)
  refine Slot.judgeStamp_ignores n h l (fun _ => ?_) (fun hs => ?_) (fun _ => ?_) fun _ k => ?_ <;>
    rw [Bool.eq_false_iff] <;> intro m
  · obtain ⟨_, ha, _, hi, he, _⟩ := (x.meetsArm_iff f).1 m
    exact hf (.inr (.inr ⟨ha, hi, he⟩))
  · exact hA (hk hs) (Slot.meetsStart_isOf m)
  · rcases Slot.meetsStop_isOf m with ⟨k, e⟩ | ⟨k, e, _⟩
    · exact hA (by rw [k]; exact nofun) e
    · exact hf (.inr (.inl ⟨k, (f.isOf_iff _ _).1 e⟩))
  · exact hA (by rw [k]; exact nofun) (Slot.meetsTag_isOf m)

/-! ## Armed slots -/

/-- A slot that has armed waits for no arming any more. -/
theorem Slot.begin_awaitsArming (x : Slot) (a : Tick) (b l : Bool) (src : ArmSource) :
    (x.begin a b l).awaitsArming src = false := by
  unfold Slot.begin Slot.awaitsArming
  cases x.plan.kind <;> simp

theorem Slot.begin_plan (x : Slot) (a : Tick) (b l : Bool) : (x.begin a b l).plan = x.plan := (x.begin_samePlan a b l).1

theorem Slot.begin_stampsAt (x : Slot) (a : Tick) (b l : Bool) (h : Tick) : (x.begin a b l).stampsAt h = x.stampsAt h := by
  unfold Slot.stampsAt; rw [Slot.begin_fresh]

/-- What an arming changes of a slot is its state and its data. -/
theorem Slot.begin_frame (x : Slot) (a : Tick) (b l : Bool) :
    x.begin a b l = { x with state := (x.begin a b l).state, data := (x.begin a b l).data } := by
  unfold Slot.begin; cases x.plan.kind <;> rfl

/-- Whether a stamp is of the first role and not before an arm instant (R87, R91, R94). -/
def Slot.FirstRole (x : Slot) (a : Tick) (f : Offered) : Prop :=
  f.isOf x.plan.inputA x.plan.senseA = true ∧ atOrBefore a f.st.corrected = true

section
variable {x : Slot} {a : Tick} {b l : Bool} {f : Offered}

theorem Slot.begin_state_eq (x : Slot) (a : Tick) (b l : Bool) : (x.begin a b l).state =
    match x.plan.kind with | .reciprocal => .starting | .interval => .starting | .totalize => .arming | .timetag => .tagging := by
  unfold Slot.begin; cases x.plan.kind <;> rfl

theorem Slot.begin_meetsStart (hk : x.plan.kind = .reciprocal ∨ x.plan.kind = .interval) :
    (x.begin a b l).meetsStart f = true ↔ x.FirstRole a f := by
  unfold Slot.begin Slot.meetsStart Slot.FirstRole
  rcases hk with hk | hk <;> rw [hk] <;> simp [MeasData.empty]

theorem Slot.begin_meetsTag (hk : x.plan.kind = .timetag) : (x.begin a b l).meetsTag f = true ↔ x.FirstRole a f := by
  unfold Slot.begin Slot.meetsTag Slot.FirstRole
  rw [hk]
  simp [MeasData.empty]

/-- An armed slot ignores a stamp that is not of the first role, or is before the arm instant. -/
theorem Slot.begin_ignores (n : SlotId) (h : Tick) (k : Bool) (hf : ¬x.FirstRole a f) :
    (x.begin a b l).judgeStamp n h k f = none := by
  have hst := x.begin_state_eq a b l
  refine Slot.judgeStamp_ignores n h k (fun _ => ?_) (fun hs => ?_) (fun hs => ?_) fun hs hk => ?_
  · unfold Slot.meetsArm; rw [Slot.begin_awaitsArming]; rfl
  · rw [Bool.eq_false_iff]
    intro m
    refine hf ((Slot.begin_meetsStart ?_).1 m)
    cases hk : x.plan.kind <;> rw [hk, hs] at hst <;> simp at hst ⊢
  · cases hk : x.plan.kind <;> rw [hk] at hst <;> rw [hst] at hs <;> rcases hs with hs | hs <;> cases hs
  · rw [Bool.eq_false_iff]
    exact fun m => hf ((Slot.begin_meetsTag (by rw [← Slot.begin_plan x a b l]; exact hk)).1 m)

/-- An armed TOTALIZE slot waits for its gate and ignores every stamp (R93). -/
theorem Slot.begin_ignores_totalize (n : SlotId) (h : Tick) (k : Bool) (hk : x.plan.kind = .totalize) :
    (x.begin a b l).judgeStamp n h k f = none := by
  have hst := x.begin_state_eq a b l
  rw [hk] at hst
  refine Slot.judgeStamp_ignores n h k (fun _ => ?_) (fun hs => ?_) (fun hs => ?_) fun hs _ => ?_
  · unfold Slot.meetsArm; rw [Slot.begin_awaitsArming]; rfl
  all_goals rw [hst] at hs; rcases hs with hs | hs <;> cases hs

theorem Slot.begin_starts (n : SlotId) (h : Tick) (k : Bool) (hk : x.plan.kind = .reciprocal ∨ x.plan.kind = .interval)
    (hf : x.FirstRole a f) : (x.begin a b l).judgeStamp n h k f = some ((x.begin a b l).takeStart f, none) := by
  refine Slot.judgeStamp_starts n h k ?_ ((Slot.begin_meetsStart hk).2 hf)
  rw [Slot.begin_state_eq]
  rcases hk with hk | hk <;> rw [hk]

theorem Slot.begin_tags (n : SlotId) (h : Tick) (k : Bool) (hk : x.plan.kind = .timetag) (hf : x.FirstRole a f) :
    (x.begin a b l).judgeStamp n h k f =
      some (((x.begin a b l).takeTag n h k f).1, some ((x.begin a b l).takeTag n h k f).2) := by
  refine Slot.judgeStamp_tags n h k ?_ ?_ ((Slot.begin_meetsTag hk).2 hf)
  · rw [Slot.begin_state_eq, hk]
  · rw [Slot.begin_plan, hk]

end

/-! ## Started slots -/

theorem Slot.takeStart_frame (x : Slot) (f : Offered) :
    x.takeStart f = { x with state := (x.takeStart f).state, data := (x.takeStart f).data } := by
  unfold Slot.takeStart
  dsimp only
  split
  · split <;> rfl
  · rfl

theorem Slot.takeStart_stampsAt (x : Slot) (f : Offered) (h : Tick) : (x.takeStart f).stampsAt h = x.stampsAt h := by
  rw [Slot.takeStart_frame]; rfl

theorem Slot.takeStart_start (x : Slot) (f : Offered) : (x.takeStart f).data.start = some f.endpoint := by
  unfold Slot.takeStart
  dsimp only
  split
  · split <;> rfl
  · rfl

theorem Slot.takeStart_inFlight (x : Slot) (f : Offered) :
    (x.takeStart f).state = .gating ∨ (x.takeStart f).state = .stopping := by
  unfold Slot.takeStart
  dsimp only
  split
  · split
    · exact .inl rfl
    · exact .inr rfl
  · exact .inr rfl

theorem Slot.takeStart_awaitsArming (x : Slot) (f : Offered) (src : ArmSource) :
    (x.takeStart f).awaitsArming src = false := by
  unfold Slot.awaitsArming
  rcases x.takeStart_inFlight f with e | e <;> rw [e] <;> rfl

/-- A slot that has just taken its start ignores that stamp, and every other that cannot be its stop (R87, R91). -/
theorem Slot.takeStart_ignores {x : Slot} {f g : Offered} (n : SlotId) (h : Tick) (l : Bool)
    (hg : g = f ∨ (¬(x.plan.kind = .reciprocal ∧ g.isOf x.plan.inputA x.plan.senseA = true)
      ∧ ¬(x.plan.kind = .interval ∧ g.isOf x.plan.inputB x.plan.senseB = true
        ∧ atOrBefore f.st.corrected g.st.corrected = true))) : (x.takeStart f).judgeStamp n h l g = none := by
  have hp : (x.takeStart f).plan = x.plan := (x.takeStart_samePlan f).1
  have hst := x.takeStart_inFlight f
  have hno : (x.takeStart f).meetsStop g = false := by
    rw [Bool.eq_false_iff]
    intro m
    have hm := Slot.meetsStop_isOf m
    rw [hp, x.takeStart_start f] at hm
    rcases hg with rfl | ⟨hA, hB⟩
    · rcases hm with ⟨hk, -⟩ | ⟨-, -, e, he, -, hne⟩
      · unfold Slot.meetsStop at m
        rw [x.takeStart_start g, hp, hk] at m
        simp only [Bool.and_eq_true, before_iff] at m
        exact m.2.2 rfl
      · cases he; exact hne rfl
    · rcases hm with hm | ⟨hk, hi, e, he, ht, -⟩
      · exact hA hm
      · cases he; exact hB ⟨hk, hi, ht⟩
  refine Slot.judgeStamp_ignores n h l (fun hs => ?_) (fun hs => ?_) (fun _ => hno) fun hs => ?_
  all_goals rw [hs] at hst; rcases hst with hst | hst <;> cases hst

/-! ## What is left of the stamps after a finish -/

theorem Slot.place_stampsAt (x : Slot) (o : Outcome) (h : Tick) : (x.place o).stampsAt h = x.stampsAt h := by
  unfold Slot.place; split <;> rfl

theorem Slot.mem_finishedBy_stampsAt {x : Slot} {f g : Offered} {h : Tick} :
    g ∈ (x.finishedBy f).stampsAt h ↔ g ∈ x.stampsAt h ∧ g ≠ f ∧ x.spent g = false := by
  simp [Slot.stampsAt, Slot.finishedBy, and_assoc]

/-! ## One slot judged to the end -/

/-- What a slot makes of an instant by itself, whatever its finishes do to other slots. -/
def Slot.judgeRun (n : SlotId) (h : Tick) (l : Bool) : Nat → Slot → Slot
  | 0, x => x
  | k + 1, x =>
    match x.judgeInstant n h l with
    | none => x
    | some r => Slot.judgeRun n h l k r.1

theorem Slot.judgeRun_none {x : Slot} {n : SlotId} {h : Tick} {l : Bool} (hx : x.judgeInstant n h l = none) (k : Nat) :
    x.judgeRun n h l k = x := by
  cases k with
  | zero => rfl
  | succ k => unfold Slot.judgeRun; rw [hx]

theorem Slot.judgeRun_some {x : Slot} {n : SlotId} {h : Tick} {l : Bool} {r : Slot × Option Finish}
    (hx : x.judgeInstant n h l = some r) (k : Nat) : x.judgeRun n h l (k + 1) = r.1.judgeRun n h l k := by
  conv => lhs; unfold Slot.judgeRun
  rw [hx]

theorem State.announced_apart (s : State) (n m : SlotId) (e : Option Finish) (h : (s.slot m).ApartFrom n) :
    (s.announced n e).slot m = s.slot m := by
  cases e with
  | none => rfl
  | some e => exact State.announce_apart s n m e h

/-- A slot that has no part in its own finishes is judged by itself. -/
theorem State.judgeSlot_self {n : SlotId} (k : Nat) (s : State) (ha : (s.slot n).ApartFrom n) :
    (State.judgeSlot k n s).slot n = (s.slot n).judgeRun n s.horizonTime s.horizonLocked k := by
  induction k generalizing s with
  | zero => rfl
  | succ k ih =>
    cases hj : (s.slot n).judgeInstant n s.horizonTime s.horizonLocked with
    | none => rw [State.judgeSlot_none hj, Slot.judgeRun_none hj]
    | some r =>
      obtain ⟨y, e⟩ := r
      have hy : (s.setSlot n y).slot n = y := by rw [State.slot_setSlot, if_pos rfl]
      have hya : y.ApartFrom n := by
        unfold Slot.ApartFrom
        rw [((Slot.judgeInstant_spec hj).2).1]
        exact ha
      have hz : ((s.setSlot n y).announced n e).slot n = y := by
        rw [State.announced_apart _ _ _ _ (by rw [hy]; exact hya), hy]
      have he := State.announced_engine (s.setSlot n y) n e
      rw [State.judgeSlot_some k hj, Slot.judgeRun_some hj, ih _ (by rw [hz]; exact hya), hz, he.horizonTime,
        he.horizonLocked]
      rfl

/-- The slots in their order around slot n. -/
theorem allSlots_around (n : SlotId) : ∃ l1 l2, allSlots = l1 ++ n :: l2 ∧ (∀ m ∈ l1, m < n) ∧ ∀ m ∈ l2, n < m := by
  obtain ⟨l1, l2, hl⟩ := List.append_of_mem (List.mem_finRange n)
  have hsorted : allSlots.Pairwise (· < ·) := List.pairwise_lt_finRange 16
  have hl' : allSlots = l1 ++ n :: l2 := hl
  rw [hl', List.pairwise_append] at hsorted
  exact ⟨l1, l2, hl', fun m hm => hsorted.2.2 m hm n List.mem_cons_self, (List.pairwise_cons.1 hsorted.2.1).1⟩

theorem State.judgeAll_append (l1 l2 : List SlotId) (n : SlotId) (s : State) : State.judgeAll (l1 ++ n :: l2) s =
    State.judgeAll l2 (State.judgeSlot ((State.judgeAll l1 s).slot n).judgeFuel n (State.judgeAll l1 s)) := by
  simp only [State.judgeAll, List.foldl_append, List.foldl_cons]

/-- The end of an event makes of a slot that is apart from every slot what the slot makes of the instant by itself. -/
theorem State.settle_apart {s : State} {n : SlotId} (ha : ∀ m, (s.slot n).ApartFrom m) :
    s.settle.slot n = (s.slot n).judgeRun n s.horizonTime s.horizonLocked (s.slot n).judgeFuel := by
  obtain ⟨l1, l2, hl, h1, h2⟩ := allSlots_around n
  have n1 : n ∉ l1 := fun h => lt_irrefl n (h1 n h)
  have n2 : n ∉ l2 := fun h => lt_irrefl n (h2 n h)
  rw [State.settle_eq, hl, State.judgeAll_append]
  have e1 := State.judgeAll_engine l1 s
  have s1 := State.judgeAll_apart l1 n s n1 fun m _ => ha m
  have hself := State.judgeSlot_self ((State.judgeAll l1 s).slot n).judgeFuel (State.judgeAll l1 s) (n := n)
    (by rw [s1]; exact ha n)
  have plan2 := (State.judgeSlot_engine ((State.judgeAll l1 s).slot n).judgeFuel n (State.judgeAll l1 s)).plans n
  rw [State.judgeAll_apart l2 n _ n2 fun m _ => ?_, hself, s1, e1.horizonTime, e1.horizonLocked]
  unfold Slot.ApartFrom
  rw [plan2.1, s1]
  exact ha m

/-- A slot that makes nothing of the instant, and does not wait for a finish, is left as it is, up to the finishes it
remembers. -/
theorem State.settle_ignores {s : State} {n : SlotId}
    (hj : (s.slot n).judgeInstant n s.horizonTime s.horizonLocked = none)
    (hw : (s.slot n).awaitsArming .slotDone = false) : UpToFinishes (s.slot n) (s.settle.slot n) := by
  obtain ⟨l1, l2, hl, h1, h2⟩ := allSlots_around n
  have n1 : n ∉ l1 := fun h => lt_irrefl n (h1 n h)
  have n2 : n ∉ l2 := fun h => lt_irrefl n (h2 n h)
  rw [State.settle_eq, hl, State.judgeAll_append]
  have e1 := State.judgeAll_engine l1 s
  have u1 := State.judgeAll_other l1 n s n1 hw
  have j1 : ((State.judgeAll l1 s).slot n).judgeInstant n (State.judgeAll l1 s).horizonTime
      (State.judgeAll l1 s).horizonLocked = none := by
    rw [e1.horizonTime, e1.horizonLocked]
    exact (u1.judgeInstant hw n _ _).1 hj
  rw [State.judgeSlot_none j1]
  refine u1.trans (State.judgeAll_other l2 n _ n2 ?_)
  obtain ⟨l, e⟩ := u1
  rw [e]
  exact hw

/-- Where no slot makes anything of the instant, the end of the event judges nothing. -/
theorem State.settle_none {s : State} (h : ∀ n, (s.slot n).judgeInstant n s.horizonTime s.horizonLocked = none) :
    s.settle = s := by
  unfold State.settle
  generalize allSlots = l
  induction l with
  | nil => rfl
  | cons n rest ih => rw [List.foldl_cons, State.judgeSlot_none (h n), ih]

/-! ## The grant at the end -/

/-- The grant changes a slot's finished entry and lost count alone. -/
theorem State.GrantOnly.rest {s : State} {m : SlotId} {x y : Slot} (h : s.GrantOnly m x y) :
    y = { x with finished := y.finished, lost := y.lost } := by
  rcases h with e | ⟨-, e, -⟩ | ⟨v, -, -, -, e⟩ <;> rw [e]

/-- What a grant can do is told by the unit and the raw time. -/
theorem State.GrantOnly.of_unit {s u : State} {m : SlotId} {x y : Slot} (h : u.GrantOnly m x y) (hu : u.unit = s.unit)
    (hr : u.rawTime = s.rawTime) : s.GrantOnly m x y := by
  unfold State.GrantOnly at h ⊢
  rw [hu, hr] at h
  exact h

theorem State.arbitrate_free {s : State} (h : s.unit.service = none) : s.GrantsNext s.arbitrate s.slot := by
  unfold State.GrantsNext State.arbitrate
  rw [h]
  show match nextGrant s.unit.lastGranted s.waiting with | none => _ | some n => _
  cases hn : nextGrant s.unit.lastGranted s.waiting with
  | none =>
    refine ⟨?_, fun m => rfl⟩
    show s.unit = _
    rw [← h]
  | some n =>
    have hmem : n ∈ s.waiting := by
      unfold nextGrant at hn
      split at hn
      · next k hk => cases hn; exact List.mem_of_find?_eq_some hk
      · exact List.mem_of_mem_head? hn
    obtain ⟨o, ho⟩ := Option.isSome_iff_exists.1 (List.mem_filter.1 hmem).2
    dsimp only
    rw [ho]
    refine ⟨⟨o, rfl, rfl⟩, fun m => ?_⟩
    show (s.setSlot n { s.slot n with finished := none }).slot m = _
    rw [State.slot_setSlot]
    by_cases e : n = m
    · rw [if_pos e, if_pos e.symm]
    · rw [if_neg e, if_neg fun h => e h.symm]

/-- While the unit is FREE, the grant is round robin's (R99). -/
theorem State.grant_free {s : State} (h : s.unit.service = none) : s.GrantsNext s.grant s.slot := by
  have hw : s.withdrawGrant = s := by unfold State.withdrawGrant; rw [h]
  unfold State.grant
  rw [hw]
  exact State.arbitrate_free h

/-- An outcome that the settled state has placed, and the grant then sees, is formed (R76, R99). -/
theorem State.OutcomeFormed.of_settled {s left : State} {n : SlotId} {o : Outcome} (hu : left.unit = s.unit)
    (hr : left.rawTime = s.rawTime) (hp : (s.slot n).Placed (left.slot n) o) : s.OutcomeFormed left.grant n o := by
  refine State.OutcomeFormed.of_left hu hr hp rfl rfl fun hf => ?_
  have h := left.grant_free (by rw [hu]; exact hf)
  unfold State.GrantsNext at h ⊢
  rw [hu, hr] at h
  exact h

/-- A slot whose finished entry and lost count are as a placement leaves them has the outcome placed (R76, R102). -/
theorem Slot.placed_of_place {x y : Slot} {o : Outcome} (hf : y.finished = (x.place o).finished)
    (hl : y.lost = (x.place o).lost) : x.Placed y o := by
  unfold Slot.Placed
  rw [hf, hl]
  unfold Slot.place
  cases hx : x.finished with
  | none => exact ⟨fun _ => ⟨rfl, rfl⟩, fun h => absurd rfl h⟩
  | some p =>
    refine ⟨nofun, fun _ => ⟨rfl, ?_⟩⟩
    show (satAdd32 x.lost 1).toNat = _
    unfold satAdd32
    rw [BitVec.toNat_ofNat]
    omega

/-- The end of an event: the grant sees the settled slots, the unit and the raw time being those before the event. -/
theorem State.settle_frame {s u : State} (hu : u.unit = s.unit) (hr : u.rawTime = s.rawTime) :
    u.settle.unit = s.unit ∧ u.settle.rawTime = s.rawTime :=
  ⟨(State.settle_unit u).1.trans hu, u.settle_engine.rawTime.trans hr⟩

theorem State.grant_stamps (s : State) : s.grant.stamps = s.stamps := by
  have hw : ∀ u : State, u.withdrawGrant.stamps = u.stamps := by
    intro u; unfold State.withdrawGrant; split
    · rfl
    · split <;> rfl
  have ha : ∀ u : State, u.arbitrate.stamps = u.stamps := by
    intro u; unfold State.arbitrate; split
    · split <;> rfl
    · rfl
  exact (ha _).trans (hw s)

theorem State.conclude_stamps (s : State) : s.conclude.stamps = s.stamps :=
  s.settle.grant_stamps.trans (State.settle_unit s).2

theorem State.offer_stamps (s : State) (st : Stamp) : (s.offer st).stamps = s.stamps.erase st := by
  unfold State.offer
  dsimp only
  rw [State.mapSlots_stamps]

theorem State.offer_unit (s : State) (st : Stamp) : (s.offer st).unit = s.unit := by
  unfold State.offer
  dsimp only
  rw [State.mapSlots_unit]

/-- DONE is set where a SINGLE slot has returned to IDLE (R77, R131). -/
theorem EngineStep.done {s t : State} (h : EngineStep s t) {n : SlotId} (hr : (s.slot n).plan.repeatMode = .single)
    (hs : (s.slot n).state ≠ .idle) (ht : (t.slot n).state = .idle) (p : PortId)
    (hp : (s.port p).subscription.getLsbD n = true) : (t.port p).flags.getLsbD 2 = true := by
  rw [(h.told p).1 ⟨n, hp, hr, hs, ht⟩]
  show (((s.port p).flags ||| 4#7).getLsbD 2) = true
  rw [BitVec.getLsbD_or, show (4#7).getLsbD 2 = true from rfl, Bool.or_true]

theorem exec_stampOffer_due {s : State} {i : InputId} {st : Stamp} (h : s.dueStamp i = some st) :
    exec (.stampOffer i) s = .next (s.offer st).conclude := by
  show execStampOffer i s = _
  unfold execStampOffer
  rw [h]

theorem State.conclude_offer_step (s : State) (st : Stamp) : EngineStep s (s.offer st).conclude :=
  (s.offer_step st).trans (State.conclude_step _)

end Sys2Proof.Machine
end

section
/-! PROOFS. Starts and CONTINUOUS stops of RECIPROCAL and INTERVAL measurements, and deadlines (R71, R72, R87 to R92). -/

namespace Sys2Proof.Machine

/-! ## A slot at the end of an event -/

/-- What the end of an event leaves of a slot: the settled slot, up to the grant. -/
theorem State.conclude_slot {s u : State} (hu : u.unit = s.unit) (hr : u.rawTime = s.rawTime) (n : SlotId) :
    s.GrantOnly n (u.settle.slot n) (u.conclude.slot n) := by
  obtain ⟨h1, h2⟩ := State.settle_frame hu hr
  exact (u.settle.grant_slot n).of_unit h1 h2

theorem State.offer_rawTime (s : State) (st : Stamp) : (s.offer st).rawTime = s.rawTime := (s.offer_engine st).rawTime
theorem State.offer_horizonTime (s : State) (st : Stamp) : (s.offer st).horizonTime = s.horizonTime :=
  (s.offer_engine st).horizonTime
theorem State.offer_horizonLocked (s : State) (st : Stamp) : (s.offer st).horizonLocked = s.horizonLocked :=
  (s.offer_engine st).horizonLocked

/-- A slot with a stamp offered to it now. -/
def State.offeredSlot (s : State) (st : Stamp) (n : SlotId) : Slot :=
  { s.slot n with fresh := (s.slot n).stampsAt s.horizonTime ++ [s.offered st] }

theorem State.offeredSlot_stampsAt (s : State) (st : Stamp) (n : SlotId) :
    (s.offeredSlot st n).stampsAt s.horizonTime = (s.slot n).stampsAt s.horizonTime ++ [s.offered st] :=
  (s.slot n).stampsAt_offered s.horizonTime rfl

/-- The stamps of the instant before this offer are of no use to the slot's plan. -/
theorem State.NoOtherStamp.useless {s : State} {n : SlotId} (h : s.NoOtherStamp n) {g : Offered}
    (hg : g ∈ (s.slot n).stampsAt s.horizonTime) : ¬(s.slot n).plan.Takes g.st :=
  h g (Slot.mem_stampsAt.1 hg).1 (Slot.mem_stampsAt.1 hg).2

/-- Of the stamps of the instant that a slot holds after an offer, all but the offered one are of no use to it. -/
theorem State.NoOtherStamp.offered_useless {s : State} {n : SlotId} (h : s.NoOtherStamp n) {st : Stamp} {g : Offered}
    (hg : g ∈ (s.offeredSlot st n).stampsAt s.horizonTime) (hne : g ≠ s.offered st) : ¬(s.slot n).plan.Takes g.st := by
  rw [State.offeredSlot_stampsAt, List.mem_append, List.mem_singleton] at hg
  exact h.useless (hg.resolve_right hne)

theorem State.mem_offeredSlot (s : State) (st : Stamp) (n : SlotId) :
    s.offered st ∈ (s.offeredSlot st n).stampsAt s.horizonTime := by
  rw [State.offeredSlot_stampsAt]
  exact List.mem_append_right _ (List.mem_singleton.2 rfl)

theorem Slot.awaitsArming_of_state {x : Slot} (src : ArmSource) (h : x.state ≠ .arming) : x.awaitsArming src = false := by
  rw [Bool.eq_false_iff, ne_eq, Slot.awaitsArming_iff]
  exact fun e => h e.1

/-! ## The start (R87, R91, R92) -/

theorem Slot.takeStart_data (x : Slot) (f : Offered) : (x.takeStart f).data = { x.data with
    start := some f.endpoint, deadline := (x.takeStart f).data.deadline, startSteps := f.steps } := by
  unfold Slot.takeStart
  dsimp only
  split
  · split <;> rfl
  · rfl

theorem Slot.takeStart_early {x : Slot} {f : Offered} (hk : x.plan.kind = .reciprocal)
    (h : before f.st.corrected x.data.gateClose = true) : (x.takeStart f).state = .gating := by
  unfold Slot.takeStart
  dsimp only
  rw [if_pos hk, if_pos h]

theorem Slot.takeStart_late {x : Slot} {f : Offered} (hk : x.plan.kind = .reciprocal)
    (h : before f.st.corrected x.data.gateClose = false) : (x.takeStart f).state = .stopping
    ∧ (x.takeStart f).data.deadline = laterOf x.data.gateClose f.st.corrected + ticksOf x.plan.waitLimit := by
  unfold Slot.takeStart
  dsimp only
  rw [if_pos hk, h]
  exact ⟨rfl, rfl⟩

theorem Slot.takeStart_interval {x : Slot} {f : Offered} (hk : x.plan.kind = .interval) :
    (x.takeStart f).state = .stopping
    ∧ (x.takeStart f).data.deadline = f.st.corrected + ticksOf x.plan.waitLimit := by
  unfold Slot.takeStart
  dsimp only
  rw [if_neg (by rw [hk]; exact nofun)]
  exact ⟨rfl, rfl⟩

theorem laterOf_eq (a b : Tick) : laterOf a b = if (b - a).toNat < 2 ^ 63 then b else a := by
  unfold laterOf
  by_cases h : (b - a).toNat < 2 ^ 63
  · rw [if_pos h, if_pos ((atOrBefore_iff _ _).2 h)]
  · rw [if_neg h, if_neg (mt (atOrBefore_iff _ _).1 h)]

theorem before_eq_false_iff (a b : Tick) : before a b = false ↔ ¬((b - a).toNat < 2 ^ 63 ∧ a ≠ b) := by
  rw [Bool.eq_false_iff, ne_eq, before_iff]

/-- A slot that makes something of an offer once, and nothing after that, is left with it, up to the finishes it
remembers. -/
theorem State.settle_offer {s : State} {n : SlotId} {st : Stamp} {y : Slot} {e : Option Finish}
    (ha : (s.slot n).state ≠ .idle) (hw : (s.slot n).awaitsArming .slotDone = false)
    (h1 : (s.offeredSlot st n).judgeInstant n s.horizonTime s.horizonLocked = some (y, e))
    (h2 : y.judgeInstant n s.horizonTime s.horizonLocked = none) (hy : y.awaitsArming .slotDone = false) :
    UpToFinishes y ((s.offer st).settle.slot n) := by
  have hslot : (s.offer st).slot n = s.offeredSlot st n := s.offer_slot_active st n ha
  refine (State.settle_slot (e := e) ?_ ?_ ?_ hy).1
  · rw [hslot, State.offer_horizonTime, State.offer_horizonLocked]; exact h1
  · rw [State.offer_horizonTime, State.offer_horizonLocked]; exact h2
  · rw [hslot]; exact hw

/-- What the end of an offer leaves of a slot in STARTING that takes the stamp. -/
theorem State.offer_starts {s : State} {n : SlotId} {st : Stamp} (hq : s.NoOtherStamp n)
    (hs : (s.slot n).state = .starting) (hk : (s.slot n).plan.kind = .reciprocal ∨ (s.slot n).plan.kind = .interval)
    (hm : (s.slot n).meetsStart (s.offered st) = true) :
    UpToFinishes ((s.offeredSlot st n).takeStart (s.offered st)) ((s.offer st).settle.slot n) := by
  have hidle : (s.slot n).state ≠ .idle := by rw [hs]; exact nofun
  have hw : (s.slot n).awaitsArming .slotDone = false := Slot.awaitsArming_of_state _ (by rw [hs]; exact nofun)
  have hnt : (s.slot n).plan.kind ≠ .totalize := by rcases hk with e | e <;> rw [e] <;> exact nofun
  refine State.settle_offer (e := none) hidle hw ?_ ?_ (Slot.takeStart_awaitsArming _ _ _)
  · refine Slot.judgeInstant_takes (Slot.seenFinish_not_waiting _ hw) (s.mem_offeredSlot st n)
      (Slot.judgeStamp_starts _ _ _ hs hm) fun g hg hne => ?_
    exact Slot.judgeStamp_useless _ _ _ (hq.offered_useless hg hne) fun _ => hnt
  · refine Slot.judgeInstant_ignores (Slot.seenFinish_not_waiting _ (Slot.takeStart_awaitsArming _ _ _)) fun g hg => ?_
    rw [Slot.takeStart_stampsAt] at hg
    refine Slot.takeStart_ignores _ _ _ ?_
    by_cases hne : g = s.offered st
    · exact .inl hne
    · have hu := hq.offered_useless hg hne
      exact .inr ⟨fun h => hu (.inl ⟨hnt, (g.isOf_iff _ _).1 h.2⟩),
        fun h => hu (.inr (.inl ⟨h.1, (g.isOf_iff _ _).1 h.2.1⟩))⟩

/-- Settles O28: the slot takes the stamp as its start, once, and the grant follows. -/
theorem stampStartsMeasurement : Obligations.StampStartsMeasurement := by
  intro i st n s hq hdue
  dsimp only
  intro hs hk hin hse hfrom hstrict
  have hm : (s.slot n).meetsStart (s.offered st) = true := (Slot.meetsStart_iff _ _).2 ⟨hin, hse, hfrom, hstrict⟩
  obtain ⟨fs, hleft⟩ := State.offer_starts hq hs hk hm
  have hgrant := State.conclude_slot (s.offer_unit st) (s.offer_rawTime st) n
  rw [hleft] at hgrant
  have hrest := hgrant.rest
  have hframe : { (s.offeredSlot st n).takeStart (s.offered st) with finishes := fs } = { s.slot n with
      state := ((s.offer st).conclude.slot n).state, data := ((s.offer st).conclude.slot n).data
      fresh := ((s.offer st).conclude.slot n).fresh, finishes := ((s.offer st).conclude.slot n).finishes } := by
    rw [hrest, Slot.takeStart_frame]
    rfl
  rw [hframe] at hgrant
  have hdata := (s.offeredSlot st n).takeStart_data (s.offered st)
  refine ⟨_, exec_stampOffer_due hdue, s.conclude_offer_step st,
    (State.conclude_stamps _).trans (s.offer_stamps st), hgrant, ?_⟩
  rw [hrest]
  refine ⟨hdata, fun hr hc => ?_, fun hr hc => ?_, fun hi => ?_⟩
  · have hb := (before_iff _ _).2 hc
    exact Slot.takeStart_early (x := s.offeredSlot st n) (f := s.offered st) hr hb
  · obtain ⟨h1, h2⟩ := Slot.takeStart_late (x := s.offeredSlot st n) (f := s.offered st) hr
      ((before_eq_false_iff _ _).2 hc)
    rw [laterOf_eq, ticksOf_eq] at h2
    exact ⟨h1, h2⟩
  · obtain ⟨h1, h2⟩ := Slot.takeStart_interval (x := s.offeredSlot st n) (f := s.offered st) hi
    rw [ticksOf_eq] at h2
    exact ⟨h1, h2⟩

/-! ## CONTINUOUS stops of RECIPROCAL (R88, R89) -/

theorem Slot.afterFinish_continuous {x : Slot} (h : Tick) (l : Bool) (c : Slot) (hr : x.plan.repeatMode = .continuous) :
    x.afterFinish h l c = c := by
  unfold Slot.afterFinish; rw [hr]

theorem Slot.afterFinish_single {x : Slot} (h : Tick) (l : Bool) (c : Slot) (hr : x.plan.repeatMode = .single) :
    x.afterFinish h l c = x.toIdle := by
  unfold Slot.afterFinish; rw [hr]

theorem Slot.afterFinish_triggered {x : Slot} (h : Tick) (l : Bool) (c : Slot) (hr : x.plan.repeatMode = .triggered) :
    x.afterFinish h l c = x.rearm h l := by
  unfold Slot.afterFinish; rw [hr]

theorem Slot.nextReciprocal_plan (x : Slot) (f : Offered) (l : Bool) : (x.nextReciprocal f l).plan = x.plan := rfl
theorem Slot.nextReciprocal_stampsAt (x : Slot) (f : Offered) (l : Bool) (h : Tick) :
    (x.nextReciprocal f l).stampsAt h = x.stampsAt h := rfl

theorem Slot.nextReciprocal_inFlight (x : Slot) (f : Offered) (l : Bool) :
    (x.nextReciprocal f l).state = .gating ∨ (x.nextReciprocal f l).state = .stopping := by
  unfold Slot.nextReciprocal
  dsimp only
  split <;> (split <;> simp)

/-- The next measurement of a run along the grid of gate closes (R89). -/
theorem Slot.nextReciprocal_grid {x : Slot} {f : Offered} (l : Bool) {close : Tick}
    (hc : close = x.data.runOrigin + (x.data.gateIndex + 1).setWidth 64 * x.plan.gate * 256)
    (h : ¬(2 ^ 62 ≤ (f.st.corrected - close).toNat ∧ (f.st.corrected - close).toNat < 2 ^ 63)) :
    let y := x.nextReciprocal f l
    y.data.gateIndex = x.data.gateIndex + 1 ∧ y.data.runOrigin = x.data.runOrigin ∧ y.data.gateClose = close
    ∧ y.state = (if before f.st.corrected close then .gating else .stopping)
    ∧ y.data.deadline = laterOf close f.st.corrected + ticksOf x.plan.waitLimit := by
  have hno : (atOrBefore close f.st.corrected && decide (Config.runLag ≤ (f.st.corrected - close).toNat)) = false := by
    rw [Bool.eq_false_iff, ne_eq, Bool.and_eq_true, atOrBefore_iff, decide_eq_true_iff]
    exact fun e => h ⟨e.2, e.1⟩
  subst hc
  unfold Slot.nextReciprocal
  dsimp only
  unfold ticksOf at *
  rw [hno]
  exact ⟨rfl, rfl, rfl, rfl, rfl⟩

/-- The new run that begins with a start which lags the grid by 2^62 ticks or more (R89). -/
theorem Slot.nextReciprocal_lags {x : Slot} {f : Offered} (l : Bool) {close : Tick}
    (hc : close = x.data.runOrigin + (x.data.gateIndex + 1).setWidth 64 * x.plan.gate * 256)
    (h : 2 ^ 62 ≤ (f.st.corrected - close).toNat ∧ (f.st.corrected - close).toNat < 2 ^ 63) :
    let y := x.nextReciprocal f l
    y.data.gateIndex = 1 ∧ y.data.runOrigin = f.st.corrected
    ∧ y.data.gateClose = f.st.corrected + x.plan.gate * 256
    ∧ y.state = (if before f.st.corrected (f.st.corrected + x.plan.gate * 256) then .gating else .stopping) := by
  have hyes : (atOrBefore close f.st.corrected && decide (Config.runLag ≤ (f.st.corrected - close).toNat)) = true := by
    rw [Bool.and_eq_true, atOrBefore_iff, decide_eq_true_iff]
    exact ⟨h.2, h.1⟩
  subst hc
  unfold Slot.nextReciprocal
  dsimp only
  unfold ticksOf at *
  rw [hyes]
  exact ⟨rfl, rfl, rfl, rfl⟩

/-- A gate in its range closes after it opens (R55). -/
theorem Plan.InRange.before_gate {p : Plan} (h : p.InRange) (t : Tick) : before t (t + p.gate * 256) = true := by
  obtain ⟨h1, h2⟩ := h.gate
  have hd : t + p.gate * 256 - t = p.gate * 256 := by rw [BitVec.add_comm, BitVec.add_sub_cancel]
  have hn : (p.gate * 256).toNat = p.gate.toNat * 256 := by
    rw [BitVec.toNat_mul]
    exact Nat.mod_eq_of_lt (by simp; omega)
  rw [before_iff, hd, hn]
  refine ⟨by omega, fun e => ?_⟩
  rw [← e, BitVec.sub_self] at hd
  rw [← hd] at hn
  simp at hn
  omega

/-- The slot that the valued stop of a CONTINUOUS RECIPROCAL measurement leaves. -/
theorem Slot.takeStop_continuous {x : Slot} (n : SlotId) (h : Tick) (l : Bool) (f : Offered)
    (hk : x.plan.kind = .reciprocal) (hr : x.plan.repeatMode = .continuous) :
    ∃ y : Slot, (x.takeStop n h l f).1 = y.nextReciprocal f l ∧ y.plan = x.plan ∧ y.data = x.data
      ∧ ∀ k, y.stampsAt k = (x.finishedBy f).stampsAt k := by
  unfold Slot.takeStop
  dsimp only
  rw [if_pos hk]
  generalize x.outcome n l .valued _ false x.data.start (some f.endpoint) none = o
  have hp : ((x.finishedBy f).place o).plan = x.plan := (Slot.place_samePlan _ _).1
  exact ⟨(x.finishedBy f).place o, Slot.afterFinish_continuous _ _ _ (by rw [hp]; exact hr), hp, Slot.place_data _ _,
    fun k => Slot.place_stampsAt _ _ _⟩

/-- Settles O30: the stop is judged once, and what the slot then holds is the next measurement of the run. -/
theorem continuousReciprocalGoesOn : Obligations.ContinuousReciprocalGoesOn := by
  intro i st first scale n s hq hdue
  dsimp only
  intro hs hk hr hin hse hstart hclose hlater hne
  have hm : (s.slot n).meetsStop (s.offered st) = true := by
    have he : (s.slot n).EndsAt (s.offered st).st (s.offered st).scale :=
      .inl ⟨hk, hs, hin, hse, hclose, _, hstart, hlater, hne⟩
    rcases (Slot.endsAt_iff _ _).1 he with h | h
    · exact h.2
    · rw [h.2.1] at hk; cases hk
  have hidle : (s.slot n).state ≠ .idle := by rcases hs with e | e <;> rw [e] <;> exact nofun
  have hna : (s.slot n).state ≠ .arming := by rcases hs with e | e <;> rw [e] <;> exact nofun
  have hns : (s.slot n).state = .starting → (s.slot n).plan.kind ≠ .totalize := fun _ => by rw [hk]; exact nofun
  have hw := Slot.awaitsArming_of_state .slotDone hna
  obtain ⟨y, hy, hplan, hdata, hstamps⟩ := (s.offeredSlot st n).takeStop_continuous n s.horizonTime s.horizonLocked
    (s.offered st) hk hr
  have hyw : (y.nextReciprocal (s.offered st) s.horizonLocked).awaitsArming .slotDone = false := by
    refine Slot.awaitsArming_of_state _ ?_
    rcases y.nextReciprocal_inFlight (s.offered st) s.horizonLocked with e | e <;> rw [e] <;> exact nofun
  obtain ⟨fs, hleft⟩ : UpToFinishes (y.nextReciprocal (s.offered st) s.horizonLocked) ((s.offer st).settle.slot n) := by
    refine State.settle_offer (e := some ((s.offeredSlot st n).takeStop n s.horizonTime s.horizonLocked
      (s.offered st)).2) hidle hw ?_ ?_ hyw
    · rw [← hy]
      refine Slot.judgeInstant_takes (Slot.seenFinish_not_waiting _ hw) (s.mem_offeredSlot st n)
        (Slot.judgeStamp_stops _ _ _ hs hm) fun g hg hne => ?_
      exact Slot.judgeStamp_useless _ _ _ (hq.offered_useless hg hne) hns
    · refine Slot.judgeInstant_ignores (Slot.seenFinish_not_waiting _ hyw) fun g hg => ?_
      rw [Slot.nextReciprocal_stampsAt, hstamps, Slot.mem_finishedBy_stampsAt] at hg
      refine Slot.judgeStamp_useless _ _ _ ?_ fun e => ?_
      · rw [Slot.nextReciprocal_plan, hplan]
        exact hq.offered_useless hg.1 hg.2.1
      · rw [Slot.nextReciprocal_plan, hplan, show (s.offeredSlot st n).plan.kind = _ from hk]
        exact nofun
  have hrest := (State.conclude_slot (s.offer_unit st) (s.offer_rawTime st) n).rest
  rw [hleft] at hrest
  refine ⟨_, exec_stampOffer_due hdue, s.conclude_offer_step st, ?_⟩
  rw [hrest]
  have hp : y.plan = (s.slot n).plan := hplan
  have hd : y.data = (s.slot n).data := hdata
  rw [← hd, ← hp]
  refine ⟨rfl, rfl, rfl, fun h => ?_, fun h he => ?_, fun h he => ?_, fun h hrange => ?_⟩
  · obtain ⟨h1, h2, h3, -⟩ := y.nextReciprocal_grid (f := s.offered st) s.horizonLocked rfl h
    exact ⟨h1, h2, h3⟩
  · obtain ⟨-, -, -, h4, -⟩ := y.nextReciprocal_grid (f := s.offered st) s.horizonLocked rfl h
    exact h4.trans (if_pos ((before_iff _ _).2 he))
  · obtain ⟨-, -, -, h4, h5⟩ := y.nextReciprocal_grid (f := s.offered st) s.horizonLocked rfl h
    rw [laterOf_eq, ticksOf_eq] at h5
    exact ⟨h4.trans (if_neg (mt (before_iff _ _).1 he)), h5⟩
  · obtain ⟨h1, h2, h3, h4⟩ := y.nextReciprocal_lags (f := s.offered st) s.horizonLocked rfl h
    exact ⟨h4.trans (if_pos (hrange.before_gate _)), h2, h1, h3⟩

end Sys2Proof.Machine
end

section
/-! PROOFS. What a finish leaves of its slot (R76, R77, R82), and deadlines (R72, R88, R90, R92). -/

namespace Sys2Proof.Machine

/-! ## The move after a finish (R77) -/

/-- A re-arming is told by the plan, its generation, the state and the data alone. -/
theorem Slot.RearmedAt.of_data {x y z : Slot} {h : Tick} {l : Bool} (hr : x.RearmedAt y h l) (hz : SamePlan y z)
    (hs : z.state = y.state) (hd : z.data = y.data) : x.RearmedAt z h l := by
  refine ⟨fun e => ⟨(hr.1 e).1.of_data hz hs hd, hd ▸ (hr.1 e).2⟩, fun e => ?_⟩
  rw [hz.1, hz.2, hs, hd]
  exact hr.2 e

/-- An arming is that of any slot with the same plan. -/
theorem Slot.begin_armedAt_of {x y : Slot} (hp : SamePlan x y) (a : Tick) (b l : Bool) :
    x.ArmedAt (y.begin a b l) a b l := by
  have h := y.begin_armedAt a b l
  unfold Slot.ArmedAt at h ⊢
  rw [hp.1, hp.2] at h
  exact h

theorem Slot.begin_armingSince (x : Slot) (a : Tick) (b l : Bool) :
    (x.begin a b l).data.armingSince = x.data.armingSince := by
  unfold Slot.begin; cases x.plan.kind <;> rfl

/-- What a TRIGGERED finish makes of a slot (R77, R82). -/
theorem Slot.rearm_rearmedAt {x y : Slot} (hp : SamePlan x y) (h : Tick) (l : Bool) : x.RearmedAt (y.rearm h l) h l := by
  refine ⟨fun e => ?_, fun e => ?_⟩ <;> rw [← hp.1] at e <;> unfold Slot.rearm <;> dsimp only
  · rw [if_pos e]
    refine ⟨Slot.begin_armedAt_of ?_ h false l, ?_⟩
    · exact hp
    · rw [Slot.begin_armingSince]
  · rw [if_neg e]
    exact ⟨hp.1, hp.2, rfl, rfl⟩

theorem Slot.rearm_kept (x : Slot) (h : Tick) (l : Bool) :
    (x.rearm h l).finished = x.finished ∧ (x.rearm h l).lost = x.lost ∧ (x.rearm h l).fresh = x.fresh
      ∧ (x.rearm h l).finishes = x.finishes ∧ (x.rearm h l).usedUp = x.usedUp := by
  unfold Slot.rearm
  dsimp only
  split
  · rw [Slot.begin_finished, Slot.begin_lost, Slot.begin_fresh, Slot.begin_finishes, Slot.begin_usedUp]
    exact ⟨rfl, rfl, rfl, rfl, rfl⟩
  · exact ⟨rfl, rfl, rfl, rfl, rfl⟩

/-- The move after a finish leaves the finished entry and the lost count as placed. -/
theorem Slot.afterFinish_placed {x c : Slot} (h : Tick) (l : Bool) (hc : c.finished = x.finished ∧ c.lost = x.lost) :
    (x.afterFinish h l c).finished = x.finished ∧ (x.afterFinish h l c).lost = x.lost := by
  unfold Slot.afterFinish
  cases x.plan.repeatMode with
  | single => exact ⟨rfl, rfl⟩
  | continuous => exact hc
  | triggered => exact ⟨(x.rearm_kept h l).1, (x.rearm_kept h l).2.1⟩

/-- The move after a finish brings no stamp and no finish of the instant. -/
theorem Slot.afterFinish_remembers {x c : Slot} (h : Tick) (l : Bool)
    (hc : c.fresh = x.fresh ∧ c.finishes = x.finishes) :
    (∀ f ∈ (x.afterFinish h l c).fresh, f ∈ x.fresh) ∧ ∀ e ∈ (x.afterFinish h l c).finishes, e ∈ x.finishes := by
  unfold Slot.afterFinish
  cases x.plan.repeatMode with
  | single => exact ⟨fun f hf => absurd hf List.not_mem_nil, fun e he => absurd he List.not_mem_nil⟩
  | continuous => dsimp only; rw [hc.1, hc.2]; exact ⟨fun f hf => hf, fun e he => he⟩
  | triggered =>
    obtain ⟨-, -, hf, he, -⟩ := x.rearm_kept h l
    dsimp only
    rw [hf, he]
    exact ⟨fun f hf => hf, fun e he => he⟩

/-- After a finish a slot waits for a finish of its arm slot only where it is TRIGGERED under SLOT_DONE. -/
theorem Slot.afterFinish_awaitsArming {x c : Slot} (h : Tick) (l : Bool) (hc : c.state ≠ .arming)
    (ht : ¬(x.plan.repeatMode = .triggered ∧ x.plan.armSource = .slotDone)) :
    (x.afterFinish h l c).awaitsArming .slotDone = false := by
  unfold Slot.afterFinish
  cases hr : x.plan.repeatMode with
  | single => exact Slot.awaitsArming_of_state _ nofun
  | continuous => exact Slot.awaitsArming_of_state _ hc
  | triggered =>
    have hsrc : (x.rearm h l).plan.armSource ≠ .slotDone := by
      rw [(x.rearm_samePlan h l).1]
      exact fun e => ht ⟨hr, e⟩
    dsimp only
    rw [Bool.eq_false_iff, ne_eq, Slot.awaitsArming_iff]
    exact fun e => hsrc e.2.1

/-! ## The deadline (R88, R90, R92) -/

section
variable (x : Slot) (n : SlotId) (l : Bool)

/-- The outcome of a timeout. -/
def Slot.timeOutOutcome : Outcome := x.outcome n l .noSignal (x.crossedMarks 0) false x.data.start none none

/-- What a CONTINUOUS slot goes on with after a timeout (R90, R92). -/
def Slot.afterTimeOut : Slot :=
  let y := x.place (x.timeOutOutcome n l)
  if x.plan.kind = .reciprocal then y.newRun x.data.deadline l else y.nextInterval x.data.deadline false l

theorem Slot.timeOut_eq : (x.timeOut n l).1 =
    (x.place (x.timeOutOutcome n l)).afterFinish x.data.deadline l (x.afterTimeOut n l) := rfl

theorem Slot.afterTimeOut_kept : (x.afterTimeOut n l).finished = (x.place (x.timeOutOutcome n l)).finished
    ∧ (x.afterTimeOut n l).lost = (x.place (x.timeOutOutcome n l)).lost
    ∧ (x.afterTimeOut n l).fresh = (x.place (x.timeOutOutcome n l)).fresh
    ∧ (x.afterTimeOut n l).finishes = (x.place (x.timeOutOutcome n l)).finishes
    ∧ (x.afterTimeOut n l).state = .starting := by
  unfold Slot.afterTimeOut
  dsimp only
  split <;> exact ⟨rfl, rfl, rfl, rfl, rfl⟩

theorem Slot.place_fresh (o : Outcome) : (x.place o).fresh = x.fresh := by
  unfold Slot.place; split <;> rfl

theorem Slot.place_finishes (o : Outcome) : (x.place o).finishes = x.finishes := by
  unfold Slot.place; split <;> rfl

theorem Slot.place_plan (o : Outcome) : (x.place o).plan = x.plan := (x.place_samePlan o).1

theorem Slot.timeOut_placed : (x.timeOut n l).1.finished = (x.place (x.timeOutOutcome n l)).finished
    ∧ (x.timeOut n l).1.lost = (x.place (x.timeOutOutcome n l)).lost := by
  obtain ⟨h1, h2, -⟩ := x.afterTimeOut_kept n l
  exact Slot.afterFinish_placed _ _ ⟨h1, h2⟩

theorem Slot.timeOut_remembers : (∀ f ∈ (x.timeOut n l).1.fresh, f ∈ x.fresh)
    ∧ ∀ e ∈ (x.timeOut n l).1.finishes, e ∈ x.finishes := by
  obtain ⟨-, -, h1, h2, -⟩ := x.afterTimeOut_kept n l
  have h := Slot.afterFinish_remembers x.data.deadline l (x := x.place (x.timeOutOutcome n l)) ⟨h1, h2⟩
  rw [Slot.place_fresh, Slot.place_finishes] at h
  exact h

theorem Slot.timeOut_awaitsArming (ht : ¬(x.plan.repeatMode = .triggered ∧ x.plan.armSource = .slotDone)) :
    (x.timeOut n l).1.awaitsArming .slotDone = false := by
  rw [Slot.timeOut_eq]
  refine Slot.afterFinish_awaitsArming _ _ ?_ (by rw [Slot.place_plan]; exact ht)
  rw [(x.afterTimeOut_kept n l).2.2.2.2]
  exact nofun

end

/-- The announcement of a finish that is not valued changes no slot. -/
theorem State.announce_noSignal_slots (s : State) (n : SlotId) (b : Bool) (c : Option Stamp) :
    (s.announce n ⟨none, b, c⟩).slots = s.slots := by
  cases b <;> rfl

/-- The state that a timeout of slot n leaves, before the end of the event. -/
def State.timedOut (s : State) (n : SlotId) : State :=
  (s.setSlot n ((s.slot n).timeOut n s.horizonLocked).1).announce n ((s.slot n).timeOut n s.horizonLocked).2

theorem State.timedOut_slot (s : State) (n m : SlotId) :
    (s.timedOut n).slot m = if n = m then ((s.slot n).timeOut n s.horizonLocked).1 else s.slot m := by
  rw [← State.slot_setSlot]
  exact State.slot_of_slots (State.announce_noSignal_slots _ _ _ _) m

theorem State.timedOut_engine (s : State) (n : SlotId) (ho : (s.slot n).state ≠ .idle) : EngineStep s (s.timedOut n) :=
  s.finish_step n _ _ ((s.slot n).timeOut_samePlan n s.horizonLocked) ho ((s.slot n).timeOut_tells n s.horizonLocked)

/-- Whether a state is quiet is told by its slots and its horizon time. -/
theorem State.Quiet.of_slots {s u : State} (q : s.Quiet) (hs : u.slots = s.slots) (ht : u.horizonTime = s.horizonTime) :
    u.Quiet := by
  intro m
  rw [State.slot_of_slots hs m, ht]
  exact q m

theorem State.timedOut_quiet {s : State} (q : s.Quiet) (n : SlotId) : (s.timedOut n).Quiet := by
  have h := (s.slot n).timeOut_remembers n s.horizonLocked
  exact (q.setSlot n _ h.1 h.2).of_slots (State.announce_noSignal_slots _ _ _ _)
    (State.announce_engine _ _ _).horizonTime

/-- A finish that is announced changes neither the arithmetic unit nor the stamps in flight. -/
theorem State.announce_unit (s : State) (n : SlotId) (e : Finish) :
    (s.announce n e).unit = s.unit ∧ (s.announce n e).stamps = s.stamps := by
  have hd : (if e.single then s.raiseSubscribed .done n else s).unit = s.unit
      ∧ (if e.single then s.raiseSubscribed .done n else s).stamps = s.stamps := by
    split
    · exact ⟨State.raise_unit _ _ _, State.raise_stamps _ _ _⟩
    · exact ⟨rfl, rfl⟩
  unfold State.announce
  cases e.stopTime with
  | none => exact hd
  | some t =>
    unfold State.armDependents
    dsimp only
    rw [State.mapSlots_unit, State.mapSlots_stamps]
    exact hd

/-- The stamps of the instant are of no use to a slot that has timed out. -/
theorem State.timedOut_settled {s : State} {n : SlotId} (hq : s.NoOtherCause n)
    (hk : (s.slot n).plan.kind = .reciprocal ∨ (s.slot n).plan.kind = .interval) (ho : (s.slot n).state ≠ .idle) :
    UpToFinishes ((s.slot n).timeOut n s.horizonLocked).1 ((s.timedOut n).settle.slot n) := by
  have hslot : (s.timedOut n).slot n = ((s.slot n).timeOut n s.horizonLocked).1 := by
    rw [State.timedOut_slot, if_pos rfl]
  have he := s.timedOut_engine n ho
  have hplan := ((s.slot n).timeOut_samePlan n s.horizonLocked).1
  by_cases ht : (s.slot n).plan.repeatMode = .triggered ∧ (s.slot n).plan.armSource = .slotDone
  · rw [State.settle_quiet (State.timedOut_quiet (hq.2 ht.1 ht.2) n), hslot]
    exact .refl _
  · have hw := (s.slot n).timeOut_awaitsArming n s.horizonLocked ht
    rw [← hslot] at hw ⊢
    refine State.settle_ignores (Slot.judgeInstant_ignores (Slot.seenFinish_not_waiting _ hw) fun g hg => ?_) hw
    rw [hslot, he.horizonTime, Slot.mem_stampsAt] at hg
    rw [hslot]
    refine Slot.judgeStamp_useless _ _ _ ?_ fun _ => ?_
    · rw [hplan]
      exact hq.1 g (((s.slot n).timeOut_remembers n s.horizonLocked).1 g hg.1) hg.2
    · rw [hplan]
      rcases hk with e | e <;> rw [e] <;> exact nofun

/-- The DONE flags where no slot but n can return to IDLE, and slot n does so exactly under SINGLE (R77, R131). -/
theorem EngineStep.ports_of_one {s t : State} (h : EngineStep s t) {n : SlotId} (ho : (s.slot n).state ≠ .idle)
    (hm : ∀ m, m ≠ n → (t.slot m).state = (s.slot m).state)
    (hn : (s.slot n).plan.repeatMode = .single → (t.slot n).state = .idle) (p : PortId) :
    t.port p = if (s.slot n).plan.repeatMode = .single ∧ (s.port p).subscription.getLsbD n = true
      then { s.port p with flags := (s.port p).flags ||| 0b0000100 } else s.port p := by
  split
  · next c => exact (h.told p).1 ⟨n, c.2, c.1, ho, hn c.1⟩
  · next c =>
    refine (h.told p).2 ?_
    rintro ⟨m, hsub, hsingle, hact, hidle⟩
    by_cases e : m = n
    · subst e; exact c ⟨hsingle, hsub⟩
    · exact hact ((hm m e) ▸ hidle)

/-- Settles O35: the slot times out, the stamps of the instant being of no use to it, and the grant follows. -/
theorem deadlineEndsNoSignal : Obligations.DeadlineEndsNoSignal := by
  intro n s hq hst
  dsimp only
  intro hs hk hreach hlate
  have ho : (s.slot n).state ≠ .idle := by rcases hs with e | e <;> rw [e] <;> exact nofun
  have hdue : exec (.deadlineExpiry n) s = .next (s.timedOut n).conclude :=
    if_pos ((s.due_iff_deadline n).2 ⟨hs, hk, ⟨hst, hreach⟩, fun st hm e => hlate st hm e.2⟩)
  have hstep := (s.timedOut_engine n ho).trans (State.conclude_step _)
  have hunit : (s.timedOut n).unit = s.unit := (State.announce_unit _ _ _).1
  have hraw := (s.timedOut_engine n ho).rawTime
  obtain ⟨fs, hleft⟩ := State.timedOut_settled hq hk ho
  have hrest := (State.conclude_slot hunit hraw n).rest
  rw [hleft] at hrest
  have hother : s.Quiet → ∀ m, m ≠ n → s.GrantOnly m (s.slot m) ((s.timedOut n).conclude.slot m) := by
    intro q m hm
    have hg := State.conclude_slot hunit hraw m
    rw [State.settle_quiet (State.timedOut_quiet q n), State.timedOut_slot, if_neg hm.symm] at hg
    exact hg
  have hidle : (s.slot n).plan.repeatMode = .single → ((s.timedOut n).conclude.slot n).state = .idle := by
    intro hr
    rw [hrest, Slot.timeOut_eq, Slot.afterFinish_single _ _ _ (by rw [Slot.place_plan]; exact hr)]
    rfl
  refine ⟨_, hdue, hstep, (State.conclude_stamps _).trans (State.announce_unit _ _ _).2, hother, ?_, fun hr =>
    ⟨hidle hr, hstep.done hr ho (hidle hr)⟩, fun q => hstep.ports_of_one ho (fun m hm => ?_) hidle, fun hr => ?_,
    fun hr => ?_⟩
  · obtain ⟨hu, hr⟩ := State.settle_frame hunit hraw
    refine State.OutcomeFormed.of_settled hu hr (Slot.placed_of_place ?_ ?_) <;> rw [hleft]
    · exact ((s.slot n).timeOut_placed n s.horizonLocked).1
    · exact ((s.slot n).timeOut_placed n s.horizonLocked).2
  · rw [(hother q m hm).rest]
  · have he := (s.slot n).timeOut_eq n s.horizonLocked
    rw [Slot.afterFinish_triggered _ _ _ (by rw [Slot.place_plan]; exact hr)] at he
    have h := Slot.rearm_rearmedAt ((s.slot n).place_samePlan ((s.slot n).timeOutOutcome n s.horizonLocked))
      (s.slot n).data.deadline s.horizonLocked
    rw [← he] at h
    rw [hrest]
    exact h.of_data ⟨rfl, rfl⟩ rfl rfl
  · rw [hrest, Slot.timeOut_eq, Slot.afterFinish_continuous _ _ _ (by rw [Slot.place_plan]; exact hr)]
    unfold Slot.afterTimeOut
    dsimp only
    rcases hk with e | e
    · rw [if_pos e]
      unfold Slot.newRun
      rw [Slot.place_plan]
      exact ⟨rfl, rfl, rfl, rfl, rfl, rfl, rfl, fun _ => ⟨rfl, rfl, rfl, rfl⟩⟩
    · rw [if_neg (by rw [e]; exact nofun)]
      unfold Slot.nextInterval
      rw [Slot.place_plan]
      exact ⟨rfl, rfl, rfl, rfl, rfl, rfl, rfl, fun h => by rw [e] at h; cases h⟩

end Sys2Proof.Machine
end

section
/-! PROOFS. What a slot that has just armed makes of the stamps of the instant: the start or the first tag, and the stop
that may follow a start (R71, R72, R87, R91, R94, R95). -/

namespace Sys2Proof.Machine

/-! ## The first tag of a run (R94, R95) -/

/-- The outcome of the first tag of a run. -/
def Slot.firstTag (x : Slot) (n : SlotId) (l : Bool) (first : Endpoint) : Outcome where
  slot := n
  kind := .timetag
  reportAs := x.plan.reportAs
  planGen := x.planGen
  result := .valued
  flags := ⟨false, false, false, !l, false, false⟩
  start := some first
  stop := none
  edgesSince := some 0
  lost := 0

/-- Whether the first tag of a run reaches the quota (R95). -/
def Plan.LastAtFirst (p : Plan) : Prop := p.repeatMode ≠ .continuous ∧ ∃ q, p.quota = some q ∧ q.toNat ≤ 1

theorem quotaReached_one (p : Plan) : quotaReached p 1 = true ↔ p.LastAtFirst := by
  unfold quotaReached Plan.LastAtFirst
  cases p.quota <;> simp

/-- A slot whose first tag has been placed, before it moves on. -/
def Slot.tagPlaced (x : Slot) (n : SlotId) (a : Tick) (l : Bool) (g : Offered) : Slot :=
  ((x.begin a false l).finishedBy g).place (x.firstTag n l g.endpoint)

/-- A slot after the first tag of its run. -/
def Slot.firstTagged (x : Slot) (n : SlotId) (a h : Tick) (l : Bool) (g : Offered) : Slot :=
  let y := x.tagPlaced n a l g
  if quotaReached x.plan 1 then y.afterFinish h l y
  else { y with data := { MeasData.empty with
    previousTag := some ⟨g.st.edgeCount, g.st.calGen⟩, startSteps := g.steps, tags := 1, marks := Marks.begin false l } }

section
variable {x : Slot} {n : SlotId} {a h : Tick} {l : Bool} {g : Offered}

/-- The first tag of a run: no edge is between it and a tag before it (R94). -/
theorem Slot.takeTag_first {y : Slot} (hp : y.data.previousTag = none) (ht : y.data.tags = 0) :
    (y.takeTag n h l g).1 =
      let z := (y.finishedBy g).place (y.outcome n l .valued { y.data.marks with
        calChanged := y.data.marks.calChanged || false } false (some g.endpoint) none (some 0))
      if quotaReached y.plan 1 then z.afterFinish h l z
      else { z with data := { MeasData.empty with
        previousTag := some ⟨g.st.edgeCount, g.st.calGen⟩, startSteps := g.steps, tags := 1
        marks := Marks.begin false l } } := by
  have hpush : decide (y.plan.prescale.toNat < (edgesSincePrevious none g.st).toNat) = false :=
    decide_eq_false (Nat.not_lt_zero _)
  unfold Slot.takeTag
  rw [hp, ht]
  dsimp only
  rw [hpush]
  split <;> rfl

theorem Slot.begin_takeTag (hk : x.plan.kind = .timetag) :
    ((x.begin a false l).takeTag n h l g).1 = x.firstTagged n a h l g := by
  have hb : x.begin a false l = { x with state := .tagging, data := { MeasData.empty with
      armingSince := x.data.armingSince, armInstant := some a, marks := Marks.begin false l } } := by
    unfold Slot.begin; rw [hk]
  have ho : x.firstTag n l g.endpoint = (x.begin a false l).outcome n l .valued
      { (x.begin a false l).data.marks with calChanged := (x.begin a false l).data.marks.calChanged || false } false
      (some g.endpoint) none (some 0) := by
    rw [hb]
    unfold Slot.outcome Slot.firstTag
    rw [hk]
    cases l <;> rfl
  rw [Slot.takeTag_first (by rw [hb]; rfl) (by rw [hb]; rfl), ← ho, Slot.begin_plan]
  rfl

theorem Slot.tagPlaced_samePlan : SamePlan x (x.tagPlaced n a l g) :=
  ((x.begin_samePlan a false l).trans (Slot.finishedBy_samePlan _ g)).trans (Slot.place_samePlan _ _)

theorem Slot.firstTagged_samePlan : SamePlan x (x.firstTagged n a h l g) := by
  unfold Slot.firstTagged
  dsimp only
  split
  · exact Slot.tagPlaced_samePlan.trans (Slot.afterFinish_samePlan _ _ _ _ ⟨rfl, rfl⟩)
  · exact Slot.tagPlaced_samePlan

/-- A placement is told by the finished entry and the lost count before it. -/
theorem Slot.place_congr {x y : Slot} (o : Outcome) (hf : y.finished = x.finished) (hl : y.lost = x.lost) :
    (y.place o).finished = (x.place o).finished ∧ (y.place o).lost = (x.place o).lost := by
  unfold Slot.place
  rw [hf, hl]
  split <;> exact ⟨rfl, rfl⟩

/-- The first tag's outcome is placed, whatever the slot goes on with. -/
theorem Slot.firstTagged_placed : (x.firstTagged n a h l g).finished = (x.place (x.firstTag n l g.endpoint)).finished
    ∧ (x.firstTagged n a h l g).lost = (x.place (x.firstTag n l g.endpoint)).lost := by
  have hp := Slot.place_congr (x := x) (y := (x.begin a false l).finishedBy g) (x.firstTag n l g.endpoint)
    (Slot.begin_finished x a false l) (Slot.begin_lost x a false l)
  unfold Slot.firstTagged
  dsimp only
  split
  · obtain ⟨h1, h2⟩ := Slot.afterFinish_placed h l (x := x.tagPlaced n a l g) ⟨rfl, rfl⟩
    exact ⟨h1.trans hp.1, h2.trans hp.2⟩
  · exact hp

theorem Slot.firstTagged_single (hq : x.plan.LastAtFirst) (hr : x.plan.repeatMode = .single) :
    x.firstTagged n a h l g = (x.tagPlaced n a l g).toIdle := by
  unfold Slot.firstTagged
  dsimp only
  rw [if_pos ((quotaReached_one _).2 hq)]
  exact Slot.afterFinish_single _ _ _ (by rw [Slot.tagPlaced_samePlan.1]; exact hr)

theorem Slot.firstTagged_triggered (hq : x.plan.LastAtFirst) (hr : x.plan.repeatMode = .triggered) :
    x.firstTagged n a h l g = (x.tagPlaced n a l g).rearm h l := by
  unfold Slot.firstTagged
  dsimp only
  rw [if_pos ((quotaReached_one _).2 hq)]
  exact Slot.afterFinish_triggered _ _ _ (by rw [Slot.tagPlaced_samePlan.1]; exact hr)

theorem Slot.firstTagged_goesOn (hq : ¬x.plan.LastAtFirst) :
    x.firstTagged n a h l g = { x.tagPlaced n a l g with data := { MeasData.empty with
      previousTag := some ⟨g.st.edgeCount, g.st.calGen⟩, startSteps := g.steps, tags := 1, marks := Marks.begin false l } } := by
  unfold Slot.firstTagged
  dsimp only
  rw [if_neg (mt (quotaReached_one _).1 hq)]

theorem Slot.tagPlaced_state (hk : x.plan.kind = .timetag) : (x.tagPlaced n a l g).state = .tagging := by
  unfold Slot.tagPlaced
  rw [Slot.place_state]
  show (x.begin a false l).state = _
  rw [Slot.begin_state_eq, hk]

theorem Slot.tagPlaced_stampsAt {e : Offered} {k : Tick} :
    e ∈ (x.tagPlaced n a l g).stampsAt k ↔ e ∈ x.stampsAt k ∧ e ≠ g ∧ (x.begin a false l).spent e = false := by
  unfold Slot.tagPlaced
  rw [Slot.place_stampsAt, Slot.mem_finishedBy_stampsAt, Slot.begin_stampsAt]

/-- After the first tag, the slot holds no stamp but those it held beside the tag. -/
theorem Slot.mem_firstTagged_stampsAt {e : Offered} {k : Tick} (he : e ∈ (x.firstTagged n a h l g).stampsAt k) :
    e ∈ x.stampsAt k ∧ e ≠ g := by
  have hy : e ∈ (x.tagPlaced n a l g).stampsAt k := by
    unfold Slot.firstTagged at he
    dsimp only at he
    split at he
    · rw [Slot.mem_stampsAt] at he ⊢
      exact ⟨(Slot.afterFinish_remembers h l ⟨rfl, rfl⟩).1 e he.1, he.2⟩
    · exact he
  obtain ⟨h1, h2, -⟩ := Slot.tagPlaced_stampsAt.1 hy
  exact ⟨h1, h2⟩

/-! ## What a slot that has just finished ignores -/

/-- A slot that a finish has re-armed ignores a stamp that neither arms it nor starts the measurement it has begun. -/
theorem Slot.rearm_ignores {y : Slot} {e : Offered} (m : SlotId) (k : Tick) (b : Bool)
    (hi : y.plan.armSource = .immediate → ¬y.FirstRole h e)
    (ha : y.plan.armSource = .inputEdge →
      ¬(e.isOf y.plan.armInput y.plan.armSense = true ∧ atOrBefore h e.st.corrected = true)) :
    (y.rearm h l).judgeStamp m k b e = none := by
  unfold Slot.rearm
  dsimp only
  split
  · next hs => exact Slot.begin_ignores m k b (hi hs)
  · refine Slot.judgeStamp_ignores m k b (fun _ => ?_) nofun (fun hs => by rcases hs with hs | hs <;> cases hs) nofun
    rw [Bool.eq_false_iff]
    intro hm
    obtain ⟨-, hs, -, hin, hse, ht⟩ := (Slot.meetsArm_iff _ e).1 hm
    exact ha hs ⟨(e.isOf_iff _ _).2 ⟨hin, hse⟩, (atOrBefore_iff _ _).2 ht⟩

theorem Slot.rearm_awaitsArming {y : Slot} (hs : y.plan.armSource ≠ .slotDone) :
    (y.rearm h l).awaitsArming .slotDone = false := by
  rw [Bool.eq_false_iff, ne_eq, Slot.awaitsArming_iff, (y.rearm_samePlan h l).1]
  exact fun e => hs e.2.1

/-- After the first tag, a slot ignores a stamp that is not of its input and sense, and does not arm it again. -/
theorem Slot.firstTagged_ignores {e : Offered} (m : SlotId) (k : Tick) (b : Bool) (hk : x.plan.kind = .timetag)
    (he : ¬e.isOf x.plan.inputA x.plan.senseA = true)
    (ha : x.plan.LastAtFirst → x.plan.repeatMode = .triggered → x.plan.armSource = .inputEdge →
      ¬(e.isOf x.plan.armInput x.plan.armSense = true ∧ atOrBefore h e.st.corrected = true)) :
    (x.firstTagged n a h l g).judgeStamp m k b e = none := by
  have hp := (Slot.tagPlaced_samePlan (x := x) (n := n) (a := a) (l := l) (g := g)).1
  by_cases hq : x.plan.LastAtFirst
  · cases hr : x.plan.repeatMode with
    | single => rw [Slot.firstTagged_single hq hr]; rfl
    | continuous => exact absurd hr hq.1
    | triggered =>
      rw [Slot.firstTagged_triggered hq hr]
      refine Slot.rearm_ignores m k b (fun _ hf => he ?_) ?_
      · rw [← hp]; exact hf.1
      · rw [hp]; exact ha hq hr
  · rw [Slot.firstTagged_goesOn hq]
    have hst := Slot.tagPlaced_state (n := n) (a := a) (l := l) (g := g) hk
    refine Slot.judgeStamp_ignores m k b (fun hs => ?_) (fun hs => ?_) (fun hs => ?_) fun _ _ => ?_
    · rw [hst] at hs; cases hs
    · rw [hst] at hs; cases hs
    · rw [hst] at hs; rcases hs with hs | hs <;> cases hs
    · rw [Bool.eq_false_iff]
      intro hm
      have hA := Slot.meetsTag_isOf hm
      rw [hp] at hA
      exact he hA

theorem Slot.firstTagged_awaitsArming (hk : x.plan.kind = .timetag)
    (hs : ¬(x.plan.LastAtFirst ∧ x.plan.repeatMode = .triggered ∧ x.plan.armSource = .slotDone)) :
    (x.firstTagged n a h l g).awaitsArming .slotDone = false := by
  by_cases hq : x.plan.LastAtFirst
  · cases hr : x.plan.repeatMode with
    | single => rw [Slot.firstTagged_single hq hr]; exact Slot.awaitsArming_of_state _ nofun
    | continuous => exact absurd hr hq.1
    | triggered =>
      rw [Slot.firstTagged_triggered hq hr]
      refine Slot.rearm_awaitsArming ?_
      rw [Slot.tagPlaced_samePlan.1]
      exact fun e => hs ⟨hq, hr, e⟩
  · rw [Slot.firstTagged_goesOn hq]
    refine Slot.awaitsArming_of_state _ ?_
    show (x.tagPlaced n a l g).state ≠ _
    rw [Slot.tagPlaced_state hk]
    exact nofun

/-! ## The instant of an arming, judged to the end -/

/-- A slot that has armed makes nothing more of an instant without a stamp of the first role. -/
theorem Slot.judgeInstant_begin_none (hn : x.plan.kind = .totalize ∨ ∀ e ∈ x.stampsAt h, ¬x.FirstRole a e) :
    (x.begin a false l).judgeInstant n h l = none := by
  refine Slot.judgeInstant_ignores (Slot.seenFinish_not_waiting _ (x.begin_awaitsArming _ _ _ _)) fun e he => ?_
  rw [Slot.begin_stampsAt] at he
  rcases hn with hk | hn
  · exact Slot.begin_ignores_totalize n h l hk
  · exact Slot.begin_ignores n h l (hn e he)

/-- A slot that has armed takes the one stamp of the first role as its start. -/
theorem Slot.judgeInstant_begin_start (hk : x.plan.kind = .reciprocal ∨ x.plan.kind = .interval)
    (hg : g ∈ x.stampsAt h) (hf : x.FirstRole a g) (ho : ∀ e ∈ x.stampsAt h, e ≠ g → ¬x.FirstRole a e) :
    (x.begin a false l).judgeInstant n h l = some ((x.begin a false l).takeStart g, none) := by
  rw [← x.begin_stampsAt a false l h] at hg ho
  exact Slot.judgeInstant_takes (Slot.seenFinish_not_waiting _ (x.begin_awaitsArming _ _ _ _)) hg
    (Slot.begin_starts n h l hk hf) fun e he hne => Slot.begin_ignores n h l (ho e he hne)

/-- A slot that has armed takes the one stamp of the first role as its first tag. -/
theorem Slot.judgeInstant_begin_tag (hk : x.plan.kind = .timetag)
    (hg : g ∈ x.stampsAt h) (hf : x.FirstRole a g) (ho : ∀ e ∈ x.stampsAt h, e ≠ g → ¬x.FirstRole a e) :
    (x.begin a false l).judgeInstant n h l =
      some (x.firstTagged n a h l g, some ((x.begin a false l).takeTag n h l g).2) := by
  rw [← x.begin_stampsAt a false l h] at hg ho
  rw [← Slot.begin_takeTag hk]
  exact Slot.judgeInstant_takes (Slot.seenFinish_not_waiting _ (x.begin_awaitsArming _ _ _ _)) hg
    (Slot.begin_tags n h l hk hf) fun e he hne => Slot.begin_ignores n h l (ho e he hne)

/-- A slot that has just started makes nothing more of an instant without a stop. -/
theorem Slot.judgeInstant_start_none {y : Slot} (ho : ∀ e ∈ y.stampsAt h, e ≠ g →
      ¬(y.plan.kind = .reciprocal ∧ e.isOf y.plan.inputA y.plan.senseA = true)
      ∧ ¬(y.plan.kind = .interval ∧ e.isOf y.plan.inputB y.plan.senseB = true
        ∧ atOrBefore g.st.corrected e.st.corrected = true)) :
    (y.takeStart g).judgeInstant n h l = none := by
  refine Slot.judgeInstant_ignores (Slot.seenFinish_not_waiting _ (y.takeStart_awaitsArming g _)) fun e he => ?_
  rw [Slot.takeStart_stampsAt] at he
  refine Slot.takeStart_ignores n h l ?_
  by_cases hne : e = g
  · exact .inl hne
  · exact .inr (ho e he hne)

/-- A slot that has just tagged makes nothing more of an instant without another stamp of its input, unless one arms it
again. -/
theorem Slot.judgeInstant_tag_none (hk : x.plan.kind = .timetag)
    (hs : ¬(x.plan.LastAtFirst ∧ x.plan.repeatMode = .triggered ∧ x.plan.armSource = .slotDone))
    (ho : ∀ e ∈ x.stampsAt h, e ≠ g → ¬e.isOf x.plan.inputA x.plan.senseA = true
      ∧ (x.plan.LastAtFirst → x.plan.repeatMode = .triggered → x.plan.armSource = .inputEdge →
        ¬(e.isOf x.plan.armInput x.plan.armSense = true ∧ atOrBefore h e.st.corrected = true))) :
    (x.firstTagged n a h l g).judgeInstant n h l = none := by
  refine Slot.judgeInstant_ignores (Slot.seenFinish_not_waiting _ (Slot.firstTagged_awaitsArming hk hs)) fun e he => ?_
  obtain ⟨hm, hne⟩ := Slot.mem_firstTagged_stampsAt he
  exact Slot.firstTagged_ignores n h l hk (ho e hm hne).1 (ho e hm hne).2

end

end Sys2Proof.Machine
end

section
/-! PROOFS. The stop of an INTERVAL measurement at the instant of its start (R91, R92), and what the statements say of a
slot that has started, tagged or stopped. -/

namespace Sys2Proof.Machine

/-! ## A stop at the instant of the start (R91) -/

/-- The outcome of an INTERVAL measurement that starts and stops at the instant of its arming. -/
def Slot.firstInterval (x : Slot) (n : SlotId) (l : Bool) (g f : Offered) : Outcome where
  slot := n
  kind := .interval
  reportAs := x.plan.reportAs
  planGen := x.planGen
  result := .valued
  flags := ⟨false, false, decide (g.steps ≠ f.steps), !l, decide (g.st.input = f.st.input ∧ g.st.calGen ≠ f.st.calGen), false⟩
  start := some g.endpoint
  stop := some f.endpoint
  edgesSince := none
  lost := 0

/-- A slot whose first interval has been placed, before it moves on. -/
def Slot.intervalPlaced (x : Slot) (n : SlotId) (a : Tick) (l : Bool) (g f : Offered) : Slot :=
  (((x.begin a false l).takeStart g).finishedBy f).place (x.firstInterval n l g f)

/-- A slot after the stop of its first interval. -/
def Slot.firstStopped (x : Slot) (n : SlotId) (a h : Tick) (l : Bool) (g f : Offered) : Slot :=
  (x.intervalPlaced n a l g f).afterFinish h l ((x.intervalPlaced n a l g f).nextInterval f.st.corrected true l)

section
variable {x : Slot} {n : SlotId} {a h : Tick} {l : Bool} {g f : Offered}

theorem Slot.begin_takeStart_interval (hk : x.plan.kind = .interval) : (x.begin a false l).takeStart g = { x with
    state := .stopping
    data := { MeasData.empty with
      armingSince := x.data.armingSince, armInstant := some a, startFrom := a, marks := Marks.begin false l
      start := some g.endpoint, startSteps := g.steps, deadline := g.st.corrected + ticksOf x.plan.waitLimit } } := by
  unfold Slot.begin Slot.takeStart
  rw [hk]
  dsimp only
  rw [hk]
  rfl

theorem Slot.begin_takeStop (hk : x.plan.kind = .interval) :
    (((x.begin a false l).takeStart g).takeStop n h l f).1 = x.firstStopped n a h l g f := by
  have ho : x.firstInterval n l g f = ((x.begin a false l).takeStart g).outcome n l .valued
      { ((x.begin a false l).takeStart g).crossedMarks f.steps with
        calChanged := ((x.begin a false l).takeStart g).data.marks.calChanged
          || calibrationChanged ((x.begin a false l).takeStart g).data.start f.st } false
      ((x.begin a false l).takeStart g).data.start (some f.endpoint) none := by
    rw [Slot.begin_takeStart_interval hk]
    unfold Slot.outcome Slot.firstInterval
    rw [hk]
    cases l <;> rfl
  unfold Slot.firstStopped Slot.intervalPlaced
  rw [ho]
  unfold Slot.takeStop
  dsimp only
  rw [if_neg]
  rw [(Slot.takeStart_samePlan _ g).1, Slot.begin_plan, hk]
  exact nofun

theorem Slot.intervalPlaced_samePlan : SamePlan x (x.intervalPlaced n a l g f) :=
  (((x.begin_samePlan a false l).trans (Slot.takeStart_samePlan _ g)).trans (Slot.finishedBy_samePlan _ f)).trans
    (Slot.place_samePlan _ _)

/-- The outcome is placed, whatever the slot goes on with. -/
theorem Slot.firstStopped_placed :
    (x.firstStopped n a h l g f).finished = (x.place (x.firstInterval n l g f)).finished
    ∧ (x.firstStopped n a h l g f).lost = (x.place (x.firstInterval n l g f)).lost := by
  have hfr : ((x.begin a false l).takeStart g).finished = x.finished
      ∧ ((x.begin a false l).takeStart g).lost = x.lost := by
    rw [Slot.takeStart_frame]
    exact ⟨Slot.begin_finished _ _ _ _, Slot.begin_lost _ _ _ _⟩
  have hp := Slot.place_congr (x := x) (y := ((x.begin a false l).takeStart g).finishedBy f) (x.firstInterval n l g f)
    hfr.1 hfr.2
  obtain ⟨h1, h2⟩ := Slot.afterFinish_placed h l (x := x.intervalPlaced n a l g f)
    (c := (x.intervalPlaced n a l g f).nextInterval f.st.corrected true l) ⟨rfl, rfl⟩
  exact ⟨h1.trans hp.1, h2.trans hp.2⟩

/-- After the stop, the slot holds no stamp but those it held beside it, without the start where the plan is under
IMMEDIATE (log entry 17). -/
theorem Slot.mem_firstStopped_stampsAt {e : Offered} {k : Tick} (hk : x.plan.kind = .interval)
    (he : e ∈ (x.firstStopped n a h l g f).stampsAt k) :
    e ∈ x.stampsAt k ∧ e ≠ f ∧ (x.plan.armSource = .immediate → e.endpoint ≠ g.endpoint) := by
  have hy : e ∈ (x.intervalPlaced n a l g f).stampsAt k := by
    rw [Slot.mem_stampsAt] at he ⊢
    exact ⟨(Slot.afterFinish_remembers h l (x := x.intervalPlaced n a l g f)
      (c := (x.intervalPlaced n a l g f).nextInterval f.st.corrected true l) ⟨rfl, rfl⟩).1 e he.1, he.2⟩
  unfold Slot.intervalPlaced at hy
  rw [Slot.place_stampsAt, Slot.mem_finishedBy_stampsAt, Slot.begin_takeStart_interval hk] at hy
  obtain ⟨h1, h2, h3⟩ := hy
  refine ⟨h1, h2, fun hs hend => ?_⟩
  unfold Slot.spent at h3
  rw [hend] at h3
  simp [hs] at h3

/-- A slot that has stopped at f ignores the start g, which is not later, and cannot arm it again. -/
theorem Slot.firstStopped_ignores {e : Offered} (m : SlotId) (k : Tick) (b : Bool)
    (hle : before f.st.corrected e.st.corrected = false) (hi : x.plan.armSource ≠ .immediate)
    (ha : x.plan.armSource = .inputEdge → ¬e.isOf x.plan.armInput x.plan.armSense = true) :
    (x.firstStopped n a h l g f).judgeStamp m k b e = none := by
  have hp := (Slot.intervalPlaced_samePlan (x := x) (n := n) (a := a) (l := l) (g := g) (f := f)).1
  unfold Slot.firstStopped
  cases hr : x.plan.repeatMode with
  | single => rw [Slot.afterFinish_single _ _ _ (by rw [hp]; exact hr)]; rfl
  | triggered =>
    rw [Slot.afterFinish_triggered _ _ _ (by rw [hp]; exact hr)]
    refine Slot.rearm_ignores m k b (fun hs => ?_) fun hs hc => ?_
    · rw [hp] at hs; exact absurd hs hi
    · rw [hp] at hs hc; exact ha hs hc.1
  | continuous =>
    rw [Slot.afterFinish_continuous _ _ _ (by rw [hp]; exact hr)]
    refine Slot.judgeStamp_ignores m k b nofun (fun _ => ?_) (fun hs => by rcases hs with hs | hs <;> cases hs) nofun
    unfold Slot.meetsStart
    show (_ && before f.st.corrected e.st.corrected) = false
    rw [hle, Bool.and_false]

theorem Slot.firstStopped_awaitsArming (hs : x.plan.armSource ≠ .slotDone) :
    (x.firstStopped n a h l g f).awaitsArming .slotDone = false := by
  refine Slot.afterFinish_awaitsArming _ _ nofun ?_
  rw [Slot.intervalPlaced_samePlan.1]
  exact fun e => hs e.2

/-- Of two times each at or before the other, neither is before the other. -/
theorem before_false_of_atOrBefore {a b : Tick} (h : atOrBefore a b = true) : before b a = false := by
  rw [before_eq_false_iff]
  rintro ⟨h1, h2⟩
  rw [atOrBefore_iff] at h
  have h3 : a ≠ b := Ne.symm h2
  bv_omega

/-- A slot that has just started takes the one stamp of its second role as its stop. -/
theorem Slot.judgeInstant_start_stop (hk : x.plan.kind = .interval) (hf : f ∈ x.stampsAt h)
    (hB : f.isOf x.plan.inputB x.plan.senseB = true) (ht : atOrBefore g.st.corrected f.st.corrected = true)
    (hne : g.endpoint ≠ f.endpoint) (ho : ∀ e ∈ x.stampsAt h, e ≠ f → e = g) :
    ((x.begin a false l).takeStart g).judgeInstant n h l =
      some (x.firstStopped n a h l g f, some (((x.begin a false l).takeStart g).takeStop n h l f).2) := by
  have hstamps : ((x.begin a false l).takeStart g).stampsAt h = x.stampsAt h := by
    rw [Slot.takeStart_stampsAt, Slot.begin_stampsAt]
  rw [← hstamps] at hf ho
  rw [← Slot.begin_takeStop hk]
  refine Slot.judgeInstant_takes (Slot.seenFinish_not_waiting _ (Slot.takeStart_awaitsArming _ _ _)) hf
    (Slot.judgeStamp_stops n h l (Slot.takeStart_inFlight _ _) ?_) fun e he hne => ?_
  · rw [Slot.begin_takeStart_interval hk]
    unfold Slot.meetsStop
    dsimp only
    rw [hk]
    dsimp only
    rw [hB, Bool.true_and, Bool.and_eq_true, decide_eq_true_iff]
    exact ⟨ht, hne⟩
  · rw [ho e he hne]
    exact Slot.takeStart_ignores n h l (.inl rfl)

/-- A slot that has stopped at the instant of its start makes nothing more of it. -/
theorem Slot.judgeInstant_stop_none (hk : x.plan.kind = .interval) (hs : x.plan.armSource ≠ .slotDone)
    (ht : atOrBefore g.st.corrected f.st.corrected = true)
    (ha : x.plan.armSource = .inputEdge → ¬g.isOf x.plan.armInput x.plan.armSense = true)
    (ho : ∀ e ∈ x.stampsAt h, e ≠ f → e = g) :
    (x.firstStopped n a h l g f).judgeInstant n h l = none := by
  refine Slot.judgeInstant_ignores (Slot.seenFinish_not_waiting _ (Slot.firstStopped_awaitsArming hs)) fun e he => ?_
  obtain ⟨hm, hne, hspent⟩ := Slot.mem_firstStopped_stampsAt hk he
  rw [ho e hm hne] at hspent ⊢
  exact Slot.firstStopped_ignores n h l (before_false_of_atOrBefore ht) (fun hi => hspent hi rfl) ha

end

/-! ## What the statements say of the slot -/

section
variable {x : Slot} {n : SlotId} {a h : Tick} {l : Bool} {g f : Offered}

/-- A start is told by the plan, its generation, the state and the data alone. -/
theorem Slot.StartedAt.of_data {x y z : Slot} {a scale : Tick} {st : Stamp} {l : Bool} (h : x.StartedAt y a st scale l)
    (hz : SamePlan y z) (hs : z.state = y.state) (hd : z.data = y.data) : x.StartedAt z a st scale l := by
  unfold Slot.StartedAt at h ⊢
  rw [hz.1, hz.2, hs, hd]
  exact h

/-- A slot that armed and has taken its start (R87, R91). -/
theorem Slot.begin_takeStart_startedAt (hk : x.plan.kind = .reciprocal ∨ x.plan.kind = .interval) :
    x.StartedAt ((x.begin a false l).takeStart g) a g.st g.scale l := by
  rcases hk with hk | hk
  · have hb : x.begin a false l = { x with state := .starting, data := { MeasData.empty with
        armingSince := x.data.armingSince, armInstant := some a, gateOpen := some a
        gateClose := a + ticksOf x.plan.gate, runOrigin := a, gateIndex := 1, startFrom := a
        deadline := a + ticksOf x.plan.waitLimit, marks := Marks.begin false l } } := by
      unfold Slot.begin; rw [hk]
    have hkb : (x.begin a false l).plan.kind = .reciprocal := by rw [Slot.begin_plan]; exact hk
    have hd := (x.begin a false l).takeStart_data g
    have hp := (x.begin_samePlan a false l).trans ((x.begin a false l).takeStart_samePlan g)
    refine ⟨fun _ => ⟨hp.1, hp.2, ?_⟩, fun _ => ?_, fun e => (nomatch hk.symm.trans e), fun e => (nomatch hk.symm.trans e)⟩
    · rw [hd, hb]; exact ⟨rfl, rfl, rfl⟩
    · have hclose : (x.begin a false l).data.gateClose = a + x.plan.gate * 256 := by rw [hb, ticksOf_eq]
      refine ⟨?_, ?_, ?_, ?_, fun he => ?_, fun he => ?_⟩
      · rw [hd, hb]
      · rw [hd]; exact hclose
      · rw [hd, hb]
      · rw [hd, hb]
      · refine Slot.takeStart_early hkb ?_
        rw [hclose, before_iff]
        exact he
      · have hl := Slot.takeStart_late hkb (f := g) (by rw [hclose, before_eq_false_iff]; exact he)
        rw [hclose, laterOf_eq, ticksOf_eq, Slot.begin_plan] at hl
        exact hl
  · rw [Slot.begin_takeStart_interval hk]
    refine ⟨fun _ => ⟨rfl, rfl, rfl, rfl, rfl⟩, fun e => (nomatch hk.symm.trans e), fun _ => ⟨rfl, ?_⟩,
      fun e => (nomatch hk.symm.trans e)⟩
    rw [ticksOf_eq]

theorem Slot.begin_takeStart_startSteps : ((x.begin a false l).takeStart g).data.startSteps = g.steps := by
  rw [(x.begin a false l).takeStart_data g]

/-- What an arming and a start change of a slot is its state and its data. -/
theorem Slot.begin_takeStart_frame : (x.begin a false l).takeStart g = { x with
    state := ((x.begin a false l).takeStart g).state, data := ((x.begin a false l).takeStart g).data } := by
  conv => lhs; rw [Slot.takeStart_frame]
  generalize ((x.begin a false l).takeStart g).state = st
  generalize ((x.begin a false l).takeStart g).data = d
  rw [Slot.begin_frame]

/-- A slot after the first tag of its run (R94). -/
theorem Slot.firstTagged_startedAt (hk : x.plan.kind = .timetag) :
    x.StartedAt (x.firstTagged n a h l g) a g.st g.scale l := by
  refine ⟨fun e => by rcases e with e | e <;> exact (nomatch hk.symm.trans e), fun e => (nomatch hk.symm.trans e),
    fun e => (nomatch hk.symm.trans e), fun _ hq => ?_⟩
  have hlast : ¬x.plan.LastAtFirst := by
    rintro ⟨hr, q, hq1, hq2⟩
    rcases hq with e | e
    · exact hr e
    · exact absurd (e q hq1) (by omega)
  rw [Slot.firstTagged_goesOn hlast]
  exact ⟨Slot.tagPlaced_state hk, rfl, rfl, rfl⟩

theorem Slot.firstTagged_startSteps (hq : ¬x.plan.LastAtFirst) : (x.firstTagged n a h l g).data.startSteps = g.steps := by
  rw [Slot.firstTagged_goesOn hq]

theorem Slot.rearm_startSteps (y : Slot) : (y.rearm h l).data.startSteps = 0 := by
  unfold Slot.rearm
  dsimp only
  split
  · exact (Slot.begin_armedAt _ h false l).2.2.2.2.1
  · rfl

theorem Slot.firstTagged_startSteps_zero (hg : g.steps = 0) : (x.firstTagged n a h l g).data.startSteps = 0 := by
  by_cases hq : x.plan.LastAtFirst
  · cases hr : x.plan.repeatMode with
    | single => rw [Slot.firstTagged_single hq hr]; rfl
    | continuous => exact absurd hr hq.1
    | triggered => rw [Slot.firstTagged_triggered hq hr]; exact Slot.rearm_startSteps _
  · rw [Slot.firstTagged_startSteps hq]; exact hg

/-- A slot that the first tag of its run re-arms (R77, R95). -/
theorem Slot.firstTagged_rearmedAt (hq : x.plan.LastAtFirst) (hr : x.plan.repeatMode = .triggered) :
    x.RearmedAt (x.firstTagged n a h l g) h l := by
  rw [Slot.firstTagged_triggered hq hr]
  exact Slot.rearm_rearmedAt Slot.tagPlaced_samePlan h l

end

end Sys2Proof.Machine
end

section
/-! PROOFS. Slots that arm at the instant of a stamp of the first role: by a stamp under INPUT_EDGE (R85). -/

namespace Sys2Proof.Machine

/-! ## What a slot that has armed makes of the instant -/

section
variable {x : Slot} {n : SlotId} {a h : Tick} {l : Bool} {g f : Offered}

theorem Slot.judgeRun_begin_none (k : Nat) (hn : x.plan.kind = .totalize ∨ ∀ e ∈ x.stampsAt h, ¬x.FirstRole a e) :
    (x.begin a false l).judgeRun n h l k = x.begin a false l :=
  Slot.judgeRun_none (Slot.judgeInstant_begin_none hn) k

theorem Slot.judgeRun_begin_start (k : Nat) (hk : x.plan.kind = .reciprocal ∨ x.plan.kind = .interval)
    (hg : g ∈ x.stampsAt h) (hf : x.FirstRole a g)
    (ho : ∀ e ∈ x.stampsAt h, e ≠ g → ¬e.isOf x.plan.inputA x.plan.senseA = true
      ∧ ¬(x.plan.kind = .interval ∧ e.isOf x.plan.inputB x.plan.senseB = true
        ∧ atOrBefore g.st.corrected e.st.corrected = true)) :
    (x.begin a false l).judgeRun n h l (k + 1) = (x.begin a false l).takeStart g := by
  rw [Slot.judgeRun_some (Slot.judgeInstant_begin_start hk hg hf fun e he hne hr => (ho e he hne).1 hr.1)]
  refine Slot.judgeRun_none (Slot.judgeInstant_start_none fun e he hne => ?_) k
  rw [Slot.begin_stampsAt] at he
  rw [Slot.begin_plan]
  exact ⟨fun hr => (ho e he hne).1 hr.2, (ho e he hne).2⟩

theorem Slot.judgeRun_begin_tag (k : Nat) (hk : x.plan.kind = .timetag) (hg : g ∈ x.stampsAt h) (hf : x.FirstRole a g)
    (ho : ∀ e ∈ x.stampsAt h, e ≠ g → ¬e.isOf x.plan.inputA x.plan.senseA = true) :
    (x.begin a false l).judgeRun n h l (k + 1) = (x.firstTagged n a h l g).judgeRun n h l k := by
  rw [Slot.judgeRun_some (Slot.judgeInstant_begin_tag hk hg hf fun e he hne hr => ho e he hne hr.1)]

theorem Slot.judgeRun_begin_stop (k : Nat) (hk : x.plan.kind = .interval) (hs : x.plan.armSource ≠ .slotDone)
    (hg : g ∈ x.stampsAt h) (hf : f ∈ x.stampsAt h) (ho : ∀ e ∈ x.stampsAt h, e ≠ f → e = g)
    (hr : x.FirstRole a g) (hB : f.isOf x.plan.inputB x.plan.senseB = true) (hne : g.st.input ≠ f.st.input)
    (ht : atOrBefore g.st.corrected f.st.corrected = true)
    (ha : x.plan.armSource = .inputEdge → ¬g.isOf x.plan.armInput x.plan.armSense = true) :
    (x.begin a false l).judgeRun n h l (k + 2) = x.firstStopped n a h l g f := by
  have hend : g.endpoint ≠ f.endpoint := by
    intro e
    unfold Offered.endpoint at e
    injection e with e
    exact hne (congrArg Stamp.input e)
  rw [Slot.judgeRun_some (Slot.judgeInstant_begin_start (.inr hk) hg hr ?_),
    Slot.judgeRun_some (Slot.judgeInstant_start_stop hk hf hB ht hend ho),
    Slot.judgeRun_none (Slot.judgeInstant_stop_none hk hs ht ha ho)]
  intro e he heg hr'
  by_cases hef : e = f
  · subst hef
    exact hne (((g.isOf_iff _ _).1 hr.1).1.trans ((e.isOf_iff _ _).1 hr'.1).1.symm)
  · exact heg (ho e he hef)

end

/-! ## What the statements say, and the grant -/

/-- The grant leaves a slot's plan, its state and its data. -/
theorem State.GrantOnly.keeps {s : State} {m : SlotId} {x y : Slot} (h : s.GrantOnly m x y) :
    SamePlan x y ∧ y.state = x.state ∧ y.data = x.data := by
  rw [h.rest]
  exact ⟨⟨rfl, rfl⟩, rfl, rfl⟩

theorem Slot.ArmedByStamp.of_data {x y z : Slot} {scale : Tick} {st : Stamp} {l : Bool} (h : x.ArmedByStamp y st scale l)
    (hz : SamePlan y z) (hs : z.state = y.state) (hd : z.data = y.data) : x.ArmedByStamp z st scale l :=
  ⟨fun c => (h.1 c).of_data hz hs hd, fun c => (h.2 c).of_data hz hs hd⟩

theorem Slot.RearmedBeside.of_data {x y z : Slot} {k scale : Tick} {st : Stamp} {l : Bool}
    (h : x.RearmedBeside y k l st scale) (hz : SamePlan y z) (hs : z.state = y.state) (hd : z.data = y.data) :
    x.RearmedBeside z k l st scale :=
  ⟨fun c => (h.1 c).of_data hz hs hd, fun c => (h.2 c).of_data hz hs hd⟩

/-- A TOTALIZE slot takes no stamp as its start. -/
theorem Slot.startedAt_totalize {x : Slot} (hk : x.plan.kind = .totalize) (y : Slot) (a scale : Tick) (st : Stamp)
    (l : Bool) : x.StartedAt y a st scale l :=
  ⟨fun e => by rcases e with e | e <;> exact (nomatch hk.symm.trans e), fun e => (nomatch hk.symm.trans e),
    fun e => (nomatch hk.symm.trans e), fun e => (nomatch hk.symm.trans e)⟩

/-- The first tag of a run, where the settled slot has it placed. -/
theorem State.firstTagged_of_settled {s u : State} {n : SlotId} {first : Endpoint} {rearmed : Prop}
    (hstep : EngineStep s u.conclude) (hu : u.unit = s.unit) (hr : u.rawTime = s.rawTime)
    (ho : (s.slot n).state ≠ .idle)
    (hp : (u.settle.slot n).finished = ((s.slot n).place ((s.slot n).firstTag n s.horizonLocked first)).finished
      ∧ (u.settle.slot n).lost = ((s.slot n).place ((s.slot n).firstTag n s.horizonLocked first)).lost)
    (hs : (s.slot n).plan.LastAtFirst → (s.slot n).plan.repeatMode = .single → (u.settle.slot n).state = .idle)
    (hre : (s.slot n).plan.LastAtFirst → (s.slot n).plan.repeatMode = .triggered → rearmed) :
    s.FirstTagged u.conclude n first rearmed := by
  obtain ⟨h1, h2⟩ := State.settle_frame hu hr
  have hidle : (s.slot n).plan.LastAtFirst → (s.slot n).plan.repeatMode = .single →
      (u.conclude.slot n).state = .idle := by
    intro hq hm
    rw [(State.conclude_slot hu hr n).keeps.2.1]
    exact hs hq hm
  exact ⟨State.OutcomeFormed.of_settled h1 h2 (Slot.placed_of_place hp.1 hp.2),
    fun hq hm => ⟨hidle hq hm, hstep.done hm ho (hidle hq hm)⟩, hre⟩

theorem Slot.firstTagged_idle {x : Slot} {n : SlotId} {a h : Tick} {l : Bool} {g : Offered} (hq : x.plan.LastAtFirst)
    (hr : x.plan.repeatMode = .single) : (x.firstTagged n a h l g).state = .idle := by
  rw [Slot.firstTagged_single hq hr]; rfl

/-- The stop of an INTERVAL measurement that starts at this instant, where the settled slot has it placed. -/
theorem State.intervalEnds_of_settled {s u : State} {n : SlotId} {a : Tick} {g f : Offered} {fr : List Offered}
    (hstep : EngineStep s u.conclude) (hu : u.unit = s.unit) (hr : u.rawTime = s.rawTime)
    (ho : (s.slot n).state ≠ .idle)
    (hz : u.settle.slot n =
      { s.slot n with fresh := fr }.firstStopped n a s.horizonTime s.horizonLocked g f) :
    s.IntervalEnds u.conclude n g.st f.st g.scale f.scale ⟨false, !s.horizonLocked, false⟩ (decide (g.steps ≠ f.steps))
    ∧ ((s.slot n).plan.repeatMode = .triggered →
        (s.slot n).RearmedAt (u.conclude.slot n) s.horizonTime s.horizonLocked) := by
  obtain ⟨h1, h2⟩ := State.settle_frame hu hr
  have hrest := (State.conclude_slot hu hr n).rest
  have hsame := Slot.intervalPlaced_samePlan (x := { s.slot n with fresh := fr }) (n := n) (a := a)
    (l := s.horizonLocked) (g := g) (f := f)
  have hfirst : ∀ r, (s.slot n).plan.repeatMode = r →
      ({ s.slot n with fresh := fr }.intervalPlaced n a s.horizonLocked g f).plan.repeatMode = r := by
    intro r hm; rw [hsame.1]; exact hm
  have hplaced := Slot.firstStopped_placed (x := { s.slot n with fresh := fr }) (n := n) (a := a) (h := s.horizonTime)
    (l := s.horizonLocked) (g := g) (f := f)
  rw [← hz] at hplaced
  have hcongr := Slot.place_congr (x := s.slot n) (y := { s.slot n with fresh := fr })
    ({ s.slot n with fresh := fr }.firstInterval n s.horizonLocked g f) rfl rfl
  have hformed := State.OutcomeFormed.of_settled h1 h2
    (Slot.placed_of_place (hplaced.1.trans hcongr.1) (hplaced.2.trans hcongr.2))
  rw [hz] at hrest
  unfold Slot.firstStopped at hrest
  have hidle : (s.slot n).plan.repeatMode = .single → (u.conclude.slot n).state = .idle := by
    intro hm
    rw [hrest, Slot.afterFinish_single _ _ _ (hfirst _ hm)]
    rfl
  refine ⟨⟨?_, rfl, fun hm => ⟨hidle hm, hstep.done hm ho (hidle hm)⟩, fun hm => ?_⟩, fun hm => ?_⟩
  · have hflag : ∀ b : Bool, (b || b) = b := Bool.or_self
    simp only [hflag, Bool.false_or]
    exact hformed
  · rw [hrest, Slot.afterFinish_continuous _ _ _ (hfirst _ hm)]
    refine ⟨rfl, rfl, rfl, rfl, ?_, rfl, rfl⟩
    show f.st.corrected + ticksOf (Slot.plan _).waitLimit = _
    rw [hsame.1, ticksOf_eq]
  · rw [hrest, Slot.afterFinish_triggered _ _ _ (hfirst _ hm)]
    exact (Slot.rearm_rearmedAt (x := s.slot n) hsame s.horizonTime s.horizonLocked).of_data ⟨rfl, rfl⟩ rfl rfl

end Sys2Proof.Machine
end

section
/-! PROOFS. Arming under INPUT_EDGE (R85, R91, R94, R95). -/

namespace Sys2Proof.Machine

/-! ## The arm stamp and the first role -/

theorem atOrBefore_refl (a : Tick) : atOrBefore a a = true := by
  rw [atOrBefore_iff, BitVec.sub_self]; decide

/-- A stamp of the first role at the arm instant itself. -/
theorem Slot.firstRole_self {x : Slot} {f : Offered} (h : f.isOf x.plan.inputA x.plan.senseA = true) :
    x.FirstRole f.st.corrected f := ⟨h, atOrBefore_refl _⟩

theorem Plan.Takes.of_first {p : Plan} {f : Offered} (hk : p.kind ≠ .totalize) (h : f.isOf p.inputA p.senseA = true) :
    p.Takes f.st := .inl ⟨hk, (f.isOf_iff _ _).1 h⟩

theorem Plan.Takes.of_second {p : Plan} {f : Offered} (hk : p.kind = .interval) (h : f.isOf p.inputB p.senseB = true) :
    p.Takes f.st := .inr (.inl ⟨hk, (f.isOf_iff _ _).1 h⟩)

theorem Plan.Takes.of_arm {p : Plan} {f : Offered} (hs : p.armSource = .inputEdge)
    (h : f.isOf p.armInput p.armSense = true) : p.Takes f.st := .inr (.inr ⟨hs, (f.isOf_iff _ _).1 h⟩)

section
variable {x : Slot} {n : SlotId} {h : Tick} {l : Bool} {f : Offered}

/-- What a slot makes of an instant in which it arms at a stamp, the others being of no use to it, where that stamp is not
its first tag. -/
theorem Slot.judgeRun_armedByStamp (k : Nat) (hf : f ∈ x.stampsAt h)
    (hu : ∀ e ∈ x.stampsAt h, e ≠ f → ¬x.plan.Takes e.st)
    (hnt : f.isOf x.plan.inputA x.plan.senseA = true → x.plan.kind ≠ .timetag) :
    let z := (x.begin f.st.corrected false l).judgeRun n h l (k + 1)
    x.ArmedByStamp z f.st f.scale l ∧ (f.steps = 0 → z.data.startSteps = 0)
      ∧ z = { x with state := z.state, data := z.data } := by
  by_cases hstart : (x.plan.kind = .reciprocal ∨ x.plan.kind = .interval) ∧ f.isOf x.plan.inputA x.plan.senseA = true
  · obtain ⟨hk, hA⟩ := hstart
    have hnotot : x.plan.kind ≠ .totalize := by rcases hk with e | e <;> rw [e] <;> exact nofun
    rw [Slot.judgeRun_begin_start k hk hf (Slot.firstRole_self hA) fun e he hne =>
      ⟨fun c => hu e he hne (.of_first hnotot c), fun c => hu e he hne (.of_second c.1 c.2.1)⟩]
    refine ⟨⟨fun c => ?_, fun _ => Slot.begin_takeStart_startedAt hk⟩, fun hz => ?_, Slot.begin_takeStart_frame⟩
    · exact absurd ((f.isOf_iff _ _).1 hA) (c.resolve_right hnotot)
    · rw [Slot.begin_takeStart_startSteps, hz]
  · rw [Slot.judgeRun_begin_none (k + 1)]
    · have harm := x.begin_armedAt f.st.corrected false l
      refine ⟨⟨fun _ => harm, fun c => ?_⟩, fun _ => harm.2.2.2.2.1, Slot.begin_frame _ _ _ _⟩
      refine Slot.startedAt_totalize ?_ _ _ _ _ _
      have hA := (f.isOf_iff _ _).2 c
      cases hk : x.plan.kind with
      | totalize => rfl
      | timetag => exact absurd hk (hnt hA)
      | reciprocal => exact absurd ⟨.inl hk, hA⟩ hstart
      | interval => exact absurd ⟨.inr hk, hA⟩ hstart
    · by_cases hk : x.plan.kind = .totalize
      · exact .inl hk
      · refine .inr fun e he hr => ?_
        by_cases hne : e = f
        · subst hne
          cases hk' : x.plan.kind with
          | totalize => exact hk hk'
          | timetag => exact hnt hr.1 hk'
          | reciprocal => exact hstart ⟨.inl hk', hr.1⟩
          | interval => exact hstart ⟨.inr hk', hr.1⟩
        · exact hu e he hne (.of_first hk hr.1)

theorem Slot.judgeRun_taggedByStamp (k : Nat) (hk : x.plan.kind = .timetag) (hf : f ∈ x.stampsAt h)
    (hu : ∀ e ∈ x.stampsAt h, e ≠ f → ¬x.plan.Takes e.st) (hA : f.isOf x.plan.inputA x.plan.senseA = true)
    (hs : ¬(x.plan.LastAtFirst ∧ x.plan.repeatMode = .triggered ∧ x.plan.armSource = .slotDone)) :
    (x.begin f.st.corrected false l).judgeRun n h l (k + 1) = x.firstTagged n f.st.corrected h l f := by
  have hnotot : x.plan.kind ≠ .totalize := by rw [hk]; exact nofun
  rw [Slot.judgeRun_begin_tag k hk hf (Slot.firstRole_self hA) fun e he hne c => hu e he hne (.of_first hnotot c)]
  refine Slot.judgeRun_none (Slot.judgeInstant_tag_none hk hs fun e he hne => ⟨fun c => ?_, fun _ _ hsrc c => ?_⟩) k
  · exact hu e he hne (.of_first hnotot c)
  · exact hu e he hne (.of_arm hsrc c.1)

/-- What a slot makes of an instant in which it arms at a stamp that is its first tag. -/
theorem Slot.firstTagged_armedByStamp (hk : x.plan.kind = .timetag)
    (hA : f.isOf x.plan.inputA x.plan.senseA = true) :
    x.ArmedByStamp (x.firstTagged n f.st.corrected h l f) f.st f.scale l := by
  refine ⟨fun c => ?_, fun _ => Slot.firstTagged_startedAt hk⟩
  rcases c with c | c
  · exact absurd ((f.isOf_iff _ _).1 hA) c
  · exact nomatch hk.symm.trans c

end

/-! ## An offer that arms a slot -/

theorem State.GrantOnly.keepsStamps {s : State} {m : SlotId} {x y : Slot} (h : s.GrantOnly m x y) :
    y.fresh = x.fresh ∧ y.finishes = x.finishes := by
  rw [h.rest]
  exact ⟨rfl, rfl⟩

/-- A slot that waits under INPUT_EDGE arms at an offered stamp of its arm input and sense, where no other of the instant
is one. -/
theorem State.offer_arms {s : State} {st : Stamp} {n : SlotId} (hm : (s.slot n).meetsArm (s.offered st) = true)
    (ho : ∀ e ∈ (s.slot n).stampsAt s.horizonTime, ¬e.isOf (s.slot n).plan.armInput (s.slot n).plan.armSense = true) :
    ∃ k, (s.offer st).settle.slot n = ((s.offeredSlot st n).begin st.corrected false s.horizonLocked).judgeRun n
      s.horizonTime s.horizonLocked (k + 4) := by
  obtain ⟨hst, hsrc, -⟩ := (Slot.meetsArm_iff _ _).1 hm
  have hslot : (s.offer st).slot n = s.offeredSlot st n := s.offer_slot_active st n (by rw [hst]; exact nofun)
  have hapart : ∀ m, (s.offeredSlot st n).ApartFrom m := fun m e => nomatch hsrc.symm.trans e.1
  have hlen : (s.offeredSlot st n).fresh.length = ((s.slot n).stampsAt s.horizonTime).length + 1 :=
    List.length_append
  have hfuel : (s.offeredSlot st n).judgeFuel =
      3 * ((s.slot n).stampsAt s.horizonTime).length + (s.slot n).finishes.length + 1 + 4 + 1 := by
    show 3 * (s.offeredSlot st n).fresh.length + (s.slot n).finishes.length + 3 = _
    rw [hlen]
    omega
  rw [State.settle_apart (by rw [hslot]; exact hapart), hslot, hfuel, State.offer_horizonTime, State.offer_horizonLocked]
  refine ⟨_, Slot.judgeRun_some (Slot.judgeInstant_takes ?_ (s.mem_offeredSlot st n)
    (Slot.judgeStamp_arms n s.horizonTime s.horizonLocked hst hm) fun e he hne => ?_) _⟩
  · refine Slot.seenFinish_not_waiting _ ?_
    rw [Bool.eq_false_iff, ne_eq, Slot.awaitsArming_iff]
    exact fun e => nomatch hsrc.symm.trans e.2.1
  · rw [State.offeredSlot_stampsAt, List.mem_append, List.mem_singleton] at he
    have hstate : (s.offeredSlot st n).state = .arming := hst
    refine Slot.judgeStamp_ignores _ _ _ (fun _ => ?_) (fun hs => ?_) (fun hs => ?_) fun hs => ?_
    · rw [Bool.eq_false_iff]
      intro hma
      obtain ⟨-, -, -, hin, hse, -⟩ := (Slot.meetsArm_iff _ _).1 hma
      exact ho e (he.resolve_right hne) ((e.isOf_iff _ _).2 ⟨hin, hse⟩)
    · rw [hstate] at hs; cases hs
    · rw [hstate] at hs; rcases hs with hs | hs <;> cases hs
    · rw [hstate] at hs; cases hs

/-- The first part of O33: the arm stamp is the only stamp of the instant that the slot can use. -/
theorem State.offer_armedByStamp {s : State} {st : Stamp} {n : SlotId} (hq : s.NoOtherStamp n)
    (hm : (s.slot n).meetsArm (s.offered st) = true) :
    let t := (s.offer st).conclude
    let same := (s.offered st).isOf (s.slot n).plan.inputA (s.slot n).plan.senseA = true
    (s.slot n).ArmedByStamp (t.slot n) st (st.corrected + s.offset) s.horizonLocked ∧ (t.slot n).data.startSteps = 0
    ∧ (¬same ∨ (s.slot n).plan.kind ≠ .timetag → s.GrantOnly n { s.slot n with
        state := (t.slot n).state, data := (t.slot n).data, fresh := (t.slot n).fresh } (t.slot n))
    ∧ (same → (s.slot n).plan.kind = .timetag → s.FirstTagged t n (.stamp st (st.corrected + s.offset))
        ((s.slot n).RearmedAt (t.slot n) s.horizonTime s.horizonLocked)) := by
  obtain ⟨hst, hsrc, -⟩ := (Slot.meetsArm_iff _ _).1 hm
  obtain ⟨k, hk⟩ := State.offer_arms hm fun e he hA => hq.useless he (.of_arm hsrc hA)
  have hgrant := State.conclude_slot (s.offer_unit st) (s.offer_rawTime st) n
  obtain ⟨hplan, hstate, hdata⟩ := hgrant.keeps
  have hu : ∀ e ∈ (s.offeredSlot st n).stampsAt s.horizonTime, e ≠ s.offered st →
      ¬(s.offeredSlot st n).plan.Takes e.st := fun e he hne => hq.offered_useless he hne
  dsimp only
  by_cases htag : (s.offered st).isOf (s.slot n).plan.inputA (s.slot n).plan.senseA = true
      ∧ (s.slot n).plan.kind = .timetag
  · obtain ⟨hA, hkind⟩ := htag
    have hz := hk.trans (Slot.judgeRun_taggedByStamp (x := s.offeredSlot st n) (k + 3) hkind
      (s.mem_offeredSlot st n) hu hA fun c => nomatch hsrc.symm.trans c.2.2)
    rw [hz] at hplan hstate hdata
    have hplaced := Slot.firstTagged_placed (x := s.offeredSlot st n) (n := n) (a := st.corrected) (h := s.horizonTime)
      (l := s.horizonLocked) (g := s.offered st)
    have hcongr := Slot.place_congr (x := s.slot n) (y := s.offeredSlot st n)
      ((s.offeredSlot st n).firstTag n s.horizonLocked (s.offered st).endpoint) rfl rfl
    refine ⟨?_, ?_, fun c => ?_, fun _ _ => ?_⟩
    · exact (Slot.firstTagged_armedByStamp (x := s.offeredSlot st n) hkind hA).of_data hplan hstate hdata
    · rw [hdata]
      exact Slot.firstTagged_startSteps_zero rfl
    · rcases c with c | c
      · exact absurd hA c
      · exact absurd hkind c
    · refine State.firstTagged_of_settled (s.conclude_offer_step st) (s.offer_unit st) (s.offer_rawTime st)
        (by rw [hst]; exact nofun) ?_ (fun hl hr => ?_) fun hl hr => ?_
      · rw [hz]
        exact ⟨hplaced.1.trans hcongr.1, hplaced.2.trans hcongr.2⟩
      · rw [hz]
        exact Slot.firstTagged_idle hl hr
      · exact (Slot.firstTagged_rearmedAt (x := s.offeredSlot st n) hl hr).of_data hplan hstate hdata
  · obtain ⟨harm, hsteps, hframe⟩ := Slot.judgeRun_armedByStamp (x := s.offeredSlot st n) (n := n)
      (l := s.horizonLocked) (k + 3) (s.mem_offeredSlot st n) hu fun hA hkind => htag ⟨hA, hkind⟩
    rw [show (s.offered st).st.corrected = st.corrected from rfl, ← hk] at harm hsteps hframe
    refine ⟨harm.of_data hplan hstate hdata, ?_, fun _ => ?_, fun hA hkind => absurd ⟨hA, hkind⟩ htag⟩
    · rw [hdata]
      exact hsteps rfl
    · rw [hframe] at hgrant
      have hfresh := hgrant.keepsStamps.1
      rw [hstate, hdata, hfresh]
      exact hgrant

end Sys2Proof.Machine
end

section
/-! PROOFS. Arming under INPUT_EDGE with a stamp of the first role offered before the arm stamp (R71, R72, R85, R91, R94). -/

namespace Sys2Proof.Machine

section
variable {x : Slot} {n : SlotId} {a h : Tick} {l : Bool} {f g : Offered}

/-- Where the first tag of a run is its last, nothing is said of how the run goes on. -/
theorem Slot.startedAt_last (hk : x.plan.kind = .timetag) (hq : x.plan.LastAtFirst) (y : Slot) (scale : Tick)
    (st : Stamp) : x.StartedAt y a st scale l := by
  refine ⟨fun e => by rcases e with e | e <;> exact (nomatch hk.symm.trans e), fun e => (nomatch hk.symm.trans e),
    fun e => (nomatch hk.symm.trans e), fun _ hno => ?_⟩
  obtain ⟨hr, q, hq1, hq2⟩ := hq
  rcases hno with e | e
  · exact absurd e hr
  · exact absurd (e q hq1) (by omega)

/-- A slot that its first tag re-arms under INPUT_EDGE arms again at the stamp that armed it before, where that is not
before the re-arming (R72, R85). -/
theorem Slot.judgeRun_rearm_again (k : Nat) (hk : x.plan.kind = .timetag) (hsrc : x.plan.armSource = .inputEdge)
    (hnow : x.stampsAt h = [g, f]) (hne : f ≠ g) (hfA : ¬f.isOf x.plan.inputA x.plan.senseA = true)
    (harm : f.isOf x.plan.armInput x.plan.armSense = true) (hlate : atOrBefore h f.st.corrected = true)
    (hq : x.plan.LastAtFirst) (hr : x.plan.repeatMode = .triggered) :
    (x.firstTagged n a h l g).judgeRun n h l (k + 1) = (x.firstTagged n a h l g).begin f.st.corrected false l := by
  have hplan := (Slot.firstTagged_samePlan (x := x) (n := n) (a := a) (h := h) (l := l) (g := g)).1
  have honly : ∀ e ∈ (x.firstTagged n a h l g).stampsAt h, e = f := by
    intro e he
    obtain ⟨hm, hg⟩ := Slot.mem_firstTagged_stampsAt he
    rw [hnow] at hm
    simpa [hg] using hm
  have hwaits : x.firstTagged n a h l g = { x.tagPlaced n a l g with
      state := .arming, data := { MeasData.empty with armingSince := h } } := by
    rw [Slot.firstTagged_triggered hq hr]
    unfold Slot.rearm
    dsimp only
    rw [if_neg]
    rw [Slot.tagPlaced_samePlan.1, hsrc]
    exact nofun
  have hmem : f ∈ (x.firstTagged n a h l g).stampsAt h := by
    rw [hwaits]
    refine Slot.tagPlaced_stampsAt.2 ⟨by rw [hnow]; simp, hne, ?_⟩
    unfold Slot.spent
    rw [Slot.begin_plan, hsrc]
    rfl
  have hmeets : (x.firstTagged n a h l g).meetsArm f = true := by
    obtain ⟨hin, hse⟩ := (f.isOf_iff _ _).1 harm
    rw [Slot.meetsArm_iff, hplan, hwaits]
    exact ⟨rfl, hsrc, rfl, hin, hse, (atOrBefore_iff _ _).1 hlate⟩
  have hstate : (x.firstTagged n a h l g).state = .arming := by rw [hwaits]
  have hnw : (x.firstTagged n a h l g).awaitsArming .slotDone = false :=
    Slot.firstTagged_awaitsArming hk fun c => nomatch hsrc.symm.trans c.2.2
  rw [Slot.judgeRun_some (Slot.judgeInstant_takes (Slot.seenFinish_not_waiting _ hnw) hmem
    (Slot.judgeStamp_arms n h l hstate hmeets) fun e he hne' => absurd (honly e he) hne')]
  refine Slot.judgeRun_begin_none k (.inr fun e he hfr => hfA ?_)
  have hA := hfr.1
  rw [honly e he, hplan] at hA
  exact hA

/-- What a TIMETAG slot under INPUT_EDGE makes of an instant in which it arms at the later offered of two stamps, the
earlier being its first tag. -/
theorem Slot.judgeRun_tagBeside (k : Nat) (hk : x.plan.kind = .timetag) (hsrc : x.plan.armSource = .inputEdge)
    (hnow : x.stampsAt h = [g, f]) (hne : f ≠ g) (hg : x.FirstRole f.st.corrected g)
    (hfA : ¬f.isOf x.plan.inputA x.plan.senseA = true) (harm : f.isOf x.plan.armInput x.plan.armSense = true) :
    let z := (x.begin f.st.corrected false l).judgeRun n h l (k + 2)
    x.StartedAt z f.st.corrected g.st g.scale l ∧ (¬x.plan.LastAtFirst → z.data.startSteps = g.steps)
    ∧ (z.finished = (x.place (x.firstTag n l g.endpoint)).finished ∧ z.lost = (x.place (x.firstTag n l g.endpoint)).lost)
    ∧ (x.plan.LastAtFirst → x.plan.repeatMode = .single → z.state = .idle)
    ∧ (x.plan.LastAtFirst → x.plan.repeatMode = .triggered → x.RearmedBeside z h l f.st f.scale) := by
  have hmem : g ∈ x.stampsAt h := by rw [hnow]; simp
  have hother : ∀ e ∈ x.stampsAt h, e ≠ g → e = f := by
    intro e he heg
    rw [hnow] at he
    simpa [heg] using he
  dsimp only
  rw [show k + 2 = k + 1 + 1 from rfl, Slot.judgeRun_begin_tag (k + 1) hk hmem hg fun e he heg => by
    rw [hother e he heg]; exact hfA]
  by_cases hagain : x.plan.LastAtFirst ∧ x.plan.repeatMode = .triggered ∧ atOrBefore h f.st.corrected = true
  · obtain ⟨hq, hr, hlate⟩ := hagain
    rw [Slot.judgeRun_rearm_again k hk hsrc hnow hne hfA harm hlate hq hr]
    refine ⟨Slot.startedAt_last hk hq _ _ _, fun c => absurd hq c, ?_, fun _ c => (nomatch hr.symm.trans c), fun _ _ =>
      ⟨fun _ => ⟨fun _ => Slot.begin_armedAt_of Slot.firstTagged_samePlan _ _ _, fun c => ?_⟩, fun c => absurd ?_ c⟩⟩
    · rw [Slot.begin_finished, Slot.begin_lost]
      exact Slot.firstTagged_placed
    · exact absurd ((f.isOf_iff _ _).2 c) hfA
    · obtain ⟨hin, hse⟩ := (f.isOf_iff _ _).1 harm
      exact ⟨hsrc, hin, hse, (atOrBefore_iff _ _).1 hlate⟩
  · rw [Slot.judgeRun_none (Slot.judgeInstant_tag_none hk (fun c => nomatch hsrc.symm.trans c.2.2) fun e he heg =>
      ⟨by rw [hother e he heg]; exact hfA, fun hq hr _ c => hagain ⟨hq, hr, by rw [← hother e he heg]; exact c.2⟩⟩)]
    exact ⟨Slot.firstTagged_startedAt hk, Slot.firstTagged_startSteps, Slot.firstTagged_placed, Slot.firstTagged_idle,
      fun hq hr => ⟨fun c => absurd ⟨hq, hr, (atOrBefore_iff _ _).2 c.2.2.2⟩ hagain,
        fun _ => Slot.firstTagged_rearmedAt hq hr⟩⟩

end

/-! ## The obligation -/

section
variable {s : State} {st : Stamp} {g : Offered} {n : SlotId}

/-- The stamps of the instant after an offer that follows one other. -/
theorem State.offeredSlot_stampsAt_two (hnow : (s.slot n).stampsAt s.horizonTime = [g]) :
    (s.offeredSlot st n).stampsAt s.horizonTime = [g, s.offered st] := by
  rw [State.offeredSlot_stampsAt, hnow]; rfl

/-- Under INPUT_EDGE the slot arms at the offered stamp, and takes the stamp offered before it as its start. -/
theorem State.offer_starts_beside (hm : (s.slot n).meetsArm (s.offered st) = true)
    (hnow : (s.slot n).stampsAt s.horizonTime = [g]) (hne : g.st.input ≠ st.input)
    (hg : (s.slot n).FirstRole st.corrected g) (hk : (s.slot n).plan.kind = .reciprocal ∨ (s.slot n).plan.kind = .interval)
    (hno : ¬((s.slot n).plan.kind = .interval ∧ (st.input, st.sense) = ((s.slot n).plan.inputB, (s.slot n).plan.senseB)
      ∧ st.corrected = g.st.corrected)) :
    (s.offer st).settle.slot n =
      ((s.offeredSlot st n).begin st.corrected false s.horizonLocked).takeStart g := by
  obtain ⟨hin, -⟩ := (g.isOf_iff _ _).1 hg.1
  obtain ⟨-, -, -, harm, -, -⟩ := (Slot.meetsArm_iff _ _).1 hm
  obtain ⟨k, hrun⟩ := State.offer_arms hm fun e he hA => by
    rw [hnow, List.mem_singleton] at he
    subst he
    exact hne (((e.isOf_iff _ _).1 hA).1.trans harm.symm)
  rw [hrun]
  refine Slot.judgeRun_begin_start (x := s.offeredSlot st n) (k + 3) hk ?_ hg fun e he heg => ?_
  · rw [State.offeredSlot_stampsAt_two hnow]; simp
  · rw [State.offeredSlot_stampsAt_two hnow] at he
    have hef : e = s.offered st := by simpa [heg] using he
    subst hef
    refine ⟨fun hA => hne (hin.trans ((Offered.isOf_iff _ _ _).1 hA).1.symm), fun c => hno ⟨c.1, ?_, ?_⟩⟩
    · obtain ⟨hi, hs⟩ := (Offered.isOf_iff _ _ _).1 c.2.1
      exact Prod.ext hi hs
    · have h1 := (atOrBefore_iff _ _).1 hg.2
      have h2 : (st.corrected - g.st.corrected).toNat < 2 ^ 63 := (atOrBefore_iff _ _).1 c.2.2
      bv_omega

/-- Under INPUT_EDGE the offered stamp arms the slot and, of the same time as the start offered before it, stops it. -/
theorem State.offer_stops_beside (hm : (s.slot n).meetsArm (s.offered st) = true)
    (hnow : (s.slot n).stampsAt s.horizonTime = [g]) (hne : g.st.input ≠ st.input)
    (hg : (s.slot n).FirstRole st.corrected g) (hk : (s.slot n).plan.kind = .interval)
    (hB : (st.input, st.sense) = ((s.slot n).plan.inputB, (s.slot n).plan.senseB)) (heq : st.corrected = g.st.corrected) :
    (s.offer st).settle.slot n =
      (s.offeredSlot st n).firstStopped n st.corrected s.horizonTime s.horizonLocked g (s.offered st) := by
  obtain ⟨-, hsrc, -, harm, -, -⟩ := (Slot.meetsArm_iff _ _).1 hm
  have hgarm : ¬g.isOf (s.slot n).plan.armInput (s.slot n).plan.armSense = true := fun hA =>
    hne (((g.isOf_iff _ _).1 hA).1.trans harm.symm)
  obtain ⟨k, hrun⟩ := State.offer_arms hm fun e he hA => by
    rw [hnow, List.mem_singleton] at he
    subst he
    exact hgarm hA
  rw [hrun]
  refine Slot.judgeRun_begin_stop (x := s.offeredSlot st n) (k + 2) hk (fun c => nomatch hsrc.symm.trans c) ?_
    (s.mem_offeredSlot st n) (fun e he hef => ?_) hg ((Offered.isOf_iff _ _ _).2 ?_) hne ?_ fun _ => hgarm
  · rw [State.offeredSlot_stampsAt_two hnow]; simp
  · rw [State.offeredSlot_stampsAt_two hnow] at he
    simpa [hef] using he
  · exact ⟨congrArg Prod.fst hB, congrArg Prod.snd hB⟩
  · show atOrBefore g.st.corrected st.corrected = true
    rw [heq]
    exact atOrBefore_refl _

/-- What the end of the offer leaves of a slot that arms at the offered stamp and takes the one before it as its start. -/
theorem State.conclude_starts_beside (hm : (s.slot n).meetsArm (s.offered st) = true)
    (hnow : (s.slot n).stampsAt s.horizonTime = [g]) (hne : g.st.input ≠ st.input)
    (hg : (s.slot n).FirstRole st.corrected g) (hk : (s.slot n).plan.kind = .reciprocal ∨ (s.slot n).plan.kind = .interval)
    (hno : ¬((s.slot n).plan.kind = .interval ∧ (st.input, st.sense) = ((s.slot n).plan.inputB, (s.slot n).plan.senseB)
      ∧ st.corrected = g.st.corrected)) :
    let y := (s.offer st).conclude.slot n
    (s.slot n).StartedAt y st.corrected g.st g.scale s.horizonLocked ∧ y.data.startSteps = g.steps
      ∧ s.GrantOnly n { s.slot n with state := y.state, data := y.data, fresh := y.fresh } y := by
  have hz := State.offer_starts_beside hm hnow hne hg hk hno
  have hgrant := State.conclude_slot (s.offer_unit st) (s.offer_rawTime st) n
  rw [hz] at hgrant
  obtain ⟨hplan, hstate, hdata⟩ := hgrant.keeps
  refine ⟨(Slot.begin_takeStart_startedAt (x := s.offeredSlot st n) hk).of_data hplan hstate hdata, ?_, ?_⟩
  · rw [hdata]
    exact Slot.begin_takeStart_startSteps
  · rw [Slot.begin_takeStart_frame] at hgrant
    have hfresh := hgrant.keepsStamps.1
    rw [hstate, hdata, hfresh]
    exact hgrant

/-- The same of a slot that takes the one before it as its first tag. -/
theorem State.conclude_tags_beside (hm : (s.slot n).meetsArm (s.offered st) = true)
    (hnow : (s.slot n).stampsAt s.horizonTime = [g]) (hne : g.st.input ≠ st.input)
    (hg : (s.slot n).FirstRole st.corrected g) (hk : (s.slot n).plan.kind = .timetag) :
    let y := (s.offer st).conclude.slot n
    (s.slot n).StartedAt y st.corrected g.st g.scale s.horizonLocked
      ∧ (¬(s.slot n).plan.LastAtFirst → y.data.startSteps = g.steps)
      ∧ s.FirstTagged (s.offer st).conclude n g.endpoint
        ((s.slot n).RearmedBeside y s.horizonTime s.horizonLocked st (st.corrected + s.offset)) := by
  obtain ⟨hst, hsrc, -, hin, hse, -⟩ := (Slot.meetsArm_iff _ _).1 hm
  obtain ⟨hgin, -⟩ := (g.isOf_iff _ _).1 hg.1
  obtain ⟨k, hrun⟩ := State.offer_arms hm fun e he hA => by
    rw [hnow, List.mem_singleton] at he
    subst he
    exact hne (((e.isOf_iff _ _).1 hA).1.trans hin.symm)
  obtain ⟨h1, h2, h3, h4, h5⟩ := Slot.judgeRun_tagBeside (x := s.offeredSlot st n) (n := n) (l := s.horizonLocked) (k + 2)
    hk hsrc (State.offeredSlot_stampsAt_two hnow) (fun e => hne (congrArg (fun o => o.st.input) e.symm)) hg
    (fun hA => hne (hgin.trans ((Offered.isOf_iff _ _ _).1 hA).1.symm)) ((Offered.isOf_iff _ _ _).2 ⟨hin, hse⟩)
  rw [show (s.offered st).st.corrected = st.corrected from rfl, ← hrun] at h1 h2 h3 h4 h5
  obtain ⟨hplan, hstate, hdata⟩ := (State.conclude_slot (s.offer_unit st) (s.offer_rawTime st) n).keeps
  have hcongr := Slot.place_congr (x := s.slot n) (y := s.offeredSlot st n)
    ((s.offeredSlot st n).firstTag n s.horizonLocked g.endpoint) rfl rfl
  refine ⟨h1.of_data hplan hstate hdata, fun hq => ?_, ?_⟩
  · rw [hdata]
    exact h2 hq
  exact State.firstTagged_of_settled (s.conclude_offer_step st) (s.offer_unit st) (s.offer_rawTime st)
    (by rw [hst]; exact nofun) ⟨h3.1.trans hcongr.1, h3.2.trans hcongr.2⟩ h4
    fun hq hr => (h5 hq hr).of_data hplan hstate hdata

/-- The same of a TOTALIZE slot, which takes no stamp. -/
theorem State.conclude_arms_totalize (hm : (s.slot n).meetsArm (s.offered st) = true)
    (hnow : (s.slot n).stampsAt s.horizonTime = [g]) (hne : g.st.input ≠ st.input)
    (hk : (s.slot n).plan.kind = .totalize) :
    (s.slot n).ArmedAt ((s.offer st).conclude.slot n) st.corrected false s.horizonLocked := by
  obtain ⟨-, -, -, hin, -, -⟩ := (Slot.meetsArm_iff _ _).1 hm
  obtain ⟨k, hrun⟩ := State.offer_arms hm fun e he hA => by
    rw [hnow, List.mem_singleton] at he
    subst he
    exact hne (((e.isOf_iff _ _).1 hA).1.trans hin.symm)
  rw [Slot.judgeRun_begin_none (x := s.offeredSlot st n) (k + 4) (.inl hk)] at hrun
  have hgrant := State.conclude_slot (s.offer_unit st) (s.offer_rawTime st) n
  rw [hrun] at hgrant
  obtain ⟨hplan, hstate, hdata⟩ := hgrant.keeps
  exact (Slot.begin_armedAt_of (x := s.slot n) (y := s.offeredSlot st n) ⟨rfl, rfl⟩ _ _ _).of_data hplan hstate hdata

end

/-- Settles O33: the slot arms at the offered stamp, and then makes of the stamp before it, where there is one, its start,
its start and stop, or its first tag. -/
theorem inputEdgeArms : Obligations.InputEdgeArms := by
  refine ⟨?_, ?_⟩
  · intro i st n s hq hdue
    dsimp only
    rintro ⟨hst, hsrc, hopen, hin, hse, hlate⟩
    have hm : (s.slot n).meetsArm (s.offered st) = true :=
      (Slot.meetsArm_iff _ _).2 ⟨hst, hsrc, hopen, hin, hse, hlate⟩
    have hsame : ((s.slot n).plan.armInput, (s.slot n).plan.armSense) = ((s.slot n).plan.inputA, (s.slot n).plan.senseA)
        ↔ (s.offered st).isOf (s.slot n).plan.inputA (s.slot n).plan.senseA = true := by
      rw [Offered.isOf_iff, Prod.mk.injEq, ← hin, ← hse]
      rfl
    obtain ⟨h1, h2, h3, h4⟩ := State.offer_armedByStamp hq hm
    rw [hsame]
    exact ⟨_, exec_stampOffer_due hdue, s.conclude_offer_step st, h1, h2, h3, h4⟩
  · intro i st g n s hdue
    dsimp only
    rintro ⟨hst, hsrc, hopen, hin, hse, hlate⟩ hnow hgin hgse hne hle
    have hm : (s.slot n).meetsArm (s.offered st) = true :=
      (Slot.meetsArm_iff _ _).2 ⟨hst, hsrc, hopen, hin, hse, hlate⟩
    have hg : (s.slot n).FirstRole st.corrected g := ⟨(g.isOf_iff _ _).2 ⟨hgin, hgse⟩, (atOrBefore_iff _ _).2 hle⟩
    have ho : (s.slot n).state ≠ .idle := by rw [hst]; exact nofun
    have hstep := s.conclude_offer_step st
    refine ⟨_, exec_stampOffer_due hdue, hstep, fun hno => ?_, fun hno hlast hnotot => ?_, fun hk hno => ?_,
      fun hstops => ?_, fun hk => ?_, State.conclude_arms_totalize hm hnow hne⟩
    · cases hk : (s.slot n).plan.kind with
      | totalize => exact Slot.startedAt_totalize hk _ _ _ _ _
      | timetag => exact (State.conclude_tags_beside hm hnow hne hg hk).1
      | reciprocal => exact (State.conclude_starts_beside hm hnow hne hg (.inl hk) hno).1
      | interval => exact (State.conclude_starts_beside hm hnow hne hg (.inr hk) hno).1
    · cases hk : (s.slot n).plan.kind with
      | totalize => exact absurd hk hnotot
      | timetag => exact (State.conclude_tags_beside hm hnow hne hg hk).2.1 fun hq => hlast ⟨hk, hq⟩
      | reciprocal => exact (State.conclude_starts_beside hm hnow hne hg (.inl hk) hno).2.1
      | interval => exact (State.conclude_starts_beside hm hnow hne hg (.inr hk) hno).2.1
    · exact (State.conclude_starts_beside hm hnow hne hg hk hno).2.2
    · obtain ⟨hk, hB, heq⟩ := hstops
      exact State.intervalEnds_of_settled hstep (s.offer_unit st) (s.offer_rawTime st) ho
        (State.offer_stops_beside hm hnow hne hg hk hB heq)
    · exact (State.conclude_tags_beside hm hnow hne hg hk).2.2

end Sys2Proof.Machine
end

section
/-! PROOFS. Arming under IMMEDIATE and AT_TIME, and the gate close (R82, R83, R87, R88). -/

namespace Sys2Proof.Machine

/-! ## Arming at a time -/

/-- The state that an arming of slot n at a leaves, before the end of the event. -/
def State.armed (s : State) (n : SlotId) (a : Tick) : State := s.setSlot n ((s.slot n).begin a false s.horizonLocked)

theorem exec_immediateArmInstant_due {s : State} {n : SlotId} {a : Tick} (hst : (s.slot n).state = .arming)
    (hsrc : (s.slot n).plan.armSource = .immediate) (hopen : (s.slot n).data.gateOpen = none)
    (ha : (s.slot n).data.armInstant = some a) (hs : s.horizonStarted = true) (ht : (s.horizonTime - a).toNat < 2 ^ 63) :
    exec (.immediateArmInstant n) s = .next (s.armed n a).conclude := by
  have hdue : s.immediateDue n = some a := by
    unfold State.immediateDue
    dsimp only
    rw [ha]
    refine if_pos ?_
    rw [Bool.and_eq_true, Slot.awaitsArming_iff, State.reached_iff_Reached]
    exact ⟨⟨hst, hsrc, hopen⟩, hs, ht⟩
  show execImmediateArmInstant n s = _
  unfold execImmediateArmInstant
  rw [hdue]
  rfl

theorem exec_atTimeArming_due {s : State} {n : SlotId} (hst : (s.slot n).state = .arming)
    (hsrc : (s.slot n).plan.armSource = .atTime) (hopen : (s.slot n).data.gateOpen = none)
    (hs : s.horizonStarted = true) (ht : (s.horizonTime + s.offset - (s.slot n).plan.armTime).toNat < 2 ^ 63) :
    exec (.atTimeArming n) s = .next (s.armed n ((s.slot n).plan.armTime - s.offset)).conclude := by
  refine if_pos ?_
  unfold State.atTimeDue
  dsimp only
  rw [Bool.and_eq_true, Bool.and_eq_true, Slot.awaitsArming_iff, atOrBefore_iff]
  exact ⟨⟨⟨hst, hsrc, hopen⟩, hs⟩, ht⟩

section
variable {s : State} {n : SlotId} {a : Tick}

theorem State.armed_step (ho : (s.slot n).state ≠ .idle) : EngineStep s (s.armed n a) := by
  refine s.setSlot_step n _ (Slot.begin_samePlan _ _ _ _) ho ?_
  rw [Slot.begin_state_eq]
  split <;> exact nofun

theorem State.armed_stamps : (s.armed n a).conclude.stamps = s.stamps := State.conclude_stamps _

/-- What the end of the arming leaves of the slot: what it makes of the instant by itself. -/
theorem State.armed_settle (hsrc : (s.slot n).plan.armSource ≠ .slotDone) :
    ∃ k, (s.armed n a).settle.slot n = ((s.slot n).begin a false s.horizonLocked).judgeRun n s.horizonTime
      s.horizonLocked (k + 3) := by
  have hslot : (s.armed n a).slot n = (s.slot n).begin a false s.horizonLocked := by
    unfold State.armed
    rw [State.slot_setSlot, if_pos rfl]
  refine ⟨3 * (s.slot n).fresh.length + (s.slot n).finishes.length, ?_⟩
  rw [State.settle_apart, hslot]
  · have hfuel : ((s.slot n).begin a false s.horizonLocked).judgeFuel =
        3 * (s.slot n).fresh.length + (s.slot n).finishes.length + 3 := by
      unfold Slot.judgeFuel
      rw [Slot.begin_fresh, Slot.begin_finishes]
    rw [hfuel]
    rfl
  · rw [hslot]
    intro m e
    rw [Slot.begin_plan] at e
    exact hsrc e.1

/-- A slot that arms at a time, in an instant without a stamp that it can use. -/
theorem State.armed_concludes (hq : s.NoOtherStamp n) (hst : (s.slot n).state = .arming)
    (hsrc : (s.slot n).plan.armSource ≠ .slotDone) :
    let t := (s.armed n a).conclude
    EngineStep s t ∧ t.stamps = s.stamps ∧ (s.slot n).ArmedAt (t.slot n) a false s.horizonLocked
    ∧ (t.slot n).data.armingSince = (s.slot n).data.armingSince
    ∧ s.GrantOnly n { s.slot n with state := (t.slot n).state, data := (t.slot n).data } (t.slot n)
    ∧ (s.Quiet → ∀ m, m ≠ n → s.GrantOnly m (s.slot m) (t.slot m)) := by
  have ho : (s.slot n).state ≠ .idle := by rw [hst]; exact nofun
  obtain ⟨k, hrun⟩ := State.armed_settle (s := s) (a := a) hsrc
  rw [Slot.judgeRun_begin_none] at hrun
  · have hgrant : ∀ m, s.GrantOnly m ((s.armed n a).settle.slot m) ((s.armed n a).conclude.slot m) :=
      State.conclude_slot rfl rfl
    have hn := hgrant n
    rw [hrun] at hn
    obtain ⟨hplan, hstate, hdata⟩ := hn.keeps
    refine ⟨(State.armed_step ho).trans (State.conclude_step _), State.armed_stamps,
      ((s.slot n).begin_armedAt a false s.horizonLocked).of_data hplan hstate hdata, ?_, ?_, fun q m hm => ?_⟩
    · rw [hdata, Slot.begin_armingSince]
    · rw [hstate, hdata, ← Slot.begin_frame]
      exact hn
    · have hquiet : (s.armed n a).Quiet := by
        refine q.setSlot n _ ?_ ?_
        · rw [Slot.begin_fresh]; exact fun f hf => hf
        · rw [Slot.begin_finishes]; exact fun e he => he
      have hg := hgrant m
      rw [State.settle_quiet hquiet] at hg
      unfold State.armed at hg
      rw [State.slot_setSlot, if_neg hm.symm] at hg
      exact hg
  · by_cases hk : (s.slot n).plan.kind = .totalize
    · exact .inl hk
    · exact .inr fun e he hr => hq.useless he (.of_first hk hr.1)

/-! ## A stamp of the first role offered before the arming -/

/-- The start of a RECIPROCAL or INTERVAL slot that arms after the stamp was offered. -/
theorem State.armed_starts {g : Offered} (hsrc : (s.slot n).plan.armSource ≠ .slotDone) (hnow : (s.slot n).stampsAt s.horizonTime = [g])
    (hg : (s.slot n).FirstRole a g) (hk : (s.slot n).plan.kind = .reciprocal ∨ (s.slot n).plan.kind = .interval) :
    let y := (s.armed n a).conclude.slot n
    (s.slot n).StartedAt y a g.st g.scale s.horizonLocked ∧ y.data.startSteps = g.steps
      ∧ s.GrantOnly n { s.slot n with state := y.state, data := y.data } y := by
  obtain ⟨k, hrun⟩ := State.armed_settle (s := s) (a := a) hsrc
  rw [Slot.judgeRun_begin_start (k + 2) hk (by rw [hnow]; exact List.mem_singleton_self g) hg fun e he hne => by
    rw [hnow, List.mem_singleton] at he
    exact absurd he hne] at hrun
  have hgrant := State.conclude_slot (s := s) (u := s.armed n a) rfl rfl n
  rw [hrun] at hgrant
  obtain ⟨hplan, hstate, hdata⟩ := hgrant.keeps
  refine ⟨(Slot.begin_takeStart_startedAt hk).of_data hplan hstate hdata, ?_, ?_⟩
  · rw [hdata]
    exact Slot.begin_takeStart_startSteps
  · rw [hstate, hdata, ← Slot.begin_takeStart_frame]
    exact hgrant

/-- The first tag of a TIMETAG slot that arms after the stamp was offered. -/
theorem State.armed_tags {g : Offered} (hst : (s.slot n).state = .arming)
    (hsrc : (s.slot n).plan.armSource ≠ .slotDone) (hnow : (s.slot n).stampsAt s.horizonTime = [g])
    (hg : (s.slot n).FirstRole a g) (hk : (s.slot n).plan.kind = .timetag) :
    let y := (s.armed n a).conclude.slot n
    (s.slot n).StartedAt y a g.st g.scale s.horizonLocked ∧ (¬(s.slot n).plan.LastAtFirst → y.data.startSteps = g.steps)
      ∧ s.FirstTagged (s.armed n a).conclude n g.endpoint ((s.slot n).RearmedAt y s.horizonTime s.horizonLocked) := by
  have ho : (s.slot n).state ≠ .idle := by rw [hst]; exact nofun
  obtain ⟨k, hrun⟩ := State.armed_settle (s := s) (a := a) hsrc
  have hmem : g ∈ (s.slot n).stampsAt s.horizonTime := by rw [hnow]; exact List.mem_singleton_self g
  have honly : ∀ e ∈ (s.slot n).stampsAt s.horizonTime, e ≠ g → False := fun e he hne => by
    rw [hnow, List.mem_singleton] at he
    exact hne he
  rw [Slot.judgeRun_begin_tag (k + 2) hk hmem hg fun e he hne => (honly e he hne).elim,
    Slot.judgeRun_none (Slot.judgeInstant_tag_none hk (fun c => hsrc c.2.2) fun e he hne => (honly e he hne).elim)] at hrun
  have hgrant := State.conclude_slot (s := s) (u := s.armed n a) rfl rfl n
  rw [hrun] at hgrant
  obtain ⟨hplan, hstate, hdata⟩ := hgrant.keeps
  refine ⟨(Slot.firstTagged_startedAt hk).of_data hplan hstate hdata, fun hq => ?_, ?_⟩
  · rw [hdata]
    exact Slot.firstTagged_startSteps hq
  · refine State.firstTagged_of_settled ((State.armed_step ho).trans (State.conclude_step _)) rfl rfl ho ?_
      (fun hq hr => ?_) fun hq hr => (Slot.firstTagged_rearmedAt hq hr).of_data hplan hstate hdata
    · rw [hrun]; exact Slot.firstTagged_placed
    · rw [hrun]; exact Slot.firstTagged_idle hq hr

/-- The stop of an INTERVAL slot that arms after its start and its stop were offered. -/
theorem State.armed_stops {g f : Offered} (hst : (s.slot n).state = .arming)
    (hsrc : (s.slot n).plan.armSource ≠ .slotDone) (hedge : (s.slot n).plan.armSource ≠ .inputEdge)
    (hnow : (s.slot n).stampsAt s.horizonTime = [g, f] ∨ (s.slot n).stampsAt s.horizonTime = [f, g])
    (hg : (s.slot n).FirstRole a g) (hk : (s.slot n).plan.kind = .interval)
    (hB : f.isOf (s.slot n).plan.inputB (s.slot n).plan.senseB = true) (hne : f.st.input ≠ g.st.input)
    (hle : atOrBefore g.st.corrected f.st.corrected = true) :
    s.IntervalEnds (s.armed n a).conclude n g.st f.st g.scale f.scale ⟨false, !s.horizonLocked, false⟩
      (decide (g.steps ≠ f.steps))
    ∧ ((s.slot n).plan.repeatMode = .triggered →
        (s.slot n).RearmedAt ((s.armed n a).conclude.slot n) s.horizonTime s.horizonLocked) := by
  have ho : (s.slot n).state ≠ .idle := by rw [hst]; exact nofun
  obtain ⟨k, hrun⟩ := State.armed_settle (s := s) (a := a) hsrc
  have hmem : ∀ e, e ∈ (s.slot n).stampsAt s.horizonTime ↔ e = g ∨ e = f := by
    intro e
    rcases hnow with e' | e' <;> rw [e'] <;> simp [or_comm]
  rw [Slot.judgeRun_begin_stop (k + 1) hk hsrc ((hmem g).2 (.inl rfl)) ((hmem f).2 (.inr rfl))
    (fun e he hef => ((hmem e).1 he).resolve_right hef) hg hB hne.symm hle fun c => absurd c hedge] at hrun
  exact State.intervalEnds_of_settled (fr := (s.slot n).fresh) ((State.armed_step ho).trans (State.conclude_step _)) rfl
    rfl ho hrun

end

end Sys2Proof.Machine
end

section
/-! PROOFS. The gate close, and a stop that a slot holds at it (R72, R87, R88). -/

namespace Sys2Proof.Machine

/-! ## Chains upward (R59, R86) -/

/-- A slot whose arm slot stands below it is left by the slots below it as they finish, and by those above it as it is
when it has been judged. -/
theorem State.settle_chained {s : State} {n : SlotId}
    (hc : (s.slot n).plan.armSource = .slotDone → (s.slot n).plan.armSlot < n) :
    ∃ l1 : List SlotId, (∀ m, m ∈ l1 ↔ m < n) ∧ l1.Nodup ∧ s.settle.slot n = ((State.judgeAll l1 s).slot n).judgeRun n
      s.horizonTime s.horizonLocked ((State.judgeAll l1 s).slot n).judgeFuel := by
  obtain ⟨l1, l2, hl, h1, h2⟩ := allSlots_around n
  have hall : allSlots.Nodup := List.nodup_finRange 16
  rw [hl] at hall
  refine ⟨l1, fun m => ⟨h1 m, fun hm => ?_⟩, (List.nodup_append.1 hall).1, ?_⟩
  · have hmem : m ∈ allSlots := List.mem_finRange m
    rw [hl, List.mem_append, List.mem_cons] at hmem
    rcases hmem with e | e | e
    · exact e
    · exact absurd hm (e ▸ lt_irrefl n)
    · exact absurd hm (lt_asymm (h2 m e))
  · have e1 := State.judgeAll_engine l1 s
    have hapart : ∀ m, ¬m < n → ∀ y : Slot, y.plan = (s.slot n).plan → y.ApartFrom m := by
      intro m hm y hy e
      rw [hy] at e
      exact hm (e.2 ▸ hc e.1)
    rw [State.settle_eq, hl, State.judgeAll_append, State.judgeAll_apart l2 n _ (fun h => lt_irrefl n (h2 n h)),
      State.judgeSlot_self _ _ (hapart n (lt_irrefl n) _ (e1.plans n).1), e1.horizonTime, e1.horizonLocked]
    intro m hm
    refine hapart m (lt_asymm (h2 m hm)) _ ?_
    rw [((State.judgeSlot_engine _ n (State.judgeAll l1 s)).plans n).1, (e1.plans n).1]

/-! ## A slot that can use no stamp of the instant any more -/

/-- A slot that can use no stamp of the instant only arms at a finish that it remembers, which leaves its finished entry and
its lost count. -/
theorem Slot.judgeRun_useless {z : Slot} {n : SlotId} {h : Tick} {l : Bool} (k : Nat) (hk : z.plan.kind ≠ .totalize)
    (hz : ∀ f ∈ z.stampsAt h, ¬z.plan.Takes f.st) :
    (z.judgeRun n h l k).finished = z.finished ∧ (z.judgeRun n h l k).lost = z.lost
    ∧ (z.data.startSteps = 0 → (z.judgeRun n h l k).data.startSteps = 0)
    ∧ (z.seenFinish h = none → z.judgeRun n h l k = z) := by
  induction k generalizing z with
  | zero => exact ⟨rfl, rfl, fun c => c, fun _ => rfl⟩
  | succ k ih =>
    cases hs : z.seenFinish h with
    | none =>
      have hnone : z.judgeInstant n h l = none := Slot.judgeInstant_ignores hs fun f hf =>
        Slot.judgeStamp_useless n h l (hz f hf) fun _ => hk
      rw [Slot.judgeRun_none hnone]
      exact ⟨rfl, rfl, fun c => c, fun _ => rfl⟩
    | some e =>
      have hj : z.judgeInstant n h l = some ({ z.begin e.stopTime false l with finishes := z.finishes.erase e }, none) := by
        unfold Slot.judgeInstant; rw [hs]
      have hp : { z.begin e.stopTime false l with finishes := z.finishes.erase e }.plan = z.plan := Slot.begin_plan _ _ _ _
      obtain ⟨h1, h2, h3, -⟩ := ih (z := { z.begin e.stopTime false l with finishes := z.finishes.erase e })
        (by rw [hp]; exact hk) fun f hf => by rw [hp]; exact hz f (z.begin_stampsAt e.stopTime false l h ▸ hf)
      rw [Slot.judgeRun_some hj]
      exact ⟨h1.trans (z.begin_finished _ _ _), h2.trans (z.begin_lost _ _ _),
        fun _ => h3 (z.begin_armedAt e.stopTime false l).2.2.2.2.1, nofun⟩

/-! ## A RECIPROCAL stop (R87) -/

section
variable (x : Slot) (n : SlotId) (h : Tick) (l : Bool) (f : Offered)

/-- The outcome of a stop. -/
def Slot.stopOutcome : Outcome :=
  x.outcome n l .valued { x.crossedMarks f.steps with
    calChanged := x.data.marks.calChanged || calibrationChanged x.data.start f.st } false x.data.start (some f.endpoint) none

/-- A slot whose stop has been placed, before it moves on. -/
def Slot.stopPlaced : Slot := (x.finishedBy f).place (x.stopOutcome n l f)

theorem Slot.takeStop_reciprocal (hk : x.plan.kind = .reciprocal) : (x.takeStop n h l f).1 =
    (x.stopPlaced n l f).afterFinish h l ((x.stopPlaced n l f).nextReciprocal f l) := by
  unfold Slot.takeStop
  dsimp only
  rw [if_pos hk]
  rfl

theorem Slot.stopPlaced_samePlan : SamePlan x (x.stopPlaced n l f) :=
  (Slot.finishedBy_samePlan _ f).trans (Slot.place_samePlan _ _)

theorem Slot.takeStop_placed (hk : x.plan.kind = .reciprocal) :
    (x.takeStop n h l f).1.finished = (x.place (x.stopOutcome n l f)).finished
    ∧ (x.takeStop n h l f).1.lost = (x.place (x.stopOutcome n l f)).lost := by
  rw [Slot.takeStop_reciprocal _ _ _ _ _ hk]
  obtain ⟨h1, h2⟩ := Slot.afterFinish_placed h l (x := x.stopPlaced n l f)
    (c := (x.stopPlaced n l f).nextReciprocal f l) ⟨rfl, rfl⟩
  have hp := Slot.place_congr (x := x) (y := x.finishedBy f) (x.stopOutcome n l f) rfl rfl
  exact ⟨h1.trans hp.1, h2.trans hp.2⟩

theorem Slot.takeStop_awaitsArming (hk : x.plan.kind = .reciprocal)
    (ht : ¬(x.plan.repeatMode = .triggered ∧ x.plan.armSource = .slotDone)) :
    (x.takeStop n h l f).1.awaitsArming .slotDone = false := by
  rw [Slot.takeStop_reciprocal _ _ _ _ _ hk]
  refine Slot.afterFinish_awaitsArming _ _ ?_ ?_
  · rcases (x.stopPlaced n l f).nextReciprocal_inFlight f l with e | e <;> rw [e] <;> exact nofun
  · rw [(x.stopPlaced_samePlan n l f).1]; exact ht

end

/-- After a stop the slot holds no stamp but those it held beside it. -/
theorem Slot.takeStop_stamps {x : Slot} {n : SlotId} {h : Tick} {l : Bool} {f g : Offered} {k : Tick}
    (hg : g ∈ (x.takeStop n h l f).1.stampsAt k) :
    g ∈ x.stampsAt k ∧ g ≠ f := by
  have hy : g ∈ ((x.finishedBy f).place (x.stopOutcome n l f)).stampsAt k := by
    rw [Slot.mem_stampsAt] at hg ⊢
    refine ⟨?_, hg.2⟩
    refine (Slot.afterFinish_remembers h l (x := x.stopPlaced n l f) (c := if x.plan.kind = .reciprocal
      then (x.stopPlaced n l f).nextReciprocal f l else (x.stopPlaced n l f).nextInterval f.st.corrected true l) ?_).1 g hg.1
    split <;> exact ⟨rfl, rfl⟩
  rw [Slot.place_stampsAt, Slot.mem_finishedBy_stampsAt] at hy
  exact ⟨hy.1, hy.2.1⟩

/-! ## The gate close -/

theorem Slot.closeGate_deadline {x : Slot} {e : Endpoint} (h : x.data.start = some e) : x.closeGate = { x with
    state := .stopping
    data := { x.data with deadline := laterOf x.data.gateClose e.time + ticksOf x.plan.waitLimit } } := by
  unfold Slot.closeGate
  rw [h]

section
variable {s : State} {n : SlotId}

/-- The state that the gate close of slot n leaves, before the end of the event. -/
def State.gateClosed (s : State) (n : SlotId) : State := s.setSlot n (s.slot n).closeGate

theorem State.gateClosed_slot (s : State) (n : SlotId) : (s.gateClosed n).slot n = (s.slot n).closeGate := by
  unfold State.gateClosed; rw [State.slot_setSlot, if_pos rfl]

theorem exec_gateClose_due (hs : s.horizonStarted = true) (hst : (s.slot n).state = .gating)
    (hk : (s.slot n).plan.kind = .reciprocal) (ht : (s.horizonTime - (s.slot n).data.gateClose).toNat < 2 ^ 63) :
    exec (.gateClose n) s = .next (s.gateClosed n).conclude :=
  if_pos ((s.due_iff_gateClose n).2 ⟨hst, hk, hs, ht⟩)

theorem State.gateClosed_step (hst : (s.slot n).state = .gating) : EngineStep s (s.gateClosed n).conclude :=
  (s.setSlot_step n _ (Slot.closeGate_samePlan _) (by rw [hst]; exact nofun) nofun).trans (State.conclude_step _)

theorem Slot.closeGate_awaitsArming (x : Slot) : x.closeGate.awaitsArming .slotDone = false :=
  Slot.awaitsArming_of_state _ nofun

/-- The gate close in an instant without a stamp that the slot can use. -/
theorem State.gateClosed_settle (hq : s.NoOtherStamp n) :
    UpToFinishes (s.slot n).closeGate ((s.gateClosed n).settle.slot n) := by
  have hw := (s.slot n).closeGate_awaitsArming
  rw [← State.gateClosed_slot] at hw ⊢
  refine State.settle_ignores (Slot.judgeInstant_ignores (Slot.seenFinish_not_waiting _ hw) fun g hg => ?_) hw
  rw [State.gateClosed_slot] at hg ⊢
  exact Slot.judgeStamp_useless _ _ _ (hq.useless hg) nofun

theorem State.gateClosed_quiet (q : s.Quiet) : (s.gateClosed n).Quiet :=
  q.setSlot n _ (fun _ hf => hf) fun _ he => he

end

end Sys2Proof.Machine
end

section
/-! PROOFS. The obligation on timed arming and the gate close (R82, R83, R87, R88). -/

namespace Sys2Proof.Machine

/-- The outcome of a RECIPROCAL stop by a stamp of the start's input (R54, R73, R87). -/
theorem Slot.stopOutcome_stamp {x : Slot} {f : Offered} {first : Stamp} {scale : Tick} (n : SlotId) (l : Bool)
    (hk : x.plan.kind = .reciprocal) (hs : x.data.start = some (.stamp first scale)) (hi : first.input = f.st.input) :
    x.stopOutcome n l f = {
      slot := n, kind := .reciprocal, reportAs := x.plan.reportAs, planGen := x.planGen, result := .valued
      flags := ⟨false, false, x.data.marks.timeStepped || decide (x.data.startSteps ≠ f.steps),
        x.data.marks.refFault || !l, x.data.marks.calChanged || decide (first.calGen ≠ f.st.calGen), false⟩
      start := some (.stamp first scale), stop := some f.endpoint, edgesSince := none, lost := 0 } := by
  have hcal : calibrationChanged (some (.stamp first scale)) f.st = decide (first.calGen ≠ f.st.calGen) := by
    unfold calibrationChanged
    simp [hi]
  unfold Slot.stopOutcome Slot.outcome
  rw [hk, hs, hcal]
  rfl

section
variable {s : State} {n : SlotId}

/-- The second part of O34: no stamp of the instant stops the measurement at its gate close. -/
theorem State.gateClosed_concludes {first : Endpoint} (hq : s.NoOtherStamp n) (hst : (s.slot n).state = .gating)
    (hs : (s.slot n).data.start = some first) :
    let t := (s.gateClosed n).conclude
    EngineStep s t ∧ t.stamps = s.stamps
    ∧ s.GrantOnly n { s.slot n with
        state := .stopping, finishes := (t.slot n).finishes
        data := { (s.slot n).data with deadline :=
          (if (first.time - (s.slot n).data.gateClose).toNat < 2 ^ 63 then first.time else (s.slot n).data.gateClose)
            + (s.slot n).plan.waitLimit * 256 } } (t.slot n)
    ∧ (s.Quiet → (t.slot n).finishes = (s.slot n).finishes ∧ ∀ m, m ≠ n → s.GrantOnly m (s.slot m) (t.slot m)) := by
  have hgrant : ∀ m, s.GrantOnly m ((s.gateClosed n).settle.slot m) ((s.gateClosed n).conclude.slot m) :=
    State.conclude_slot rfl rfl
  refine ⟨State.gateClosed_step hst, State.conclude_stamps _, ?_, fun q => ?_⟩
  · obtain ⟨fs, hleft⟩ := State.gateClosed_settle hq
    have hn := hgrant n
    rw [hleft, Slot.closeGate_deadline hs, laterOf_eq, ticksOf_eq] at hn
    have hfin := hn.keepsStamps.2
    rw [hfin]
    exact hn
  · rw [State.settle_quiet (State.gateClosed_quiet q)] at hgrant
    refine ⟨?_, fun m hm => ?_⟩
    · have hfin := (hgrant n).keepsStamps.2
      rw [State.gateClosed_slot] at hfin
      exact hfin
    · have hg := hgrant m
      unfold State.gateClosed at hg
      rw [State.slot_setSlot, if_neg hm.symm] at hg
      exact hg

/-- What a RECIPROCAL slot that closes its gate makes of a stop which it holds. -/
theorem State.gateClosed_stops {first : Stamp} {scale : Tick} {g : Offered} (hc : (s.slot n).plan.ChainsUpward n)
    (hk : (s.slot n).plan.kind = .reciprocal) (hs : (s.slot n).data.start = some (.stamp first scale))
    (hnow : (s.slot n).stampsAt s.horizonTime = [g]) (hg : g.isOf (s.slot n).plan.inputA (s.slot n).plan.senseA = true)
    (hclose : (g.st.corrected - (s.slot n).data.gateClose).toNat < 2 ^ 63)
    (hlater : (g.st.corrected - first.corrected).toNat < 2 ^ 63) (hne : g.st.corrected ≠ first.corrected) :
    ∃ fs k, (s.gateClosed n).settle.slot n =
      ({ (s.slot n).closeGate with finishes := fs }.takeStop n s.horizonTime s.horizonLocked g).1.judgeRun n s.horizonTime
        s.horizonLocked k := by
  have hslot := s.gateClosed_slot n
  have hw := (s.slot n).closeGate_awaitsArming
  obtain ⟨l1, hl1, -, hrun⟩ := State.settle_chained (s := s.gateClosed n) (n := n) (by rw [hslot]; exact hc.2)
  obtain ⟨fs, hy⟩ := State.judgeAll_other l1 n (s.gateClosed n) (fun h => lt_irrefl n ((hl1 n).1 h)) (by rw [hslot]; exact hw)
  rw [hslot] at hy
  rw [hy] at hrun
  have hmeets : { (s.slot n).closeGate with finishes := fs }.meetsStop g = true := by
    obtain ⟨hin, hse⟩ := (g.isOf_iff _ _).1 hg
    have he : { (s.slot n).closeGate with finishes := fs }.EndsAt g.st g.scale :=
      .inl ⟨hk, .inr rfl, hin, hse, hclose, _, hs, hlater, hne⟩
    rcases (Slot.endsAt_iff _ _).1 he with h | h
    · exact h.2
    · exact nomatch hk.symm.trans h.2.1
  have hjudge : { (s.slot n).closeGate with finishes := fs }.judgeInstant n s.horizonTime s.horizonLocked = some
      (({ (s.slot n).closeGate with finishes := fs }.takeStop n s.horizonTime s.horizonLocked g).1,
        some ({ (s.slot n).closeGate with finishes := fs }.takeStop n s.horizonTime s.horizonLocked g).2) := by
    have hstamps : { (s.slot n).closeGate with finishes := fs }.stampsAt s.horizonTime = [g] := hnow
    refine Slot.judgeInstant_takes (Slot.seenFinish_not_waiting _ hw) (by rw [hstamps]; exact List.mem_singleton_self g)
      (Slot.judgeStamp_stops n _ _ (.inr rfl) hmeets) fun e he hne' => ?_
    rw [hstamps, List.mem_singleton] at he
    exact absurd he hne'
  exact ⟨fs, _, hrun.trans (Slot.judgeRun_some hjudge _)⟩

end

/-- The last part of O34: the one stamp of the instant, offered before the gate close, stops the measurement. -/
theorem State.gateClosed_concludes_stop {s : State} {n : SlotId} {first : Stamp} {scale : Tick} {g : Offered}
    (hc : (s.slot n).plan.ChainsUpward n)
    (hk : (s.slot n).plan.kind = .reciprocal) (hs : (s.slot n).data.start = some (.stamp first scale))
    (hi : first.input = g.st.input) (hnow : (s.slot n).stampsAt s.horizonTime = [g])
    (hg : g.isOf (s.slot n).plan.inputA (s.slot n).plan.senseA = true)
    (hclose : (g.st.corrected - (s.slot n).data.gateClose).toNat < 2 ^ 63)
    (hlater : (g.st.corrected - first.corrected).toNat < 2 ^ 63) (hne : g.st.corrected ≠ first.corrected) :
    let x := s.slot n
    let t := (s.gateClosed n).conclude
    s.OutcomeFormed t n {
        slot := n, kind := .reciprocal, reportAs := x.plan.reportAs, planGen := x.planGen, result := .valued
        flags := ⟨false, false, x.data.marks.timeStepped || decide (x.data.startSteps ≠ g.steps),
          x.data.marks.refFault || !s.horizonLocked,
          x.data.marks.calChanged || decide (first.calGen ≠ g.st.calGen), false⟩
        start := some (.stamp first scale), stop := some g.endpoint, edgesSince := none, lost := 0 }
    ∧ (x.plan.repeatMode = .single → (t.slot n).state = .idle)
    ∧ (x.plan.repeatMode = .triggered → x.plan.armSource ≠ .slotDone →
        x.RearmedAt (t.slot n) s.horizonTime s.horizonLocked)
    ∧ (x.plan.repeatMode = .continuous → (t.slot n).data.start = some g.endpoint) := by
  obtain ⟨fs, k, hrun⟩ := State.gateClosed_stops hc hk hs hnow hg hclose hlater hne
  dsimp only
  generalize hydef : { (s.slot n).closeGate with finishes := fs } = y at hrun
  have hy : SamePlan (s.slot n) y ∧ y.finished = (s.slot n).finished ∧ y.lost = (s.slot n).lost
      ∧ y.data.start = (s.slot n).data.start ∧ y.data.marks = (s.slot n).data.marks
      ∧ y.data.startSteps = (s.slot n).data.startSteps ∧ y.stampsAt s.horizonTime = [g] := by
    rw [← hydef]
    exact ⟨⟨rfl, rfl⟩, rfl, rfl, rfl, rfl, rfl, hnow⟩
  obtain ⟨hplan, hfin, hlost, hstart, hmarks, hsteps, hstamps⟩ := hy
  have hky : y.plan.kind = .reciprocal := by rw [hplan.1]; exact hk
  have hempty : (y.takeStop n s.horizonTime s.horizonLocked g).1.stampsAt s.horizonTime = [] := by
    refine List.eq_nil_iff_forall_not_mem.2 fun e he => ?_
    obtain ⟨h1, h2⟩ := Slot.takeStop_stamps he
    rw [hstamps, List.mem_singleton] at h1
    exact h2 h1
  obtain ⟨h1, h2, -, h3⟩ := Slot.judgeRun_useless (n := n) (h := s.horizonTime) (l := s.horizonLocked) k (z := _)
    (by rw [(y.takeStop_samePlan n s.horizonTime s.horizonLocked g).1, hky]; exact nofun)
    (by rw [hempty]; exact nofun)
  rw [← hrun] at h1 h2 h3
  have hplaced := Slot.takeStop_placed y n s.horizonTime s.horizonLocked g hky
  have hcongr := Slot.place_congr (y.stopOutcome n s.horizonLocked g) hfin hlost
  have hstays : ¬((s.slot n).plan.repeatMode = .triggered ∧ (s.slot n).plan.armSource = .slotDone) →
      (s.gateClosed n).settle.slot n = (y.stopPlaced n s.horizonLocked g).afterFinish s.horizonTime s.horizonLocked
        ((y.stopPlaced n s.horizonLocked g).nextReciprocal g s.horizonLocked) := by
    intro ht
    rw [← hplan.1] at ht
    exact (h3 (Slot.seenFinish_not_waiting _ (Slot.takeStop_awaitsArming _ _ _ _ _ hky ht))).trans (Slot.takeStop_reciprocal _ _ _ _ _ hky)
  have hmode : ∀ r, (s.slot n).plan.repeatMode = r → (y.stopPlaced n s.horizonLocked g).plan.repeatMode = r := by
    intro r hr
    rw [(y.stopPlaced_samePlan n s.horizonLocked g).1, hplan.1]
    exact hr
  obtain ⟨hplan', hstate, hdata⟩ := (State.conclude_slot (s := s) (u := s.gateClosed n) rfl rfl n).keeps
  refine ⟨?_, fun hr => ?_, fun hr hsrc => ?_, fun hr => ?_⟩
  · have ho := Slot.stopOutcome_stamp n s.horizonLocked hky (hstart.trans hs) hi
    rw [hplan.1, hplan.2, hmarks, hsteps] at ho
    rw [← ho]
    obtain ⟨hu, hraw⟩ := State.settle_frame (s := s) (u := s.gateClosed n) rfl rfl
    exact State.OutcomeFormed.of_settled hu hraw (Slot.placed_of_place (h1.trans (hplaced.1.trans hcongr.1))
      (h2.trans (hplaced.2.trans hcongr.2)))
  · rw [hstate, hstays (fun c => nomatch hr.symm.trans c.1), Slot.afterFinish_single _ _ _ (hmode _ hr)]
    rfl
  · refine Slot.RearmedAt.of_data ?_ hplan' hstate hdata
    rw [hstays (fun c => hsrc c.2), Slot.afterFinish_triggered _ _ _ (hmode _ hr)]
    exact Slot.rearm_rearmedAt (hplan.trans (y.stopPlaced_samePlan n s.horizonLocked g)) _ _
  · rw [hdata, hstays (fun c => nomatch hr.symm.trans c.1), Slot.afterFinish_continuous _ _ _ (hmode _ hr)]
    rfl

/-- Settles O34: the slot arms, or closes its gate, and then makes of the stamps of the instant its start, its stop or its
first tag. -/
theorem timedArmingAndGateClose : Obligations.TimedArmingAndGateClose := by
  refine ⟨fun n a s hq hh => ?_, fun n first s hq hh => ?_, fun n a c g s hh => ?_, fun n first scale g s hh => ?_⟩
  · dsimp only
    refine fun hst hopen => ⟨fun hsrc ha ht => ?_, fun hsrc ht => ?_⟩
    · exact ⟨_, exec_immediateArmInstant_due hst hsrc hopen ha hh ht,
        State.armed_concludes hq hst (by rw [hsrc]; exact nofun)⟩
    · exact ⟨_, exec_atTimeArming_due hst hsrc hopen hh ht, State.armed_concludes hq hst (by rw [hsrc]; exact nofun)⟩
  · dsimp only
    exact fun hst hk hs ht => ⟨_, exec_gateClose_due hh hst hk ht, State.gateClosed_concludes hq hst hs⟩
  · dsimp only
    intro hst hopen hcmd hin hse hle
    have hg : (s.slot n).FirstRole a g := ⟨(g.isOf_iff _ _).2 ⟨hin, hse⟩, (atOrBefore_iff _ _).2 hle⟩
    have hexec : exec c s = .next (s.armed n a).conclude := by
      rcases hcmd with ⟨rfl, hsrc, ha, ht⟩ | ⟨rfl, hsrc, rfl, ht⟩
      · exact exec_immediateArmInstant_due hst hsrc hopen ha hh ht
      · exact exec_atTimeArming_due hst hsrc hopen hh ht
    have hsrc : (s.slot n).plan.armSource ≠ .slotDone ∧ (s.slot n).plan.armSource ≠ .inputEdge := by
      rcases hcmd with ⟨-, hsrc, -⟩ | ⟨-, hsrc, -⟩ <;> rw [hsrc] <;> exact ⟨nofun, nofun⟩
    have hstep : EngineStep s (s.armed n a).conclude :=
      (State.armed_step (by rw [hst]; exact nofun)).trans (State.conclude_step _)
    refine ⟨fun hnow => ⟨_, hexec, hstep, State.armed_stamps, ?_, fun hlast hnotot => ?_, fun hk => ?_, fun hk => ?_⟩,
      fun f hnow hk hfi hfs hne hfle => ⟨_, hexec, hstep, State.armed_stamps, ?_⟩⟩
    · cases hk : (s.slot n).plan.kind with
      | totalize => exact Slot.startedAt_totalize hk _ _ _ _ _
      | timetag => exact (State.armed_tags hst hsrc.1 hnow hg hk).1
      | reciprocal => exact (State.armed_starts hsrc.1 hnow hg (.inl hk)).1
      | interval => exact (State.armed_starts hsrc.1 hnow hg (.inr hk)).1
    · cases hk : (s.slot n).plan.kind with
      | totalize => exact absurd hk hnotot
      | timetag => exact (State.armed_tags hst hsrc.1 hnow hg hk).2.1 fun hq => hlast ⟨hk, hq⟩
      | reciprocal => exact (State.armed_starts hsrc.1 hnow hg (.inl hk)).2.1
      | interval => exact (State.armed_starts hsrc.1 hnow hg (.inr hk)).2.1
    · exact (State.armed_starts hsrc.1 hnow hg hk).2.2
    · exact (State.armed_tags hst hsrc.1 hnow hg hk).2.2
    · exact State.armed_stops hst hsrc.1 hsrc.2 hnow hg hk ((f.isOf_iff _ _).2 ⟨hfi, hfs⟩) hne
        ((atOrBefore_iff _ _).2 hfle)
  · dsimp only
    intro hst hk hc hs hi ht hnow hin hse hclose hlater hne
    have hstep := State.gateClosed_step (s := s) (n := n) hst
    obtain ⟨h1, h2, h3, h4⟩ := State.gateClosed_concludes_stop hc hk hs hi hnow ((g.isOf_iff _ _).2 ⟨hin, hse⟩) hclose
      hlater hne
    exact ⟨_, exec_gateClose_due hh hst hk ht, hstep, State.conclude_stamps _, h1,
      fun hr => ⟨h2 hr, hstep.done hr (by rw [hst]; exact nofun) (h2 hr)⟩, h3, h4⟩

end Sys2Proof.Machine
end

section
/-! PROOFS. A valued finish and the slots that wait for it (R71, R72, R86). -/

namespace Sys2Proof.Machine

/-! ## What a finish makes of another slot -/

/-- What the announcement of a valued finish of slot n makes of any slot. -/
theorem State.announce_slot_eq (s : State) (n m : SlotId) (t : Tick) (b : Bool) (c : Option Stamp) :
    (s.announce n ⟨some t, b, c⟩).slot m =
      if (s.slot m).plan.armSource = .slotDone ∧ (s.slot m).plan.armSlot = n
      then (s.slot m).seeFinish ⟨t, c, s.horizonTime⟩ s.horizonLocked else s.slot m := by
  unfold State.announce State.armDependents
  dsimp only
  rw [State.slot_mapSlots]
  cases b <;> rfl

/-- A slot that waits for the finish arms at it, where the stamp that caused it has not finished a measurement of the slot
at this instant (R86). -/
theorem Slot.seeFinish_arms {x : Slot} {e : SeenFinish} (l : Bool) (hw : x.awaitsArming .slotDone = true)
    (hu : ∀ g ∈ x.usedUp, g.offeredAt = e.at' → e.cause ≠ some g.st) : x.seeFinish e l = x.begin e.stopTime false l := by
  unfold Slot.seeFinish
  rw [if_neg, if_pos hw]
  unfold Slot.hasUsedUp
  rw [List.any_eq_true]
  rintro ⟨g, hg, hd⟩
  obtain ⟨h1, h2⟩ := of_decide_eq_true hd
  exact hu g hg h1 h2

/-- A slot without a stamp or a finish of the instant makes nothing of a finish that it has just seen, but arm at it. -/
theorem Slot.seeFinish_quiet {x : Slot} {h : Tick} (e : SeenFinish) (n : SlotId) (l k : Bool)
    (q : (∀ f ∈ x.fresh, f.offeredAt ≠ h) ∧ ∀ e ∈ x.finishes, e.at' ≠ h) :
    (x.seeFinish e l).judgeInstant n h k = none := by
  have hno : ∀ f, f ∉ x.stampsAt h := fun f hf => q.1 f (Slot.mem_stampsAt.1 hf).1 (Slot.mem_stampsAt.1 hf).2
  unfold Slot.seeFinish
  split
  · exact Slot.judgeInstant_quiet n h k q
  split
  · refine Slot.judgeInstant_ignores (Slot.seenFinish_not_waiting _ (x.begin_awaitsArming _ _ _ _)) fun f hf => ?_
    rw [Slot.begin_stampsAt] at hf
    exact absurd hf (hno f)
  · next hw =>
    split
    · exact Slot.judgeInstant_quiet n h k q
    · exact Slot.judgeInstant_ignores (Slot.seenFinish_not_waiting _ (eq_false_of_ne_true hw)) fun f hf =>
        absurd hf (hno f)

/-! ## A slot that can finish no more in the instant -/

/-- Of the stamps of the instant, a slot can use none, or under INTERVAL only the start e of its measurement, which cannot
also be the stop. -/
def Slot.CannotFinish (x : Slot) (h : Tick) (e : Endpoint) : Prop :=
  (∀ f ∈ x.stampsAt h, ¬x.plan.Takes f.st ∨ (x.plan.kind = .interval ∧ f.endpoint = e))
  ∧ (x.plan.kind = .interval → x.data.start = none ∨ x.data.start = some e)

section
variable {x : Slot} {n : SlotId} {h : Tick} {l : Bool} {e : Endpoint}

theorem Slot.CannotFinish.of_start {y : Slot} (hx : x.CannotFinish h e) (hp : y.plan = x.plan)
    (hf : y.stampsAt h = x.stampsAt h) (hs : x.plan.kind = .interval → y.data.start = none ∨ y.data.start = some e) :
    y.CannotFinish h e := by
  unfold Slot.CannotFinish
  rw [hp, hf]
  exact ⟨hx.1, hs⟩

theorem Slot.begin_start (x : Slot) (a : Tick) (b l : Bool) : (x.begin a b l).data.start = none := by
  unfold Slot.begin; cases x.plan.kind <;> rfl

theorem Slot.CannotFinish.begin (hx : x.CannotFinish h e) (a : Tick) (b : Bool) : (x.begin a b l).CannotFinish h e :=
  hx.of_start (Slot.begin_plan _ _ _ _) (Slot.begin_stampsAt _ _ _ _ _) fun _ => .inl (x.begin_start a b l)

/-- Such a slot stops at no stamp of the instant. -/
theorem Slot.CannotFinish.meetsStop (hx : x.CannotFinish h e) {f : Offered} (hf : f ∈ x.stampsAt h) :
    x.meetsStop f = false := by
  rw [Bool.eq_false_iff]
  intro hm
  rcases Slot.meetsStop_isOf hm with ⟨hk, hA⟩ | ⟨hk, hB, e', hs, -, hne⟩
  · rcases hx.1 f hf with c | c
    · exact c (.of_first (by rw [hk]; exact nofun) hA)
    · exact nomatch hk.symm.trans c.1
  · rcases hx.1 f hf with c | c
    · exact c (.of_second hk hB)
    · rcases hx.2 hk with d | d <;> rw [d] at hs <;> cases hs
      exact hne c.2.symm

/-- Such a slot makes no finish of a stamp of the instant, and stays such a slot. -/
theorem Slot.CannotFinish.judgeStamp (hx : x.CannotFinish h e) {f : Offered} (hf : f ∈ x.stampsAt h)
    {r : Slot × Option Finish} (hr : x.judgeStamp n h l f = some r) : r.2 = none ∧ r.1.CannotFinish h e := by
  unfold Slot.judgeStamp at hr
  rw [hx.meetsStop hf] at hr
  cases hst : x.state <;> rw [hst] at hr <;> dsimp only at hr
  case idle | gating | stopping => cases hr
  case arming =>
    split at hr
    · cases hr; exact ⟨rfl, hx.begin _ _⟩
    · cases hr
  case starting =>
    split at hr
    · next hm =>
      cases hr
      refine ⟨rfl, hx.of_start (x.takeStart_samePlan f).1 (Slot.takeStart_stampsAt _ _ _) fun hk => .inr ?_⟩
      rw [Slot.takeStart_start]
      rcases hx.1 f hf with c | c
      · exact absurd (.of_first (by rw [hk]; exact nofun) (Slot.meetsStart_isOf hm)) c
      · rw [c.2]
    · cases hr
  case tagging =>
    split at hr
    · next hm =>
      rw [Bool.and_eq_true, decide_eq_true_iff] at hm
      rcases hx.1 f hf with c | c
      · exact absurd (.of_first (by rw [hm.1]; exact nofun) (Slot.meetsTag_isOf hm.2)) c
      · exact nomatch hm.1.symm.trans c.1
    · cases hr

theorem Slot.CannotFinish.judgeInstant (hx : x.CannotFinish h e) {r : Slot × Option Finish}
    (hr : x.judgeInstant n h l = some r) : r.2 = none ∧ r.1.CannotFinish h e := by
  unfold Slot.judgeInstant at hr
  cases hs : x.seenFinish h with
  | some g =>
    rw [hs] at hr
    cases hr
    exact ⟨rfl, hx.of_start (Slot.begin_plan _ _ _ _) (Slot.begin_stampsAt x _ _ _ h) fun _ =>
      .inl (x.begin_start g.stopTime false l)⟩
  | none =>
    rw [hs] at hr
    obtain ⟨f, hf, hj⟩ := List.exists_of_findSome?_eq_some hr
    exact hx.judgeStamp hf hj

end

/-- Judging a slot that can finish no more leaves every other slot as it is. -/
theorem State.judgeSlot_silent (k : Nat) {n m : SlotId} {s : State} {e : Endpoint} (hm : n ≠ m)
    (hx : (s.slot n).CannotFinish s.horizonTime e) : (State.judgeSlot k n s).slot m = s.slot m := by
  induction k generalizing s with
  | zero => rfl
  | succ k ih =>
    cases hj : (s.slot n).judgeInstant n s.horizonTime s.horizonLocked with
    | none => rw [State.judgeSlot_none hj]
    | some r =>
      obtain ⟨y, fin⟩ := r
      obtain ⟨hnone, hy⟩ := hx.judgeInstant hj
      cases hnone
      rw [State.judgeSlot_some k hj]
      show (State.judgeSlot k n (s.setSlot n y)).slot m = _
      rw [ih (by rw [State.slot_setSlot, if_pos rfl]; exact hy), State.slot_setSlot, if_neg hm]

/-! ## The finish at a stamp -/

section
variable {x : Slot} {n : SlotId} {h : Tick} {l : Bool} {f : Offered}

theorem Slot.takeTag_stamps {g : Offered} {k : Tick} (hg : g ∈ (x.takeTag n h l f).1.stampsAt k) :
    g ∈ x.stampsAt k ∧ g ≠ f := by
  unfold Slot.takeTag at hg
  dsimp only at hg
  generalize x.outcome n l .valued _ _ (some f.endpoint) none _ = o at hg
  have hy : g ∈ ((x.finishedBy f).place o).stampsAt k := by
    split at hg
    · rw [Slot.mem_stampsAt] at hg ⊢
      exact ⟨(Slot.afterFinish_remembers h l ⟨rfl, rfl⟩).1 g hg.1, hg.2⟩
    · exact hg
  rw [Slot.place_stampsAt, Slot.mem_finishedBy_stampsAt] at hy
  exact ⟨hy.1, hy.2.1⟩

/-- After an INTERVAL stop the slot holds no start. -/
theorem Slot.takeStop_start (hk : x.plan.kind = .interval) : (x.takeStop n h l f).1.data.start = none := by
  have hz : (x.takeStop n h l f).1 =
      (x.stopPlaced n l f).afterFinish h l ((x.stopPlaced n l f).nextInterval f.st.corrected true l) := by
    unfold Slot.takeStop
    dsimp only
    rw [if_neg (by rw [hk]; exact nofun)]
    rfl
  rw [hz]
  unfold Slot.afterFinish
  split
  · rfl
  · unfold Slot.rearm
    dsimp only
    split
    · exact Slot.begin_start _ _ _ _
    · rfl
  · rfl

/-- What a slot makes of a stamp that ends its measurement, as far as the rest of the part is told. -/
theorem Slot.judgeStamp_ends (n : SlotId) (h : Tick) (l : Bool) (he : x.EndsAt f.st f.scale) :
    ∃ z b, x.judgeStamp n h l f = some (z, some ⟨some f.st.corrected, b, some f.st⟩)
      ∧ (∀ k, ∀ g ∈ z.stampsAt k, g ∈ x.stampsAt k ∧ g ≠ f) ∧ z.plan = x.plan
      ∧ (x.plan.kind = .interval → z.data.start = none) := by
  rcases (Slot.endsAt_iff _ _).1 he with ⟨hst, hm⟩ | ⟨hst, hk, hm⟩
  · exact ⟨_, _, Slot.judgeStamp_stops n h l hst hm, fun k g hg => Slot.takeStop_stamps hg,
      (x.takeStop_samePlan n h l f).1, Slot.takeStop_start⟩
  · have htag : ∃ b, (x.takeTag n h l f).2 = ⟨some f.st.corrected, b, some f.st⟩ := by
      unfold Slot.takeTag
      dsimp only
      split <;> exact ⟨_, rfl⟩
    obtain ⟨b, hb⟩ := htag
    refine ⟨(x.takeTag n h l f).1, b, ?_, fun k g hg => Slot.takeTag_stamps hg, (x.takeTag_samePlan n h l f).1,
      fun hi => nomatch hk.symm.trans hi⟩
    rw [← hb]
    exact Slot.judgeStamp_tags n h l hst hk hm

/-- A slot whose measurement a stamp ends is past its arming and, under INTERVAL, holds its start. -/
theorem Slot.EndsAt.inFlight {st : Stamp} {scale : Tick} (he : x.EndsAt st scale) :
    (x.state = .gating ∨ x.state = .stopping ∨ x.state = .tagging)
    ∧ (x.plan.kind = .interval → (x.state = .gating ∨ x.state = .stopping) ∧ ∃ e, x.data.start = some e) := by
  rcases he with ⟨hk, hs, -⟩ | ⟨hk, hs, -, -, e, he, -⟩ | ⟨hk, hs, -⟩
  · exact ⟨hs.imp_right .inl, fun c => nomatch hk.symm.trans c⟩
  · exact ⟨hs.imp_right .inl, fun _ => ⟨hs, e, he⟩⟩
  · exact ⟨.inr (.inr hs), fun c => nomatch hk.symm.trans c⟩

/-- In an instant of which a slot can use one stamp alone, beside the start it has taken, that stamp ends its measurement,
and the slot can finish no more. -/
theorem Slot.judgeInstant_ends (hf : f ∈ x.stampsAt h) (he : x.EndsAt f.st f.scale)
    (ho : ∀ g ∈ x.stampsAt h, g ≠ f →
      ¬x.plan.Takes g.st ∨ (x.plan.kind = .interval ∧ x.data.start = some g.endpoint)) :
    ∃ z b e, x.judgeInstant n h l = some (z, some ⟨some f.st.corrected, b, some f.st⟩) ∧ z.CannotFinish h e := by
  obtain ⟨hin, hint⟩ := he.inFlight
  have hact : x.state ≠ .arming ∧ x.state ≠ .starting := by
    rcases hin with e | e | e <;> rw [e] <;> exact ⟨nofun, nofun⟩
  obtain ⟨z, b, hj, hstamps, hplan, hstart⟩ := Slot.judgeStamp_ends n h l he
  have hignore : ∀ g ∈ x.stampsAt h, g ≠ f → x.judgeStamp n h l g = none := by
    intro g hg hne
    rcases ho g hg hne with c | ⟨hk, hs⟩
    · exact Slot.judgeStamp_useless n h l c fun e => absurd e hact.2
    · refine Slot.judgeStamp_ignores n h l (fun e => absurd e hact.1) (fun e => absurd e hact.2) (fun _ => ?_)
        fun _ c => nomatch hk.symm.trans c
      rw [Bool.eq_false_iff]
      intro hm
      rcases Slot.meetsStop_isOf hm with ⟨c, -⟩ | ⟨-, -, e, hs', -, hne'⟩
      · exact nomatch hk.symm.trans c
      · rw [hs] at hs'
        cases hs'
        exact hne' rfl
  have hsome : ∃ e : Endpoint, x.plan.kind = .interval → x.data.start = some e := by
    by_cases hk : x.plan.kind = .interval
    · obtain ⟨-, e, hs⟩ := hint hk
      exact ⟨e, fun _ => hs⟩
    · exact ⟨f.endpoint, fun c => absurd c hk⟩
  obtain ⟨e, hs⟩ := hsome
  refine ⟨z, b, e, Slot.judgeInstant_takes (Slot.seenFinish_not_waiting _ (Slot.awaitsArming_of_state _ hact.1)) hf hj
    hignore, fun g hg => ?_, fun hk => ?_⟩
  · obtain ⟨h1, h2⟩ := hstamps h g hg
    rw [hplan]
    refine (ho g h1 h2).imp_right fun c => ⟨c.1, ?_⟩
    have hs' := hs c.1
    rw [c.2] at hs'
    cases hs'
    rfl
  · rw [hplan] at hk
    exact .inl (hstart hk)

end

end Sys2Proof.Machine
end

section
/-! PROOFS. The obligation on the dependents of a slot (R71, R72, R86). -/

namespace Sys2Proof.Machine

/-! ## The dependent, judged after its arm slot -/

theorem Slot.CannotFinish.seeFinish {x : Slot} {h : Tick} {e : Endpoint} (hx : x.CannotFinish h e) (g : SeenFinish)
    (l : Bool) : (x.seeFinish g l).CannotFinish h e := by
  unfold Slot.seeFinish
  split
  · exact hx
  split
  · exact hx.begin _ _
  split
  · exact hx
  · exact hx

/-- Of slots judged in turn, the one finish of the arm slot n, at a stamp of the instant, arms the dependent m. -/
theorem State.judgeAll_arms {l1 : List SlotId} {n m : SlotId} {u : State} {t : Tick} {c : Option Stamp}
    (hnd : l1.Nodup) (hn : n ∈ l1) (hm : m ∉ l1) (hw : (u.slot n).awaitsArming .slotDone = false)
    (hends : ∀ fs, ∃ z b e, { u.slot n with finishes := fs }.judgeInstant n u.horizonTime u.horizonLocked =
      some (z, some ⟨some t, b, c⟩) ∧ z.CannotFinish u.horizonTime e)
    (hwaits : (u.slot m).awaitsArming .slotDone = true) (harm : (u.slot m).plan.armSlot = n)
    (hused : ∀ g ∈ (u.slot m).usedUp, g.offeredAt = u.horizonTime → c ≠ some g.st) :
    (State.judgeAll l1 u).slot m = (u.slot m).begin t false u.horizonLocked := by
  obtain ⟨k1, k2, rfl⟩ := List.append_of_mem hn
  rw [List.nodup_append, List.nodup_cons] at hnd
  obtain ⟨-, ⟨hn2, -⟩, hdisj⟩ := hnd
  have hn1 : n ∉ k1 := fun h => hdisj n h n List.mem_cons_self rfl
  have hm1 : m ∉ k1 := fun h => hm (List.mem_append_left _ h)
  have hm2 : m ∉ k2 := fun h => hm (List.mem_append_right _ (List.mem_cons_of_mem _ h))
  have hnm : n ≠ m := fun h => hm (h ▸ hn)
  have hapart : ∀ k, k ≠ n → ∀ y : Slot, y.plan = (u.slot m).plan → y.ApartFrom k := by
    intro k hk y hy e
    rw [hy, harm] at e
    exact hk e.2.symm
  have ev := State.judgeAll_engine k1 u
  have hvm := State.judgeAll_apart k1 m u hm1 fun k hk => hapart k (fun e => hn1 (e ▸ hk)) _ rfl
  obtain ⟨fs, hvn⟩ := State.judgeAll_other k1 n u hn1 hw
  obtain ⟨z, b, e, hj, hz⟩ := hends fs
  rw [State.judgeAll_append]
  generalize State.judgeAll k1 u = v at ev hvm hvn
  rw [← hvn, ← ev.horizonTime, ← ev.horizonLocked] at hj
  have hfuel : (v.slot n).judgeFuel = 3 * (v.slot n).fresh.length + (v.slot n).finishes.length + 2 + 1 := rfl
  rw [hfuel, State.judgeSlot_some _ hj]
  have ew := State.announced_engine (v.setSlot n z) n (some ⟨some t, b, c⟩)
  have hwm : ((v.setSlot n z).announced n (some ⟨some t, b, c⟩)).slot m = (u.slot m).begin t false u.horizonLocked := by
    show ((v.setSlot n z).announce n ⟨some t, b, c⟩).slot m = _
    rw [State.announce_slot_eq, State.slot_setSlot, if_neg hnm, hvm,
      if_pos ⟨((Slot.awaitsArming_iff _ _).1 hwaits).2.1, harm⟩, Slot.seeFinish_arms _ hwaits]
    · show (u.slot m).begin t false v.horizonLocked = _
      rw [ev.horizonLocked]
    · intro g hg hat
      refine hused g hg ?_
      rw [← ev.horizonTime]
      exact hat
  have hwn : (((v.setSlot n z).announced n (some ⟨some t, b, c⟩)).slot n).CannotFinish u.horizonTime e := by
    show (((v.setSlot n z).announce n ⟨some t, b, c⟩).slot n).CannotFinish _ _
    rw [State.announce_slot_eq, State.slot_setSlot, if_pos rfl]
    split
    · exact hz.seeFinish _ _
    · exact hz
  have hht : ((v.setSlot n z).announced n (some ⟨some t, b, c⟩)).horizonTime = u.horizonTime :=
    ew.horizonTime.trans ev.horizonTime
  have hsilent := State.judgeSlot_silent (3 * (v.slot n).fresh.length + (v.slot n).finishes.length + 2) hnm
    (by rw [hht]; exact hwn)
  rw [State.judgeAll_apart k2 m _ hm2, hsilent, hwm]
  intro k hk
  refine hapart k (fun e => hn2 (e ▸ hk)) _ ?_
  rw [hsilent, hwm, Slot.begin_plan]

theorem Slot.firstTagged_finishes {x : Slot} {n : SlotId} {a h : Tick} {l : Bool} {g : Offered} {e : SeenFinish}
    (he : e ∈ (x.firstTagged n a h l g).finishes) : e ∈ x.finishes := by
  have hy : e ∈ (x.tagPlaced n a l g).finishes := by
    unfold Slot.firstTagged at he
    dsimp only at he
    split at he
    · exact (Slot.afterFinish_remembers h l ⟨rfl, rfl⟩).2 e he
    · exact he
  unfold Slot.tagPlaced at hy
  rw [Slot.place_finishes] at hy
  have hb : e ∈ (x.begin a false l).finishes := (List.mem_filter.1 hy).1
  rw [Slot.begin_finishes] at hb
  exact hb

/-- What a TIMETAG slot makes of an instant in which it arms at a stamp that is its first tag, the others being of no use to
it, whatever finishes it remembers. -/
theorem Slot.judgeRun_tags {x : Slot} {n : SlotId} {h : Tick} {l : Bool} {f : Offered} (k : Nat)
    (hk : x.plan.kind = .timetag) (hf : f ∈ x.stampsAt h) (hu : ∀ e ∈ x.stampsAt h, e ≠ f → ¬x.plan.Takes e.st)
    (hA : f.isOf x.plan.inputA x.plan.senseA = true) :
    let z := (x.begin f.st.corrected false l).judgeRun n h l (k + 1)
    x.StartedAt z f.st.corrected f.st f.scale l ∧ (f.steps = 0 → z.data.startSteps = 0)
    ∧ (z.finished = (x.place (x.firstTag n l f.endpoint)).finished ∧ z.lost = (x.place (x.firstTag n l f.endpoint)).lost)
    ∧ (x.plan.LastAtFirst → x.plan.repeatMode = .single → z.state = .idle)
    ∧ (x.plan.LastAtFirst → x.plan.repeatMode = .triggered → (∀ e ∈ x.finishes, e.at' ≠ h) → x.RearmedAt z h l) := by
  have hnotot : x.plan.kind ≠ .totalize := by rw [hk]; exact nofun
  have hsame := (Slot.firstTagged_samePlan (x := x) (n := n) (a := f.st.corrected) (h := h) (l := l) (g := f)).1
  obtain ⟨h1, h2, h3, h4⟩ := Slot.judgeRun_useless (z := x.firstTagged n f.st.corrected h l f) (n := n) (h := h) (l := l)
    k (hsame ▸ hnotot) fun e he => by
      obtain ⟨hm, hne⟩ := Slot.mem_firstTagged_stampsAt he
      rw [hsame]
      exact hu e hm hne
  dsimp only
  rw [Slot.judgeRun_begin_tag k hk hf (Slot.firstRole_self hA) fun e he hne c => hu e he hne (.of_first hnotot c)]
  have hstays : ¬(x.plan.LastAtFirst ∧ x.plan.repeatMode = .triggered) →
      (x.firstTagged n f.st.corrected h l f).judgeRun n h l k = x.firstTagged n f.st.corrected h l f := fun c =>
    h4 (Slot.seenFinish_not_waiting _ (Slot.firstTagged_awaitsArming hk fun d => c ⟨d.1, d.2.1⟩))
  refine ⟨?_, fun hz => h3 (Slot.firstTagged_startSteps_zero hz), ⟨h1.trans Slot.firstTagged_placed.1,
    h2.trans Slot.firstTagged_placed.2⟩, fun hq hr => ?_, fun hq hr hfin => ?_⟩
  · by_cases hq : x.plan.LastAtFirst
    · exact Slot.startedAt_last hk hq _ _ _
    · rw [hstays fun c => hq c.1]
      exact Slot.firstTagged_startedAt hk
  · rw [hstays fun c => nomatch hr.symm.trans c.2]
    exact Slot.firstTagged_idle hq hr
  · rw [h4 (Slot.seenFinish_none fun e he => hfin e (Slot.firstTagged_finishes he))]
    exact Slot.firstTagged_rearmedAt hq hr

/-! ## What the end of the offer leaves of the dependent -/

section
variable {s : State} {st : Stamp} {m : SlotId} {k : Nat}

/-- A dependent that arms at the stamp, where it is not its first tag. -/
theorem State.dependent_arms (hq : s.NoOtherStamp m)
    (hrun : (s.offer st).settle.slot m = ((s.offeredSlot st m).begin st.corrected false s.horizonLocked).judgeRun m
      s.horizonTime s.horizonLocked (k + 1))
    (hnt : (s.offered st).isOf (s.slot m).plan.inputA (s.slot m).plan.senseA = true →
      (s.slot m).plan.kind ≠ .timetag) :
    let y := (s.offer st).conclude.slot m
    (s.slot m).ArmedByStamp y st (st.corrected + s.offset) s.horizonLocked ∧ y.data.startSteps = 0
    ∧ s.GrantOnly m { s.slot m with state := y.state, data := y.data, fresh := y.fresh, finishes := y.finishes } y := by
  have hu : ∀ e ∈ (s.offeredSlot st m).stampsAt s.horizonTime, e ≠ s.offered st →
      ¬(s.offeredSlot st m).plan.Takes e.st := fun e he hne => hq.offered_useless he hne
  have hgrant := State.conclude_slot (s.offer_unit st) (s.offer_rawTime st) m
  obtain ⟨hplan, hstate, hdata⟩ := hgrant.keeps
  obtain ⟨harm, hsteps, hframe⟩ := Slot.judgeRun_armedByStamp (x := s.offeredSlot st m) (n := m)
    (l := s.horizonLocked) k (s.mem_offeredSlot st m) hu hnt
  rw [show (s.offered st).st.corrected = st.corrected from rfl, ← hrun] at harm hsteps hframe
  refine ⟨harm.of_data hplan hstate hdata, ?_, ?_⟩
  · rw [hdata]
    exact hsteps rfl
  · rw [hframe] at hgrant
    obtain ⟨hfresh, hfin⟩ := hgrant.keepsStamps
    rw [hstate, hdata, hfresh, hfin]
    exact hgrant

/-- A dependent that arms at the stamp and takes it as its first tag. -/
theorem State.dependent_tags (hq : s.NoOtherStamp m) (ho : (s.slot m).state ≠ .idle)
    (hrun : (s.offer st).settle.slot m = ((s.offeredSlot st m).begin st.corrected false s.horizonLocked).judgeRun m
      s.horizonTime s.horizonLocked (k + 1))
    (hk : (s.slot m).plan.kind = .timetag)
    (hA : (s.offered st).isOf (s.slot m).plan.inputA (s.slot m).plan.senseA = true) :
    let y := (s.offer st).conclude.slot m
    (s.slot m).ArmedByStamp y st (st.corrected + s.offset) s.horizonLocked ∧ y.data.startSteps = 0
    ∧ s.FirstTagged (s.offer st).conclude m (.stamp st (st.corrected + s.offset))
        ((∀ e ∈ (s.slot m).finishes, e.at' ≠ s.horizonTime) →
          (s.slot m).RearmedAt y s.horizonTime s.horizonLocked) := by
  have hu : ∀ e ∈ (s.offeredSlot st m).stampsAt s.horizonTime, e ≠ s.offered st →
      ¬(s.offeredSlot st m).plan.Takes e.st := fun e he hne => hq.offered_useless he hne
  obtain ⟨h1, h2, h3, h4, h5⟩ := Slot.judgeRun_tags (x := s.offeredSlot st m) (n := m) (l := s.horizonLocked) k hk
    (s.mem_offeredSlot st m) hu hA
  rw [show (s.offered st).st.corrected = st.corrected from rfl, ← hrun] at h1 h2 h3 h4 h5
  have hcongr := Slot.place_congr (x := s.slot m) (y := s.offeredSlot st m)
    ((s.offeredSlot st m).firstTag m s.horizonLocked (s.offered st).endpoint) rfl rfl
  obtain ⟨hplan, hstate, hdata⟩ := (State.conclude_slot (s.offer_unit st) (s.offer_rawTime st) m).keeps
  refine ⟨⟨fun c => ?_, fun _ => h1.of_data hplan hstate hdata⟩, ?_, ?_⟩
  · rcases c with c | c
    · exact absurd ((Offered.isOf_iff _ _ _).1 hA) c
    · exact nomatch hk.symm.trans c
  · rw [hdata]
    exact h2 rfl
  · exact State.firstTagged_of_settled (s.conclude_offer_step st) (s.offer_unit st) (s.offer_rawTime st) ho
      ⟨h3.1.trans hcongr.1, h3.2.trans hcongr.2⟩ h4 fun hl hr hfin => (h5 hl hr hfin).of_data hplan hstate hdata

end

end Sys2Proof.Machine
end

section
/-! PROOFS. The dependents at a stamp that ends the measurement of their arm slot, and at a TOTALIZE gate close (R86, R93). -/

namespace Sys2Proof.Machine

/-- A slot that waits for a finish of slot n, below it, arms at the offered stamp, which ends the measurement of slot n. -/
theorem State.offer_arms_dependent {s : State} {st : Stamp} {n m : SlotId} (hlt : n < m)
    (hothers : ∀ f ∈ (s.slot n).fresh, f.offeredAt = s.horizonTime → ¬(s.slot n).plan.Takes f.st
      ∨ ((s.slot n).plan.kind = .interval ∧ (s.slot n).data.start = some f.endpoint))
    (hends : (s.slot n).EndsAt st (st.corrected + s.offset)) (hwaits : (s.slot m).awaitsArming .slotDone = true)
    (harm : (s.slot m).plan.armSlot = n)
    (hused : ∀ g ∈ (s.slot m).usedUp, g.offeredAt = s.horizonTime → g.st ≠ st) :
    ∃ k, (s.offer st).settle.slot m = ((s.offeredSlot st m).begin st.corrected false s.horizonLocked).judgeRun m
      s.horizonTime s.horizonLocked (k + 1) := by
  have hactive : (s.slot n).state ≠ .idle ∧ (s.slot n).state ≠ .arming := by
    rcases hends.inFlight.1 with e | e | e <;> rw [e] <;> exact ⟨nofun, nofun⟩
  have hun : (s.offer st).slot n = s.offeredSlot st n := s.offer_slot_active st n hactive.1
  have hum : (s.offer st).slot m = s.offeredSlot st m :=
    s.offer_slot_active st m (by rw [((Slot.awaitsArming_iff _ _).1 hwaits).1]; exact nofun)
  obtain ⟨l1, hl1, hnd, hrun⟩ := State.settle_chained (s := s.offer st) (n := m) (by
    rw [hum]
    exact fun _ => lt_of_eq_of_lt harm hlt)
  have hbegin : (State.judgeAll l1 (s.offer st)).slot m =
      (s.offeredSlot st m).begin st.corrected false s.horizonLocked := by
    rw [State.judgeAll_arms (n := n) (t := st.corrected) (c := some st) hnd ((hl1 n).2 hlt)
      (fun h => lt_irrefl m ((hl1 m).1 h)), hum, State.offer_horizonLocked]
    · rw [hun]
      exact Slot.awaitsArming_of_state (x := s.offeredSlot st n) _ hactive.2
    · intro fs
      rw [hun, State.offer_horizonTime, State.offer_horizonLocked]
      refine Slot.judgeInstant_ends (x := { s.offeredSlot st n with finishes := fs }) (f := s.offered st)
        (s.mem_offeredSlot st n) hends fun g hg hne => ?_
      have hg' : g ∈ (s.offeredSlot st n).stampsAt s.horizonTime := hg
      rw [State.offeredSlot_stampsAt, List.mem_append, List.mem_singleton] at hg'
      obtain ⟨h1, h2⟩ := Slot.mem_stampsAt.1 (hg'.resolve_right hne)
      exact hothers g h1 h2
    · rw [hum]; exact hwaits
    · rw [hum]; exact harm
    · rw [hum, State.offer_horizonTime]
      intro g hg hat e
      cases e
      exact hused g hg hat rfl
  rw [hbegin, State.offer_horizonTime, State.offer_horizonLocked] at hrun
  exact ⟨_, hrun⟩

/-! ## The TOTALIZE gate close (R93) -/

/-- A TOTALIZE slot after its gate close. -/
def State.totalizeEnd (s : State) (n : SlotId) : Slot :=
  let x := s.slot n
  let stop := s.boundaryAt x.plan x.data.gateClose
  let y := x.place (x.outcome n s.horizonLocked .valued x.data.marks false x.data.start (some stop) none)
  y.afterFinish x.data.gateClose s.horizonLocked (y.nextGate stop s.horizonLocked)

/-- The state that a TOTALIZE gate close leaves, before the end of the event. -/
def State.totalizeClosed (s : State) (n : SlotId) : State :=
  (s.setSlot n (s.totalizeEnd n)).announce n ⟨some (s.slot n).data.gateClose, (s.slot n).isSingle, none⟩

theorem exec_totalizeGateClose_due {s : State} {n : SlotId} (hs : s.horizonStarted = true)
    (hst : (s.slot n).state = .gating) (hk : (s.slot n).plan.kind = .totalize)
    (ht : (s.horizonTime - (s.slot n).data.gateClose).toNat < 2 ^ 63) :
    exec (.totalizeGateClose n) s = .next (s.totalizeClosed n).conclude :=
  if_pos ((s.due_iff_totalizeGateClose n).2 ⟨hst, hk, hs, ht⟩)

theorem State.totalizeEnd_remembers (s : State) (n : SlotId) : (∀ f ∈ (s.totalizeEnd n).fresh, f ∈ (s.slot n).fresh)
    ∧ ∀ e ∈ (s.totalizeEnd n).finishes, e ∈ (s.slot n).finishes := by
  unfold State.totalizeEnd
  dsimp only
  generalize (s.slot n).outcome n s.horizonLocked .valued _ false _ _ none = o
  have h := Slot.afterFinish_remembers (s.slot n).data.gateClose s.horizonLocked (x := (s.slot n).place o)
    (c := ((s.slot n).place o).nextGate (s.boundaryAt (s.slot n).plan (s.slot n).data.gateClose) s.horizonLocked)
    ⟨rfl, rfl⟩
  rw [Slot.place_fresh, Slot.place_finishes] at h
  exact h

section
variable {s : State} {n m : SlotId}

theorem State.totalizeClosed_engine : EngineFrame (s.setSlot n (s.totalizeEnd n)) (s.totalizeClosed n) :=
  State.announce_engine _ _ _

theorem State.totalizeClosed_horizon : (s.totalizeClosed n).horizonTime = s.horizonTime
    ∧ (s.totalizeClosed n).horizonLocked = s.horizonLocked ∧ (s.totalizeClosed n).rawTime = s.rawTime :=
  ⟨(State.totalizeClosed_engine (s := s) (n := n)).horizonTime, (State.totalizeClosed_engine (s := s) (n := n)).horizonLocked,
    (State.totalizeClosed_engine (s := s) (n := n)).rawTime⟩

theorem State.totalizeClosed_unit : (s.totalizeClosed n).unit = s.unit := (State.announce_unit _ _ _).1

/-- What the gate close makes of the slots, before the end of the event. -/
theorem State.totalizeClosed_slot : (s.totalizeClosed n).slot m =
    let x := if n = m then s.totalizeEnd n else s.slot m
    if x.plan.armSource = .slotDone ∧ x.plan.armSlot = n
    then x.seeFinish ⟨(s.slot n).data.gateClose, none, s.horizonTime⟩ s.horizonLocked else x := by
  dsimp only
  rw [← State.slot_setSlot]
  exact State.announce_slot_eq _ _ _ _ _ _

/-- A slot that waits for a finish of slot n arms at its gate close. -/
theorem State.totalizeClosed_arms (hq : s.NoOtherStamp m) (hnm : n ≠ m) (hw : (s.slot m).awaitsArming .slotDone = true)
    (harm : (s.slot m).plan.armSlot = n) :
    (s.slot m).ArmedAt ((s.totalizeClosed n).conclude.slot m) (s.slot n).data.gateClose false s.horizonLocked := by
  obtain ⟨hht, hlocked, hraw⟩ := State.totalizeClosed_horizon (s := s) (n := n)
  have hslot : (s.totalizeClosed n).slot m = (s.slot m).begin (s.slot n).data.gateClose false s.horizonLocked := by
    rw [State.totalizeClosed_slot, if_neg hnm, if_pos ⟨((Slot.awaitsArming_iff _ _).1 hw).2.1, harm⟩,
      Slot.seeFinish_arms _ hw fun g _ _ => (Option.some_ne_none g.st).symm]
  have hjudge : ((s.totalizeClosed n).slot m).judgeInstant m (s.totalizeClosed n).horizonTime
      (s.totalizeClosed n).horizonLocked = none := by
    rw [hslot, hht, hlocked]
    refine Slot.judgeInstant_begin_none ?_
    by_cases hk : (s.slot m).plan.kind = .totalize
    · exact .inl hk
    · exact .inr fun e he hr => hq.useless he (.of_first hk hr.1)
  obtain ⟨fs, hleft⟩ := State.settle_ignores hjudge (by rw [hslot]; exact Slot.begin_awaitsArming _ _ _ _ _)
  obtain ⟨hplan, hstate, hdata⟩ := (State.conclude_slot State.totalizeClosed_unit hraw m).keeps
  rw [hleft, hslot] at hplan hstate hdata
  exact ((s.slot m).begin_armedAt _ _ _).of_data hplan hstate hdata

/-- In a quiet instant the gate close gives no slot anything to judge. -/
theorem State.totalizeClosed_settle (q : s.Quiet) : (s.totalizeClosed n).settle = s.totalizeClosed n := by
  obtain ⟨hht, hlocked, -⟩ := State.totalizeClosed_horizon (s := s) (n := n)
  refine State.settle_none fun k => ?_
  have hquiet : (∀ f ∈ (if n = k then s.totalizeEnd n else s.slot k).fresh, f.offeredAt ≠ s.horizonTime)
      ∧ ∀ e ∈ (if n = k then s.totalizeEnd n else s.slot k).finishes, e.at' ≠ s.horizonTime := by
    obtain ⟨h1, h2⟩ := s.totalizeEnd_remembers n
    split
    · exact ⟨fun f hf => (q n).1 f (h1 f hf), fun e he => (q n).2 e (h2 e he)⟩
    · exact q k
  rw [hht, State.totalizeClosed_slot]
  dsimp only
  generalize (if n = k then s.totalizeEnd n else s.slot k) = x at hquiet ⊢
  split
  · exact Slot.seeFinish_quiet _ _ _ _ hquiet
  · exact Slot.judgeInstant_quiet _ _ _ hquiet

end

/-- Settles O37: the finish of the arm slot, at its gate close or at the offered stamp, arms the dependent, which then takes
that stamp as its start or its first tag where it is of the first role. -/
theorem slotDoneArmsDependents : Obligations.SlotDoneArmsDependents := by
  refine ⟨fun n m s hq hh hlt => ?_, fun n m i st s hq hdue hlt hothers => ?_⟩
  · dsimp only
    intro hst hk ht hym hsrc hopen
    have hnm : n ≠ m := ne_of_lt hlt
    refine ⟨_, exec_totalizeGateClose_due hh hst hk ht, fun harm => ?_, fun q hne => ?_⟩
    · exact State.totalizeClosed_arms hq hnm ((Slot.awaitsArming_iff _ _).2 ⟨hym, hsrc, hopen⟩) harm
    · have hgrant := State.conclude_slot State.totalizeClosed_unit
        (State.totalizeClosed_horizon (s := s) (n := n)).2.2 m
      rw [State.totalizeClosed_settle q, State.totalizeClosed_slot, if_neg hnm, if_neg fun e => hne e.2] at hgrant
      exact hgrant
  · dsimp only
    intro hends hym hsrc hopen harm hused
    have ho : (s.slot m).state ≠ .idle := by rw [hym]; exact nofun
    obtain ⟨k, hrun⟩ := State.offer_arms_dependent hlt hothers hends
      ((Slot.awaitsArming_iff _ _).2 ⟨hym, hsrc, hopen⟩) harm hused
    have hA : (s.offered st).isOf (s.slot m).plan.inputA (s.slot m).plan.senseA = true
        ↔ st.input = (s.slot m).plan.inputA ∧ st.sense = (s.slot m).plan.senseA := Offered.isOf_iff _ _ _
    refine ⟨_, exec_stampOffer_due hdue, s.conclude_offer_step st, ?_⟩
    by_cases htags : (s.slot m).plan.kind = .timetag ∧ st.input = (s.slot m).plan.inputA
        ∧ st.sense = (s.slot m).plan.senseA
    · obtain ⟨h1, h2, h3⟩ := State.dependent_tags hq ho hrun htags.1 (hA.2 htags.2)
      exact ⟨h1, h2, fun c => absurd htags c, fun _ => h3⟩
    · obtain ⟨h1, h2, h3⟩ := State.dependent_arms hq hrun fun hin hk => htags ⟨hk, hA.1 hin⟩
      exact ⟨h1, h2, fun _ => h3, fun c => absurd c htags⟩

end Sys2Proof.Machine
end

section
/-! PROOFS. What the events and requests of an input channel make of its edges and of the release horizon (R18, R21, R22,
R27, R29): the operations that its commands are made of. -/

namespace Sys2Proof.Machine

/-! ## Times as numbers -/

/-- A coarse count runs behind its raw time by less than a period (R2). -/
theorem coarseOf_toNat (a : Tick) : (coarseOf a).toNat = a.toNat / 256 := by
  unfold coarseOf
  rw [BitVec.extractLsb'_toNat, Nat.shiftRight_eq_div_pow]
  have := a.isLt
  omega

/-- Two raw times close together lie in coarse periods close together. -/
theorem coarseOf_sub_le {a b : Tick} {w : Nat} (h : (a - b).toNat ≤ w * 256) (hw : w ≤ 255) :
    (coarseOf a - coarseOf b).toNat ≤ 256 := by
  rw [BitVec.toNat_sub, coarseOf_toNat, coarseOf_toNat]
  rw [BitVec.toNat_sub] at h
  have := a.isLt
  have := b.isLt
  omega

/-- Of two times within a window shorter than half the range, the one that lies further back is the earlier (R2). -/
theorem window_order {now a b : Tick} (ha : (now - a).toNat < 2 ^ 63) (hb : (now - b).toNat < 2 ^ 63) :
    (b - a).toNat < 2 ^ 63 ↔ (now - b).toNat ≤ (now - a).toNat := by
  simp only [BitVec.toNat_sub] at *
  have := a.isLt
  have := b.isLt
  have := now.isLt
  omega

/-! ## The stamps in flight -/

/-- A stamp that enters the horizon is added to those in flight (R29). -/
theorem insertStamp_perm (st : Stamp) (l : List Stamp) : (insertStamp st l).Perm (st :: l) := by
  induction l with
  | nil => exact .refl _
  | cons x rest ih =>
    unfold insertStamp
    split
    · exact .refl _
    · exact (ih.cons x).trans (.swap st x rest)

/-- Stamps in nondecreasing order of corrected raw time (R29). -/
def InTimeOrder (l : List Stamp) : Prop := l.Pairwise fun a b => (b.corrected - a.corrected).toNat < 2 ^ 63

/-- A stamp that enters the horizon stands in its place by corrected raw time, where all lie in one window (R29). -/
theorem insertStamp_inTimeOrder {now : Tick} {st : Stamp} {l : List Stamp} (ho : InTimeOrder l)
    (hw : ∀ o ∈ st :: l, (now - o.corrected).toNat < 2 ^ 63) : InTimeOrder (insertStamp st l) := by
  induction l with
  | nil => exact List.pairwise_singleton _ _
  | cons x rest ih =>
    obtain ⟨hx, hrest⟩ := List.pairwise_cons.1 ho
    have wst := hw st (by simp)
    have wx := hw x (by simp)
    unfold insertStamp
    split
    · next hb =>
      have hsx := ((before_iff _ _).1 hb).1
      refine List.pairwise_cons.2 ⟨fun o ho' => ?_, ho⟩
      rcases List.mem_cons.1 ho' with rfl | hmem
      · exact hsx
      · have wo := hw o (by simp [hmem])
        have hxo := (window_order wx wo).1 (hx o hmem)
        exact (window_order wst wo).2 (hxo.trans ((window_order wst wx).1 hsx))
    · next hb =>
      have hxst : (st.corrected - x.corrected).toNat < 2 ^ 63 := by
        by_contra hn
        rw [window_order wx wst, not_le] at hn
        refine hb ((before_iff _ _).2 ⟨(window_order wst wx).2 hn.le, fun e => ?_⟩)
        rw [e] at hn
        exact lt_irrefl _ hn
      refine List.pairwise_cons.2 ⟨fun o ho' => ?_, ih hrest fun o ho' => hw o ?_⟩
      · rcases List.mem_cons.1 ((insertStamp_perm st rest).mem_iff.1 ho') with rfl | hmem
        · exact hxst
        · exact hx o hmem
      · rcases List.mem_cons.1 ho' with rfl | hmem
        · exact List.mem_cons_self
        · exact List.mem_cons_of_mem _ (List.mem_cons_of_mem _ hmem)

/-! ## The edges an input keeps -/

/-- What a command may make of the edges an input keeps: new ones at the head, each counted under its sense (R21, R22). -/
def Input.EdgesAdded (x y : Input) : Prop :=
  ∃ new, y.recent = new ++ x.recent
    ∧ y.rising = x.rising + BitVec.ofNat 48 (new.countP fun e => decide (e.sense = .rising))
    ∧ y.falling = x.falling + BitVec.ofNat 48 (new.countP fun e => decide (e.sense = .falling))

theorem Input.EdgesAdded.of_eq {x y : Input} (hk : y.recent = x.recent) (hr : y.rising = x.rising)
    (hf : y.falling = x.falling) : x.EdgesAdded y := ⟨[], hk, by simp [hr], by simp [hf]⟩

theorem Input.EdgesAdded.trans {x y z : Input} (h : x.EdgesAdded y) (k : y.EdgesAdded z) : x.EdgesAdded z := by
  obtain ⟨new, hk, hr, hf⟩ := h
  obtain ⟨newer, kk, kr, kf⟩ := k
  refine ⟨newer ++ new, by rw [kk, hk, List.append_assoc], ?_, ?_⟩
  · rw [kr, hr, List.countP_append, Nat.add_comm, BitVec.ofNat_add, BitVec.add_assoc]
  · rw [kf, hf, List.countP_append, Nat.add_comm, BitVec.ofNat_add, BitVec.add_assoc]

/-- An input after the qualification of a candidate (R18, R21, R22). -/
def Input.qualify (x : Input) (k : Candidate) : Input :=
  { x.countEdge k.sense (coarseOf k.edgeTime) with qualified := k.sense.level, candidate := none }

/-- The fields of an input after a qualification. -/
theorem Input.qualify_eq (x : Input) (k : Candidate) : x.qualify k = { x with
    candidate := none, qualified := k.sense.level, recent := ⟨k.sense, coarseOf k.edgeTime⟩ :: x.recent
    rising := x.rising + (if k.sense = .rising then 1 else 0)
    falling := x.falling + (if k.sense = .falling then 1 else 0) } := by
  unfold Input.qualify Input.countEdge
  cases k.sense <;> simp

theorem Input.qualify_edgesAdded (x : Input) (k : Candidate) : x.EdgesAdded (x.qualify k) := by
  rw [Input.qualify_eq]
  refine ⟨[⟨k.sense, coarseOf k.edgeTime⟩], rfl, ?_, ?_⟩
  · cases k.sense <;> simp
  · cases k.sense <;> simp

/-! ## The laws under a change of one input -/

section
variable {s : State} {i : InputId} {x : Input}

theorem State.EdgesLegal.setInput (h : s.EdgesLegal) (hx : x.EdgesLegal s.rawTime) : (s.setInput i x).EdgesLegal := by
  intro j
  rw [State.input_setInput]
  split
  · exact hx
  · exact h j

/-- Whether the captures of an input's candidate lie near its edge time, as the law of the release horizon says. -/
def Input.CaptureNear (x : Input) : Prop :=
  ∀ k cap, x.candidate = some k → k.capture = some cap → (cap.corrected - k.edgeTime + 1280).toNat ≤ 2560

theorem State.HorizonLegal.setInput (h : s.HorizonLegal) (hx : x.CaptureNear) : (s.setInput i x).HorizonLegal := by
  refine ⟨h.order, h.window, h.early, fun j k cap hk hcap => ?_⟩
  rw [State.input_setInput] at hk
  split at hk
  · exact hx k cap hk hcap
  · exact h.captures j k cap hk hcap

/-- A stamp whose edge is at most a window's length old may enter the horizon (R27, R29). -/
theorem State.HorizonLegal.insertStamp {st : Stamp} (h : s.HorizonLegal)
    (hst : (s.rawTime + 2048 - st.corrected).toNat ≤ 68608) :
    ({ s with stamps := insertStamp st s.stamps } : State).HorizonLegal := by
  have hnew : (s.rawTime + 2048 - st.corrected).toNat ≤
      if s.horizonStarted then 142336 else s.rawTime.toNat + 68608 := by split <;> omega
  have hall : ∀ o ∈ st :: s.stamps, (s.rawTime + 2048 - o.corrected).toNat ≤
      if s.horizonStarted then 142336 else s.rawTime.toNat + 68608 := fun o ho => by
    rcases List.mem_cons.1 ho with rfl | hmem
    · exact hnew
    · exact h.window o hmem
  refine ⟨insertStamp_inTimeOrder h.order fun o ho => (hall o ho).trans_lt ?_,
    fun o ho => hall o ((insertStamp_perm _ _).mem_iff.1 ho), h.early, h.captures⟩
  cases hs : s.horizonStarted
  · have := h.early hs
    simp only [Bool.false_eq_true, if_false]
    omega
  · simp

/-- A qualification of an edge at most a window's length old keeps the edges legal (R18, R22). -/
theorem Input.EdgesLegal.qualify {now : Tick} {k : Candidate} (h : x.EdgesLegal now)
    (hk : (now - k.edgeTime).toNat ≤ 255 * 256) : (x.qualify k).EdgesLegal now := by
  rw [Input.qualify_eq]
  refine ⟨nofun, fun e he => ?_⟩
  rcases List.mem_cons.1 he with rfl | hmem
  · exact (coarseOf_sub_le hk le_rfl).trans (by omega)
  · exact h.recent e hmem

/-- What a candidate pending under the law of R18 says of its edge time. -/
theorem Input.EdgesLegal.edgeTime {now : Tick} {k : Candidate} (h : x.EdgesLegal now) (hk : x.candidate = some k) :
    (now - k.edgeTime).toNat ≤ 255 * 256 := by
  obtain ⟨w, hw, _, hn⟩ := h.candidate k hk
  exact hn.trans (Nat.mul_le_mul_right 256 hw)

/-- How old the edge of a capture near it is (R24, R27). -/
theorem capture_age {now edge corrected : Tick} (he : (now - edge).toNat ≤ 255 * 256)
    (hc : (corrected - edge + 1280).toNat ≤ 2560) : (now + 2048 - corrected).toNat ≤ 68608 := by
  bv_omega

end

/-! ## What a command of one input may change -/

/-- What a part of a command of input i may change: that input, the stamps in flight and attention flags. It adds the edges
it qualifies, an input comes into CALIBRATING only where no slot outside IDLE names it, and the laws of the edges and of the
release horizon are kept. -/
structure State.InputStep (s : State) (i : InputId) (t : State) : Prop where
  rest : t = { s with inputs := t.inputs, stamps := t.stamps, ports := t.ports }
  others : ∀ j, j ≠ i → t.input j = s.input j
  edges : (s.input i).EdgesAdded (t.input i)
  calibrating : (t.input i).state = .calibrating → (s.input i).state = .calibrating ∨ s.usage i = []
  edgesLegal : s.EdgesLegal → t.EdgesLegal
  horizonLegal : s.EdgesLegal → s.HorizonLegal → t.HorizonLegal

section
variable {s t u : State} {i : InputId}

theorem State.InputStep.slots (h : s.InputStep i t) : t.slots = s.slots := by rw [h.rest]

theorem State.InputStep.rawTime (h : s.InputStep i t) : t.rawTime = s.rawTime := by rw [h.rest]; rfl

theorem State.InputStep.refl (s : State) (i : InputId) : s.InputStep i s :=
  ⟨rfl, fun _ _ => rfl, .of_eq rfl rfl rfl, .inl, id, fun _ => id⟩

theorem State.InputStep.trans (h : s.InputStep i t) (k : t.InputStep i u) : s.InputStep i u := by
  refine ⟨?_, fun j hj => (k.others j hj).trans (h.others j hj), h.edges.trans k.edges, fun hc => ?_,
    fun he => k.edgesLegal (h.edgesLegal he), fun he hh => k.horizonLegal (h.edgesLegal he) (h.horizonLegal he hh)⟩
  · have hr := k.rest
    rw [h.rest] at hr
    exact hr
  · rcases k.calibrating hc with hc | hc
    · exact h.calibrating hc
    · right
      rw [h.rest] at hc
      exact hc

/-- What changes ports alone changes nothing of an input. -/
theorem State.InputStep.withPorts (h : s.InputStep i t) (hp : u = { t with ports := u.ports }) : s.InputStep i u := by
  refine h.trans ?_
  rw [hp]
  exact ⟨rfl, fun _ _ => rfl, .of_eq rfl rfl rfl, .inl, id, fun _ hh => ⟨hh.order, hh.window, hh.early, hh.captures⟩⟩

/-- An input written with its edges as they are, and its candidate kept or dropped. -/
theorem State.setInput_inputStep {x : Input} (hk : x.recent = (s.input i).recent) (hr : x.rising = (s.input i).rising)
    (hf : x.falling = (s.input i).falling) (hc : x.candidate = (s.input i).candidate ∨ x.candidate = none)
    (hs : x.state = .calibrating → (s.input i).state = .calibrating ∨ s.usage i = []) : s.InputStep i (s.setInput i x) := by
  have hpending : ∀ k, x.candidate = some k → (s.input i).candidate = some k := fun k e => by
    rcases hc with h | h
    · exact h.symm.trans e
    · rw [h] at e; cases e
  refine ⟨rfl, fun j hj => ?_, ?_, ?_, fun he => he.setInput ?_, fun _ hh => hh.setInput ?_⟩
  · rw [State.input_setInput, if_neg hj.symm]
  · rw [State.input_setInput, if_pos rfl]
    exact .of_eq hk hr hf
  · rw [State.input_setInput, if_pos rfl]
    exact hs
  · exact ⟨fun k e => (he i).candidate k (hpending k e), by rw [hk]; exact (he i).recent⟩
  · exact fun k cap e => hh.captures i k cap (hpending k e)

theorem State.block_inputStep (s : State) (i : InputId) : s.InputStep i (s.block i) :=
  State.setInput_inputStep rfl rfl rfl (.inl rfl) .inl

theorem State.hit_inputStep (s : State) (i : InputId) (c : Code) : s.InputStep i (s.hit i c) := by
  unfold State.hit
  dsimp only
  split
  · refine State.InputStep.withPorts (t := s.setInput i ((s.input i).complete _)) ?_ rfl
    unfold Input.complete
    split <;> exact State.setInput_inputStep rfl rfl rfl (.inl rfl) nofun
  · exact State.setInput_inputStep rfl rfl rfl (.inl rfl) .inl

/-! ## Qualification -/

/-- The state with an edge qualified and its stamp in flight, before its hit. -/
def State.stamped (s : State) (i : InputId) (k : Candidate) (cap : Capture) : State :=
  { s.setInput i ((s.input i).qualify k) with
    stamps := insertStamp (stampOf i k.sense (((s.input i).qualify k).count k.sense) cap) s.stamps }

theorem State.qualify_uncaptured {k : Candidate} (h : k.capture = none) :
    s.qualify i k = s.setInput i ((s.input i).qualify k) := by
  unfold State.qualify
  rw [h]
  rfl

theorem State.qualify_captured {k : Candidate} {cap : Capture} (h : k.capture = some cap) : s.qualify i k =
    if (s.input i).state = .ready ∧ (s.input i).settings.mode = .track then (s.stamped i k cap).hit i cap.code
    else s.stamped i k cap := by
  have hx : ∀ x : Input, x = (s.input i).qualify k → x.state = (s.input i).state ∧ x.settings = (s.input i).settings := by
    rintro x rfl
    rw [Input.qualify_eq]
    exact ⟨rfl, rfl⟩
  obtain ⟨hstate, hsettings⟩ := hx _ rfl
  rw [← hstate, ← hsettings]
  unfold State.qualify
  rw [h]
  rfl

/-- A qualification is a part of a command of its input, where the edge is at most a window's length old and the capture
near it. -/
theorem State.qualify_inputStep {k : Candidate} (he : s.EdgesLegal → (s.rawTime - k.edgeTime).toNat ≤ 255 * 256)
    (hc : s.EdgesLegal → s.HorizonLegal → ∀ cap, k.capture = some cap →
      (cap.corrected - k.edgeTime + 1280).toNat ≤ 2560) : s.InputStep i (s.qualify i k) := by
  have hq : ((s.input i).qualify k).state = (s.input i).state ∧ ((s.input i).qualify k).CaptureNear := by
    rw [Input.qualify_eq]
    exact ⟨rfl, nofun⟩
  have hset : s.InputStep i (s.setInput i ((s.input i).qualify k)) := by
    refine ⟨rfl, fun j hj => ?_, ?_, ?_, fun hl => hl.setInput ((hl i).qualify (he hl)), fun _ hh => hh.setInput hq.2⟩
    · rw [State.input_setInput, if_neg hj.symm]
    · rw [State.input_setInput, if_pos rfl]
      exact Input.qualify_edgesAdded _ _
    · rw [State.input_setInput, if_pos rfl, hq.1]
      exact .inl
  cases hk : k.capture with
  | none =>
    rw [State.qualify_uncaptured hk]
    exact hset
  | some cap =>
    have hstamped : s.InputStep i (s.stamped i k cap) := by
      refine ⟨rfl, hset.others, hset.edges, hset.calibrating, hset.edgesLegal, fun hl hh => ?_⟩
      exact (hset.horizonLegal hl hh).insertStamp (capture_age (he hl) (hc hl hh cap hk))
    rw [State.qualify_captured hk]
    split
    · exact hstamped.trans (State.hit_inputStep _ _ _)
    · exact hstamped

theorem State.settleWindow_inputStep (s : State) (i : InputId) : s.InputStep i (s.settleWindow i) := by
  unfold State.settleWindow
  split
  · exact .refl _ _
  · next k hk =>
    split
    · exact State.qualify_inputStep (fun he => (he i).edgeTime hk) fun _ hh cap => hh.captures i k cap hk
    · exact .refl _ _

/-! ## Level changes -/

/-- A change judged at a raw time of the present coarse period, with a capture near it, is a part of a command of its
input. -/
theorem State.judgeChange_inputStep {level : Level} {t : Tick} {capture : Option Capture}
    (ht : (s.rawTime - t).toNat ≤ 255) (hc : ∀ cap, capture = some cap → (cap.corrected - t + 1280).toNat ≤ 2560) :
    s.InputStep i (s.judgeChange i level t capture) := by
  unfold State.judgeChange
  dsimp only
  split
  · exact State.setInput_inputStep rfl rfl rfl (.inr rfl) .inl
  · next hn =>
    split
    · exact State.qualify_inputStep (fun _ => ht.trans (by omega)) fun _ _ => hc
    · next hw =>
      have hpos : 1 ≤ (s.input i).settings.width.toNat := by
        by_contra h0
        exact hw (BitVec.eq_of_toNat_eq (by simpa using h0))
      refine ⟨rfl, fun j hj => ?_, ?_, ?_, fun hl => hl.setInput ⟨fun k e => ?_, (hl i).recent⟩, fun _ hh =>
        hh.setInput fun k cap e h => ?_⟩
      · rw [State.input_setInput, if_neg hj.symm]
      · rw [State.input_setInput, if_pos rfl]
        exact .of_eq rfl rfl rfl
      · rw [State.input_setInput, if_pos rfl]
        exact .inl
      · cases e
        refine ⟨_, Nat.le_of_lt_succ (s.input i).settings.width.isLt, congrArg (t + ·) (width_ticks _), ?_⟩
        dsimp only
        omega
      · cases e
        exact hc cap h

/-- The capture of a change now lies near its edge time: fine part and skew move it by less than 1,280 ticks (R24, R27). -/
theorem State.captureNow_near (s : State) (i : InputId) (c : Code) :
    ((s.captureNow i c).corrected - s.rawTime + 1280).toNat ≤ 2560 := by
  have hraw : ∀ f : BitVec 8, ((s.coarse ++ f : Tick)).toNat = s.coarse.toNat * 256 + f.toNat := toNat_coarse_append s.coarse
  have hskew : ∀ k : BitVec 11, (k.signExtend 64 : Tick).toNat = k.toNat ∧ k.toNat < 1024
      ∨ (k.signExtend 64 : Tick).toNat = 2 ^ 64 - 2048 + k.toNat ∧ 1024 ≤ k.toNat := fun k => by
    have := k.isLt
    rw [BitVec.toNat_signExtend, BitVec.toNat_setWidth]
    cases hm : k.msb
    · rw [BitVec.msb_eq_decide, decide_eq_false_iff_not] at hm
      simp
      omega
    · rw [BitVec.msb_eq_decide, decide_eq_true_iff] at hm
      simp
      omega
  unfold State.captureNow State.rawTime
  dsimp only
  have h1 := hraw (s.input i).table[c]
  have h2 := hraw s.tick
  have h3 := hskew (s.input i).settings.skew
  have := (s.input i).settings.skew.isLt
  have := s.coarse.isLt
  have := s.tick.isLt
  have := (s.input i).table[c].isLt
  generalize (s.coarse ++ (s.input i).table[c] : Tick) = a at *
  generalize (s.coarse ++ s.tick : Tick) = b at *
  generalize ((s.input i).settings.skew.signExtend 64 : Tick) = k at *
  bv_omega

theorem State.levelChange_inputStep (s : State) (i : InputId) (level : Level) (c : Code) :
    s.InputStep i (s.levelChange i level c) := by
  have hw := s.settleWindow_inputStep i
  unfold State.levelChange
  dsimp only
  split
  · exact hw
  · split
    · refine hw.trans ((State.block_inputStep _ i).trans (State.judgeChange_inputStep ?_ fun cap e => ?_))
      · rw [State.block, State.setInput_rawTime, BitVec.sub_self]
        decide
      · cases e
        exact State.captureNow_near _ i c
    · refine hw.trans (State.judgeChange_inputStep ?_ nofun)
      rw [BitVec.sub_self]
      decide

/-- An arrival lies in the present coarse period (R2). -/
theorem State.arrivalTime_le (s : State) : (s.rawTime - s.arrivalTime).toNat ≤ 255 := by
  unfold State.rawTime State.arrivalTime
  have h1 := toNat_coarse_append s.coarse s.tick
  have h2 := toNat_coarse_append s.coarse 0
  have := s.coarse.isLt
  have := s.tick.isLt
  rw [BitVec.toNat_sub, h1, h2]
  simp
  omega

theorem State.switchLevel_inputStep (s : State) (i : InputId) (level : Level) :
    s.InputStep i (s.switchLevel i level) := by
  have hw := s.settleWindow_inputStep i
  unfold State.switchLevel
  dsimp only
  split
  · exact hw
  · exact hw.trans (State.judgeChange_inputStep (State.arrivalTime_le _) nofun)

end

end Sys2Proof.Machine
end

section
/-! PROOFS. What each command makes of the inputs, the stamps in flight and the usage of the slots: one case split over the
commands, and one over what a step does, for the laws that every step keeps (R18, R22, R29, R32, R55). -/

namespace Sys2Proof.Machine

/-! ## What a command that concerns no input leaves -/

/-- What the laws of the inputs and of the release horizon speak of. -/
structure Front where
  coarse : Coarse
  tick : BitVec 8
  horizonStarted : Bool
  inputs : Vector Input 8
  stamps : List Stamp

/-- The inputs, the stamps in flight and the time they are judged at. -/
def State.front (s : State) : Front := ⟨s.coarse, s.tick, s.horizonStarted, s.inputs, s.stamps⟩

/-- What a command that concerns no input leaves: inputs, stamps in flight and time, every plan, and IDLE. -/
structure State.EngineSide (s t : State) : Prop where
  front : t.front = s.front
  plans : ∀ n, (t.slot n).plan = (s.slot n).plan
  idle : ∀ n, (s.slot n).state = .idle → (t.slot n).state = .idle

section
variable {s t u : State}

theorem State.EngineSide.trans (h : s.EngineSide t) (k : t.EngineSide u) : s.EngineSide u :=
  ⟨k.front.trans h.front, fun n => (k.plans n).trans (h.plans n), fun n hi => k.idle n (h.idle n hi)⟩

/-- What leaves the slots, the inputs and the time alone. -/
theorem State.EngineSide.of_slots (hf : t.front = s.front) (hs : t.slots = s.slots) : s.EngineSide t :=
  ⟨hf, fun n => by rw [State.slot_of_slots hs], fun n hi => by rw [State.slot_of_slots hs]; exact hi⟩

/-- What leaves everything but the ports. -/
theorem State.EngineSide.of_ports (h : t = { s with ports := t.ports }) : s.EngineSide t := by
  rw [h]
  exact .of_slots rfl rfl

/-- The engine's own work, with the stamps in flight as they are. -/
theorem EngineFrame.side (h : EngineFrame s t) (hst : t.stamps = s.stamps) : s.EngineSide t := by
  refine ⟨?_, fun n => (h.plans n).1, h.idle⟩
  unfold State.front
  rw [hst, h.rest]

theorem State.grant_side (s : State) : s.EngineSide s.grant := s.grant_engine.side s.grant_stamps

theorem State.conclude_side (s : State) : s.EngineSide s.conclude := s.conclude_engine.side s.conclude_stamps

theorem State.announce_side (s : State) (n : SlotId) (e : Finish) : s.EngineSide (s.announce n e) :=
  (s.announce_engine n e).side (s.announce_unit n e).2

theorem State.setSlot_side {n : SlotId} {x : Slot} (hp : x.plan = (s.slot n).plan)
    (hi : (s.slot n).state = .idle → x.state = .idle) : s.EngineSide (s.setSlot n x) := by
  refine ⟨rfl, fun m => ?_, fun m => ?_⟩
  · rw [State.slot_setSlot]
    split
    · next e => rw [hp, e]
    · rfl
  · rw [State.slot_setSlot]
    split
    · next e => rw [← e]; exact hi
    · exact id

/-- An event of the engine at one slot outside IDLE. -/
theorem State.eventAt_side {n : SlotId} {x : Slot} (ho : (s.slot n).state ≠ .idle) (hp : x.plan = (s.slot n).plan) :
    s.EngineSide (s.setSlot n x).conclude :=
  (State.setSlot_side hp fun hi => absurd hi ho).trans (State.conclude_side _)

/-- A finish at one slot outside IDLE. -/
theorem State.finishAt_side {n : SlotId} {x : Slot} {e : Finish} (ho : (s.slot n).state ≠ .idle)
    (hp : x.plan = (s.slot n).plan) : s.EngineSide ((s.setSlot n x).announce n e).conclude :=
  ((State.setSlot_side hp fun hi => absurd hi ho).trans (State.announce_side _ _ _)).trans (State.conclude_side _)

theorem State.mapSlots_side {f : SlotId → Slot → Slot} (hp : ∀ n x, (f n x).plan = x.plan)
    (hi : ∀ n x, x.state = .idle → (f n x).state = .idle) : s.EngineSide (s.mapSlots f) := by
  refine ⟨?_, fun n => ?_, fun n => ?_⟩
  · simp [State.front]
  · rw [State.slot_mapSlots]; exact hp _ _
  · rw [State.slot_mapSlots]; exact hi _ _

theorem State.retirementCheck_side (s : State) : s.EngineSide s.retirementCheck := .of_slots rfl s.retirementCheck_slots

theorem State.writeRecord_side (s : State) (r : Record) : s.EngineSide (s.writeRecord r) := by
  let s' : State := { s with log := { s.log with held := s.log.held ++ [⟨s.log.nextSeq, r⟩], nextSeq := s.log.nextSeq + 1 } }
  have h : s.EngineSide s' := .of_slots rfl rfl
  exact (h.trans s'.retirementCheck_side).trans (.of_ports rfl)

theorem State.offerRecord_side (s : State) (r : Record) : s.EngineSide (s.offerRecord r).1 := by
  unfold State.offerRecord
  split
  · exact s.writeRecord_side r
  · split
    · refine State.EngineSide.trans ?_ (State.writeRecord_side _ r)
      unfold State.forceRetire
      split <;> exact .of_slots rfl rfl
    · exact State.setSlot_side rfl id

theorem State.withRight_side {p : PortId} {tag : Byte} {c : Command} {act : State → State} (h : s.EngineSide (act s)) :
    s.EngineSide (s.withRight p tag c act) :=
  State.withRight_cases (P := s.EngineSide) h (.of_ports rfl)

end

/-! ## The answers of commands -/

/-- Whether the next state that a command answers, if it answers one, is as P says. -/
def Answers (P : State → Prop) (o : Host.Outcome State Fault Refusal) : Prop := ∀ t, o = .next t → P t

theorem Answers.next {P : State → Prop} {t : State} (h : P t) : Answers P (.next t) := by
  intro u e; cases e; exact h

theorem Answers.ite {P : State → Prop} {s t : State} {c : Prop} [Decidable c] (h : c → P t) (k : P s) :
    Answers P (if c then .next t else .next s) := by
  split
  · next hc => exact .next (h hc)
  · exact .next k

/-- The commands that concern inputs, stamps in flight, the start of horizon time or the usage of inputs. -/
def concernsInputs : Instr → Bool
  | .deviceReset .. | .horizonStart | .setInput .. | .calibrate .. | .writePlan .. | .arm .. | .inputLevelChange ..
  | .windowEndQualification .. | .deadTimeEnd .. | .calibrationHit .. | .stampOffer .. => true
  | _ => false

theorem State.applyOffset_side (s : State) (p : PortId) (tag : Byte) (c : Command) (o : Tick) (f : Bool) :
    s.EngineSide (s.applyOffset p tag c o f) := by
  let s' : State := State.raiseOthers .change p { s with offset := o, timeGen := s.timeGen + 1 }
  have h1 : s.EngineSide s' := .of_slots rfl rfl
  have h2 : s'.EngineSide (s'.notifyStep s.offset f) := by
    refine (State.notifyStep_engine _ _ _).side ?_
    unfold State.notifyStep
    split
    · rfl
    · exact State.mapSlots_stamps _ _
  exact (h1.trans h2).trans (.of_ports rfl)

/-- A command that concerns no input leaves inputs, stamps in flight, time, plans and IDLE as they are. -/
theorem exec_engineSide (c : Instr) (s : State) (h : concernsInputs c = false) : Answers s.EngineSide (exec c s) := by
  have hrefl : s.EngineSide s := .of_slots rfl rfl
  cases c with
  | deviceReset | horizonStart | setInput | calibrate | writePlan | arm | inputLevelChange | windowEndQualification
  | deadTimeEnd | calibrationHit | stampOffer => cases h
  | referenceEdge => exact .next (.of_slots rfl rfl)
  | referenceAbsent =>
    show Answers _ (execReferenceAbsent s)
    unfold execReferenceAbsent
    split
    · dsimp only
      split <;> exact .next (.of_slots rfl rfl)
    · exact .next hrefl
  | referenceLock => exact .ite (fun _ => .of_slots rfl rfl) hrefl
  | horizonRefChange =>
    show Answers _ (execHorizonRefChange s)
    unfold execHorizonRefChange
    split
    · exact .next hrefl
    · next c rest _ =>
      have hs : s.EngineSide { s with horizonRef := c.state, refChanges := rest } := .of_slots rfl rfl
      split
      · dsimp only
        split
        · exact .next hs
        · exact .next (hs.trans (State.mapSlots_side (fun _ x => x.markRefFault_samePlan.1) fun _ x e => by
            rw [x.markRefFault_state]; exact e))
      · exact .next hrefl
  | selectionStart p =>
    show Answers _ (execSelectionStart p s)
    unfold execSelectionStart
    dsimp only
    split
    · exact .next hrefl
    · split <;> exact .next (.of_ports rfl)
  | selectionEnd p bits =>
    show Answers _ (execSelectionEnd p bits s)
    unfold execSelectionEnd
    dsimp only
    split
    · exact .next (.of_ports rfl)
    · split <;> exact .next (.of_ports rfl)
  | preparationEnd p => exact .ite (fun _ => .of_ports rfl) hrefl
  | null p tag => exact .next (.of_ports rfl)
  | portReset p tag => exact .next ((State.EngineSide.of_ports rfl).trans (State.retirementCheck_side _))
  | readAttention p tag => exact .next (.of_ports rfl)
  | setAttention p tag operation flags =>
    show Answers _ (execSetAttention p tag operation flags s)
    unfold execSetAttention
    dsimp only
    split <;> exact .next (.of_ports rfl)
  | readTime p tag => exact .next (.of_ports rfl)
  | setTime p tag g v =>
    refine .next (State.withRight_side ?_)
    split
    · exact State.applyOffset_side _ _ _ _ _ _
    · exact .of_ports rfl
  | stepTime p tag g v =>
    refine .next (State.withRight_side ?_)
    split
    · exact State.applyOffset_side _ _ _ _ _ _
    · exact .of_ports rfl
  | readInput p tag input =>
    show Answers _ (execReadInput p tag input s)
    unfold execReadInput
    split <;> exact .next (.of_ports rfl)
  | readPlan p tag slot =>
    show Answers _ (execReadPlan p tag slot s)
    unfold execReadPlan
    split <;> exact .next (.of_ports rfl)
  | stop p tag slot =>
    refine .next (State.withRight_side ?_)
    split
    · exact .of_ports rfl
    · next n _ =>
      have hset : s.EngineSide (s.setSlot n (if (s.slot n).state = .idle then s.slot n
          else ((s.slot n).abort n s.horizonTime s.horizonLocked).toIdle)) := by
        refine State.setSlot_side ?_ fun hi => ?_
        · split
          · rfl
          · exact (Slot.abort_samePlan _ _ _ _).1
        · rw [if_pos hi]; exact hi
      dsimp only
      refine State.EngineSide.trans ?_ (.of_ports rfl)
      refine State.EngineSide.trans ?_ (State.grant_side _)
      split
      · exact hset.trans (.of_ports rfl)
      · exact hset
  | subscribe p tag slots operation start threshold =>
    show Answers _ (execSubscribe p tag slots operation start threshold s)
    unfold execSubscribe
    split
    · next sub st _ _ =>
      have hset : s.EngineSide (s.setPort p ((s.port p).subscribe s.log sub st threshold)) := .of_ports rfl
      exact .next ((hset.trans (State.retirementCheck_side _)).trans (.of_ports rfl))
    · exact .next (.of_ports rfl)
  | readResults p tag count =>
    have hset : s.EngineSide (s.setPort p { s.port p with
        cursor := ((s.port p).walk s.log (clampCount count)).2.getD s.log.nextSeq, skipped := 0 }) := .of_ports rfl
    exact .next ((hset.trans (State.retirementCheck_side _)).trans (.of_ports rfl))
  | latest p tag slot =>
    show Answers _ (execLatest p tag slot s)
    unfold execLatest
    split
    · exact .next (.of_ports rfl)
    · split <;> exact .next (.of_ports rfl)
  | logStatus p tag => exact .next (.of_ports rfl)
  | setLog p tag g policy =>
    refine .next (State.withRight_side ?_)
    split
    · exact .of_ports rfl
    · split <;> exact .of_slots rfl rfl
  | resetMeasurement p tag =>
    refine .next (State.withRight_side ?_)
    have h1 : s.EngineSide (s.mapSlots fun _ x => x.resetMeasurement) :=
      State.mapSlots_side (fun _ _ => rfl) fun _ _ _ => rfl
    have h2 : ∀ (u : State) (log : Log) (latest : Vector (Option LatestEntry) 16) (unit : ArithUnit),
        u.EngineSide { u with unit := unit, latest := latest, log := log } := fun _ _ _ _ => .of_slots rfl rfl
    have h3 : ∀ (u : State) (f : Port → Port) (bs : List Byte), u.EngineSide
        (((u.mapPorts f).raiseOthers .change p).respond p tag .resetMeasurement .ok bs) := fun _ _ _ => .of_ports rfl
    exact (h1.trans (h2 _ _ _ _)).trans (h3 _ _ _)
  | immediateArmInstant n =>
    show Answers _ (execImmediateArmInstant n s)
    unfold execImmediateArmInstant
    split
    · exact .next hrefl
    · next a ha =>
      obtain ⟨hs, _⟩ := (s.due_iff_immediate n).1 (by rw [ha]; rfl)
      exact .next (State.eventAt_side (by rw [hs]; nofun) (Slot.begin_plan _ _ _ _))
  | atTimeArming n =>
    refine .ite (fun hdue => ?_) hrefl
    obtain ⟨hs, _⟩ := (s.due_iff_atTime n).1 hdue
    exact State.eventAt_side (by rw [hs]; nofun) (Slot.begin_plan _ _ _ _)
  | gateClose n =>
    refine .ite (fun hdue => ?_) hrefl
    obtain ⟨hs, _⟩ := (s.due_iff_gateClose n).1 hdue
    exact State.eventAt_side (by rw [hs]; nofun) (Slot.closeGate_samePlan _).1
  | deadlineExpiry n =>
    refine .ite (fun hdue => ?_) hrefl
    obtain ⟨hs, _⟩ := (s.due_iff_deadline n).1 hdue
    exact State.finishAt_side (by rcases hs with hs | hs <;> rw [hs] <;> nofun) (Slot.timeOut_samePlan _ _ _).1
  | totalizeGateOpen n =>
    show Answers _ (execTotalizeGateOpen n s)
    unfold execTotalizeGateOpen
    split
    · exact .next hrefl
    · next g hg =>
      obtain ⟨hs, _⟩ := (s.due_iff_totalizeGateOpen n).1 (by rw [hg]; rfl)
      refine .next (State.eventAt_side (by rw [hs]; nofun) ?_)
      rfl
  | totalizeGateClose n =>
    refine .ite (fun hdue => ?_) hrefl
    obtain ⟨hs, _⟩ := (s.due_iff_totalizeGateClose n).1 hdue
    refine State.finishAt_side (by rw [hs]; nofun) ?_
    have hnext : ∀ (x : Slot) (e : Endpoint) (h : Tick) (l : Bool), (x.afterFinish h l (x.nextGate e l)).plan = x.plan :=
      fun x e h l => (Slot.afterFinish_samePlan x h l (x.nextGate e l) ⟨rfl, rfl⟩).1
    exact (hnext _ _ _ _).trans (Slot.place_samePlan _ _).1
  | serviceCompletion =>
    show Answers _ (execServiceCompletion s)
    unfold execServiceCompletion
    split
    · exact .next hrefl
    · next v _ =>
      have hdone : ∀ (u : State) (l : Vector (Option LatestEntry) 16) (a : ArithUnit),
          u.EngineSide (State.grant { u with latest := l, unit := a }) := fun u l a =>
        State.EngineSide.trans (t := { u with latest := l, unit := a }) (.of_slots rfl rfl) (State.grant_side _)
      exact .next ((s.offerRecord_side v.outcome.record).trans (hdone _ _ _))

/-! ## The commands of an input -/

theorem State.applySettings_inputStep (s : State) (p : PortId) (i : InputId) (new : Settings) :
    s.InputStep i (s.applySettings p i new) := by
  have hstored : s.InputStep i (s.setInput i ((s.input i).stored new)) :=
    State.setInput_inputStep rfl rfl rfl (.inl rfl) .inl
  have hswitch : s.InputStep i (if new.source = (s.input i).settings.source then s.setInput i ((s.input i).stored new)
      else (s.setInput i ((s.input i).stored new)).switchLevel i
        ((s.setInput i ((s.input i).stored new)).selectedLevel new.source i)) := by
    split
    · exact hstored
    · exact hstored.trans (State.switchLevel_inputStep _ _ _)
  exact hswitch.withPorts rfl

theorem execSetInput_inputStep (p : PortId) (tag input : Byte) (g : Option Gen) (src : Byte) (w k : BitVec 16) (m : Byte)
    (s : State) : Answers (fun t => ∃ i, s.InputStep i t) (execSetInput p tag input g src w k m s) := by
  have hrefused : ∀ t : State, t = { s with ports := t.ports } → ∃ i, s.InputStep i t :=
    fun t h => ⟨0, (State.InputStep.refl s 0).withPorts h⟩
  refine .next (State.withRight_cases (P := fun t => ∃ i, s.InputStep i t) ?_ (hrefused _ rfl))
  split
  · exact hrefused _ rfl
  · next i _ =>
    dsimp only
    split
    · exact hrefused _ rfl
    · split
      · exact hrefused _ rfl
      · split
        · exact ⟨i, (s.applySettings_inputStep p i _).withPorts rfl⟩
        · exact hrefused _ rfl

/-- CALIBRATE puts an input into CALIBRATING only where no slot outside IDLE names it (R32, R48). -/
theorem execCalibrate_inputStep (p : PortId) (tag input : Byte) (s : State) :
    Answers (fun t => ∃ i, s.InputStep i t) (execCalibrate p tag input s) := by
  have hrefused : ∀ t : State, t = { s with ports := t.ports } → ∃ i, s.InputStep i t :=
    fun t h => ⟨0, (State.InputStep.refl s 0).withPorts h⟩
  refine .next (State.withRight_cases (P := fun t => ∃ i, s.InputStep i t) ?_ (hrefused _ rfl))
  split
  · exact hrefused _ rfl
  · next i _ =>
    dsimp only
    split
    · exact hrefused _ rfl
    · next hb =>
      have hset : s.InputStep i (s.setInput i { s.input i with state := .calibrating, histogram := emptyHistogram }) := by
        refine State.setInput_inputStep rfl rfl rfl (.inl rfl) fun _ => .inr ?_
        rw [State.inputBusy, Bool.not_eq_true, Bool.or_eq_false_iff, Bool.not_eq_false', List.isEmpty_iff] at hb
        exact hb.1
      exact ⟨i, hset.withPorts rfl⟩

theorem execInputLevelChange_inputStep (i : InputId) (src : Source) (level : Level) (f : WithinTick) (s : State) :
    Answers (s.InputStep i) (execInputLevelChange i src level f s) := by
  unfold execInputLevelChange
  split
  · have hpin : s.InputStep i (s.setInput i { s.input i with pinLevel := level }) :=
      State.setInput_inputStep rfl rfl rfl (.inl rfl) .inl
    exact .ite (fun _ => hpin.trans (State.levelChange_inputStep _ _ _ _)) hpin
  · exact .ite (fun _ => (s.settleWindow_inputStep i).trans (State.levelChange_inputStep _ _ _ _)) (.refl _ _)

/-! ## What every command may do -/

/-- What an applied ARM or WRITE_PLAN does: it writes one slot, which leaves IDLE only where its plan names no input in
CALIBRATING, with a legal plan where the slot had one, and the arbiter grants (R32, R59, R63, R79). -/
def State.SlotRequested (s t : State) : Prop :=
  ∃ n y, t.front = s.front ∧ t.slots = (s.setSlot n y).grant.slots
    ∧ (y.state ≠ .idle → s.namesCalibrating y.plan = false)
    ∧ ((s.slot n).plan.InRange ∧ (s.slot n).plan.ChainsUpward n → y.plan.InRange ∧ y.plan.ChainsUpward n)

theorem execArm_requested (p : PortId) (tag slot : Byte) (s : State) :
    Answers (fun t => s.EngineSide t ∨ s.SlotRequested t) (execArm p tag slot s) := by
  refine .next (State.withRight_cases (P := fun t => s.EngineSide t ∨ s.SlotRequested t) ?_ (.inl (.of_ports rfl)))
  split
  · exact .inl (.of_ports rfl)
  · next n _ =>
    dsimp only
    split
    · exact .inl (.of_ports rfl)
    · next hc =>
      split
      · exact .inl (.of_ports rfl)
      · have hp : (((s.slot n).abort n s.horizonTime s.horizonLocked).armByRequest s.arrivalHorizon s.arrivalTime).plan =
            (s.slot n).plan := (Slot.abort_samePlan _ _ _ _).1
        refine .inr ⟨n, _, (State.grant_side _).front, rfl, fun _ => ?_, fun hl => ?_⟩
        · rw [hp]; exact Bool.not_eq_true _ ▸ hc
        · rw [hp]; exact hl

/-! ## Plans stay legal (R55, R59, R61, R62) -/

theorem clampPeriods_inRange (v : BitVec 64) : 1 ≤ (clampPeriods v).toNat ∧ (clampPeriods v).toNat ≤ 2 ^ 32 := by
  unfold clampPeriods
  split
  · decide
  · split
    · decide
    · omega

theorem clampPrescale_inRange (v : BitVec 32) : 1 ≤ (clampPrescale v).toNat ∧ (clampPrescale v).toNat ≤ 65536 := by
  unfold clampPrescale
  split
  · decide
  · split
    · decide
    · omega

/-- Applying an item keeps a plan in its ranges: numbers are stored as clamped, and a quota of 0 is UNLIMITED (R58, R62). -/
theorem Plan.InRange.applyItem {p : Plan} (h : p.InRange) (item : PlanItem) : (applyItem p item).InRange := by
  cases item with
  | gate v => exact ⟨clampPeriods_inRange v, h.waitLimit, h.prescale, h.quota⟩
  | waitLimit v => exact ⟨h.gate, clampPeriods_inRange v, h.prescale, h.quota⟩
  | prescale v => exact ⟨h.gate, h.waitLimit, clampPrescale_inRange v, h.quota⟩
  | quota v =>
    refine ⟨h.gate, h.waitLimit, h.prescale, ?_⟩
    show (if v = 0 then none else some v) ≠ some 0
    split
    · nofun
    · next hv => exact fun e => hv (Option.some.inj e)
  | _ => exact ⟨h.gate, h.waitLimit, h.prescale, h.quota⟩

theorem Plan.InRange.resultingPlan {p : Plan} (h : p.InRange) (items : List PlanItem) : (resultingPlan p items).InRange := by
  unfold Sys2Proof.Machine.resultingPlan
  induction items generalizing p with
  | nil => exact h
  | cons item rest ih => exact ih (h.applyItem item)

/-- What a WRITE_PLAN that passes its checks says of its resulting plan (R32, R59, R61). -/
theorem State.writePlanCheck_none {s : State} {n : SlotId} {g : Option Gen} {items : List PlanItem}
    (h : s.writePlanCheck n g items = none) : (resultingPlan (s.slot n).plan items).ChainsUpward n
    ∧ ((s.slot n).state ≠ .idle → s.namesCalibrating (resultingPlan (s.slot n).plan items) = false) := by
  unfold State.writePlanCheck at h
  dsimp only at h
  rw [ite_eq_iff] at h
  obtain ⟨_, h⟩ | ⟨_, h⟩ := h
  · cases h
  rw [ite_eq_iff] at h
  obtain ⟨_, h⟩ | ⟨_, h⟩ := h
  · cases h
  rw [ite_eq_iff] at h
  obtain ⟨_, h⟩ | ⟨_, h⟩ := h
  · cases h
  rw [ite_eq_iff] at h
  obtain ⟨_, h⟩ | ⟨htriggered, h⟩ := h
  · cases h
  rw [ite_eq_iff] at h
  obtain ⟨_, h⟩ | ⟨hchain, h⟩ := h
  · cases h
  rw [ite_eq_iff] at h
  obtain ⟨_, h⟩ | ⟨hbusy, _⟩ := h
  · cases h
  refine ⟨⟨htriggered, fun hd => ?_⟩, fun ha => ?_⟩
  · by_contra hlt
    exact hchain (by rw [chainRefused, hd]; simpa using not_lt.1 hlt)
  · rw [← Bool.not_eq_true]
    exact fun hc => hbusy ⟨ha, hc⟩

theorem execWritePlan_requested (p : PortId) (tag slot : Byte) (g : Option Gen) (items : List PlanItem) (s : State) :
    Answers (fun t => s.EngineSide t ∨ s.SlotRequested t) (execWritePlan p tag slot g items s) := by
  refine .next (State.withRight_cases (P := fun t => s.EngineSide t ∨ s.SlotRequested t) ?_ (.inl (.of_ports rfl)))
  split
  · exact .inl (.of_ports rfl)
  · next n _ =>
    split
    · exact .inl (.of_ports rfl)
    · next hcheck =>
      obtain ⟨hchains, hfree⟩ := State.writePlanCheck_none hcheck
      have hy : ∀ y, y = (s.slot n).rewrite n s.horizonTime s.horizonLocked s.arrivalHorizon s.arrivalTime
          (resultingPlan (s.slot n).plan items) → y.plan = resultingPlan (s.slot n).plan items
            ∧ (y.state ≠ .idle → (s.slot n).state ≠ .idle) := by
        rintro y rfl
        unfold Slot.rewrite
        split
        · exact ⟨rfl, id⟩
        · next hi => exact ⟨rfl, fun _ => hi⟩
      obtain ⟨hplan, hstate⟩ := hy _ rfl
      refine .inr ⟨n, _, (State.grant_side _).front, rfl, fun ha => ?_, fun hl => ?_⟩
      · rw [hplan]; exact hfree (hstate ha)
      · rw [hplan]; exact ⟨hl.1.resultingPlan items, hchains⟩

/-- What a command makes of the inputs, the stamps in flight and the slots' usage: nothing; or it is a part of a command of
one input; an applied ARM or WRITE_PLAN; the start of horizon time; an offer; or device reset. -/
theorem exec_cases {c : Instr} {s t : State} (h : exec c s = .next t) :
    s.EngineSide t ∨ (∃ i, s.InputStep i t) ∨ s.SlotRequested t
    ∨ (s.Due .horizonStart ∧ t = { s with horizonStarted := true })
    ∨ (∃ st ∈ s.stamps, t = (s.offer st).conclude)
    ∨ ∃ a b l, c = .deviceReset a b l := by
  have hrefl : s.EngineSide s := .of_slots rfl rfl
  cases hc : concernsInputs c
  · exact .inl (exec_engineSide c s hc t h)
  · cases c with
    | deviceReset a b l => exact .inr (.inr (.inr (.inr (.inr ⟨a, b, l, rfl⟩))))
    | horizonStart =>
      change execHorizonStart s = .next t at h
      unfold execHorizonStart at h
      split at h
      · next hd =>
        cases h
        exact .inr (.inr (.inr (.inl ⟨s.due_iff_horizonStart.1 hd, rfl⟩)))
      · cases h; exact .inl hrefl
    | setInput p tag input g src w k m => exact .inr (.inl (execSetInput_inputStep p tag input g src w k m s t h))
    | calibrate p tag input => exact .inr (.inl (execCalibrate_inputStep p tag input s t h))
    | writePlan p tag slot g items =>
      exact (execWritePlan_requested p tag slot g items s t h).imp_right fun k => .inr (.inl k)
    | arm p tag slot => exact (execArm_requested p tag slot s t h).imp_right fun k => .inr (.inl k)
    | inputLevelChange i src level f => exact .inr (.inl ⟨i, execInputLevelChange_inputStep i src level f s t h⟩)
    | windowEndQualification i =>
      cases h
      exact .inr (.inl ⟨i, s.settleWindow_inputStep i⟩)
    | deadTimeEnd i =>
      refine .inr (.inl ⟨i, ?_⟩)
      change execDeadTimeEnd i s = .next t at h
      unfold execDeadTimeEnd at h
      split at h
      · cases h; exact .refl _ _
      · cases h; exact State.setInput_inputStep rfl rfl rfl (.inl rfl) .inl
    | calibrationHit i f =>
      refine .inr (.inl ⟨i, ?_⟩)
      change execCalibrationHit i f s = .next t at h
      unfold execCalibrationHit at h
      split at h
      · cases h; exact (s.block_inputStep i).trans (State.hit_inputStep _ _ _)
      · cases h; exact .refl _ _
    | stampOffer i =>
      change execStampOffer i s = .next t at h
      unfold execStampOffer at h
      split at h
      · cases h; exact .inl hrefl
      · next st hst =>
        exact .inr (.inr (.inr (.inr (.inl ⟨st, (State.dueStamp_spec hst).1, (Host.Outcome.next.inj h).symm⟩))))
    | _ => cases hc

/-! ## What every step does -/

/-- A law that the queue and the ports have no part in, and that every command and every tick keeps, is kept by every
step. -/
theorem step_keeps {P : State → Prop} (hqueue : ∀ (s : State) (rest : List Instr), P s → P { s with pending := rest })
    (hport : ∀ (s : State) (p : PortId) (q : Port), P s → P (s.setPort p q))
    (hexec : ∀ (c : Instr) (s t : State), P s → exec c s = .next t → P t)
    (htick : ∀ s : State, P s → s.dueEvent = none → P s.advance) :
    ∀ s t : State, P s → step s = .next t → P t := by
  intro s t hs h
  cases hp : s.pending with
  | cons c rest =>
    unfold step at h
    rw [hp] at h
    exact hexec c _ t (hqueue s rest hs) h
  | nil =>
    cases he : s.dueEvent with
    | some c =>
      rw [step_dueEvent hp he] at h
      exact hexec c s t hs h
    | none =>
      cases ha : s.dueArrival with
      | some r =>
        obtain ⟨c, u⟩ := r
        rw [step_dueArrival hp he ha] at h
        refine hexec c u t ?_ h
        unfold State.dueArrival at ha
        split at ha
        · cases ha
        · obtain ⟨a, _, e⟩ := Option.map_eq_some_iff.1 ha
          cases e
          exact hport _ _ _ hs
      | none =>
        rw [step_tick hp he ha] at h
        cases h
        exact htick s hs he

end Sys2Proof.Machine
end

section
/-! PROOFS. Every step keeps the laws of an input's edges and of the release horizon (R18, R22, R27, R29), and the usage guard
and the plans' ranges (R23, R32, R55, R56, R59, R61). -/

namespace Sys2Proof.Machine

/-! ## The laws at the release of device reset -/

section
variable (a b : BitVec 4) (pins : BitVec 8)

theorem State.atRelease_input (i : InputId) :
    (State.atRelease a b pins).input i = Input.atRelease (levelOfPin (pins.getLsbD i)) := by
  simp [State.input, State.atRelease]

theorem State.atRelease_slot (n : SlotId) : (State.atRelease a b pins).slot n = Slot.atRelease := by
  simp [State.slot, State.atRelease]

theorem State.atRelease_edgesLegal : (State.atRelease a b pins).EdgesLegal := by
  intro i
  rw [State.atRelease_input]
  exact ⟨nofun, nofun⟩

theorem State.atRelease_horizonLegal : (State.atRelease a b pins).HorizonLegal := by
  refine ⟨.nil, nofun, fun _ => ?_, fun i k cap hk => ?_⟩
  · have hraw : (State.atRelease a b pins).rawTime = 0 := by
      show ((0 : Coarse) ++ (0 : BitVec 8) : Tick) = 0
      decide
    rw [hraw]
    decide
  · rw [State.atRelease_input] at hk
    cases hk

theorem State.atRelease_usageGuard : (State.atRelease a b pins).UsageGuard := by
  intro n i ha
  rw [State.atRelease_slot] at ha
  exact absurd rfl ha

theorem State.atRelease_plansLegal : (State.atRelease a b pins).PlansLegal := by
  intro n
  rw [State.atRelease_slot]
  exact ⟨⟨by decide, by decide, by decide, nofun⟩, nofun, nofun⟩

end

/-! ## The laws where the inputs and the time stand -/

section
variable {s t : State}

theorem State.input_of_front (h : t.front = s.front) (i : InputId) : t.input i = s.input i := by
  have hi : t.inputs = s.inputs := congrArg Front.inputs h
  rw [State.input_eq, State.input_eq, hi]

theorem State.rawTime_of_front (h : t.front = s.front) : t.rawTime = s.rawTime := by
  have hc : t.coarse = s.coarse := congrArg Front.coarse h
  have ht : t.tick = s.tick := congrArg Front.tick h
  rw [State.rawTime, State.rawTime, hc, ht]

theorem State.EdgesLegal.of_front (h : s.EdgesLegal) (hf : t.front = s.front) : t.EdgesLegal := by
  intro i
  rw [State.input_of_front hf, State.rawTime_of_front hf]
  exact h i

theorem State.HorizonLegal.of_front (h : s.HorizonLegal) (hf : t.front = s.front) : t.HorizonLegal := by
  have hstamps : t.stamps = s.stamps := congrArg Front.stamps hf
  have hstarted : t.horizonStarted = s.horizonStarted := congrArg Front.horizonStarted hf
  refine ⟨?_, ?_, ?_, fun i => ?_⟩
  · rw [hstamps]; exact h.order
  · rw [hstamps, hstarted, State.rawTime_of_front hf]; exact h.window
  · rw [hstarted, State.rawTime_of_front hf]; exact h.early
  · rw [State.input_of_front hf]; exact h.captures i

/-- An offer takes a stamp out of the horizon, and leaves inputs and time. -/
theorem State.offer_front (s : State) (st : Stamp) :
    (s.offer st).conclude.front = { s.front with stamps := s.stamps.erase st } := by
  have h := (s.offer_engine st).rest
  rw [(State.conclude_side _).front, State.front, s.offer_stamps st, h]
  rfl

theorem State.HorizonLegal.erase (h : s.HorizonLegal) (st : Stamp) :
    ({ s with stamps := s.stamps.erase st } : State).HorizonLegal :=
  ⟨h.order.sublist List.erase_sublist, fun o ho => h.window o (List.mem_of_mem_erase ho), h.early, h.captures⟩

/-- Horizon time starts at the raw time that lies a horizon's length after the release (R6). -/
theorem State.HorizonLegal.start (h : s.HorizonLegal) (hd : s.Due .horizonStart) :
    ({ s with horizonStarted := true } : State).HorizonLegal := by
  refine ⟨h.order, fun st hst => (h.window st hst).trans ?_, nofun, h.captures⟩
  rw [hd.1, if_neg (by decide), if_pos rfl]
  have := h.early hd.1
  omega

/-! ## The laws under a tick -/

theorem State.advance_input (s : State) (i : InputId) : (s.advance.input i).candidate = (s.input i).candidate
    ∧ (s.advance.input i).state = (s.input i).state := by
  unfold State.advance
  split
  · simp [State.input, Input.forgetPassed]
  · exact ⟨rfl, rfl⟩

theorem State.advance_rest (s : State) : s.advance.stamps = s.stamps ∧ s.advance.horizonStarted = s.horizonStarted
    ∧ s.advance.slots = s.slots := by
  unfold State.advance
  split <;> exact ⟨rfl, rfl, rfl⟩

/-- After a tick, no edge kept lies further back than the release horizon: the tick that ends a coarse period lets go of those
that it passes (R22). -/
theorem State.advance_recent {i : InputId} (h : ∀ e ∈ (s.input i).recent, (s.coarse - e.period).toNat ≤ 288) :
    ∀ e ∈ (s.advance.input i).recent, (s.advance.coarse - e.period).toNat ≤ 288 := by
  unfold State.advance
  split
  · intro e he
    simp only [State.input, Input.forgetPassed, Fin.getElem_fin, Vector.getElem_ofFn, List.mem_filter] at he
    exact of_decide_eq_true he.2
  · exact h

theorem State.EdgesLegal.advance (h : s.EdgesLegal) (hd : s.dueEvent = none) : s.advance.EdgesLegal := by
  have hcoarse : ∀ u : State, u.rawTime.extractLsb' 8 56 = u.coarse := fun u => coarseOf_append u.coarse u.tick
  refine fun i => ⟨fun k hk => ?_, ?_⟩
  · rw [(s.advance_input i).1] at hk
    obtain ⟨w, hw, hend, hnow⟩ := (h i).candidate k hk
    have hopen : ¬(s.rawTime - k.windowEnd).toNat < 2 ^ 63 := fun hr =>
      State.dueEvent_none hd (.windowEndQualification i) ⟨k, hk, hr⟩
    refine ⟨w, hw, hend, ?_⟩
    rw [s.advance_rawTime]
    rw [hend] at hopen
    generalize s.rawTime = now at *
    generalize k.edgeTime = edge at *
    have hw64 : (BitVec.ofNat 64 (w * 256)).toNat = w * 256 := by
      rw [BitVec.toNat_ofNat]; omega
    generalize BitVec.ofNat 64 (w * 256) = span at *
    bv_omega
  · rw [hcoarse]
    refine State.advance_recent fun e he => ?_
    rw [← hcoarse s]
    exact (h i).recent e he

/-- Where the stamps in flight stand in order, the first of them is due for its offer once horizon time has reached it. -/
theorem State.dueStamp_head {st : Stamp} {rest : List Stamp} (hs : s.stamps = st :: rest) (ho : InTimeOrder s.stamps)
    (hr : s.reached st.corrected = true) : s.dueStamp st.input = some st := by
  have hall : s.stamps.all (fun o => atOrBefore st.corrected o.corrected) = true := by
    rw [hs] at ho ⊢
    rw [List.all_eq_true]
    intro o hmem
    rw [atOrBefore_iff]
    rcases List.mem_cons.1 hmem with rfl | hmem
    · rw [BitVec.sub_self]; decide
    · exact (List.pairwise_cons.1 ho).1 o hmem
  have hfind : s.stamps.find? (fun o => decide (o.input = st.input)) = some st := by
    rw [hs]
    exact List.find?_cons_of_pos (decide_eq_true rfl)
  unfold State.dueStamp
  rw [hfind]
  dsimp only
  rw [hr, hall]
  rfl

/-- Where no event is due, no stamp in flight lies as far back as one that horizon time reached a tick ago (R29). -/
theorem State.HorizonLegal.window_open (h : s.HorizonLegal) (hd : s.dueEvent = none) (hstarted : s.horizonStarted = true)
    {st : Stamp} (hst : st ∈ s.stamps) : (s.rawTime + 2048 - st.corrected).toNat ≤ 142335 := by
  have hw : ∀ o ∈ s.stamps, (s.rawTime + 2048 - o.corrected).toNat ≤ 142336 := fun o ho => by
    have := h.window o ho
    rw [hstarted] at this
    exact this
  cases hs : s.stamps with
  | nil => rw [hs] at hst; cases hst
  | cons o rest =>
    have ho : o ∈ s.stamps := by rw [hs]; exact List.mem_cons_self
    have hnot : ¬s.Reached o.corrected := fun hr => State.dueEvent_none hd (.stampOffer o.input)
      ⟨o, State.dueStamp_head hs h.order ((s.reached_iff_Reached _).2 hr)⟩
    have hlate : (s.rawTime + 2048 - o.corrected).toNat ≤ 142335 := by
      have hbound := hw o ho
      have hreach : ¬(s.horizonTime - o.corrected).toNat < 2 ^ 63 := fun e => hnot ⟨hstarted, e⟩
      unfold State.horizonTime Config.horizonDelay at hreach
      generalize s.rawTime = now at *
      generalize o.corrected = c at *
      bv_omega
    have hle : (st.corrected - o.corrected).toNat < 2 ^ 63 := by
      have hord := h.order
      rw [hs] at hst hord
      rcases List.mem_cons.1 hst with rfl | hmem
      · rw [BitVec.sub_self]; decide
      · exact (List.pairwise_cons.1 hord).1 st hmem
    exact ((window_order ((hw o ho).trans_lt (by decide)) ((hw st hst).trans_lt (by decide))).1 hle).trans hlate

theorem State.HorizonLegal.advance (h : s.HorizonLegal) (hd : s.dueEvent = none) : s.advance.HorizonLegal := by
  obtain ⟨hstamps, hstarted, _⟩ := s.advance_rest
  have hearly : s.horizonStarted = false → (s.rawTime + 1).toNat = s.rawTime.toNat + 1 ∧ s.rawTime.toNat < 73728 := fun e => by
    have hnot : ¬73728 ≤ s.rawTime.toNat := fun hle => State.dueEvent_none hd .horizonStart ⟨e, hle⟩
    rw [BitVec.toNat_add]
    simp
    omega
  refine ⟨hstamps ▸ h.order, fun st hst => ?_, fun hn => ?_, fun i => ?_⟩
  · rw [hstamps] at hst
    have hwindow := h.window st hst
    rw [hstarted, s.advance_rawTime]
    cases e : s.horizonStarted
    · obtain ⟨hnext, hlt⟩ := hearly e
      rw [e] at hwindow
      simp only [Bool.false_eq_true, if_false] at hwindow ⊢
      rw [hnext]
      generalize s.rawTime = now at *
      bv_omega
    · have hopen := h.window_open hd e hst
      rw [if_pos rfl]
      generalize s.rawTime = now at *
      bv_omega
  · rw [hstarted] at hn
    obtain ⟨hnext, hlt⟩ := hearly hn
    rw [s.advance_rawTime, hnext]
    omega
  · rw [(s.advance_input i).1]
    exact h.captures i

end

/-! ## The laws under every command -/

section
variable {c : Instr} {s t : State}

theorem exec_keeps_edgesLegal (hs : s.EdgesLegal) (h : exec c s = .next t) : t.EdgesLegal := by
  rcases exec_cases h with e | ⟨i, e⟩ | ⟨n, y, e, _⟩ | ⟨_, rfl⟩ | ⟨st, _, ht⟩ | ⟨a, b, l, rfl⟩
  · exact hs.of_front e.front
  · exact e.edgesLegal hs
  · exact hs.of_front e
  · exact hs
  · rw [ht]
    exact State.EdgesLegal.of_front (s := { s with stamps := s.stamps.erase st }) hs (s.offer_front st)
  · cases h
    exact State.atRelease_edgesLegal a b l.pins

theorem exec_keeps_horizonLegal (hs : s.EdgesLegal) (hh : s.HorizonLegal) (h : exec c s = .next t) : t.HorizonLegal := by
  rcases exec_cases h with e | ⟨i, e⟩ | ⟨n, y, e, _⟩ | ⟨hd, rfl⟩ | ⟨st, _, ht⟩ | ⟨a, b, l, rfl⟩
  · exact hh.of_front e.front
  · exact e.horizonLegal hs hh
  · exact hh.of_front e
  · exact hh.start hd
  · rw [ht]
    exact (hh.erase st).of_front (s.offer_front st)
  · cases h
    have hr := State.atRelease_horizonLegal a b l.pins
    exact ⟨hr.order, hr.window, hr.early, hr.captures⟩

/-- A command other than device reset adds to the edges kept exactly those that it qualifies (R21, R22). -/
theorem exec_edgesAdded (h : exec c s = .next t) (hreset : ∀ a b l, c ≠ .deviceReset a b l) (i : InputId) :
    (s.input i).EdgesAdded (t.input i) := by
  have hsame : t.input i = s.input i → (s.input i).EdgesAdded (t.input i) := fun e => e ▸ .of_eq rfl rfl rfl
  rcases exec_cases h with e | ⟨j, e⟩ | ⟨n, y, e, _⟩ | ⟨_, rfl⟩ | ⟨st, _, ht⟩ | ⟨a, b, l, rfl⟩
  · exact hsame (State.input_of_front e.front i)
  · by_cases hij : i = j
    · subst hij
      exact e.edges
    · exact hsame (e.others i hij)
  · exact hsame (State.input_of_front e i)
  · exact hsame rfl
  · rw [ht] at hsame ⊢
    exact hsame (State.input_of_front (s := { s with stamps := s.stamps.erase st }) (s.offer_front st) i)
  · exact absurd rfl (hreset a b l)

end

/-- Settles O56: each law is kept by every command, and by a tick where no event is due. -/
theorem stepKeepsEdgesLegal : Obligations.StepKeepsEdgesLegal := by
  refine ⟨step_keeps (fun _ _ => id) (fun _ _ _ => id) (fun c s t => exec_keeps_edgesLegal) fun s => State.EdgesLegal.advance,
    fun c s t i h hreset => exec_edgesAdded h hreset i, fun s t he hh h => ?_⟩
  have hlaws := step_keeps (P := fun s => s.EdgesLegal ∧ s.HorizonLegal)
    (fun s rest ⟨he, hh⟩ => ⟨he, hh.order, hh.window, hh.early, hh.captures⟩)
    (fun s p q ⟨he, hh⟩ => ⟨he, hh.order, hh.window, hh.early, hh.captures⟩)
    (fun c s t ⟨he, hh⟩ h => ⟨exec_keeps_edgesLegal he h, exec_keeps_horizonLegal he hh h⟩)
    (fun s ⟨he, hh⟩ hd => ⟨he.advance hd, hh.advance hd⟩)
  exact (hlaws s t ⟨he, hh⟩ h).2

/-! ## The usage guard and the plans -/

section
variable {c : Instr} {s t : State}

/-- The guard stands where no slot leaves IDLE, plans stay, and no input comes into CALIBRATING (R32). -/
theorem State.UsageGuard.of_active (h : s.UsageGuard) (hp : ∀ n, (t.slot n).plan = (s.slot n).plan)
    (hi : ∀ n, (s.slot n).state = .idle → (t.slot n).state = .idle)
    (hc : ∀ i, (t.input i).state = .calibrating → (s.input i).state = .calibrating) : t.UsageGuard := by
  intro n i ha hn hcal
  rw [hp n] at hn
  exact h n i (fun e => ha (hi n e)) hn (hc i hcal)

theorem State.EngineSide.usageGuard (h : s.EngineSide t) (hs : s.UsageGuard) : t.UsageGuard :=
  hs.of_active h.plans h.idle fun i e => by rwa [State.input_of_front h.front] at e

/-- A command of one input keeps the guard: an input comes into CALIBRATING only where no slot outside IDLE names it. -/
theorem State.InputStep.usageGuard {i : InputId} (h : s.InputStep i t) (hs : s.UsageGuard) : t.UsageGuard := by
  intro n j ha hn hcal
  rw [State.slot_of_slots h.slots] at ha hn
  by_cases hj : j = i
  · subst hj
    rcases h.calibrating hcal with hcal | hfree
    · exact hs n j ha hn hcal
    · rcases (s.usage_eq_nil j).1 hfree n with hidle | hnames
      · exact ha hidle
      · rw [hn] at hnames; cases hnames
  · rw [h.others j hj] at hcal
    exact hs n j ha hn hcal

/-- A slot written with a plan that names no input in CALIBRATING keeps the guard. -/
theorem State.UsageGuard.setSlot (hs : s.UsageGuard) {n : SlotId} {x : Slot}
    (hx : x.state ≠ .idle → s.namesCalibrating x.plan = false) : (s.setSlot n x).UsageGuard := by
  intro m i ha hn hcal
  rw [State.slot_setSlot] at ha hn
  split at ha
  · next e =>
    rw [if_pos e] at hn
    have hfree := hx ha
    rw [(s.namesCalibrating_iff _).2 ⟨i, hn, hcal⟩] at hfree
    cases hfree
  · next e =>
    rw [if_neg e] at hn
    exact hs m i ha hn hcal

/-- The grant after a slot is written leaves every plan, and IDLE, as written. -/
theorem State.SlotRequested.written (h : s.SlotRequested t) : ∃ n y, (s.setSlot n y).EngineSide t
    ∧ (y.state ≠ .idle → s.namesCalibrating y.plan = false)
    ∧ ((s.slot n).plan.InRange ∧ (s.slot n).plan.ChainsUpward n → y.plan.InRange ∧ y.plan.ChainsUpward n) := by
  obtain ⟨n, y, hfront, hslots, hfree, hlegal⟩ := h
  have hgrant := (s.setSlot n y).grant_side
  refine ⟨n, y, ⟨hfront, fun m => ?_, fun m hi => ?_⟩, hfree, hlegal⟩
  · rw [State.slot_of_slots hslots]; exact hgrant.plans m
  · rw [State.slot_of_slots hslots]; exact hgrant.idle m hi

theorem exec_keeps_usageGuard (hs : s.UsageGuard) (h : exec c s = .next t) : t.UsageGuard := by
  rcases exec_cases h with e | ⟨i, e⟩ | e | ⟨_, rfl⟩ | ⟨st, _, ht⟩ | ⟨a, b, l, rfl⟩
  · exact e.usageGuard hs
  · exact e.usageGuard hs
  · obtain ⟨n, y, hside, hfree, _⟩ := e.written
    exact hside.usageGuard (hs.setSlot hfree)
  · exact hs
  · rw [ht]
    have hengine := (s.conclude_offer_step st).toEngineFrame
    refine hs.of_active (fun n => (hengine.plans n).1) hengine.idle fun i => ?_
    rw [State.input_of_front (s := { s with stamps := s.stamps.erase st }) (s.offer_front st) i]
    exact id
  · cases h
    exact State.atRelease_usageGuard a b l.pins

theorem exec_keeps_plansLegal (hs : s.PlansLegal) (h : exec c s = .next t) : t.PlansLegal := by
  rcases exec_cases h with e | ⟨i, e⟩ | e | ⟨_, rfl⟩ | ⟨st, _, ht⟩ | ⟨a, b, l, rfl⟩
  · intro n
    rw [e.plans n]
    exact hs n
  · intro n
    rw [State.slot_of_slots e.slots]
    exact hs n
  · obtain ⟨n, y, hside, _, hlegal⟩ := e.written
    intro m
    rw [hside.plans m, State.slot_setSlot]
    split
    · next e => subst e; exact hlegal (hs n)
    · exact hs m
  · exact hs
  · intro n
    rw [ht, ((s.conclude_offer_step st).plans n).1]
    exact hs n
  · cases h
    exact State.atRelease_plansLegal a b l.pins

end

/-! ## Roles (R23, R56) -/

theorem Plan.mem_roles (p : Plan) (i : InputId) (d : Option Sense) : (i, d) ∈ p.roles ↔
    (i = p.inputA ∧ d = if p.kind = .totalize then none else some p.senseA)
    ∨ (p.kind = .interval ∧ i = p.inputB ∧ d = some p.senseB)
    ∨ (p.armSource = .inputEdge ∧ i = p.armInput ∧ d = some p.armSense) := by
  unfold Plan.roles
  rw [List.mem_cons, List.mem_append, Prod.mk.injEq]
  refine or_congr Iff.rfl (or_congr ?_ ?_)
  · by_cases hk : p.kind = .interval
    · simp [hk]
    · simp [hk]
  · by_cases hk : p.armSource = .inputEdge
    · simp [hk]
    · simp [hk]

theorem Plan.names_iff (p : Plan) (i : InputId) : p.names i = true ↔ ∃ d, (i, d) ∈ p.roles := by
  unfold Plan.names
  rw [List.any_eq_true]
  constructor
  · rintro ⟨⟨j, d⟩, hmem, he⟩
    cases of_decide_eq_true he
    exact ⟨d, hmem⟩
  · rintro ⟨d, hmem⟩
    exact ⟨(i, d), hmem, decide_eq_true rfl⟩

theorem Plan.demands_iff (p : Plan) (i : InputId) (e : Sense) : p.demands i e = true ↔ (i, some e) ∈ p.roles := by
  unfold Plan.demands
  rw [List.any_eq_true]
  constructor
  · rintro ⟨r, hmem, he⟩
    rw [← of_decide_eq_true he]
    exact hmem
  · exact fun hmem => ⟨_, hmem, decide_eq_true rfl⟩

theorem Plan.demands_by_role (p : Plan) (i : InputId) (e : Sense) : p.demands i e = true ↔
    (p.kind ≠ .totalize ∧ p.inputA = i ∧ p.senseA = e) ∨ (p.kind = .interval ∧ p.inputB = i ∧ p.senseB = e)
    ∨ (p.armSource = .inputEdge ∧ p.armInput = i ∧ p.armSense = e) := by
  rw [p.demands_iff, p.mem_roles]
  refine or_congr ?_ (or_congr ?_ ?_)
  · by_cases hk : p.kind = .totalize
    · simp [hk]
    · simp [hk, eq_comm]
  · simp [eq_comm]
  · simp [eq_comm]

/-- Settles O54: every command keeps the guard and the plans, a tick touches neither, and the roles are as tabulated. -/
theorem stepKeepsGuardAndPlans : Obligations.StepKeepsGuardAndPlans := by
  refine ⟨step_keeps (fun _ _ => id) (fun _ _ _ => id) (fun c s t => exec_keeps_usageGuard) fun s hs _ => ?_,
    step_keeps (fun _ _ => id) (fun _ _ _ => id) (fun c s t => exec_keeps_plansLegal) fun s hs _ n => ?_,
    fun p i => ?_, fun s i e => ?_⟩
  · obtain ⟨_, _, hslots⟩ := s.advance_rest
    refine hs.of_active (fun n => by rw [State.slot_of_slots hslots]) (fun n => ?_) fun i => ?_
    · rw [State.slot_of_slots hslots]; exact id
    · rw [(s.advance_input i).2]; exact id
  · rw [State.slot_of_slots s.advance_rest.2.2]
    exact hs n
  · rw [p.names_iff]
    simp only [p.mem_roles, exists_or, exists_and_left, exists_eq, and_true]
  · unfold State.demanded
    rw [List.any_eq_true]
    simp only [Bool.and_eq_true, decide_eq_true_eq, Plan.demands_by_role, allSlots, List.mem_finRange, true_and]

end Sys2Proof.Machine
end

section
/-! PROOFS. SET_INPUT that keeps the source, level changes, window ends and dead times (R16 to R19, R21, R22, R24 to R28, R35
to R37, R42, R45, R46, R51 to R53). -/

namespace Sys2Proof.Machine

/-! ## Hits (R42, R45, R46) -/

/-- A hit adds one to the hit total. -/
theorem hitTotal_addToHistogram (h : Vector Nat 160) (c : Code) : hitTotal (addToHistogram h c) = hitTotal h + 1 := by
  have hlen : c.val < h.toList.length := by simp
  have hget : h.toList[c.val] = h[c] := by simp
  have hold := List.sum_set h.toList c.val h.toList[c.val]
  have hnew := List.sum_set h.toList c.val (h[c] + 1)
  rw [List.set_getElem_self, if_pos hlen, hget] at hold
  rw [if_pos hlen] at hnew
  unfold hitTotal addToHistogram
  rw [Vector.toList_set, hnew, hold]
  omega

/-- The test of a candidate table, code by code (R44). -/
theorem candidatePasses_iff (h : Vector Nat 160) : candidatePasses h = true ↔
    (∀ d : Code, h[d] ≤ 1024) ∧ 64 ≤ h.toList.countP fun n => decide (0 < n) := by
  have hall : (h.toList.all fun n => decide (n ≤ Config.singleCodeLimit)) = true ↔ ∀ d : Code, h[d] ≤ 1024 := by
    rw [List.all_eq_true]
    constructor
    · intro k d
      have hd := k h[d] (by simp)
      exact of_decide_eq_true hd
    · intro k n hn
      obtain ⟨j, hj, rfl⟩ := List.getElem_of_mem hn
      have hj' : j < 160 := by simpa using hj
      exact decide_eq_true (by simpa [Config.singleCodeLimit] using k ⟨j, hj'⟩)
  unfold candidatePasses
  rw [Bool.and_eq_true, hall, decide_eq_true_iff]
  rfl

/-- An input after a hit: the hit that completes the histogram completes the calibration (R42, R45, R46). -/
def Input.hit (x : Input) (c : Code) : Input :=
  if Config.histogramFull ≤ hitTotal (addToHistogram x.histogram c) then x.complete (addToHistogram x.histogram c)
  else { x with histogram := addToHistogram x.histogram c }

theorem State.hit_eq (s : State) (i : InputId) (c : Code) : s.hit i c =
    if Config.histogramFull ≤ hitTotal (addToHistogram (s.input i).histogram c)
    then (s.setInput i ((s.input i).hit c)).raiseAll .cal else s.setInput i ((s.input i).hit c) := by
  unfold State.hit Input.hit
  dsimp only
  split
  · rfl
  · rfl

theorem State.hit_input (s : State) (i : InputId) (c : Code) : (s.hit i c).input i = (s.input i).hit c := by
  rw [State.hit_eq]
  split
  · exact (State.input_setInput _ _ _ _).trans (if_pos rfl)
  · exact (State.input_setInput _ _ _ _).trans (if_pos rfl)

/-- What a hit leaves of its input. -/
theorem Input.hit_rest (x : Input) (c : Code) :
    (x.hit c).settings = x.settings ∧ (x.hit c).candidate = x.candidate := by
  unfold Input.hit Input.complete
  split
  · split <;> exact ⟨rfl, rfl⟩
  · exact ⟨rfl, rfl⟩

theorem State.hit_counted {s u : State} (i : InputId) (c : Code) (hu : u.ports = s.ports) :
    HitCounted s (u.hit i c) i (u.input i) c := by
  have hsum := hitTotal_addToHistogram (u.input i).histogram c
  unfold HitCounted
  dsimp only
  rw [State.hit_input, State.hit_eq]
  unfold Input.hit
  change _ ∧ (65535 ≤ _ → _ ∧ (_ → _ = { u.input i with
    histogram := emptyHistogram, state := .ready, lastOutcome := .passed, calGen := (u.input i).calGen + 1
    table := buildTable (addToHistogram (u.input i).histogram c) }) ∧ _)
  rw [show (u.input i).histogram.set c ((u.input i).histogram[c] + 1) = addToHistogram (u.input i).histogram c from rfl,
    ← candidatePasses_iff]
  refine ⟨fun hlt => ?_, fun hle => ?_⟩
  · have hnot : ¬Config.histogramFull ≤ hitTotal (addToHistogram (u.input i).histogram c) := by
      unfold Config.histogramFull; omega
    rw [if_neg hnot, if_neg hnot]
    exact ⟨rfl, hu⟩
  · have hfull : Config.histogramFull ≤ hitTotal (addToHistogram (u.input i).histogram c) := by
      unfold Config.histogramFull; omega
    rw [if_pos hfull, if_pos hfull]
    refine ⟨fun p => ?_, fun hpass => ?_, fun hfail => ?_⟩
    · rw [State.raiseAll, State.port_raise, if_pos rfl, State.port_setInput, State.port_eq, State.port_eq, hu]
      rfl
    · unfold Input.complete
      rw [if_pos hpass]
    · unfold Input.complete
      rw [if_neg hfail]

/-! ## Qualification (R18, R21, R26, R27, R51) -/

/-- What a qualification makes of its input, of the stamps in flight and of the ports. -/
theorem State.qualify_spec (s : State) (i : InputId) (k : Candidate) :
    (k.capture = none → (s.qualify i k).stamps = s.stamps ∧ (s.qualify i k).ports = s.ports
      ∧ (s.qualify i k).input i = (s.input i).qualify k)
    ∧ ∀ cap, k.capture = some cap →
      (s.qualify i k).stamps.Perm
        (⟨i, k.sense, ((s.input i).qualify k).count k.sense, cap.rawTime, cap.corrected, cap.calGen⟩ :: s.stamps)
      ∧ ((s.input i).state = .ready ∧ (s.input i).settings.mode = .track →
          HitCounted s (s.qualify i k) i ((s.input i).qualify k) cap.code)
      ∧ (¬((s.input i).state = .ready ∧ (s.input i).settings.mode = .track) →
          (s.qualify i k).ports = s.ports ∧ (s.qualify i k).input i = (s.input i).qualify k) := by
  have hset : (s.setInput i ((s.input i).qualify k)).input i = (s.input i).qualify k := by
    rw [State.input_setInput, if_pos rfl]
  refine ⟨fun hk => ?_, fun cap hk => ?_⟩
  · rw [State.qualify_uncaptured hk]
    exact ⟨rfl, rfl, hset⟩
  · have hstamps : (s.stamped i k cap).stamps.Perm
        (⟨i, k.sense, ((s.input i).qualify k).count k.sense, cap.rawTime, cap.corrected, cap.calGen⟩ :: s.stamps) :=
      insertStamp_perm _ _
    have hinput : (s.stamped i k cap).input i = (s.input i).qualify k := hset
    rw [State.qualify_captured hk]
    by_cases ht : (s.input i).state = .ready ∧ (s.input i).settings.mode = .track
    · rw [if_pos ht]
      refine ⟨?_, fun _ => ?_, fun hn => absurd ht hn⟩
      · rw [State.hit_eq]
        split <;> exact hstamps
      · rw [← hinput]
        exact State.hit_counted (s := s) i cap.code rfl
    · rw [if_neg ht]
      exact ⟨hstamps, fun hy => absurd hy ht, fun _ => ⟨rfl, hinput⟩⟩

/-! ## Level changes (R18, R19, R24, R25) -/

/-- Whether the interpolator captures a change of an input that stands as x (R24). -/
def State.captures (s : State) (i : InputId) (level : Level) (x : Input) : Prop :=
  s.demanded i (senseTo level) = true ∧ x.state = .ready ∧ s.inDeadTime i = false

/-- What the interpolator holds of a change captured now at an input that stands as x (R24, R27, R28). -/
def State.seen (s : State) (x : Input) (c : Code) : Capture :=
  ⟨c, s.coarse, s.coarse ++ x.table[c], (s.coarse ++ x.table[c]) - x.settings.skew.signExtend 64, x.calGen⟩

/-- A level change away from the level watched, with no window end reached, is captured or not and then judged. -/
theorem State.levelChange_eq {s : State} {i : InputId} {x : Input} {level : Level} (c : Code)
    (hx : x.blockedUntil = (s.input i).blockedUntil)
    (hopen : ∀ k, x.candidate = some k → ¬(s.rawTime - k.windowEnd).toNat < 2 ^ 63) (hl : level ≠ x.watched) :
    (s.captures i level x → (s.setInput i x).levelChange i level c =
      (s.setInput i { x with blockedUntil := some (s.coarse + 3) }).judgeChange i level s.rawTime (some (s.seen x c)))
    ∧ (¬s.captures i level x → (s.setInput i x).levelChange i level c =
      (s.setInput i x).judgeChange i level s.rawTime none) := by
  have hin : (s.setInput i x).input i = x := by rw [State.input_setInput, if_pos rfl]
  have hsettle : (s.setInput i x).settleWindow i = s.setInput i x := State.settleWindow_open (by rw [hin]; exact hopen)
  have hdead : (s.setInput i x).inDeadTime i = s.inDeadTime i := by
    unfold State.inDeadTime
    rw [hin, hx, State.setInput_coarse]
  have hcaptured : ((s.setInput i x).demanded i (senseTo level) && (s.setInput i x).interpolatorFree i) = true
      ↔ s.captures i level x := by
    unfold State.interpolatorFree State.captures
    rw [hin, hdead, Bool.and_eq_true, Bool.and_eq_true, Bool.not_eq_true', decide_eq_true_iff]
    exact and_congr_right fun _ => and_comm
  have hblock : (s.setInput i x).block i = s.setInput i { x with blockedUntil := some (s.coarse + 3) } := by
    unfold State.block
    rw [hin, State.setInput_setInput]
    rfl
  have hseen : (s.setInput i x).captureNow i c = s.seen x c := by
    unfold State.captureNow
    rw [hin]
    rfl
  unfold State.levelChange
  dsimp only
  rw [hsettle, hin, if_neg hl, hblock, hseen]
  exact ⟨fun h => if_pos (hcaptured.2 h), fun h => if_neg (mt hcaptured.1 h)⟩

/-- What the filter makes of a change at a raw time to an input that stands as x, with a candidate pending or a width above
0 (R18, R19). -/
theorem State.judgeChange_kept {s : State} {i : InputId} {x : Input} (level : Level) (capture : Option Capture) :
    (x.candidate.isSome = true → (s.setInput i x).judgeChange i level s.rawTime capture =
      s.setInput i { x with candidate := none, rejects := x.rejects + 1 })
    ∧ (x.candidate = none → x.settings.width ≠ 0 → (s.setInput i x).judgeChange i level s.rawTime capture =
      s.setInput i { x with candidate := some ⟨senseTo level, s.rawTime,
        s.rawTime + BitVec.ofNat 64 (x.settings.width.toNat * 256), capture⟩ })
    ∧ (x.candidate = none → x.settings.width = 0 → (s.setInput i x).judgeChange i level s.rawTime capture =
      (s.setInput i x).qualify i ⟨senseTo level, s.rawTime,
        s.rawTime + BitVec.ofNat 64 (x.settings.width.toNat * 256), capture⟩) := by
  unfold State.judgeChange
  dsimp only
  rw [State.input_setInput, if_pos rfl, ← width_ticks]
  refine ⟨fun hk => ?_, fun hk hw => ?_, fun hk hw => ?_⟩
  · obtain ⟨k, e⟩ := Option.isSome_iff_exists.1 hk
    rw [e]
    exact State.setInput_setInput _ _ _ _
  · rw [hk]
    dsimp only
    rw [if_neg hw, State.setInput_setInput]
  · rw [hk]
    dsimp only
    rw [if_pos hw]

/-- An edge that qualifies at once takes its input to the new level (R18, R21). -/
theorem Input.qualify_at_once {x : Input} {s : State} {level : Level} {w : Tick} {capture : Option Capture}
    (hk : x.candidate = none) : x.qualify ⟨senseTo level, s.rawTime, w, capture⟩ = { x with
      qualified := level, recent := ⟨senseTo level, s.coarse⟩ :: x.recent
      rising := x.rising + (if level = .high then 1 else 0)
      falling := x.falling + (if level = .low then 1 else 0) } := by
  rw [Input.qualify_eq, State.rawTime, coarseOf_append]
  cases level <;> simp [senseTo, Sense.level, hk]

/-- What a change that qualifies at once makes of an input that stands as x, of the stamps in flight and of the ports
(R18, R21, R27, R51). -/
theorem State.judgeChange_at_once {s : State} {i : InputId} {x : Input} {level : Level} {capture : Option Capture}
    (hk : x.candidate = none) (hw : x.settings.width = 0) :
    let t := (s.setInput i x).judgeChange i level s.rawTime capture
    let y : Input := { x with
      qualified := level, recent := ⟨senseTo level, s.coarse⟩ :: x.recent
      rising := x.rising + (if level = .high then 1 else 0)
      falling := x.falling + (if level = .low then 1 else 0) }
    (capture = none → t.stamps = s.stamps ∧ t.ports = s.ports ∧ t.input i = y)
    ∧ ∀ cap, capture = some cap →
      t.stamps.Perm (⟨i, senseTo level, y.count (senseTo level), cap.rawTime, cap.corrected, cap.calGen⟩ :: s.stamps)
      ∧ (x.state = .ready ∧ x.settings.mode = .track → HitCounted s t i y cap.code)
      ∧ (¬(x.state = .ready ∧ x.settings.mode = .track) → t.ports = s.ports ∧ t.input i = y) := by
  have hspec := (s.setInput i x).qualify_spec i ⟨senseTo level, s.rawTime,
    s.rawTime + BitVec.ofNat 64 (x.settings.width.toNat * 256), capture⟩
  rw [← (State.judgeChange_kept level capture).2.2 hk hw, State.input_setInput, if_pos rfl,
    Input.qualify_at_once hk] at hspec
  exact hspec

/-- A level change away from the level watched, with no window end reached, is judged as the spec says. -/
theorem State.levelChange_judged {s : State} {i : InputId} {x : Input} {level : Level} (c : Code)
    (hx : x.blockedUntil = (s.input i).blockedUntil)
    (hopen : ∀ k, x.candidate = some k → ¬(s.rawTime - k.windowEnd).toNat < 2 ^ 63) (hl : level ≠ x.watched) :
    EdgeJudged s ((s.setInput i x).levelChange i level c) i level x c := by
  obtain ⟨hcaptured, hmissed⟩ := State.levelChange_eq c hx hopen hl
  have hin : ∀ y, (s.setInput i y).input i = y := fun y => by rw [State.input_setInput, if_pos rfl]
  by_cases hc : s.captures i level x
  · rw [hcaptured hc]
    obtain ⟨hreverts, hforms, _⟩ := State.judgeChange_kept (s := s) (i := i)
      (x := { x with blockedUntil := some (s.coarse + 3) }) level (some (s.seen x c))
    have hc' : s.demanded i (senseTo level) = true ∧ x.state = .ready ∧ s.inDeadTime i = false := hc
    unfold EdgeJudged
    dsimp only
    rw [if_pos hc', if_pos hc']
    refine ⟨fun hk => ?_, fun hk hw => ?_, fun hk hw => ⟨fun hn => absurd hc hn, fun _ => ?_⟩⟩
    · rw [hreverts hk]
      exact ⟨rfl, rfl, hin _⟩
    · rw [hforms hk hw]
      exact ⟨rfl, rfl, hin _⟩
    · obtain ⟨hstamps, htrack, hfixed⟩ := (State.judgeChange_at_once (s := s) (i := i) (level := level)
        (x := { x with blockedUntil := some (s.coarse + 3) }) hk hw).2 (s.seen x c) rfl
      refine ⟨hstamps, fun hm => hfixed fun h => ?_, fun hm => htrack ⟨hc.2.1, hm⟩⟩
      have := hm.symm.trans h.2
      cases this
  · rw [hmissed hc]
    obtain ⟨hreverts, hforms, _⟩ := State.judgeChange_kept (s := s) (i := i) (x := x) level none
    have hc' : ¬(s.demanded i (senseTo level) = true ∧ x.state = .ready ∧ s.inDeadTime i = false) := hc
    unfold EdgeJudged
    dsimp only
    rw [if_neg hc', if_neg hc']
    refine ⟨fun hk => ?_, fun hk hw => ?_, fun hk hw => ⟨fun _ => ?_, fun h => absurd h hc⟩⟩
    · rw [hreverts hk]
      exact ⟨rfl, rfl, hin _⟩
    · rw [hforms hk hw]
      exact ⟨rfl, rfl, hin _⟩
    · exact (State.judgeChange_at_once hk hw).1 rfl

end Sys2Proof.Machine
end

section
/-! PROOFS. The obligations on SET_INPUT that keeps the source, on level changes, and on window ends and dead times (R16 to
R19, R21, R22, R24 to R28, R35 to R37, R42, R45, R46, R51 to R53). -/

namespace Sys2Proof.Machine

/-! ## SET_INPUT (R35 to R37, R53) -/

theorem State.applySettings_same {s : State} {i : InputId} {new : Settings} (p : PortId)
    (h : new.source = (s.input i).settings.source) :
    s.applySettings p i new = (s.setInput i ((s.input i).stored new)).raiseOthers .change p := by
  unfold State.applySettings
  dsimp only
  rw [if_pos h]
  rfl

/-- Settles O12: the record is stored as clamped, and the source's level is not presented again. -/
theorem setInputStoresRecord : Obligations.SetInputStoresRecord := by
  intro p tag i g src w k m mode s hr hg hs hu hsrc hm
  have hsource : sourceOfCode src = some (s.input i).settings.source := by
    rw [hsrc]; cases (s.input i).settings.source <;> rfl
  have hmode : CalMode.ofCode m = some mode := by rw [hm]; cases mode <;> rfl
  have hexec := execSetInput_applied tag w k hr hg (State.inputBusy_eq_false hs hu) hsource hmode
  rw [State.applySettings_same (new := ⟨(s.input i).settings.source, clampWidth w, clampSkew k, mode⟩) p rfl, clampWidth_eq, clampSkew_eq,
    clampStatus_decide] at hexec
  obtain ⟨hframe, hothers, hinput, hports⟩ := s.inputChanged_spec i ((s.input i).stored ⟨(s.input i).settings.source,
      BitVec.ofNat 8 (min w.toNat 255), BitVec.ofInt 11 (max (-1024) (min 1023 k.toInt)), mode⟩) p tag .setInput
    (if 255 < w.toNat ∨ k.toInt < -1024 ∨ 1023 < k.toInt then .clamped else .ok)
    (setInputPayload ⟨(s.input i).settings.source, BitVec.ofNat 8 (min w.toNat 255),
      BitVec.ofInt 11 (max (-1024) (min 1023 k.toInt)), mode⟩ ((s.input i).settingsGen + 1))
  have hsrc' : sourceCode (s.input i).settings.source = src := by
    rw [hsrc]; cases (s.input i).settings.source <;> rfl
  have hm' : mode.code = m := by rw [hm]; cases mode <;> rfl
  refine ⟨_, hexec, hframe, hothers, hinput, ?_⟩
  rw [← hm', ← hsrc']
  exact hports

/-! ## A window end reached -/

section
variable {s : State} {i : InputId}

theorem State.settleWindow_reached {k : Candidate} (hk : (s.input i).candidate = some k)
    (hr : (s.rawTime - k.windowEnd).toNat < 2 ^ 63) : s.settleWindow i = s.qualify i k := by
  unfold State.settleWindow
  rw [hk]
  exact if_pos ((atOrBefore_iff _ _).2 hr)

/-- A qualification keeps its input's settings, and leaves no candidate. -/
theorem State.qualify_input (s : State) (i : InputId) (k : Candidate) :
    ((s.qualify i k).input i).settings = (s.input i).settings ∧ ((s.qualify i k).input i).candidate = none := by
  have hq : ((s.input i).qualify k).settings = (s.input i).settings ∧ ((s.input i).qualify k).candidate = none := by
    rw [Input.qualify_eq]
    exact ⟨rfl, rfl⟩
  have hset : (s.setInput i ((s.input i).qualify k)).input i = (s.input i).qualify k := by
    rw [State.input_setInput, if_pos rfl]
  cases hk : k.capture with
  | none =>
    rw [State.qualify_uncaptured hk, hset]
    exact hq
  | some cap =>
    have hstamped : (s.stamped i k cap).input i = (s.input i).qualify k := hset
    rw [State.qualify_captured hk]
    split
    · rw [State.hit_input, hstamped, (Input.hit_rest _ _).1, (Input.hit_rest _ _).2]
      exact hq
    · rw [hstamped]
      exact hq

/-- Once a window end is taken, none is reached (R18). -/
theorem State.settleWindow_settled (s : State) (i : InputId) :
    (s.settleWindow i).settleWindow i = s.settleWindow i := by
  by_cases h : ∃ k, (s.input i).candidate = some k ∧ (s.rawTime - k.windowEnd).toNat < 2 ^ 63
  · obtain ⟨k, hk, hr⟩ := h
    rw [State.settleWindow_reached hk hr]
    refine State.settleWindow_open fun c hc => ?_
    rw [(s.qualify_input i k).2] at hc
    cases hc
  · have hopen : s.settleWindow i = s := State.settleWindow_open fun k hk hr => h ⟨k, hk, hr⟩
    rw [hopen, hopen]

theorem State.settleWindow_source (s : State) (i : InputId) :
    ((s.settleWindow i).input i).settings = (s.input i).settings := by
  unfold State.settleWindow
  split
  · rfl
  · split
    · exact (s.qualify_input i _).1
    · rfl

theorem State.settleWindow_coarse (s : State) (i : InputId) :
    (s.settleWindow i).coarse = s.coarse ∧ (s.settleWindow i).tick = s.tick := by
  rw [(s.settleWindow_inputStep i).rest]
  exact ⟨rfl, rfl⟩

/-- A level change judges what the window end of its instant leaves. -/
theorem State.levelChange_congr {t : State} (h : s.settleWindow i = t.settleWindow i) (level : Level) (c : Code) :
    s.levelChange i level c = t.levelChange i level c := by
  unfold State.levelChange
  rw [h]

theorem State.levelChange_watched {level : Level} (c : Code) (h : level = ((s.settleWindow i).input i).watched) :
    s.levelChange i level c = s.settleWindow i := by
  unfold State.levelChange
  exact if_pos h

/-! ## A pin's level is no part of a window end -/

/-- A state with the level of one pin (R16). -/
def State.withPin (s : State) (i : InputId) (level : Level) : State :=
  s.setInput i { s.input i with pinLevel := level }

theorem State.withPin_input (s : State) (i : InputId) (level : Level) :
    (s.withPin i level).input i = { s.input i with pinLevel := level } :=
  (State.input_setInput _ _ _ _).trans (if_pos rfl)

theorem State.hit_withPin (s : State) (i : InputId) (level : Level) (c : Code) :
    (s.withPin i level).hit i c = (s.hit i c).withPin i level := by
  have hx : ∀ x : Input, { x with pinLevel := level }.hit c = { x.hit c with pinLevel := level } := fun x => by
    unfold Input.hit Input.complete
    dsimp only
    split
    · split <;> rfl
    · rfl
  have hset : ∀ y, (s.withPin i level).setInput i { y with pinLevel := level } =
      (s.setInput i y).setInput i { y with pinLevel := level } := fun y => by
    rw [State.withPin, State.setInput_setInput, State.setInput_setInput]
  unfold State.withPin
  rw [State.hit_input, State.hit_eq, State.hit_eq, State.input_setInput, if_pos rfl, hx]
  dsimp only
  split
  · exact congrArg (State.raiseAll .cal) (hset _)
  · exact hset _

theorem State.stamped_withPin (s : State) (i : InputId) (level : Level) (k : Candidate) (cap : Capture) :
    (s.withPin i level).stamped i k cap = (s.stamped i k cap).withPin i level := by
  have hx : { s.input i with pinLevel := level }.qualify k = { (s.input i).qualify k with pinLevel := level } := by
    rw [Input.qualify_eq, Input.qualify_eq]
  have hcount : ∀ x : Input, { x with pinLevel := level }.count k.sense = x.count k.sense := fun x => by
    cases k.sense <;> rfl
  have hin : (s.stamped i k cap).input i = (s.input i).qualify k := (State.input_setInput _ _ _ _).trans (if_pos rfl)
  unfold State.withPin
  rw [hin]
  unfold State.stamped
  rw [State.input_setInput, if_pos rfl, hx, hcount]
  simp [State.setInput]

theorem State.qualify_withPin (s : State) (i : InputId) (level : Level) (k : Candidate) :
    (s.withPin i level).qualify i k = (s.qualify i k).withPin i level := by
  have hx : { s.input i with pinLevel := level }.qualify k = { (s.input i).qualify k with pinLevel := level } := by
    rw [Input.qualify_eq, Input.qualify_eq]
  cases hk : k.capture with
  | none =>
    rw [State.qualify_uncaptured hk, State.qualify_uncaptured hk, State.withPin_input, hx]
    unfold State.withPin
    rw [State.setInput_setInput, State.setInput_setInput, State.input_setInput, if_pos rfl]
  | some cap =>
    rw [State.qualify_captured hk, State.qualify_captured hk, State.withPin_input, State.stamped_withPin]
    dsimp only
    split
    · exact State.hit_withPin _ _ _ _
    · rfl

theorem State.settleWindow_withPin (s : State) (i : InputId) (level : Level) :
    (s.withPin i level).settleWindow i = (s.settleWindow i).withPin i level := by
  unfold State.settleWindow
  rw [State.withPin_input]
  dsimp only
  split
  · rfl
  · show (if atOrBefore _ s.rawTime = true then _ else _) = _
    split
    · exact State.qualify_withPin _ _ _ _
    · rfl

/-! ## Level changes of a pin -/

theorem exec_pinChange_watched (level : Level) (f : WithinTick) (h : (s.input i).settings.source = .pin) :
    exec (.inputLevelChange i .pin level f) s = .next ((s.withPin i level).levelChange i level (s.delayCode i f)) := by
  show (if (s.input i).settings.source = .pin then _ else _) = _
  rw [if_pos h]
  rfl

theorem exec_pinChange_unwatched (level : Level) (f : WithinTick) (h : (s.input i).settings.source = .test) :
    exec (.inputLevelChange i .pin level f) s = .next (s.withPin i level) := by
  show (if (s.input i).settings.source = .pin then _ else _) = _
  rw [if_neg (by rw [h]; nofun)]
  rfl

end

/-- Settles O15: the change is judged at the input with the pin's new level, and a window end of its instant is taken first
whether it is sent before or not. -/
theorem pinChangeJudgedByFilter : Obligations.PinChangeJudgedByFilter := by
  refine ⟨fun i level f s hsrc hopen hl => ?_, fun i level f k s u hsrc hk hr hu => ?_⟩
  · have hpin : s.InputStep i (s.withPin i level) := State.setInput_inputStep rfl rfl rfl (.inl rfl) .inl
    have hstep := hpin.trans (State.levelChange_inputStep _ i level (s.delayCode i f))
    exact ⟨_, exec_pinChange_watched level f hsrc, hstep.rest, hstep.others,
      State.levelChange_judged (x := { s.input i with pinLevel := level }) _ rfl hopen hl⟩
  · have hu' : u = s.settleWindow i := (Host.Outcome.next.inj hu).symm
    rw [hu', exec_pinChange_watched level f hsrc,
      exec_pinChange_watched level f (by rw [State.settleWindow_source]; exact hsrc)]
    have hcode : (s.settleWindow i).delayCode i f = s.delayCode i f := by
      apply Fin.ext
      simp only [State.delayCode, (s.settleWindow_coarse i).1, (s.settleWindow_coarse i).2]
    rw [hcode, State.levelChange_congr (t := (s.settleWindow i).withPin i level)]
    rw [State.settleWindow_withPin, State.settleWindow_withPin, State.settleWindow_settled]

/-! ## The test signal (R16, R17) -/

section
variable {s : State} {i : InputId} {level : Level}

theorem exec_testChange_off (f : WithinTick) (h : (s.input i).settings.source = .pin ∨ level ≠ testLevel s.coarse) :
    exec (.inputLevelChange i .test level f) s = .next s := by
  refine if_neg fun hc => ?_
  obtain ⟨hsrc, hlevel⟩ := hc
  rcases h with h | h
  · rw [h] at hsrc; cases hsrc
  · exact h hlevel

theorem exec_testChange_on (f : WithinTick) (hsrc : (s.input i).settings.source = .test)
    (hlevel : level = testLevel s.coarse) : exec (.inputLevelChange i .test level f) s =
      .next ((s.settleWindow i).levelChange i level
        (Config.testEdgeCode i ((s.settleWindow i).input i).calGen)) :=
  if_pos ⟨hsrc, hlevel⟩

end

/-- Settles O16: what the filter does not judge only keeps the pin's level, and a test edge is judged like a pin's. -/
theorem otherLevelChanges : Obligations.OtherLevelChanges := by
  refine ⟨fun i level f s h => ?_, fun x => ⟨rfl, rfl, ?_⟩, fun i level f s => ⟨fun h => ?_, fun hsrc hlevel hopen => ⟨fun hl => ?_,
    fun hl => ?_⟩, fun k u hk hr hsrc hlevel hu => ?_⟩⟩
  · cases hsrc : (s.input i).settings.source with
    | test => exact exec_pinChange_unwatched level f hsrc
    | pin =>
      have hopen : ∀ k, ((s.withPin i level).input i).candidate = some k →
          ¬((s.withPin i level).rawTime - k.windowEnd).toNat < 2 ^ 63 := fun k hk => by
        rw [State.withPin_input] at hk
        rcases h with h | ⟨hn, _⟩ | ⟨c, hc, ho, _⟩
        · rw [hsrc] at h; cases h
        · rw [hn] at hk; cases hk
        · rw [hc] at hk; cases hk; exact ho
      have hwatched : level = ((s.withPin i level).input i).watched := by
        rw [State.withPin_input]
        unfold Input.watched
        rcases h with h | ⟨hn, hq⟩ | ⟨c, hc, _, hl⟩
        · rw [hsrc] at h; cases h
        · rw [hn]; exact hq.symm
        · rw [hc, hl]; rfl
      rw [exec_pinChange_watched level f hsrc, State.levelChange_watched]
      · rw [State.settleWindow_open hopen]; rfl
      · rw [State.settleWindow_open hopen]; exact hwatched
  · unfold Input.watched
    cases x.candidate with
    | none => rfl
    | some k => cases k.sense <;> rfl
  · rw [← testLevel_eq] at h
    exact exec_testChange_off f h
  · rw [← testLevel_eq] at hlevel
    rw [exec_testChange_on f hsrc hlevel, State.settleWindow_open hopen, State.levelChange_watched,
      State.settleWindow_open hopen]
    rw [State.settleWindow_open hopen]
    exact hl
  · rw [← testLevel_eq] at hlevel
    have hstep := s.levelChange_inputStep i level (Config.testEdgeCode i (s.input i).calGen)
    have hjudged := State.levelChange_judged (s := s) (x := s.input i) (Config.testEdgeCode i (s.input i).calGen) rfl hopen hl
    rw [State.setInput_input] at hjudged
    rw [exec_testChange_on f hsrc hlevel, State.settleWindow_open hopen]
    exact ⟨_, rfl, hstep.rest, hstep.others, hjudged⟩
  · have hu' : u = s.settleWindow i := (Host.Outcome.next.inj hu).symm
    rw [← testLevel_eq] at hlevel
    rw [hu', exec_testChange_on f hsrc hlevel, exec_testChange_on f (by rw [State.settleWindow_source]; exact hsrc)
      (by rw [(s.settleWindow_coarse i).1]; exact hlevel), State.settleWindow_settled]

/-! ## Window ends and dead times (R18, R25) -/

theorem State.inDeadTime_iff (s : State) (i : InputId) : s.inDeadTime i = true ↔
    ∃ c, (s.input i).blockedUntil = some c ∧ ¬(s.coarse - c).toNat < 2 ^ 55 := by
  unfold State.inDeadTime
  cases (s.input i).blockedUntil with
  | none => simp
  | some c =>
    rw [Bool.not_eq_true', ← Bool.not_eq_true, coarseAtOrBefore_iff]
    simp

/-- Settles O17: a candidate at its window end is qualified, and a dead time ends when the coarse count reaches its end. -/
theorem windowAndDeadTimeEnd : Obligations.WindowAndDeadTimeEnd := by
  refine ⟨fun i s => ⟨fun k hk hr => ?_, fun hopen => ?_⟩, fun i c s hc => ?_, fun i s => s.inDeadTime_iff i⟩
  · have hstep := s.settleWindow_inputStep i
    have hspec := s.qualify_spec i k
    rw [State.settleWindow_reached hk hr] at hstep
    rw [Input.qualify_eq] at hspec
    obtain ⟨huncaptured, hcaptured⟩ := hspec
    refine ⟨_, congrArg Host.Outcome.next (State.settleWindow_reached hk hr), hstep.rest, hstep.others, huncaptured,
      fun cap hcap => ?_⟩
    obtain ⟨hstamps, htrack, hfixed⟩ := hcaptured cap hcap
    refine ⟨hstamps, fun hs hm => htrack ⟨hs, hm⟩, fun h => hfixed fun ⟨hs, hm⟩ => ?_⟩
    rcases h with h | h
    · rw [h] at hs; cases hs
    · rw [h] at hm; cases hm
  · exact congrArg Host.Outcome.next (State.settleWindow_open hopen)
  · have hdead : s.inDeadTime i = true ↔ ¬(s.coarse - c).toNat < 2 ^ 55 := by
      rw [State.inDeadTime_iff, hc]
      simp
    refine ⟨fun hr => ?_, fun hr => ?_⟩
    · exact if_neg fun h => hdead.1 h hr
    · exact if_pos (hdead.2 hr)

end Sys2Proof.Machine
end

section
/-! PROOFS. The state that device reset leaves is legal (R15, R38, R68, R97, R98, R142, R164, R176). -/

namespace Sys2Proof.Machine

/-- A port at the release of device reset (R142, R164, R176). -/
theorem deviceReset_port {a b : BitVec 4} {lines : ResetLines} {s t : State}
    (h : exec (.deviceReset a b lines) s = .next t) (p : PortId) :
    t.port p = { Port.atRelease (rightsOfStraps (a.getLsbD p) (b.getLsbD p)) with
      shiftedOut := List.replicate lines.clocked[p] true, ignoring := lines.selected.getLsbD p } := by
  cases h
  simp [State.port, State.atRelease]

/-- A port at the release holds its NONE response and no request, and a selection it ignores finds it in READY (R143,
R164). -/
theorem Port.atRelease_linkLegal (rights : BitVec 3) (out : List Bool) (ignoring : Bool) (p : PortId) :
    ({ Port.atRelease rights with shiftedOut := out, ignoring := ignoring } : Port).LinkLegal p :=
  ⟨fun _ => rfl, fun _ => ⟨rfl, rfl⟩, nofun, fun _ => .inl rfl, nofun, fun _ => rfl⟩

/-- The default table rises (R40). -/
theorem defaultTable_rises : tableRises defaultTable := by
  intro c d hcd
  rw [defaultTable_toNat, defaultTable_toNat]
  exact min_le_min le_rfl (Nat.div_le_div_right (Nat.mul_le_mul_right 256 hcd))

theorem Input.atRelease_histogramLegal (pin : Level) : (Input.atRelease pin).HistogramLegal := by
  refine ⟨?_, nofun⟩
  show hitTotal emptyHistogram < 65536
  rw [hitTotal_emptyHistogram]
  decide

section
variable {a b : BitVec 4} {lines : ResetLines} {s t : State}

theorem deviceReset_logLaws (h : exec (.deviceReset a b lines) s = .next t) : t.LogLaws := by
  have hport := deviceReset_port h
  have hslot : ∀ n, t.slot n = Slot.atRelease := fun n => by
    cases h; exact State.atRelease_slot a b lines.pins n
  have hlog : t.log = Log.atRelease := by cases h; rfl
  have hheld : t.log.held = [] := by rw [hlog]; rfl
  have hunit : t.unit = ArithUnit.idle := by cases h; rfl
  refine ⟨?_, fun p => ?_, fun p => ?_, ?_, ?_, fun n hn => ?_, fun n o ho => ?_, fun v hv => ?_⟩
  · rw [hlog]
    exact ⟨by decide, trivial, by decide⟩
  · rw [hport, hlog]
    show ((0 : Seq) - 0).toNat ≤ 0
    decide
  · rw [hport]
    show 1 ≤ (1 : BitVec 16).toNat ∧ (1 : BitVec 16).toNat ≤ 512
    decide
  · rw [hheld]
    intro e he
    cases he
  · rw [hheld]
    intro e he
    cases he
  · rw [hslot] at hn
    rcases hn with hn | hn <;> cases hn
  · rw [hslot] at ho
    cases ho
  · rw [hunit] at hv
    cases hv

theorem deviceReset_linksLegal (h : exec (.deviceReset a b lines) s = .next t) : t.LinksLegal := by
  intro p
  rw [deviceReset_port h]
  exact Port.atRelease_linkLegal _ _ _ p

theorem deviceReset_calibrationLegal (h : exec (.deviceReset a b lines) s = .next t) : t.CalibrationLegal := by
  intro i
  have hinput : t.input i = Input.atRelease (levelOfPin (lines.pins.getLsbD i)) := by
    cases h; exact State.atRelease_input a b lines.pins i
  rw [hinput]
  exact ⟨defaultTable_rises, Input.atRelease_histogramLegal _⟩

end

/-- Settles O58, law by law; the laws of inputs, plans and the release horizon stand of the part at the release. -/
theorem releaseIsLegal : Obligations.ReleaseIsLegal := by
  intro a b lines s
  have h : exec (.deviceReset a b lines) s = .next _ := rfl
  have hr := State.atRelease_horizonLegal a b lines.pins
  exact ⟨_, h, deviceReset_logLaws h, State.atRelease_usageGuard a b lines.pins, State.atRelease_plansLegal a b lines.pins,
    deviceReset_calibrationLegal h, deviceReset_linksLegal h, State.atRelease_edgesLegal a b lines.pins,
    ⟨hr.order, hr.window, hr.early, hr.captures⟩⟩

/-! ## ARM (R32, R75, R78, R79, R82) -/

section
variable {p : PortId} {n : SlotId} {s : State}

theorem execArm_busy (tag : Byte) (hr : (s.port p).rights.getLsbD 0 = true)
    (hc : s.namesCalibrating (s.slot n).plan = true) : exec (.arm p tag (BitVec.ofNat 8 n.val)) s =
      .next (s.setPort p ((s.port p).answer .busy tag 0x32
        (bytesBE 2 (s.slot n).planGen.toNat ++ [(s.slot n).state.code]))) := by
  show execArm p tag _ s = _
  unfold execArm
  rw [State.withRight_held tag _ ((permitted_measure rfl).trans hr)]
  dsimp only
  rw [numberOf_slot]
  dsimp only
  rw [if_pos hc]
  rfl

theorem execArm_tooLate (tag : Byte) (hr : (s.port p).rights.getLsbD 0 = true)
    (hc : s.namesCalibrating (s.slot n).plan = false) (hl : s.armTooLate (s.slot n).plan = true) :
    exec (.arm p tag (BitVec.ofNat 8 n.val)) s = .next (s.setPort p ((s.port p).answer .tooLate tag 0x32
      (bytesBE 2 (s.slot n).planGen.toNat ++ [(s.slot n).state.code]))) := by
  show execArm p tag _ s = _
  unfold execArm
  rw [State.withRight_held tag _ ((permitted_measure rfl).trans hr)]
  dsimp only
  rw [numberOf_slot]
  dsimp only
  rw [hc, if_neg Bool.false_ne_true, if_pos hl]
  rfl

/-- The slot that an applied ARM leaves, before the grant (R75, R79, R82). -/
def State.rearmed (s : State) (n : SlotId) : Slot :=
  ((s.slot n).abort n s.horizonTime s.horizonLocked).armByRequest s.arrivalHorizon s.arrivalTime

theorem execArm_applied (tag : Byte) (hr : (s.port p).rights.getLsbD 0 = true)
    (hc : s.namesCalibrating (s.slot n).plan = false) (hl : s.armTooLate (s.slot n).plan = false) :
    exec (.arm p tag (BitVec.ofNat 8 n.val)) s = .next ((s.setSlot n (s.rearmed n)).grant.respond p tag .arm .ok
      (slotStatusBytes (s.slot n).planGen .arming)) := by
  show execArm p tag _ s = _
  unfold execArm
  rw [State.withRight_held tag _ ((permitted_measure rfl).trans hr)]
  dsimp only
  rw [numberOf_slot]
  dsimp only
  rw [hc, if_neg Bool.false_ne_true, hl, if_neg Bool.false_ne_true]
  rfl

theorem State.armTooLate_iff (s : State) (plan : Plan) : s.armTooLate plan = true ↔ plan.armSource = .atTime
    ∧ ¬((plan.armTime - (s.coarse ++ (0 : BitVec 8) - 73728 + s.offset)).toNat < 2 ^ 63
      ∧ plan.armTime ≠ s.coarse ++ (0 : BitVec 8) - 73728 + s.offset) := by
  unfold State.armTooLate
  rw [Bool.and_eq_true, decide_eq_true_iff, Bool.not_eq_true', before_eq_false_iff, ne_comm]
  exact Iff.rfl

/-- Writing one slot leaves the grant of the instant what it would be to every other. -/
theorem State.setSlot_grant_slot (s : State) (n m : SlotId) (x : Slot) :
    s.GrantOnly m ((s.setSlot n x).slot m) ((s.setSlot n x).grant.slot m) :=
  ((s.setSlot n x).grant_slot m).of_unit rfl rfl

theorem Slot.abort_nothing {x : Slot} (n : SlotId) (h : Tick) (l : Bool) (hx : x.state = .idle ∨ x.state = .arming) :
    x.abort n h l = x := by
  unfold Slot.abort
  refine if_neg ?_
  rcases hx with hx | hx <;> rw [hx] <;> nofun

end

/-- Settles O23: the two refusals in order, else the slot armed afresh and the grant of the instant. -/
theorem armEntersArming : Obligations.ArmEntersArming := by
  intro p tag n s hr
  dsimp only
  rw [← s.armTooLate_iff, ← s.namesCalibrating_iff]
  refine ⟨execArm_busy tag hr, fun hc => execArm_tooLate tag hr (Bool.eq_false_iff.2 hc), fun hc hl => ?_⟩
  have hexec := execArm_applied tag hr (Bool.eq_false_iff.2 hc) (Bool.eq_false_iff.2 hl)
  have hplan : (s.rearmed n).plan = (s.slot n).plan ∧ (s.rearmed n).planGen = (s.slot n).planGen :=
    Slot.abort_samePlan _ _ _ _
  have hgrant := s.setSlot_grant_slot n n (s.rearmed n)
  have hpart := (s.setSlot n (s.rearmed n)).grant_engine
  rw [State.slot_setSlot, if_pos rfl] at hgrant
  have hrest := hgrant.rest
  have hdata : (s.rearmed n).data = { MeasData.empty with
      armingSince := s.coarse ++ (0 : BitVec 8) - 73728
      armInstant := if (s.slot n).plan.armSource = .immediate then some (s.coarse ++ (0 : BitVec 8)) else none } := by
    rw [← hplan.1]
    rfl
  have hports : ∀ q, (s.setSlot n (s.rearmed n)).grant.port q = s.port q := fun q => by
    rw [State.port_eq, State.grant_ports]
    rfl
  have hslot : ∀ (u : State) (bs : List Byte) (m : SlotId), (u.respond p tag .arm .ok bs).slot m = u.slot m :=
    fun _ _ _ => rfl
  refine ⟨_, hexec, ?_, fun m hm => ?_, ?_⟩
  · have hframe := hpart.rest
    rw [(s.setSlot n (s.rearmed n)).grant_stamps] at hframe
    exact congrArg (fun u : State => u.respond p tag .arm .ok (slotStatusBytes (s.slot n).planGen .arming)) hframe
  · have hother := s.setSlot_grant_slot n m (s.rearmed n)
    rw [State.slot_setSlot, if_neg hm.symm] at hother
    exact hother
  · rw [hslot]
    refine ⟨?_, ?_, ?_, ?_, ?_, ?_, fun hidle => ?_, ?_, fun q hq => ?_⟩
    · rw [hrest]; exact hplan.1
    · rw [hrest]; exact hplan.2
    · rw [hrest]; rfl
    · rw [hrest]; rfl
    · rw [hrest]; rfl
    · rw [hrest]; exact hdata
    · have hy : s.rearmed n = { s.slot n with
          state := .arming, data := ((s.setSlot n (s.rearmed n)).grant.slot n).data, fresh := [], finishes := [] } := by
        rw [hrest]
        dsimp only
        unfold State.rearmed
        rw [Slot.abort_nothing _ _ _ hidle]
        rfl
      rw [← hy]
      exact hgrant
    · rw [State.respond_answer, State.port_setPort, if_pos rfl, hports]
      rfl
    · rw [State.respond_answer, State.port_setPort, if_neg hq.symm, hports]

end Sys2Proof.Machine
end

section
/-! PROOFS. Offers in time order, and the slots that ignore them (R29, R30, R71, R72). -/

namespace Sys2Proof.Machine

/-! ## The stamp that is due -/

theorem eq_of_sub_lt {a b : Tick} (hab : (b - a).toNat < 2 ^ 63) (hba : (a - b).toNat < 2 ^ 63) : a = b := by
  bv_omega

/-- The stamp that is due precedes every stamp in flight (R29). -/
theorem State.dueStamp_first {s : State} {i : InputId} {st : Stamp} (h : s.dueStamp i = some st) {o : Stamp}
    (ho : o ∈ s.stamps) : (o.corrected - st.corrected).toNat < 2 ^ 63 := by
  unfold State.dueStamp at h
  split at h
  · cases h
  · next c _ =>
    split at h
    · next hc =>
      cases h
      rw [Bool.and_eq_true] at hc
      exact (atOrBefore_iff _ _).1 (List.all_eq_true.1 hc.2 o ho)
    · cases h

/-- Of stamps in order, one that none precedes, and with which no other of its input shares its time, is the first of its
input. -/
theorem find?_input_of_first {l : List Stamp} {st : Stamp} (hst : st ∈ l) (ho : InTimeOrder l)
    (hfirst : ∀ o ∈ l, (o.corrected - st.corrected).toNat < 2 ^ 63)
    (hone : ∀ o ∈ l, o.input = st.input → o.corrected = st.corrected → o = st) :
    l.find? (fun o => decide (o.input = st.input)) = some st := by
  cases hf : l.find? fun o => decide (o.input = st.input) with
  | none => exact absurd (decide_eq_true rfl) (List.find?_eq_none.1 hf st hst)
  | some o =>
    obtain ⟨hin, before', after, rfl, hbefore⟩ := List.find?_eq_some_iff_append.1 hf
    have hmem : o ∈ before' ++ o :: after := List.mem_append_right _ List.mem_cons_self
    have hst' : st ∈ o :: after := (List.mem_append.1 hst).resolve_left fun h => by
      have hne := hbefore st h
      rw [decide_eq_true rfl] at hne
      cases hne
    rcases List.mem_cons.1 hst' with rfl | hafter
    · rfl
    · have hle := (List.pairwise_cons.1 (List.pairwise_append.1 ho).2.1).1 st hafter
      rw [hone o hmem (of_decide_eq_true hin) (eq_of_sub_lt hle (hfirst o hmem))]

/-- A stamp that horizon time has reached and that none precedes is due, where no other of its input shares its time. -/
theorem State.dueStamp_of_first {s : State} {st : Stamp} (hst : st ∈ s.stamps) (hr : s.Reached st.corrected)
    (ho : InTimeOrder s.stamps) (hfirst : ∀ o ∈ s.stamps, (o.corrected - st.corrected).toNat < 2 ^ 63)
    (hone : ∀ o ∈ s.stamps, o.input = st.input → o.corrected = st.corrected → o = st) :
    s.dueStamp st.input = some st := by
  have hall : s.stamps.all (fun o => atOrBefore st.corrected o.corrected) = true :=
    List.all_eq_true.2 fun o h => (atOrBefore_iff _ _).2 (hfirst o h)
  unfold State.dueStamp
  rw [find?_input_of_first hst ho hfirst hone]
  dsimp only
  rw [(s.reached_iff_Reached _).2 hr, hall]
  rfl

/-! ## Slots in IDLE -/

/-- A slot in IDLE ignores a finish (R86). -/
theorem State.announce_idle {s : State} {m : SlotId} (h : (s.slot m).state = .idle) (n : SlotId) (e : Finish) :
    (s.announce n e).slot m = s.slot m := by
  refine State.announce_induct (P := fun u => u.slot m = s.slot m) s n e (fun u hu => State.slot_of_slots hu m) ?_
  intro u t hu
  have hm := State.slot_of_slots hu m
  unfold State.armDependents
  rw [State.slot_mapSlots, hm, Slot.seeFinish_idle _ _ h, ite_self]

theorem State.announced_idle {s : State} {m : SlotId} (h : (s.slot m).state = .idle) (n : SlotId) (e : Option Finish) :
    (s.announced n e).slot m = s.slot m := by
  cases e with
  | none => rfl
  | some e => exact State.announce_idle h n e

theorem Slot.judgeInstant_idle {x : Slot} (hx : x.state = .idle) (n : SlotId) (h : Tick) (l : Bool) :
    x.judgeInstant n h l = none := by
  cases hj : x.judgeInstant n h l with
  | none => rfl
  | some r => exact absurd hx (Slot.judgeInstant_spec hj).1

theorem State.judgeSlot_idle {m : SlotId} (k : Nat) (n : SlotId) (s : State) (h : (s.slot m).state = .idle) :
    (State.judgeSlot k n s).slot m = s.slot m := by
  induction k generalizing s with
  | zero => rfl
  | succ k ih =>
    cases hj : (s.slot n).judgeInstant n s.horizonTime s.horizonLocked with
    | none => rw [State.judgeSlot_none hj]
    | some r =>
      obtain ⟨y, e⟩ := r
      have hn : n ≠ m := by rintro rfl; exact (Slot.judgeInstant_spec hj).1 h
      have hset : (s.setSlot n y).slot m = s.slot m := by rw [State.slot_setSlot, if_neg hn]
      have hann : ((s.setSlot n y).announced n e).slot m = s.slot m := by
        rw [State.announced_idle (by rw [hset]; exact h), hset]
      rw [State.judgeSlot_some k hj, ih _ (by rw [hann]; exact h), hann]

theorem State.judgeAll_idle {m : SlotId} (l : List SlotId) (s : State) (h : (s.slot m).state = .idle) :
    (State.judgeAll l s).slot m = s.slot m := by
  induction l generalizing s with
  | nil => rfl
  | cons n rest ih =>
    have hn := State.judgeSlot_idle (s.slot n).judgeFuel n s h
    show (State.judgeAll rest _).slot m = _
    rw [ih _ (by rw [hn]; exact h), hn]

theorem State.settle_idle {s : State} {m : SlotId} (h : (s.slot m).state = .idle) : s.settle.slot m = s.slot m :=
  State.judgeAll_idle allSlots s h

/-! ## Sets of slots that make nothing of an instant

A slot that waits for a finish of its arm slot is left alone where the arm slot makes nothing of the instant either; so the
property is one of a set of slots, closed under arm slots. -/

/-- A slot as the end of an event leaves it where it made nothing of the instant: as it was, up to the finishes it remembers,
and where it waits for a finish, those as well. -/
def Slot.Kept (x y : Slot) : Prop := UpToFinishes x y ∧ (x.awaitsArming .slotDone = true → y = x)

theorem Slot.Kept.refl (x : Slot) : x.Kept x := ⟨.refl x, fun _ => rfl⟩

theorem Slot.Kept.awaits {x y : Slot} (h : x.Kept y) (src : ArmSource) : y.awaitsArming src = x.awaitsArming src := by
  obtain ⟨l, rfl⟩ := h.1
  rfl

theorem Slot.Kept.trans {x y z : Slot} (h : x.Kept y) (k : y.Kept z) : x.Kept z :=
  ⟨h.1.trans k.1, fun w => (k.2 ((h.awaits .slotDone).trans w)).trans (h.2 w)⟩

/-- The slots of a set make nothing of the instant, and those of them that wait for a finish have their arm slots in it. -/
def State.Silent (s : State) (set : SlotId → Prop) : Prop :=
  ∀ n, set n → (s.slot n).judgeInstant n s.horizonTime s.horizonLocked = none
    ∧ ((s.slot n).awaitsArming .slotDone = true → set (s.slot n).plan.armSlot)

theorem State.Silent.of_kept {s t : State} {set : SlotId → Prop} (q : s.Silent set) (he : EngineFrame s t)
    (h : ∀ n, set n → (s.slot n).Kept (t.slot n)) : t.Silent set := by
  intro n hn
  obtain ⟨hjudge, harm⟩ := q n hn
  rw [he.horizonTime, he.horizonLocked]
  cases hw : (s.slot n).awaitsArming .slotDone with
  | true =>
    rw [(h n hn).2 hw]
    exact ⟨hjudge, harm⟩
  | false =>
    refine ⟨((h n hn).1.judgeInstant hw n _ _).1 hjudge, fun w => ?_⟩
    rw [(h n hn).awaits, hw] at w
    cases w

/-- Judging one slot leaves a silent set as it is: a slot of the set makes nothing of the instant, and the finishes of one
outside it arm none of the set. -/
theorem State.Silent.judgeSlot {s : State} {set : SlotId → Prop} (q : s.Silent set) (k : Nat) (m : SlotId) {n : SlotId}
    (hn : set n) : (s.slot n).Kept ((State.judgeSlot k m s).slot n) := by
  by_cases hm : set m
  · rw [State.judgeSlot_none (q m hm).1]
    exact .refl _
  have hne : m ≠ n := by rintro rfl; exact hm hn
  cases hw : (s.slot n).awaitsArming .slotDone with
  | true =>
    have hapart : (s.slot n).ApartFrom m := fun h => hm (h.2 ▸ (q n hn).2 hw)
    rw [State.judgeSlot_apart k m n s hne hapart]
    exact .refl _
  | false => exact ⟨State.judgeSlot_other k m n s hne hw, fun w => by rw [hw] at w; cases w⟩

theorem State.Silent.judgeAll {set : SlotId → Prop} (l : List SlotId) {s : State} (q : s.Silent set) {n : SlotId}
    (hn : set n) : (s.slot n).Kept ((State.judgeAll l s).slot n) := by
  induction l generalizing s with
  | nil => exact .refl _
  | cons m rest ih =>
    have hkept : ∀ k, set k → (s.slot k).Kept ((State.judgeSlot (s.slot m).judgeFuel m s).slot k) := fun k hk =>
      q.judgeSlot _ m hk
    exact (hkept n hn).trans (ih (q.of_kept (State.judgeSlot_engine _ _ _) hkept))

/-- The end of an event leaves a silent set as it is. -/
theorem State.Silent.settle {s : State} {set : SlotId → Prop} (q : s.Silent set) {n : SlotId} (hn : set n) :
    (s.slot n).Kept (s.settle.slot n) :=
  q.judgeAll allSlots hn

/-! ## Slots that ignore an offer -/

theorem Slot.waitsForFinish_iff (x : Slot) : x.WaitsForFinish ↔ x.awaitsArming .slotDone = true :=
  (x.awaitsArming_iff .slotDone).symm

/-- What a slot makes of a stamp does not depend on the stamps it has kept. -/
theorem State.offeredSlot_judgeStamp (s : State) (st : Stamp) (n : SlotId) (h : Tick) (l : Bool) (g : Offered) :
    (s.offeredSlot st n).judgeStamp n h l g = none ↔ ¬(s.slot n).Meets g.st g.scale :=
  (not_iff_comm.1 ((s.offeredSlot st n).meets_iff n h l g).symm).symm

/-- A slot that ignores the stamp makes nothing of the instant when it has been offered. -/
theorem State.offeredSlot_ignores {s : State} {st : Stamp} {n : SlotId}
    (hi : (s.slot n).Ignores st (st.corrected + s.offset) s.horizonTime)
    (hw : (s.slot n).WaitsForFinish → ∀ e ∈ (s.slot n).finishes, e.at' ≠ s.horizonTime) :
    (s.offeredSlot st n).judgeInstant n s.horizonTime s.horizonLocked = none := by
  obtain ⟨hst, hearlier⟩ := hi
  have hseen : (s.offeredSlot st n).seenFinish s.horizonTime = none := by
    cases haw : (s.slot n).awaitsArming .slotDone with
    | true => exact Slot.seenFinish_none (hw ((s.slot n).waitsForFinish_iff.2 haw))
    | false => exact Slot.seenFinish_not_waiting _ haw
  refine Slot.judgeInstant_ignores hseen fun g hg => (s.offeredSlot_judgeStamp st n _ _ g).2 ?_
  rw [State.offeredSlot_stampsAt, List.mem_append, List.mem_singleton] at hg
  rcases hg with hg | rfl
  · exact hearlier g (Slot.mem_stampsAt.1 hg).1 (Slot.mem_stampsAt.1 hg).2
  · exact hst

/-- Slots that ignore the stamp, with the arm slots of those that wait, are silent when it has been offered. -/
theorem State.offer_silent {s : State} {st : Stamp} {ignoring : SlotId → Prop}
    (h : ∀ n, ignoring n → (s.slot n).Ignores st (st.corrected + s.offset) s.horizonTime
      ∧ ((s.slot n).WaitsForFinish →
        (∀ e ∈ (s.slot n).finishes, e.at' ≠ s.horizonTime) ∧ ignoring (s.slot n).plan.armSlot)) :
    (s.offer st).Silent ignoring := by
  intro n hn
  obtain ⟨hi, hw⟩ := h n hn
  rw [s.offer_horizonTime, s.offer_horizonLocked]
  by_cases hidle : (s.slot n).state = .idle
  · rw [State.offer_slot_idle _ _ _ hidle]
    refine ⟨Slot.judgeInstant_idle hidle _ _ _, fun w => ?_⟩
    have harming := ((Slot.awaitsArming_iff _ _).1 w).1
    rw [hidle] at harming
    cases harming
  · rw [State.offer_slot_active _ _ _ hidle]
    exact ⟨State.offeredSlot_ignores hi fun w => (hw w).1, fun w => (hw ((s.slot n).waitsForFinish_iff.2 w)).2⟩

/-- The grant at the end of an event, from a slot that the event has left as it was but for the finishes it remembers. -/
theorem State.GrantOnly.of_upToFinishes {s : State} {n : SlotId} {x y z : Slot} (h : s.GrantOnly n y z)
    (hx : UpToFinishes x y) : s.GrantOnly n { x with finishes := z.finishes } z := by
  have hz : z.finishes = y.finishes := by rw [h.rest]
  obtain ⟨l, rfl⟩ := hx
  rw [hz]
  exact h

/-- Settles O26: the stamp that is due by State.dueStamp, and the slots that make nothing of it by State.Silent. -/
theorem offersComeInTimeOrder : Obligations.OffersComeInTimeOrder := by
  have hgrant (s : State) (st : Stamp) := State.conclude_slot (s.offer_unit st) (s.offer_rawTime st)
  refine ⟨fun i st s h => ?_, fun st s => State.dueStamp_of_first, fun i st ignoring s h => ?_⟩
  · obtain ⟨hmem, hin, hr⟩ := State.dueStamp_spec h
    refine ⟨hmem, hin, hr, fun o ho => State.dueStamp_first h ho, _, exec_stampOffer_due h,
      (State.conclude_stamps _).trans (s.offer_stamps st), s.conclude_offer_step st, fun m hm => ?_⟩
    have hoffer := State.offer_slot_idle s st m hm
    have hslot := hgrant s st m
    rw [State.settle_idle (by rw [hoffer]; exact hm), hoffer] at hslot
    exact hslot
  · intro scale hall
    refine ⟨_, exec_stampOffer_due h, s.conclude_offer_step st, fun n hn hidle => ?_⟩
    have hkept := ((State.offer_silent hall).settle hn).1
    rw [State.offer_slot_active _ _ _ hidle] at hkept
    exact (hgrant s st n).of_upToFinishes hkept

end Sys2Proof.Machine
end

section
/-! PROOFS. The gate of a TOTALIZE measurement (R22, R73, R77, R86, R93, R99). -/

namespace Sys2Proof.Machine

/-! ## Gate boundaries -/

/-- A gate boundary with its boundary count, as a bound on differences (R22). -/
theorem State.boundaryAt_eq (s : State) (p : Plan) (t : Tick) : s.boundaryAt p t =
    .boundary t (t + s.offset) ((s.input p.inputA).count p.senseA - BitVec.ofNat 48
      ((s.input p.inputA).recent.countP
        fun e => decide (e.sense = p.senseA ∧ (e.period - t.extractLsb' 8 56).toNat < 2 ^ 55))) := by
  have hpred : (fun e : QualifiedEdge => decide (e.sense = p.senseA) && coarseAtOrBefore (coarseOf t) e.period) =
      fun e => decide (e.sense = p.senseA ∧ (e.period - t.extractLsb' 8 56).toNat < 2 ^ 55) := by
    funext e
    rw [Bool.decide_and]
    rfl
  unfold State.boundaryAt Input.boundaryCount
  rw [hpred]

/-- A TOTALIZE slot in GATING ignores every stamp: its gate closes by time (R93). -/
theorem Slot.judgeStamp_totalizeGating {x : Slot} (hs : x.state = .gating) (hk : x.plan.kind = .totalize) (n : SlotId)
    (h : Tick) (l : Bool) (f : Offered) : x.judgeStamp n h l f = none := by
  refine Slot.judgeStamp_ignores n h l (fun e => nomatch hs.symm.trans e) (fun e => nomatch hs.symm.trans e) (fun _ => ?_)
    fun e => nomatch hs.symm.trans e
  rw [Bool.eq_false_iff]
  intro hm
  rcases Slot.meetsStop_isOf hm with ⟨e, -⟩ | ⟨e, -⟩ <;> exact nomatch hk.symm.trans e

/-! ## Gate open -/

/-- A TOTALIZE slot at its gate open. -/
def State.gateOpenedSlot (s : State) (n : SlotId) (gate : Tick) : Slot :=
  let x := s.slot n
  { x with
    state := .gating
    data := { x.data with
      start := some (s.boundaryAt x.plan gate)
      marks := { x.data.marks with refFault := x.data.marks.refFault || !s.horizonLocked } } }

/-- The state that the gate open of slot n leaves, before the end of the event. -/
def State.gateOpened (s : State) (n : SlotId) (gate : Tick) : State := s.setSlot n (s.gateOpenedSlot n gate)

section
variable {s : State} {n : SlotId} {gate : Tick}

theorem State.gateOpenedSlot_state (s : State) (n : SlotId) (gate : Tick) :
    (s.gateOpenedSlot n gate).state = .gating := rfl

theorem State.gateOpened_slot (s : State) (n : SlotId) (gate : Tick) :
    (s.gateOpened n gate).slot n = s.gateOpenedSlot n gate := by
  unfold State.gateOpened; rw [State.slot_setSlot, if_pos rfl]

theorem exec_totalizeGateOpen_due (hs : s.horizonStarted = true) (hst : (s.slot n).state = .arming)
    (hk : (s.slot n).plan.kind = .totalize) (ho : (s.slot n).data.gateOpen = some gate)
    (ht : (s.horizonTime - gate).toNat < 2 ^ 63) :
    exec (.totalizeGateOpen n) s = .next (s.gateOpened n gate).conclude := by
  have hdue : s.gateOpenDue n = some gate := by
    unfold State.gateOpenDue
    dsimp only
    rw [ho]
    refine if_pos ?_
    rw [Bool.and_eq_true, decide_eq_true_eq, State.reached_iff_Reached]
    exact ⟨⟨hst, hk⟩, hs, ht⟩
  show execTotalizeGateOpen n s = _
  unfold execTotalizeGateOpen
  rw [hdue]
  rfl

/-- No stamp of the instant does anything to a slot whose TOTALIZE gate has opened. -/
theorem State.gateOpened_settle (hk : (s.slot n).plan.kind = .totalize) :
    UpToFinishes (s.gateOpenedSlot n gate) ((s.gateOpened n gate).settle.slot n) := by
  have hw : (s.gateOpenedSlot n gate).awaitsArming .slotDone = false := Slot.awaitsArming_of_state _ nofun
  rw [← State.gateOpened_slot] at hw ⊢
  refine State.settle_ignores (Slot.judgeInstant_ignores (Slot.seenFinish_not_waiting _ hw) fun g _ => ?_) hw
  rw [State.gateOpened_slot]
  exact Slot.judgeStamp_totalizeGating (x := s.gateOpenedSlot n gate) rfl hk _ _ _ g

theorem State.gateOpened_step (hst : (s.slot n).state = .arming) : EngineStep s (s.gateOpened n gate).conclude :=
  (s.setSlot_step n (s.gateOpenedSlot n gate) ⟨rfl, rfl⟩ (by rw [hst]; exact nofun)
    (by rw [State.gateOpenedSlot_state]; exact nofun)).trans (State.conclude_step _)

theorem State.gateOpened_quiet (q : s.Quiet) : (s.gateOpened n gate).Quiet :=
  q.setSlot n _ (fun _ hf => hf) fun _ he => he

/-- The first part of O36. -/
theorem State.gateOpened_concludes (hst : (s.slot n).state = .arming) (hk : (s.slot n).plan.kind = .totalize) :
    let t := (s.gateOpened n gate).conclude
    EngineStep s t ∧ t.stamps = s.stamps
    ∧ s.GrantOnly n { s.gateOpenedSlot n gate with finishes := (t.slot n).finishes } (t.slot n)
    ∧ (s.Quiet → (t.slot n).finishes = (s.slot n).finishes ∧ ∀ m, m ≠ n → s.GrantOnly m (s.slot m) (t.slot m)) := by
  have hgrant : ∀ m, s.GrantOnly m ((s.gateOpened n gate).settle.slot m) ((s.gateOpened n gate).conclude.slot m) :=
    State.conclude_slot rfl rfl
  refine ⟨State.gateOpened_step hst, State.conclude_stamps _, (hgrant n).of_upToFinishes (State.gateOpened_settle hk),
    fun q => ?_⟩
  rw [State.settle_quiet (State.gateOpened_quiet q)] at hgrant
  refine ⟨?_, fun m hm => ?_⟩
  · have hfin := (hgrant n).keepsStamps.2
    rw [State.gateOpened_slot] at hfin
    exact hfin
  · have hg := hgrant m
    unfold State.gateOpened at hg
    rw [State.slot_setSlot, if_neg hm.symm] at hg
    exact hg

end

/-! ## Gate close -/

section
variable {s : State} {n : SlotId}

/-- The outcome of a TOTALIZE gate close. -/
def State.totalizeOutcome (s : State) (n : SlotId) : Outcome :=
  let x := s.slot n
  x.outcome n s.horizonLocked .valued x.data.marks false x.data.start (some (s.boundaryAt x.plan x.data.gateClose)) none

/-- A TOTALIZE slot with the outcome of its gate close placed. -/
def State.totalizePlaced (s : State) (n : SlotId) : Slot := (s.slot n).place (s.totalizeOutcome n)

theorem State.totalizeEnd_eq (s : State) (n : SlotId) : s.totalizeEnd n =
    (s.totalizePlaced n).afterFinish (s.slot n).data.gateClose s.horizonLocked
      ((s.totalizePlaced n).nextGate (s.boundaryAt (s.slot n).plan (s.slot n).data.gateClose) s.horizonLocked) := rfl

theorem State.totalizePlaced_samePlan (s : State) (n : SlotId) : SamePlan (s.slot n) (s.totalizePlaced n) :=
  Slot.place_samePlan _ _

theorem State.totalizeEnd_samePlan (s : State) (n : SlotId) : SamePlan (s.slot n) (s.totalizeEnd n) :=
  (s.totalizePlaced_samePlan n).trans (Slot.afterFinish_samePlan _ _ _ _ ⟨rfl, rfl⟩)

theorem State.totalizePlaced_repeats {r : RepeatMode} (hr : (s.slot n).plan.repeatMode = r) :
    (s.totalizePlaced n).plan.repeatMode = r := by
  rw [(s.totalizePlaced_samePlan n).1, hr]

theorem State.totalizeEnd_single (hr : (s.slot n).plan.repeatMode = .single) :
    s.totalizeEnd n = (s.totalizePlaced n).toIdle :=
  Slot.afterFinish_single _ _ _ (State.totalizePlaced_repeats hr)

theorem State.totalizeEnd_triggered (hr : (s.slot n).plan.repeatMode = .triggered) :
    s.totalizeEnd n = (s.totalizePlaced n).rearm (s.slot n).data.gateClose s.horizonLocked :=
  Slot.afterFinish_triggered _ _ _ (State.totalizePlaced_repeats hr)

theorem State.totalizeEnd_continuous (hr : (s.slot n).plan.repeatMode = .continuous) : s.totalizeEnd n =
    (s.totalizePlaced n).nextGate (s.boundaryAt (s.slot n).plan (s.slot n).data.gateClose) s.horizonLocked :=
  Slot.afterFinish_continuous _ _ _ (State.totalizePlaced_repeats hr)

/-- A re-armed TOTALIZE slot is in ARMING: also under IMMEDIATE, where it waits there for its gate (R82, R93). -/
theorem Slot.rearm_totalize {x : Slot} (hk : x.plan.kind = .totalize) (h : Tick) (l : Bool) :
    (x.rearm h l).state = .arming := by
  unfold Slot.rearm
  dsimp only
  split
  · rw [Slot.begin_state_eq]
    dsimp only
    rw [hk]
  · rfl

/-- No TOTALIZE slot is in STARTING after its gate close. -/
theorem State.totalizeEnd_state (hk : (s.slot n).plan.kind = .totalize) : (s.totalizeEnd n).state ≠ .starting := by
  cases hr : (s.slot n).plan.repeatMode with
  | single => rw [State.totalizeEnd_single hr]; exact nofun
  | continuous => rw [State.totalizeEnd_continuous hr]; exact nofun
  | triggered =>
    rw [State.totalizeEnd_triggered hr, Slot.rearm_totalize (by rw [(s.totalizePlaced_samePlan n).1, hk])]
    exact nofun

theorem State.totalizeEnd_awaitsArming (ht : ¬((s.slot n).plan.repeatMode = .triggered ∧ (s.slot n).plan.armSource = .slotDone)) :
    (s.totalizeEnd n).awaitsArming .slotDone = false := by
  rw [State.totalizeEnd_eq]
  exact Slot.afterFinish_awaitsArming _ _ nofun (by rw [(s.totalizePlaced_samePlan n).1]; exact ht)

/-- The gate close places its outcome (R76, R93). -/
theorem State.totalizeEnd_placed (s : State) (n : SlotId) : (s.totalizeEnd n).finished = (s.totalizePlaced n).finished
    ∧ (s.totalizeEnd n).lost = (s.totalizePlaced n).lost :=
  Slot.afterFinish_placed _ _ ⟨rfl, rfl⟩

/-- No slot is its own dependent, so its gate close leaves it as the finish does (R61, R86). -/
theorem State.totalizeClosed_self (hc : (s.slot n).plan.ChainsUpward n) : (s.totalizeClosed n).slot n = s.totalizeEnd n := by
  rw [State.totalizeClosed_slot]
  dsimp only
  rw [if_pos rfl, if_neg]
  rw [(s.totalizeEnd_samePlan n).1]
  rintro ⟨hsrc, harm⟩
  have hlt := hc.2 hsrc
  rw [harm] at hlt
  exact lt_irrefl n hlt

theorem State.totalizeClosed_step (ho : (s.slot n).state ≠ .idle) : EngineStep s (s.totalizeClosed n) := by
  refine s.finish_step n _ _ (s.totalizeEnd_samePlan n) ho ?_
  rw [State.totalizeEnd_eq]
  exact Slot.afterFinish_tells _ _ _ (s.totalizePlaced_samePlan n).1 nofun

theorem State.totalizeClosed_stamps : (s.totalizeClosed n).stamps = s.stamps := (State.announce_unit _ _ _).2

/-- The stamps of the instant are of no use to a slot whose gate has closed. -/
theorem State.totalizeClosed_settled (hq : s.NoOtherCause n) (hk : (s.slot n).plan.kind = .totalize)
    (hc : (s.slot n).plan.ChainsUpward n) :
    UpToFinishes (s.totalizeEnd n) ((s.totalizeClosed n).settle.slot n) := by
  have hslot := State.totalizeClosed_self hc
  by_cases ht : (s.slot n).plan.repeatMode = .triggered ∧ (s.slot n).plan.armSource = .slotDone
  · rw [State.totalizeClosed_settle (hq.2 ht.1 ht.2), hslot]
    exact .refl _
  · have hw := State.totalizeEnd_awaitsArming ht
    rw [← hslot] at hw ⊢
    refine State.settle_ignores (Slot.judgeInstant_ignores (Slot.seenFinish_not_waiting _ hw) fun g hg => ?_) hw
    rw [hslot, State.totalizeClosed_horizon.1, Slot.mem_stampsAt] at hg
    rw [hslot]
    refine Slot.judgeStamp_useless _ _ _ ?_ fun hs => absurd hs (State.totalizeEnd_state hk)
    rw [(s.totalizeEnd_samePlan n).1]
    exact hq.1 g ((s.totalizeEnd_remembers n).1 g hg.1) hg.2

/-- What the gate close leaves of its slot, up to the grant: plan, state and data (R77). -/
theorem State.totalizeClosed_concludes (hq : s.NoOtherCause n) (hk : (s.slot n).plan.kind = .totalize)
    (hc : (s.slot n).plan.ChainsUpward n) :
    let y := (s.totalizeClosed n).conclude.slot n
    SamePlan (s.totalizeEnd n) y ∧ y.state = (s.totalizeEnd n).state ∧ y.data = (s.totalizeEnd n).data := by
  have hkeeps := (State.conclude_slot State.totalizeClosed_unit (State.totalizeClosed_horizon (s := s) (n := n)).2.2 n).keeps
  obtain ⟨fs, hleft⟩ := State.totalizeClosed_settled hq hk hc
  rw [hleft] at hkeeps
  exact hkeeps

/-- The outcome of the gate close is formed (R76, R99). -/
theorem State.totalizeClosed_forms (hq : s.NoOtherCause n) (hk : (s.slot n).plan.kind = .totalize)
    (hc : (s.slot n).plan.ChainsUpward n) :
    s.OutcomeFormed (s.totalizeClosed n).conclude n (s.totalizeOutcome n) := by
  obtain ⟨hu, hr⟩ := State.settle_frame (s := s) State.totalizeClosed_unit
    (State.totalizeClosed_horizon (s := s) (n := n)).2.2
  obtain ⟨fs, hleft⟩ := State.totalizeClosed_settled hq hk hc
  refine State.OutcomeFormed.of_settled hu hr (Slot.placed_of_place ?_ ?_) <;> rw [hleft]
  · exact (s.totalizeEnd_placed n).1
  · exact (s.totalizeEnd_placed n).2

/-! ## The other slots and the ports at the gate close -/

/-- In a quiet instant the gate close leaves another slot, up to the grant, as its finish does. -/
theorem State.totalizeClosed_other (q : s.Quiet) (m : SlotId) :
    s.GrantOnly m ((s.totalizeClosed n).slot m) ((s.totalizeClosed n).conclude.slot m) := by
  have hgrant := State.conclude_slot State.totalizeClosed_unit (State.totalizeClosed_horizon (s := s) (n := n)).2.2 m
  rwa [State.totalizeClosed_settle q] at hgrant

theorem State.totalizeClosed_apart {m : SlotId} (hm : m ≠ n) (ha : (s.slot m).ApartFrom n) :
    (s.totalizeClosed n).slot m = s.slot m := by
  rw [State.totalizeClosed_slot]
  dsimp only
  rw [if_neg hm.symm, if_neg ha]

/-- A slot that does not wait for the finish changes in what it remembers alone (R86). -/
theorem State.totalizeClosed_upTo {m : SlotId} (hm : m ≠ n) (hw : (s.slot m).awaitsArming .slotDone = false) :
    UpToFinishes (s.slot m) ((s.totalizeClosed n).slot m) := by
  have hset : (s.setSlot n (s.totalizeEnd n)).slot m = s.slot m := by rw [State.slot_setSlot, if_neg hm.symm]
  have hann := State.announce_slot (s.setSlot n (s.totalizeEnd n)) n m
    ⟨some (s.slot n).data.gateClose, (s.slot n).isSingle, none⟩ (by rw [hset]; exact hw)
  rw [hset] at hann
  exact hann

/-- No other slot returns to IDLE at the gate close. -/
theorem State.totalizeClosed_idle {m : SlotId} (q : s.Quiet) (hm : m ≠ n)
    (hi : ((s.totalizeClosed n).conclude.slot m).state = .idle) : (s.slot m).state = .idle := by
  rw [(State.totalizeClosed_other q m).keeps.2.1, State.totalizeClosed_slot] at hi
  dsimp only at hi
  rw [if_neg hm.symm] at hi
  split at hi
  · exact Slot.seeFinish_state _ _ _ hi
  · exact hi

end

/-- The DONE flags where no slot but n returns to IDLE, and slot n does so exactly under SINGLE (R77, R131). -/
theorem EngineStep.ports_of_finish {s t : State} (h : EngineStep s t) {n : SlotId} (ho : (s.slot n).state ≠ .idle)
    (hm : ∀ m, m ≠ n → (t.slot m).state = .idle → (s.slot m).state = .idle)
    (hn : (s.slot n).plan.repeatMode = .single → (t.slot n).state = .idle) (p : PortId) :
    t.port p = if (s.slot n).plan.repeatMode = .single ∧ (s.port p).subscription.getLsbD n = true
      then { s.port p with flags := (s.port p).flags ||| 0b0000100 } else s.port p := by
  split
  · next c => exact (h.told p).1 ⟨n, c.2, c.1, ho, hn c.1⟩
  · next c =>
    refine (h.told p).2 ?_
    rintro ⟨m, hsub, hsingle, hact, hidle⟩
    by_cases e : m = n
    · subst e; exact c ⟨hsingle, hsub⟩
    · exact hact (hm m e hidle)

/-- Settles O36: the gate opens by State.gateOpened_concludes; at gate close the slot finishes, the stamps of the instant
being of no use to it, and its dependents see the finish. -/
theorem gateOfTotalize : Obligations.GateOfTotalize := by
  refine ⟨fun n gate s hh => ?_, fun n opened s hq hh => ?_⟩
  · dsimp only
    intro hst hk hopen ht
    rw [← State.boundaryAt_eq]
    exact ⟨_, exec_totalizeGateOpen_due hh hst hk hopen ht, State.gateOpened_concludes hst hk⟩
  · dsimp only
    intro hst hk hc hstart ht
    rw [← State.boundaryAt_eq]
    have ho : (s.slot n).state ≠ .idle := by rw [hst]; exact nofun
    have hstep := (State.totalizeClosed_step ho).trans (State.conclude_step _)
    obtain ⟨hplan, hstate, hdata⟩ := State.totalizeClosed_concludes hq hk hc
    have hidle : (s.slot n).plan.repeatMode = .single → ((s.totalizeClosed n).conclude.slot n).state = .idle := by
      intro hr
      rw [hstate, State.totalizeEnd_single hr]
      rfl
    have houtcome : s.totalizeOutcome n = {
        slot := n, kind := .totalize, reportAs := (s.slot n).plan.reportAs, planGen := (s.slot n).planGen, result := .valued
        flags := ⟨false, false, (s.slot n).data.marks.timeStepped, (s.slot n).data.marks.refFault || !s.horizonLocked,
          (s.slot n).data.marks.calChanged, false⟩
        start := some opened, stop := some (s.boundaryAt (s.slot n).plan (s.slot n).data.gateClose), edgesSince := none
        lost := 0 } := by
      unfold State.totalizeOutcome Slot.outcome
      dsimp only
      rw [hk, hstart]
      rfl
    refine ⟨_, _, exec_totalizeGateClose_due hh hst hk ht, hstep,
      (State.conclude_stamps _).trans State.totalizeClosed_stamps, State.totalizeClosed_forms hq hk hc, ?_, ?_, houtcome,
      fun hr => ⟨hidle hr, hstep.done hr ho (hidle hr)⟩, fun hr => ?_, fun hr => ?_, fun q m hm => ⟨fun ha => ?_, fun hw => ?_⟩,
      fun q => hstep.ports_of_finish ho (fun m hm => State.totalizeClosed_idle q hm) hidle⟩
    · rw [houtcome]; rfl
    · rw [houtcome]; rfl
    · have hrearmed := Slot.rearm_rearmedAt (s.totalizePlaced_samePlan n) (s.slot n).data.gateClose s.horizonLocked
      rw [← State.totalizeEnd_triggered hr] at hrearmed
      exact hrearmed.of_data hplan hstate hdata
    · rw [hstate, hdata, State.totalizeEnd_continuous hr]
      unfold Slot.nextGate
      rw [(s.totalizePlaced_samePlan n).1]
      exact ⟨rfl, rfl, rfl, rfl, rfl, rfl⟩
    · have hother := State.totalizeClosed_other (n := n) q m
      rw [State.totalizeClosed_apart hm fun c => ha.elim (fun h => h c.1) fun h => h c.2] at hother
      exact hother
    · have hfalse : (s.slot m).awaitsArming .slotDone = false :=
        Bool.eq_false_iff.2 fun w => hw ((s.slot m).waitsForFinish_iff.2 w)
      exact (State.totalizeClosed_other q m).of_upToFinishes (State.totalizeClosed_upTo hm hfalse)

end Sys2Proof.Machine
end

section
/-! PROOFS. Built tables and the laws of calibration, CALIBRATE and calibration hits (R39, R40, R42 to R46, R48, R49, R51,
R53). -/

namespace Sys2Proof.Machine

/-! ## Built tables (R40, R43, R44) -/

theorem buildTable_toNat (h : Vector Nat 160) (c : Code) : (buildTable h)[c].toNat = fineValue h c := by
  have hle : fineValue h c ≤ 255 := min_le_left _ _
  simp only [buildTable, Fin.getElem_fin, Vector.getElem_ofFn, BitVec.toNat_ofNat]
  exact Nat.mod_eq_of_lt (Nat.lt_succ_of_le hle)

theorem hitsBelow_mono (h : Vector Nat 160) {c d : Nat} (hcd : c ≤ d) : hitsBelow h c ≤ hitsBelow h d :=
  (List.take_sublist_take_left hcd).sum_le_sum fun _ _ => Nat.zero_le _

theorem hitsBelow_succ (h : Vector Nat 160) (c : Code) : hitsBelow h (c + 1) = hitsBelow h c + h[c] := by
  have hlen : c.val < h.toList.length := by simp
  unfold hitsBelow
  rw [List.sum_take_succ _ _ hlen]
  simp

/-- The middle of a code's hits moves up from code to code. -/
theorem midpoint_mono (h : Vector Nat 160) {c d : Code} (hcd : c ≤ d) :
    2 * hitsBelow h c + h[c] ≤ 2 * hitsBelow h d + h[d] := by
  rcases hcd.eq_or_lt with rfl | hlt
  · exact le_rfl
  · have hnext := hitsBelow_succ h c
    have hbelow := hitsBelow_mono h (show c.val + 1 ≤ d.val from hlt)
    omega

/-- A built table rises (R40, R43). -/
theorem buildTable_rises (h : Vector Nat 160) : tableRises (buildTable h) := by
  intro c d hcd
  rw [buildTable_toNat, buildTable_toNat]
  exact min_le_min le_rfl (Nat.div_le_div_right (Nat.mul_le_mul_right 256 (midpoint_mono h hcd)))

/-- A list in which no entry exceeds k sums to at most k for each entry above 0. -/
theorem sum_le_countP_mul (l : List Nat) (k : Nat) (h : ∀ n ∈ l, n ≤ k) :
    l.sum ≤ l.countP (fun n => decide (0 < n)) * k := by
  induction l with
  | nil => simp
  | cons n rest ih =>
    have hrest := ih fun m hm => h m (List.mem_cons_of_mem _ hm)
    have hn := h n List.mem_cons_self
    rw [List.sum_cons, List.countP_cons]
    by_cases hpos : 0 < n
    · rw [if_pos (decide_eq_true hpos), Nat.add_mul]
      omega
    · rw [if_neg (by simpa using hpos), Nat.add_zero]
      omega

/-- Settles O19: the formula, its monotony, and the pigeonhole of 65,536 hits in fewer than 64 codes. -/
theorem builtTablesAndTheirTest : Obligations.BuiltTablesAndTheirTest := by
  refine ⟨fun h => ⟨buildTable_toNat h, buildTable_rises h, defaultTable_rises⟩, fun h htotal hspread => ?_⟩
  by_contra hnone
  have hlimit : ∀ n ∈ h.toList, n ≤ 1024 := by
    intro n hn
    obtain ⟨j, hj, rfl⟩ := List.getElem_of_mem hn
    have hj' : j < 160 := by simpa using hj
    by_contra hgt
    exact hnone ⟨⟨j, hj'⟩, by simpa using hgt⟩
  have hsum := sum_le_countP_mul h.toList 1024 hlimit
  unfold hitTotal at htotal
  omega

/-! ## CALIBRATE (R48) -/

theorem execCalibrate_applied {p : PortId} {i : InputId} {s : State} (tag : Byte)
    (hr : (s.port p).rights.getLsbD 1 = true) (hb : s.inputBusy i = false) :
    execCalibrate p tag (BitVec.ofNat 8 i.val) s =
      .next (((s.setInput i { s.input i with state := .calibrating, histogram := emptyHistogram }).raiseOthers .change
        p).respond p tag .calibrate .ok (InputState.calibrating.code :: bytesBE 4 (s.input i).calGen.toNat)) := by
  unfold execCalibrate
  rw [State.withRight_held tag _ ((permitted_input rfl).trans hr), numberOf_input]
  dsimp only
  rw [hb]
  rfl

/-- Settles O14: the input is not busy, so the request is applied. -/
theorem calibrateStarts : Obligations.CalibrateStarts := by
  intro p tag i s hr hs hu
  exact ⟨_, execCalibrate_applied tag hr (State.inputBusy_eq_false hs hu), s.inputChanged_spec i _ p tag .calibrate .ok _⟩

/-! ## Calibration hits (R39, R42, R45, R46, R49) -/

theorem State.block_input (s : State) (i : InputId) :
    (s.block i).input i = { s.input i with blockedUntil := some (s.coarse + 3) } :=
  (State.input_setInput _ _ _ _).trans (if_pos rfl)

/-- A later edge of one coarse period has passed every stage that an earlier one has (R39). -/
theorem State.delayCode_mono {s u : State} (i : InputId) {f g : WithinTick} (hc : s.coarse = u.coarse)
    (h : s.tick.toNat * 15625 + f.val ≤ u.tick.toNat * 15625 + g.val) :
    (s.delayCode i f).val ≤ (u.delayCode i g).val := by
  show List.countP _ _ ≤ List.countP _ _
  rw [hc]
  refine List.countP_mono_left fun k _ hk => ?_
  exact decide_eq_true ((of_decide_eq_true hk).trans h)

/-- Settles O18: a hit is State.hit of a state whose dead time has begun. -/
theorem calibrationHitCountsOrCompletes : Obligations.CalibrationHitCountsOrCompletes := by
  refine ⟨fun i f s hs hd => ?_, fun i f s hno => ?_, fun i f g s u hc h => State.delayCode_mono i hc h⟩
  · have hstep := (s.block_inputStep i).trans (State.hit_inputStep (s.block i) i (s.delayCode i f))
    have hcounted := State.hit_counted (s := s) (u := s.block i) i (s.delayCode i f) rfl
    rw [State.block_input] at hcounted
    have hstamps : ((s.block i).hit i (s.delayCode i f)).stamps = s.stamps := by
      rw [State.hit_eq]
      split <;> rfl
    refine ⟨_, if_pos ⟨hs, hd⟩, ?_, hstep.others, hcounted⟩
    have hrest := hstep.rest
    rw [hstamps] at hrest
    exact hrest
  · refine if_neg ?_
    rintro ⟨hs, hd⟩
    rcases hno with e | e
    · exact nomatch e.symm.trans hs
    · exact nomatch e.symm.trans hd

/-! ## The laws of calibration under a change of one input (R40, R42, R43) -/

/-- The laws of one input's calibration. -/
def Input.CalibrationLegal (x : Input) : Prop := tableRises x.table ∧ x.HistogramLegal

section
variable {x y : Input} {s : State} {i : InputId}

/-- The laws speak of the table, the histogram, the state and the mode alone. -/
theorem Input.CalibrationLegal.of_eq (h : x.CalibrationLegal) (ht : y.table = x.table)
    (hh : y.histogram = x.histogram) (hs : y.state = x.state) (hm : y.settings.mode = x.settings.mode) :
    y.CalibrationLegal := by
  refine ⟨ht ▸ h.1, hh ▸ h.2.total, ?_⟩
  rw [hs, hm, hh]
  exact h.2.empty

/-- An empty histogram is legal in every state and mode. -/
theorem Input.CalibrationLegal.of_empty (ht : tableRises y.table) (hh : y.histogram = emptyHistogram) :
    y.CalibrationLegal := by
  refine ⟨ht, ?_, fun _ _ => hh⟩
  rw [hh, hitTotal_emptyHistogram]
  decide

theorem Input.CalibrationLegal.complete (hx : x.CalibrationLegal) (h : Vector Nat 160) :
    (x.complete h).CalibrationLegal := by
  unfold Input.complete
  split
  · exact .of_empty (buildTable_rises h) rfl
  · exact .of_empty hx.1 rfl

/-- A hit where one may come, in CALIBRATING or under TRACK: it stays below 65,536 hits or empties the histogram (R42). -/
theorem Input.CalibrationLegal.hit (hx : x.CalibrationLegal) (c : Code)
    (hc : x.state = .calibrating ∨ x.settings.mode = .track) : (x.hit c).CalibrationLegal := by
  unfold Input.hit
  split
  · exact hx.complete _
  · next hlt =>
    refine ⟨hx.1, Nat.lt_of_not_le hlt, fun hs hm => ?_⟩
    rcases hc with e | e
    · exact nomatch hs.symm.trans e
    · exact nomatch hm.symm.trans e

theorem Input.CalibrationLegal.qualify (hx : x.CalibrationLegal) (k : Candidate) : (x.qualify k).CalibrationLegal := by
  rw [Input.qualify_eq]
  exact hx.of_eq rfl rfl rfl rfl

/-- New settings: a change from TRACK to FIXED empties the histogram (R53). -/
theorem Input.CalibrationLegal.stored (hx : x.CalibrationLegal) (new : Settings) : (x.stored new).CalibrationLegal := by
  by_cases hm : x.settings.mode = .track ∧ new.mode = .fixed
  · exact .of_empty hx.1 (if_pos hm)
  · have hh : (x.stored new).histogram = x.histogram := if_neg hm
    refine ⟨hx.1, by rw [hh]; exact hx.2.total, fun hs hn => ?_⟩
    rw [hh]
    refine hx.2.empty hs ?_
    cases hmode : x.settings.mode with
    | fixed => rfl
    | track => exact absurd ⟨hmode, hn⟩ hm

theorem State.CalibrationLegal.of_inputs {t : State} (h : s.CalibrationLegal) (hi : t.inputs = s.inputs) :
    t.CalibrationLegal := by
  intro j
  rw [State.input_eq, hi]
  exact h j

theorem State.CalibrationLegal.setInput (h : s.CalibrationLegal) (hx : x.CalibrationLegal) :
    (s.setInput i x).CalibrationLegal := by
  intro j
  rw [State.input_setInput]
  split
  · exact hx
  · exact h j

/-! ## The laws under what inputs do -/

theorem State.CalibrationLegal.hit (h : s.CalibrationLegal) (c : Code)
    (hc : (s.input i).state = .calibrating ∨ (s.input i).settings.mode = .track) : (s.hit i c).CalibrationLegal := by
  have hset : (s.setInput i ((s.input i).hit c)).CalibrationLegal := h.setInput (Input.CalibrationLegal.hit (h i) c hc)
  rw [State.hit_eq]
  split
  · exact hset
  · exact hset

theorem State.CalibrationLegal.qualify (h : s.CalibrationLegal) (k : Candidate) : (s.qualify i k).CalibrationLegal := by
  have hset : (s.setInput i ((s.input i).qualify k)).CalibrationLegal :=
    h.setInput (Input.CalibrationLegal.qualify (h i) k)
  cases hk : k.capture with
  | none => rw [State.qualify_uncaptured hk]; exact hset
  | some cap =>
    have hstamped : (s.stamped i k cap).CalibrationLegal := hset.of_inputs rfl
    have hin : (s.stamped i k cap).input i = (s.input i).qualify k :=
      (State.input_setInput _ _ _ _).trans (if_pos rfl)
    rw [State.qualify_captured hk]
    split
    · next htrack =>
      refine hstamped.hit cap.code (.inr ?_)
      rw [hin, Input.qualify_eq]
      exact htrack.2
    · exact hstamped

theorem State.CalibrationLegal.settleWindow (h : s.CalibrationLegal) : (s.settleWindow i).CalibrationLegal := by
  unfold State.settleWindow
  split
  · exact h
  · split
    · exact h.qualify _
    · exact h

theorem State.CalibrationLegal.block (h : s.CalibrationLegal) : (s.block i).CalibrationLegal :=
  h.setInput (Input.CalibrationLegal.of_eq (h i) rfl rfl rfl rfl)

theorem State.CalibrationLegal.judgeChange (h : s.CalibrationLegal) (level : Level) (t : Tick)
    (capture : Option Capture) : (s.judgeChange i level t capture).CalibrationLegal := by
  unfold State.judgeChange
  dsimp only
  split
  · exact h.setInput (Input.CalibrationLegal.of_eq (h i) rfl rfl rfl rfl)
  · split
    · exact h.qualify _
    · exact h.setInput (Input.CalibrationLegal.of_eq (h i) rfl rfl rfl rfl)

theorem State.CalibrationLegal.levelChange (h : s.CalibrationLegal) (level : Level) (c : Code) :
    (s.levelChange i level c).CalibrationLegal := by
  have hw : (s.settleWindow i).CalibrationLegal := h.settleWindow
  unfold State.levelChange
  dsimp only
  split
  · exact hw
  · split
    · exact hw.block.judgeChange _ _ _
    · exact hw.judgeChange _ _ _

theorem State.CalibrationLegal.switchLevel (h : s.CalibrationLegal) (level : Level) :
    (s.switchLevel i level).CalibrationLegal := by
  have hw : (s.settleWindow i).CalibrationLegal := h.settleWindow
  unfold State.switchLevel
  dsimp only
  split
  · exact hw
  · exact hw.judgeChange _ _ _

theorem State.CalibrationLegal.applySettings (h : s.CalibrationLegal) (p : PortId) (new : Settings) :
    (s.applySettings p i new).CalibrationLegal := by
  have hstored : (s.setInput i ((s.input i).stored new)).CalibrationLegal :=
    h.setInput (Input.CalibrationLegal.stored (h i) new)
  refine State.CalibrationLegal.of_inputs (s := if new.source = (s.input i).settings.source
    then s.setInput i ((s.input i).stored new) else (s.setInput i ((s.input i).stored new)).switchLevel i
      ((s.setInput i ((s.input i).stored new)).selectedLevel new.source i)) ?_ rfl
  split
  · exact hstored
  · exact hstored.switchLevel _

theorem State.CalibrationLegal.advance (h : s.CalibrationLegal) : s.advance.CalibrationLegal := by
  intro j
  show (s.advance.input j).CalibrationLegal
  unfold State.advance
  split
  · have hj : ∀ u : State, u.inputs = (Vector.ofFn fun i : InputId => s.inputs[i].forgetPassed (s.coarse + 1)) →
        u.input j = (s.input j).forgetPassed (s.coarse + 1) := fun u e => by
      rw [State.input_eq, e]
      simp [State.input]
    rw [hj _ rfl]
    exact Input.CalibrationLegal.of_eq (h j) rfl rfl rfl rfl
  · exact h j

end

/-! ## The laws under every command -/

section
variable {s : State}

theorem execSetInput_calibrationLegal (h : s.CalibrationLegal) (p : PortId) (tag input : Byte) (g : Option Gen)
    (src : Byte) (w k : BitVec 16) (m : Byte) :
    Answers State.CalibrationLegal (execSetInput p tag input g src w k m s) := by
  refine .next (State.withRight_cases (P := State.CalibrationLegal) ?_ h)
  split
  · exact h
  · next i _ =>
    dsimp only
    split
    · exact h
    · split
      · exact h
      · split
        · exact (h.applySettings (i := i) p _).of_inputs rfl
        · exact h

theorem execCalibrate_calibrationLegal (h : s.CalibrationLegal) (p : PortId) (tag input : Byte) :
    Answers State.CalibrationLegal (execCalibrate p tag input s) := by
  refine .next (State.withRight_cases (P := State.CalibrationLegal) ?_ h)
  split
  · exact h
  · next i _ =>
    dsimp only
    split
    · exact h
    · exact (h.setInput (i := i) (x := { s.input i with state := .calibrating, histogram := emptyHistogram })
        (.of_empty (h i).1 rfl)).of_inputs rfl

theorem execInputLevelChange_calibrationLegal (h : s.CalibrationLegal) (i : InputId) (src : Source) (level : Level)
    (f : WithinTick) : Answers State.CalibrationLegal (execInputLevelChange i src level f s) := by
  unfold execInputLevelChange
  split
  · have hpin : (s.setInput i { s.input i with pinLevel := level }).CalibrationLegal :=
      h.setInput (Input.CalibrationLegal.of_eq (h i) rfl rfl rfl rfl)
    exact .ite (fun _ => hpin.levelChange _ _) hpin
  · exact .ite (fun _ => h.settleWindow.levelChange _ _) h

theorem execCalibrationHit_calibrationLegal (h : s.CalibrationLegal) (i : InputId) (f : WithinTick) :
    Answers State.CalibrationLegal (execCalibrationHit i f s) := by
  refine .ite (fun hs => h.block.hit _ (.inl ?_)) h
  rw [State.block_input]
  exact hs.1

/-- Every command keeps the laws of calibration. -/
theorem exec_keeps_calibrationLegal {c : Instr} {t : State} (hs : s.CalibrationLegal) (h : exec c s = .next t) :
    t.CalibrationLegal := by
  have hfront : t.front = s.front → t.CalibrationLegal := fun e => hs.of_inputs (congrArg Front.inputs e)
  cases hc : concernsInputs c
  · exact hfront (exec_engineSide c s hc t h).front
  · cases c with
    | deviceReset a b l => exact deviceReset_calibrationLegal h
    | setInput p tag input g src w k m => exact execSetInput_calibrationLegal hs p tag input g src w k m t h
    | calibrate p tag input => exact execCalibrate_calibrationLegal hs p tag input t h
    | inputLevelChange i src level f => exact execInputLevelChange_calibrationLegal hs i src level f t h
    | windowEndQualification i => exact Answers.next (P := State.CalibrationLegal) hs.settleWindow t h
    | deadTimeEnd i =>
      change execDeadTimeEnd i s = .next t at h
      unfold execDeadTimeEnd at h
      split at h
      · cases h; exact hs
      · cases h; exact hs.setInput (Input.CalibrationLegal.of_eq (hs i) rfl rfl rfl rfl)
    | calibrationHit i f => exact execCalibrationHit_calibrationLegal hs i f t h
    | horizonStart =>
      change execHorizonStart s = .next t at h
      unfold execHorizonStart at h
      split at h <;> (cases h; exact hs)
    | writePlan p tag slot g items =>
      rcases execWritePlan_requested p tag slot g items s t h with e | ⟨n, y, e, -⟩
      · exact hfront e.front
      · exact hfront e
    | arm p tag slot =>
      rcases execArm_requested p tag slot s t h with e | ⟨n, y, e, -⟩
      · exact hfront e.front
      · exact hfront e
    | stampOffer i =>
      change execStampOffer i s = .next t at h
      unfold execStampOffer at h
      split at h
      · cases h; exact hs
      · next st _ =>
        have hinputs : (s.offer st).conclude.inputs = s.inputs := by rw [(s.conclude_offer_step st).rest]
        rw [← Host.Outcome.next.inj h]
        exact hs.of_inputs hinputs
    | _ => cases hc

end

/-- Settles O55: every command keeps the laws, and a tick changes no table and no histogram. -/
theorem stepKeepsCalibrationLegal : Obligations.StepKeepsCalibrationLegal :=
  step_keeps (fun _ _ => id) (fun _ _ _ => id) (fun _ _ _ => exec_keeps_calibrationLegal) fun _ h _ => h.advance

end Sys2Proof.Machine
end

section
/-! PROOFS. A stamp that ends a measurement, as the end of its offer leaves the slot: the stop of RECIPROCAL and the tags of
TIMETAG (R54, R71 to R73, R76, R77, R82, R86, R87, R94, R95). -/

namespace Sys2Proof.Machine

/-! ## What a judged slot remembers -/

section
variable {x : Slot} {n : SlotId} {h : Tick} {l : Bool} {f : Offered}

/-- What the slot goes on with under CONTINUOUS after a stop (R89, R92). -/
def Slot.afterStop (x : Slot) (n : SlotId) (l : Bool) (f : Offered) : Slot :=
  if x.plan.kind = .reciprocal then (x.stopPlaced n l f).nextReciprocal f l
  else (x.stopPlaced n l f).nextInterval f.st.corrected true l

theorem Slot.takeStop_eq : (x.takeStop n h l f).1 = (x.stopPlaced n l f).afterFinish h l (x.afterStop n l f) := rfl

theorem Slot.afterStop_kept : (x.afterStop n l f).finished = (x.stopPlaced n l f).finished
    ∧ (x.afterStop n l f).lost = (x.stopPlaced n l f).lost ∧ (x.afterStop n l f).fresh = (x.stopPlaced n l f).fresh
    ∧ (x.afterStop n l f).finishes = (x.stopPlaced n l f).finishes ∧ (x.afterStop n l f).state ≠ .arming := by
  unfold Slot.afterStop
  split
  · refine ⟨rfl, rfl, rfl, rfl, ?_⟩
    rcases (x.stopPlaced n l f).nextReciprocal_inFlight f l with e | e <;> rw [e] <;> exact nofun
  · exact ⟨rfl, rfl, rfl, rfl, nofun⟩

/-- The outcome of a tag (R73, R94). -/
def Slot.tagOutcome (x : Slot) (n : SlotId) (l : Bool) (f : Offered) : Outcome :=
  x.outcome n l .valued
    { (if x.data.previousTag.isSome then x.crossedMarks f.steps else x.data.marks) with
      calChanged := x.data.marks.calChanged || x.data.previousTag.any fun t => decide (t.calGen ≠ f.st.calGen) }
    (decide (x.plan.prescale.toNat < (edgesSincePrevious x.data.previousTag f.st).toNat)) (some f.endpoint) none
    (some (edgesSincePrevious x.data.previousTag f.st))

/-- A slot whose tag has been placed, before it moves on. -/
def Slot.tagEntered (x : Slot) (n : SlotId) (l : Bool) (f : Offered) : Slot := (x.finishedBy f).place (x.tagOutcome n l f)

/-- A slot that waits for the tag after this one (R94, R95). -/
def Slot.nextTag (x : Slot) (n : SlotId) (l : Bool) (f : Offered) : Slot :=
  { x.tagEntered n l f with
    data := { MeasData.empty with
      previousTag := some ⟨f.st.edgeCount, f.st.calGen⟩, startSteps := f.steps, tags := x.data.tags + 1
      marks := Marks.begin false l } }

theorem Slot.takeTag_eq : x.takeTag n h l f =
    if quotaReached x.plan (x.data.tags + 1)
    then ((x.tagEntered n l f).afterFinish h l (x.tagEntered n l f), ⟨some f.st.corrected, x.isSingle, some f.st⟩)
    else (x.nextTag n l f, ⟨some f.st.corrected, false, some f.st⟩) := by
  unfold Slot.takeTag Slot.nextTag Slot.tagEntered Slot.tagOutcome
  cases x.data.previousTag <;> rfl

/-- Of the finishes it remembers, a slot that a stamp has finished keeps those that the stamp has not caused. -/
theorem Slot.mem_finishedBy_place_finishes {o : Outcome} {e : SeenFinish}
    (he : e ∈ ((x.finishedBy f).place o).finishes) : e ∈ x.finishes ∧ e.cause ≠ some f.st := by
  rw [Slot.place_finishes] at he
  obtain ⟨hmem, hcause⟩ := List.mem_filter.1 he
  exact ⟨hmem, of_decide_eq_true hcause⟩

theorem Slot.takeStop_finishes {e : SeenFinish} (he : e ∈ (x.takeStop n h l f).1.finishes) :
    e ∈ x.finishes ∧ e.cause ≠ some f.st := by
  obtain ⟨-, -, hfresh, hfin, -⟩ := x.afterStop_kept (n := n) (l := l) (f := f)
  exact Slot.mem_finishedBy_place_finishes ((Slot.afterFinish_remembers h l ⟨hfresh, hfin⟩).2 e he)

theorem Slot.takeTag_finishes {e : SeenFinish} (he : e ∈ (x.takeTag n h l f).1.finishes) :
    e ∈ x.finishes ∧ e.cause ≠ some f.st := by
  rw [Slot.takeTag_eq] at he
  split at he
  · exact Slot.mem_finishedBy_place_finishes
      ((Slot.afterFinish_remembers h l (x := x.tagEntered n l f) ⟨rfl, rfl⟩).2 e he)
  · exact Slot.mem_finishedBy_place_finishes he

theorem Slot.takeTag_cause : (x.takeTag n h l f).2.cause = some f.st := by
  rw [Slot.takeTag_eq]
  split <;> rfl

/-- What a slot holds of an instant after it has made something of it: no stamp and no finish that it did not hold before;
and a finish that it makes is caused by a stamp that it held. -/
structure Slot.Remembers (x : Slot) (h : Tick) (r : Slot × Option Finish) : Prop where
  stamps : ∀ g ∈ r.1.stampsAt h, g ∈ x.stampsAt h
  finishes : ∀ e ∈ r.1.finishes, e ∈ x.finishes
  cause : ∀ e, r.2 = some e → ∃ g ∈ x.stampsAt h, e.cause = some g.st

theorem Slot.judgeStamp_remembers {r : Slot × Option Finish} (hf : f ∈ x.stampsAt h)
    (hr : x.judgeStamp n h l f = some r) : x.Remembers h r := by
  have hstop : x.Remembers h ((x.takeStop n h l f).1, some (x.takeStop n h l f).2) :=
    ⟨fun g hg => (Slot.takeStop_stamps hg).1, fun e he => (Slot.takeStop_finishes he).1,
      fun e he => ⟨f, hf, by cases he; rfl⟩⟩
  unfold Slot.judgeStamp at hr
  cases hst : x.state <;> rw [hst] at hr <;> dsimp only at hr
  case idle => cases hr
  all_goals
    split at hr
    case isFalse => cases hr
    cases hr
  case arming.isTrue =>
    exact ⟨fun g hg => by rwa [Slot.begin_stampsAt] at hg, fun e he => by rwa [Slot.begin_finishes] at he, nofun⟩
  case starting.isTrue =>
    refine ⟨fun g hg => by rwa [Slot.takeStart_stampsAt] at hg, fun e he => ?_, nofun⟩
    rw [Slot.takeStart_frame] at he
    exact he
  case gating.isTrue => exact hstop
  case stopping.isTrue => exact hstop
  case tagging.isTrue =>
    exact ⟨fun g hg => (Slot.takeTag_stamps hg).1, fun e he => (Slot.takeTag_finishes he).1,
      fun e he => ⟨f, hf, by cases he; exact Slot.takeTag_cause⟩⟩

theorem Slot.judgeInstant_remembers {r : Slot × Option Finish} (hr : x.judgeInstant n h l = some r) :
    x.Remembers h r := by
  unfold Slot.judgeInstant at hr
  cases hs : x.seenFinish h with
  | some e =>
    rw [hs] at hr
    cases hr
    exact ⟨fun g hg => (x.begin_stampsAt e.stopTime false l h) ▸ hg, fun d hd => List.mem_of_mem_erase hd, nofun⟩
  | none =>
    rw [hs] at hr
    obtain ⟨f, hf, hj⟩ := List.exists_of_findSome?_eq_some hr
    exact Slot.judgeStamp_remembers hf hj

end

/-! ## An instant of one stamp -/

/-- What the announcement of a finish makes of the stamps and the finishes that a slot remembers (R86). -/
theorem State.announce_remembers (s : State) (n m : SlotId) (e : Finish) :
    ((s.announce n e).slot m).fresh = (s.slot m).fresh
    ∧ ∀ d ∈ ((s.announce n e).slot m).finishes, d ∈ (s.slot m).finishes ∨ d.cause = e.cause := by
  refine State.announce_induct (P := fun u => (u.slot m).fresh = (s.slot m).fresh
    ∧ ∀ d ∈ (u.slot m).finishes, d ∈ (s.slot m).finishes ∨ d.cause = e.cause) s n e (fun u hu => ?_) fun u t hu => ?_
  · rw [State.slot_of_slots hu]
    exact ⟨rfl, fun d hd => .inl hd⟩
  · unfold State.armDependents
    rw [State.slot_mapSlots, State.slot_of_slots hu]
    split
    · unfold Slot.seeFinish
      split
      · exact ⟨rfl, fun d hd => .inl hd⟩
      · split
        · exact ⟨Slot.begin_fresh _ _ _ _, fun d hd => .inl (by rwa [Slot.begin_finishes] at hd)⟩
        · split
          · exact ⟨rfl, fun d hd => .inl hd⟩
          · refine ⟨rfl, fun d hd => ?_⟩
            rcases List.mem_append.1 hd with hd | hd
            · exact .inl (List.mem_filter.1 hd).1
            · rw [List.mem_singleton.1 hd]
              exact .inr rfl
    · exact ⟨rfl, fun d hd => .inl hd⟩

/-- Of the present instant, the slots know one stamp alone, and no finish that another has caused. -/
def State.OnlyStamp (s : State) (st : Stamp) : Prop :=
  ∀ m, (∀ f ∈ (s.slot m).stampsAt s.horizonTime, f.st = st)
    ∧ ∀ e ∈ (s.slot m).finishes, e.at' = s.horizonTime → e.cause = some st

/-- A quiet instant in which a stamp is offered. -/
theorem State.Quiet.offer {s : State} (q : s.Quiet) (st : Stamp) : (s.offer st).OnlyStamp st := by
  intro m
  rw [State.offer_horizonTime]
  by_cases hm : (s.slot m).state = .idle
  · rw [State.offer_slot_idle _ _ _ hm]
    exact ⟨fun f hf => absurd (Slot.mem_stampsAt.1 hf).2 ((q m).1 f (Slot.mem_stampsAt.1 hf).1),
      fun e he hat => absurd hat ((q m).2 e he)⟩
  · rw [State.offer_slot q st m hm]
    refine ⟨fun f hf => ?_, fun e he hat => absurd hat ((q m).2 e he)⟩
    have hone : f ∈ [s.offered st] := (Slot.mem_stampsAt.1 hf).1
    rw [List.mem_singleton.1 hone]
    rfl

theorem State.OnlyStamp.judgeSlot {st : Stamp} (k : Nat) (n : SlotId) {s : State} (h : s.OnlyStamp st) :
    (State.judgeSlot k n s).OnlyStamp st := by
  induction k generalizing s with
  | zero => exact h
  | succ k ih =>
    cases hj : (s.slot n).judgeInstant n s.horizonTime s.horizonLocked with
    | none => rw [State.judgeSlot_none hj]; exact h
    | some r =>
      obtain ⟨y, e⟩ := r
      have hr := Slot.judgeInstant_remembers hj
      have hset : (s.setSlot n y).OnlyStamp st := by
        intro m
        rw [State.slot_setSlot]
        split
        · exact ⟨fun f hf => (h n).1 f (hr.stamps f hf), fun d hd => (h n).2 d (hr.finishes d hd)⟩
        · exact h m
      rw [State.judgeSlot_some k hj]
      refine ih ?_
      cases e with
      | none => exact hset
      | some e =>
        obtain ⟨g, hg, hcause⟩ := hr.cause e rfl
        intro m
        obtain ⟨hfresh, hfin⟩ := State.announce_remembers (s.setSlot n y) n m e
        show (∀ f ∈ Slot.stampsAt (((s.setSlot n y).announce n e).slot m) ((s.setSlot n y).announce n e).horizonTime, _)
          ∧ ∀ d ∈ (((s.setSlot n y).announce n e).slot m).finishes, d.at' = ((s.setSlot n y).announce n e).horizonTime → _
        rw [(State.announce_engine (s.setSlot n y) n e).horizonTime, Slot.stampsAt, hfresh]
        refine ⟨(hset m).1, fun d hd hat => ?_⟩
        rcases hfin d hd with hd | hd
        · exact (hset m).2 d hd hat
        · rw [hd, hcause, (h n).1 g hg]

theorem State.OnlyStamp.judgeAll {st : Stamp} (l : List SlotId) {s : State} (h : s.OnlyStamp st) :
    (State.judgeAll l s).OnlyStamp st := by
  induction l generalizing s with
  | nil => exact h
  | cons n rest ih => exact ih (h.judgeSlot _ n)

/-! ## The slot at the end of an offer -/

/-- A slot with the stamp offered to it, after the slots below it have been judged: it is as it was, but for the finishes it
remembers. In a quiet instant the offered stamp has caused all of those. -/
structure State.JudgedBelow (s : State) (st : Stamp) (n : SlotId) (y : Slot) : Prop where
  upTo : UpToFinishes (s.offeredSlot st n) y
  causes : s.Quiet → ∀ e ∈ y.finishes, e.at' = s.horizonTime → e.cause = some st

section
variable {s : State} {st : Stamp} {n : SlotId} {y : Slot}

theorem State.JudgedBelow.samePlan (h : s.JudgedBelow st n y) : SamePlan (s.slot n) y := by
  obtain ⟨fs, rfl⟩ := h.upTo; exact ⟨rfl, rfl⟩

theorem State.JudgedBelow.state (h : s.JudgedBelow st n y) : y.state = (s.slot n).state := by
  obtain ⟨fs, rfl⟩ := h.upTo; rfl

theorem State.JudgedBelow.data (h : s.JudgedBelow st n y) : y.data = (s.slot n).data := by
  obtain ⟨fs, rfl⟩ := h.upTo; rfl

theorem State.JudgedBelow.entry (h : s.JudgedBelow st n y) (o : Outcome) :
    (y.place o).finished = ((s.slot n).place o).finished ∧ (y.place o).lost = ((s.slot n).place o).lost := by
  obtain ⟨fs, rfl⟩ := h.upTo; exact Slot.place_congr o rfl rfl

theorem State.JudgedBelow.stampsAt (h : s.JudgedBelow st n y) :
    y.stampsAt s.horizonTime = (s.slot n).stampsAt s.horizonTime ++ [s.offered st] := by
  obtain ⟨fs, rfl⟩ := h.upTo; exact s.offeredSlot_stampsAt st n

theorem State.JudgedBelow.endsAt {o : Stamp} {scale : Tick} (h : s.JudgedBelow st n y)
    (he : (s.slot n).EndsAt o scale) : y.EndsAt o scale := by
  obtain ⟨fs, rfl⟩ := h.upTo; exact he

theorem State.JudgedBelow.mem (h : s.JudgedBelow st n y) : s.offered st ∈ y.stampsAt s.horizonTime := by
  rw [h.stampsAt]
  exact List.mem_append_right _ (List.mem_singleton_self _)

theorem State.JudgedBelow.fuel (h : s.JudgedBelow st n y) : ∃ k, y.judgeFuel = k + 6 := by
  obtain ⟨fs, rfl⟩ := h.upTo
  refine ⟨3 * ((s.slot n).stampsAt s.horizonTime).length + fs.length, ?_⟩
  show 3 * ((s.slot n).stampsAt s.horizonTime ++ [s.offered st]).length + fs.length + 3 = _
  rw [List.length_append, List.length_singleton]
  omega

/-- The other stamps of the instant are those that the slot was offered before. -/
theorem State.JudgedBelow.earlier (h : s.JudgedBelow st n y) {g : Offered} (hg : g ∈ y.stampsAt s.horizonTime)
    (hne : g ≠ s.offered st) : g ∈ (s.slot n).stampsAt s.horizonTime := by
  rw [h.stampsAt, List.mem_append, List.mem_singleton] at hg
  exact hg.resolve_right hne

end

/-- What the end of an offer makes of a slot that does not wait for a finish: what the slot makes of the instant by itself,
after the slots below it. -/
theorem State.offer_chained {s : State} {n : SlotId} (st : Stamp) (hc : (s.slot n).plan.ChainsUpward n)
    (ho : (s.slot n).state ≠ .idle) (hw : (s.slot n).awaitsArming .slotDone = false) :
    ∃ y k, s.JudgedBelow st n y
      ∧ (s.offer st).settle.slot n = y.judgeRun n s.horizonTime s.horizonLocked (k + 6) := by
  have hslot : (s.offer st).slot n = s.offeredSlot st n := s.offer_slot_active st n ho
  obtain ⟨l1, hl1, -, hrun⟩ := State.settle_chained (s := s.offer st) (n := n) (by rw [hslot]; exact hc.2)
  have hy := State.judgeAll_other l1 n (s.offer st) (fun h => lt_irrefl n ((hl1 n).1 h)) (by rw [hslot]; exact hw)
  rw [hslot] at hy
  have hbelow : s.JudgedBelow st n ((State.judgeAll l1 (s.offer st)).slot n) := by
    refine ⟨hy, fun q e he hat => (State.OnlyStamp.judgeAll l1 (q.offer st) n).2 e he ?_⟩
    rw [(State.judgeAll_engine l1 (s.offer st)).horizonTime, s.offer_horizonTime]
    exact hat
  obtain ⟨k, hfuel⟩ := hbelow.fuel
  rw [hfuel, s.offer_horizonTime, s.offer_horizonLocked] at hrun
  exact ⟨_, k, hbelow, hrun⟩

/-- An outcome that the end of an offer has placed is formed (R76, R99). -/
theorem State.offer_forms {s : State} {st : Stamp} {n : SlotId} {o : Outcome}
    (hf : ((s.offer st).settle.slot n).finished = ((s.slot n).place o).finished)
    (hl : ((s.offer st).settle.slot n).lost = ((s.slot n).place o).lost) : s.OutcomeFormed (s.offer st).conclude n o := by
  obtain ⟨hu, hr⟩ := State.settle_frame (s.offer_unit st) (s.offer_rawTime st)
  exact State.OutcomeFormed.of_settled hu hr (Slot.placed_of_place hf hl)

/-! ## After a finish -/

/-- A re-arming is that of any slot with the same plan. -/
theorem Slot.RearmedAt.of_samePlan {x y z : Slot} {h : Tick} {l : Bool} (hr : y.RearmedAt z h l) (hp : SamePlan x y) :
    x.RearmedAt z h l := by
  unfold Slot.RearmedAt Slot.ArmedAt at hr ⊢
  rw [hp.1, hp.2] at hr
  exact hr

section
variable {x : Slot} {n : SlotId} {h : Tick} {l : Bool} {f : Offered}

/-- A TRIGGERED slot under SLOT_DONE knows no finish of the instant but those that the stamp has caused. -/
def Slot.FinishesOf (x : Slot) (h : Tick) (st : Stamp) : Prop :=
  x.plan.repeatMode = .triggered → x.plan.armSource = .slotDone →
    ∀ e ∈ x.finishes, e.at' = h → e.cause = some st

/-- A slot that a stamp has finished arms at no finish that it remembers (R71, R72, R77). -/
theorem Slot.seenFinish_of_finished {z : Slot} (hx : x.FinishesOf h f.st)
    (hz : ∀ e ∈ z.finishes, e ∈ x.finishes ∧ e.cause ≠ some f.st)
    (hw : ¬(x.plan.repeatMode = .triggered ∧ x.plan.armSource = .slotDone) → z.awaitsArming .slotDone = false) :
    z.seenFinish h = none := by
  by_cases ht : x.plan.repeatMode = .triggered ∧ x.plan.armSource = .slotDone
  · exact Slot.seenFinish_none fun e he hat => (hz e he).2 (hx ht.1 ht.2 e (hz e he).1 hat)
  · exact Slot.seenFinish_not_waiting _ (hw ht)

theorem Slot.takeStop_seenFinish (hx : x.FinishesOf h f.st) : (x.takeStop n h l f).1.seenFinish h = none := by
  refine Slot.seenFinish_of_finished hx (fun e => Slot.takeStop_finishes) fun ht => ?_
  rw [Slot.takeStop_eq]
  refine Slot.afterFinish_awaitsArming _ _ x.afterStop_kept.2.2.2.2 ?_
  rw [(x.stopPlaced_samePlan n l f).1]
  exact ht

/-- The outcome of a stop is placed, whatever the slot goes on with (R76). -/
theorem Slot.takeStop_entry : (x.takeStop n h l f).1.finished = (x.place (x.stopOutcome n l f)).finished
    ∧ (x.takeStop n h l f).1.lost = (x.place (x.stopOutcome n l f)).lost := by
  obtain ⟨hfin, hlost, -⟩ := x.afterStop_kept (n := n) (l := l) (f := f)
  obtain ⟨h1, h2⟩ := Slot.afterFinish_placed h l (x := x.stopPlaced n l f) ⟨hfin, hlost⟩
  have hp := Slot.place_congr (x := x) (y := x.finishedBy f) (x.stopOutcome n l f) rfl rfl
  exact ⟨h1.trans hp.1, h2.trans hp.2⟩

theorem Slot.takeStop_single (hr : x.plan.repeatMode = .single) :
    (x.takeStop n h l f).1 = (x.stopPlaced n l f).toIdle := by
  rw [Slot.takeStop_eq]
  exact Slot.afterFinish_single _ _ _ (by rw [(x.stopPlaced_samePlan n l f).1]; exact hr)

theorem Slot.takeStop_triggered (hr : x.plan.repeatMode = .triggered) :
    (x.takeStop n h l f).1 = (x.stopPlaced n l f).rearm h l := by
  rw [Slot.takeStop_eq]
  exact Slot.afterFinish_triggered _ _ _ (by rw [(x.stopPlaced_samePlan n l f).1]; exact hr)

theorem Slot.takeStop_rearmedAt (hr : x.plan.repeatMode = .triggered) : x.RearmedAt (x.takeStop n h l f).1 h l := by
  rw [Slot.takeStop_triggered hr]
  exact Slot.rearm_rearmedAt (x.stopPlaced_samePlan n l f) h l

/-- A stamp that ends the measurement of a slot without tags is its stop (R87, R91). -/
theorem Slot.EndsAt.stops (he : x.EndsAt f.st f.scale) (hk : x.plan.kind ≠ .timetag) :
    (x.state = .gating ∨ x.state = .stopping) ∧ x.meetsStop f = true := by
  rcases (Slot.endsAt_iff _ _).1 he with c | c
  · exact c
  · exact absurd c.2.1 hk

/-- A stamp that ends the measurement of a TIMETAG slot is its tag (R94). -/
theorem Slot.EndsAt.tags (he : x.EndsAt f.st f.scale) (hk : x.plan.kind = .timetag) :
    x.state = .tagging ∧ x.meetsTag f = true := by
  rcases he with ⟨c, -⟩ | ⟨c, -⟩ | c
  · exact nomatch hk.symm.trans c
  · exact nomatch hk.symm.trans c
  · rcases (Slot.endsAt_iff _ _).1 (.inr (.inr c)) with d | d
    · rcases d.1 with e | e <;> exact nomatch c.2.1.symm.trans e
    · exact ⟨d.1, d.2.2⟩

/-- In an instant of which a RECIPROCAL slot can use its stop alone, it stops once. -/
theorem Slot.judgeRun_stops (k : Nat) (he : x.EndsAt f.st f.scale) (hk : x.plan.kind = .reciprocal)
    (hf : f ∈ x.stampsAt h) (hu : ∀ g ∈ x.stampsAt h, g ≠ f → ¬x.plan.Takes g.st) (hx : x.FinishesOf h f.st) :
    x.judgeRun n h l (k + 1) = (x.takeStop n h l f).1 := by
  obtain ⟨hst, hm⟩ := he.stops (by rw [hk]; exact nofun)
  have hw : x.awaitsArming .slotDone = false :=
    Slot.awaitsArming_of_state _ (by rcases hst with e | e <;> rw [e] <;> exact nofun)
  have hplan := (x.takeStop_samePlan n h l f).1
  have hnotot : x.plan.kind ≠ .totalize := by rw [hk]; exact nofun
  rw [Slot.judgeRun_some (Slot.judgeInstant_takes (Slot.seenFinish_not_waiting _ hw) hf
    (Slot.judgeStamp_stops n h l hst hm) fun g hg hne => Slot.judgeStamp_useless n h l (hu g hg hne) fun _ => hnotot)]
  refine Slot.judgeRun_none (Slot.judgeInstant_ignores (Slot.takeStop_seenFinish hx) fun g hg => ?_) k
  obtain ⟨hmem, hne⟩ := Slot.takeStop_stamps hg
  refine Slot.judgeStamp_useless n h l ?_ fun _ => ?_
  · rw [hplan]; exact hu g hmem hne
  · rw [hplan]; exact hnotot

end

/-! ## The stop of a RECIPROCAL measurement (R87) -/

theorem State.NoOtherCause.finishesOf {s : State} {n : SlotId} {st : Stamp} {y : Slot} (hq : s.NoOtherCause n)
    (hy : s.JudgedBelow st n y) : y.FinishesOf s.horizonTime st := by
  unfold Slot.FinishesOf
  rw [hy.samePlan.1]
  exact fun hr hs => hy.causes (hq.2 hr hs)

/-- Settles O29: the slot stops once, and waits for no finish that the instant holds. -/
theorem stampStopsReciprocal : Obligations.StampStopsReciprocal := by
  intro i st first scale n s hq hdue
  dsimp only
  intro hs hk hc hin hse hstart hinput hclose hlater hne
  have ho : (s.slot n).state ≠ .idle := by rcases hs with e | e <;> rw [e] <;> exact nofun
  have hw := Slot.awaitsArming_of_state (x := s.slot n) .slotDone (by rcases hs with e | e <;> rw [e] <;> exact nofun)
  have he : (s.slot n).EndsAt st (s.offered st).scale := .inl ⟨hk, hs, hin, hse, hclose, _, hstart, hlater, hne⟩
  obtain ⟨y, k, hy, hrun⟩ := State.offer_chained st hc ho hw
  have hky : y.plan.kind = .reciprocal := by rw [hy.samePlan.1]; exact hk
  have hleft := hrun.trans (Slot.judgeRun_stops (f := s.offered st) (k + 5) (hy.endsAt he) hky hy.mem
    (fun g hg hne' => by rw [hy.samePlan.1]; exact hq.1.useless (hy.earlier hg hne')) (hq.finishesOf hy))
  obtain ⟨hplan, hstate, hdata⟩ := (State.conclude_slot (s.offer_unit st) (s.offer_rawTime st) n).keeps
  rw [hleft] at hplan hstate hdata
  have hstep := s.conclude_offer_step st
  refine ⟨_, exec_stampOffer_due hdue, hstep, ?_, fun hr => ?_, fun hr => ?_⟩
  · have houtcome := Slot.stopOutcome_stamp (f := s.offered st) n s.horizonLocked hky (hy.data ▸ hstart) hinput
    rw [hy.samePlan.1, hy.samePlan.2, hy.data] at houtcome
    obtain ⟨hfin, hlost⟩ := y.takeStop_entry (n := n) (h := s.horizonTime) (l := s.horizonLocked) (f := s.offered st)
    rw [houtcome] at hfin hlost
    exact State.offer_forms (by rw [hleft]; exact hfin.trans (hy.entry _).1)
      (by rw [hleft]; exact hlost.trans (hy.entry _).2)
  · rw [← hy.samePlan.1] at hr
    have hidle : ((s.offer st).conclude.slot n).state = .idle := by rw [hstate, Slot.takeStop_single hr]; rfl
    exact ⟨hidle, hstep.done (hy.samePlan.1 ▸ hr) ho hidle⟩
  · rw [← hy.samePlan.1] at hr
    exact ((Slot.takeStop_rearmedAt hr).of_samePlan hy.samePlan).of_data hplan hstate hdata

/-! ## The tags of a TIMETAG run (R94, R95) -/

/-- Whether the quota applies, and a number of tags reaches it (R56, R95). -/
theorem quotaReached_iff (p : Plan) (tags : Nat) : quotaReached p tags = true ↔
    p.repeatMode ≠ .continuous ∧ ∃ q, p.quota = some q ∧ q.toNat ≤ tags := by
  unfold quotaReached
  cases p.quota <;> simp

section
variable {x : Slot} {n : SlotId} {h : Tick} {l : Bool} {f : Offered}

theorem Slot.tagEntered_samePlan : SamePlan x (x.tagEntered n l f) :=
  (Slot.finishedBy_samePlan _ f).trans (Slot.place_samePlan _ _)

theorem Slot.tagEntered_state : (x.tagEntered n l f).state = x.state := Slot.place_state _ _

theorem Slot.takeTag_goesOn (hq : ¬quotaReached x.plan (x.data.tags + 1) = true) :
    (x.takeTag n h l f).1 = x.nextTag n l f := by
  rw [Slot.takeTag_eq, if_neg hq]

theorem Slot.takeTag_last (hq : quotaReached x.plan (x.data.tags + 1) = true) :
    (x.takeTag n h l f).1 = (x.tagEntered n l f).afterFinish h l (x.tagEntered n l f) := by
  rw [Slot.takeTag_eq, if_pos hq]

/-- The outcome of a tag is placed, whatever the slot goes on with (R76, R95). -/
theorem Slot.takeTag_entry : (x.takeTag n h l f).1.finished = (x.place (x.tagOutcome n l f)).finished
    ∧ (x.takeTag n h l f).1.lost = (x.place (x.tagOutcome n l f)).lost := by
  have hp := Slot.place_congr (x := x) (y := x.finishedBy f) (x.tagOutcome n l f) rfl rfl
  by_cases hq : quotaReached x.plan (x.data.tags + 1) = true
  · rw [Slot.takeTag_last hq]
    obtain ⟨h1, h2⟩ := Slot.afterFinish_placed h l (x := x.tagEntered n l f) (c := x.tagEntered n l f) ⟨rfl, rfl⟩
    exact ⟨h1.trans hp.1, h2.trans hp.2⟩
  · rw [Slot.takeTag_goesOn hq]
    exact hp

theorem Slot.takeTag_seenFinish (hst : x.state = .tagging) (hx : x.FinishesOf h f.st) :
    (x.takeTag n h l f).1.seenFinish h = none := by
  have hy : (x.tagEntered n l f).state ≠ .arming := by rw [Slot.tagEntered_state, hst]; exact nofun
  refine Slot.seenFinish_of_finished hx (fun e => Slot.takeTag_finishes) fun ht => ?_
  by_cases hq : quotaReached x.plan (x.data.tags + 1) = true
  · rw [Slot.takeTag_last hq]
    refine Slot.afterFinish_awaitsArming _ _ hy ?_
    rw [Slot.tagEntered_samePlan.1]
    exact ht
  · rw [Slot.takeTag_goesOn hq]
    exact Slot.awaitsArming_of_state _ hy

/-- In an instant of which a slot in TAGGING can use one stamp alone, it tags that one once. -/
theorem Slot.judgeRun_tagging (k : Nat) (he : x.EndsAt f.st f.scale) (hk : x.plan.kind = .timetag)
    (hf : f ∈ x.stampsAt h) (hu : ∀ g ∈ x.stampsAt h, g ≠ f → ¬x.plan.Takes g.st)
    (hx : x.FinishesOf h f.st) : x.judgeRun n h l (k + 1) = (x.takeTag n h l f).1 := by
  obtain ⟨hst, hm⟩ := he.tags hk
  have hw : x.awaitsArming .slotDone = false := Slot.awaitsArming_of_state _ (by rw [hst]; exact nofun)
  have hplan := (x.takeTag_samePlan n h l f).1
  have hnotot : x.plan.kind ≠ .totalize := by rw [hk]; exact nofun
  rw [Slot.judgeRun_some (Slot.judgeInstant_takes (Slot.seenFinish_not_waiting _ hw) hf
    (Slot.judgeStamp_tags n h l hst hk hm) fun g hg hne => Slot.judgeStamp_useless n h l (hu g hg hne) fun _ => hnotot)]
  refine Slot.judgeRun_none (Slot.judgeInstant_ignores (Slot.takeTag_seenFinish hst hx) fun g hg => ?_) k
  obtain ⟨hmem, hne⟩ := Slot.takeTag_stamps hg
  refine Slot.judgeStamp_useless n h l ?_ fun _ => ?_
  · rw [hplan]; exact hu g hmem hne
  · rw [hplan]; exact hnotot

/-- The outcome of a tag, written out (R73, R94). -/
theorem Slot.tagOutcome_eq (hk : x.plan.kind = .timetag) : x.tagOutcome n l f = {
    slot := n, kind := .timetag, reportAs := x.plan.reportAs, planGen := x.planGen, result := .valued
    flags := ⟨false, false,
      x.data.marks.timeStepped || decide (x.data.previousTag ≠ none ∧ x.data.startSteps ≠ f.steps),
      x.data.marks.refFault || !l,
      x.data.marks.calChanged || x.data.previousTag.any fun t => decide (t.calGen ≠ f.st.calGen),
      decide (x.plan.prescale.toNat < (edgesSincePrevious x.data.previousTag f.st).toNat)⟩
    start := some f.endpoint, stop := none, edgesSince := some (edgesSincePrevious x.data.previousTag f.st), lost := 0 } := by
  unfold Slot.tagOutcome Slot.outcome
  rw [hk]
  cases x.data.previousTag <;> simp [RecordFlags.ofMarks, Slot.crossedMarks]

theorem Slot.takeTag_single (hq : quotaReached x.plan (x.data.tags + 1) = true) (hr : x.plan.repeatMode = .single) :
    (x.takeTag n h l f).1.state = .idle := by
  rw [Slot.takeTag_last hq, Slot.afterFinish_single _ _ _ (by rw [Slot.tagEntered_samePlan.1]; exact hr)]
  rfl

theorem Slot.takeTag_rearmedAt (hq : quotaReached x.plan (x.data.tags + 1) = true)
    (hr : x.plan.repeatMode = .triggered) : x.RearmedAt (x.takeTag n h l f).1 h l := by
  rw [Slot.takeTag_last hq, Slot.afterFinish_triggered _ _ _ (by rw [Slot.tagEntered_samePlan.1]; exact hr)]
  exact Slot.rearm_rearmedAt Slot.tagEntered_samePlan h l

end

/-- Settles O32: the slot tags once, and waits for no finish that the instant holds. -/
theorem stampIsTagged : Obligations.StampIsTagged := by
  intro i st n s hq hdue
  dsimp only
  intro hst hk hc hin hse htag
  have ho : (s.slot n).state ≠ .idle := by rw [hst]; exact nofun
  have hw := Slot.awaitsArming_of_state (x := s.slot n) .slotDone (by rw [hst]; exact nofun)
  have he : (s.slot n).EndsAt st (s.offered st).scale := by
    refine .inr (.inr ⟨hk, hst, hin, hse, ?_⟩)
    cases hp : (s.slot n).data.previousTag <;> rw [hp] at htag <;> exact htag
  obtain ⟨y, k, hy, hrun⟩ := State.offer_chained st hc ho hw
  have hky : y.plan.kind = .timetag := by rw [hy.samePlan.1]; exact hk
  have hleft := hrun.trans (Slot.judgeRun_tagging (f := s.offered st) (k + 5) (hy.endsAt he) hky hy.mem
    (fun g hg hne' => by rw [hy.samePlan.1]; exact hq.1.useless (hy.earlier hg hne')) (hq.finishesOf hy))
  obtain ⟨hplan, hstate, hdata⟩ := (State.conclude_slot (s.offer_unit st) (s.offer_rawTime st) n).keeps
  rw [hleft] at hplan hstate hdata
  rw [← quotaReached_iff, ← hy.samePlan.1, ← hy.samePlan.2, ← hy.data]
  have hstep := s.conclude_offer_step st
  refine ⟨_, exec_stampOffer_due hdue, hstep, ?_, fun hlast => ?_, fun hlast hr => ?_, fun hlast hr => ?_⟩
  · obtain ⟨hfin, hlost⟩ := y.takeTag_entry (n := n) (h := s.horizonTime) (l := s.horizonLocked) (f := s.offered st)
    have hformed := State.offer_forms (by rw [hleft]; exact hfin.trans (hy.entry _).1)
      (by rw [hleft]; exact hlost.trans (hy.entry _).2)
    rw [Slot.tagOutcome_eq hky] at hformed
    cases hp : y.data.previousTag <;> rw [hp] at hformed <;> exact hformed
  · rw [hstate, hdata, Slot.takeTag_goesOn hlast]
    exact ⟨Slot.tagEntered_state.trans (hy.state.trans hst), rfl, rfl, rfl, rfl⟩
  · have hidle : ((s.offer st).conclude.slot n).state = .idle := hstate.trans (Slot.takeTag_single hlast hr)
    exact ⟨hidle, hstep.done (hy.samePlan.1 ▸ hr) ho hidle⟩
  · exact ((Slot.takeTag_rearmedAt hlast hr).of_samePlan hy.samePlan).of_data hplan hstate hdata

end Sys2Proof.Machine
end

section
/-! PROOFS. The stop of an INTERVAL measurement at or after its start, with the start in the same instant or before it
(R54, R71 to R73, R76, R77, R82, R85, R91, R92, R103). -/

namespace Sys2Proof.Machine

/-! ## Instants of which a slot can use one endpoint alone -/

/-- Of the stamps of the instant, a slot's plan can use at most those that stand for one endpoint, the start of its
measurement. -/
def Slot.UsesOnly (x : Slot) (h : Tick) (e : Endpoint) : Prop :=
  ∀ g ∈ x.stampsAt h, x.plan.Takes g.st → g.endpoint = e

/-- Whether a stamp arms a slot that a finish at horizon time h has brought back to ARMING (R72, R85). -/
def Plan.ArmsAgain (p : Plan) (st : Stamp) (h : Tick) : Prop :=
  p.armSource = .inputEdge ∧ st.input = p.armInput ∧ st.sense = p.armSense ∧ (st.corrected - h).toNat < 2 ^ 63

theorem Offered.of_endpoint {f : Offered} {st : Stamp} {scale : Tick} (h : f.endpoint = .stamp st scale) :
    f.st = st ∧ f.scale = scale := by
  unfold Offered.endpoint at h
  injection h with h1 h2
  exact ⟨h1, h2⟩

theorem Slot.ArmedByStamp.of_samePlan {x y z : Slot} {st : Stamp} {scale : Tick} {l : Bool}
    (h : y.ArmedByStamp z st scale l) (hp : SamePlan x y) : x.ArmedByStamp z st scale l := by
  unfold Slot.ArmedByStamp Slot.StartedAt Slot.ArmedAt at h ⊢
  rw [hp.1, hp.2] at h
  exact h

theorem Slot.RearmedBeside.of_samePlan {x y z : Slot} {k scale : Tick} {st : Stamp} {l : Bool}
    (h : y.RearmedBeside z k l st scale) (hp : SamePlan x y) : x.RearmedBeside z k l st scale := by
  refine ⟨fun c => (h.1 ?_).of_samePlan hp, fun c => (h.2 ?_).of_samePlan hp⟩ <;> rw [hp.1] <;> exact c

section
variable {x : Slot} {n : SlotId} {h : Tick} {l : Bool} {f g : Offered} {first : Stamp} {scale : Tick}

/-- A slot that makes something of a stamp of the instant takes one of those that it makes something of. -/
theorem Slot.judgeInstant_takes_some (hs : x.seenFinish h = none) (hf : f ∈ x.stampsAt h)
    (hr : x.judgeStamp n h l f ≠ none) :
    ∃ g ∈ x.stampsAt h, ∃ r, x.judgeStamp n h l g = some r ∧ x.judgeInstant n h l = some r := by
  cases hj : x.judgeInstant n h l with
  | none =>
    unfold Slot.judgeInstant at hj
    rw [hs] at hj
    exact absurd (List.findSome?_eq_none_iff.1 hj f hf) hr
  | some r =>
    unfold Slot.judgeInstant at hj
    rw [hs] at hj
    obtain ⟨g, hg, hgr⟩ := List.exists_of_findSome?_eq_some hj
    exact ⟨g, hg, r, hgr, rfl⟩

/-- An INTERVAL slot in STOPPING ignores every stamp that it cannot use, and its own start (R91). -/
theorem Slot.judgeStamp_own_start {e : Endpoint} (n : SlotId) (h : Tick) (l : Bool) (hst : x.state = .stopping)
    (hk : x.plan.kind = .interval) (hs : x.data.start = some e) (hu : x.plan.Takes g.st → g.endpoint = e) :
    x.judgeStamp n h l g = none := by
  refine Slot.judgeStamp_ignores n h l (fun c => nomatch hst.symm.trans c) (fun c => nomatch hst.symm.trans c)
    (fun _ => ?_) fun c => nomatch hst.symm.trans c
  rw [Bool.eq_false_iff]
  intro hm
  rcases Slot.meetsStop_isOf hm with ⟨c, -⟩ | ⟨-, hB, e', he', -, hne⟩
  · exact nomatch hk.symm.trans c
  · rw [hs] at he'
    cases he'
    exact hne (hu (.of_second hk hB)).symm

/-- What an INTERVAL slot makes of an instant in which it arms at a stamp and can use no other (R85, R91). -/
theorem Slot.judgeRun_armedBeside (k : Nat) (hk : x.plan.kind = .interval) (hf : f ∈ x.stampsAt h)
    (he : f.endpoint = .stamp first scale) (hu : x.UsesOnly h (.stamp first scale)) :
    let z := (x.begin first.corrected false l).judgeRun n h l (k + 1)
    x.ArmedByStamp z first scale l ∧ z.finished = x.finished ∧ z.lost = x.lost := by
  obtain ⟨rfl, rfl⟩ := Offered.of_endpoint he
  have hnotot : x.plan.kind ≠ .totalize := by rw [hk]; exact nofun
  have hwait := Slot.seenFinish_not_waiting h (x.begin_awaitsArming f.st.corrected false l .slotDone)
  have hstamps := x.begin_stampsAt f.st.corrected false l h
  dsimp only
  by_cases hA : f.isOf x.plan.inputA x.plan.senseA = true
  · have hstarts := Slot.begin_starts (b := false) (l := l) n h l (.inr hk) (Slot.firstRole_self hA)
    obtain ⟨g, hg, r, hr, hj⟩ := Slot.judgeInstant_takes_some (l := l) (n := n) hwait (hstamps ▸ hf)
      (by rw [hstarts]; exact nofun)
    have hrole : x.FirstRole f.st.corrected g := by
      by_contra hno
      rw [Slot.begin_ignores n h l hno] at hr
      cases hr
    have hend : g.endpoint = .stamp f.st f.scale := hu g (hstamps ▸ hg) (.of_first hnotot hrole.1)
    rw [Slot.begin_starts n h l (.inr hk) hrole] at hr
    cases hr
    have hplan := (Slot.begin_takeStart_frame (x := x) (a := f.st.corrected) (l := l) (g := g))
    have hsame : ((x.begin f.st.corrected false l).takeStart g).plan = x.plan := by rw [hplan]
    have hnone : ((x.begin f.st.corrected false l).takeStart g).judgeInstant n h l = none := by
      refine Slot.judgeInstant_ignores (Slot.seenFinish_not_waiting _ (Slot.takeStart_awaitsArming _ _ _)) fun e he => ?_
      rw [Slot.takeStart_stampsAt, hstamps] at he
      refine Slot.judgeStamp_own_start n h l (Slot.takeStart_interval (by rw [Slot.begin_plan]; exact hk)).1
        (by rw [hsame]; exact hk) (Slot.takeStart_start _ _) fun ht => ?_
      rw [hsame] at ht
      rw [hend]
      exact hu e he ht
    have hstarted := Slot.begin_takeStart_startedAt (x := x) (a := f.st.corrected) (l := l) (g := g) (.inr hk)
    obtain ⟨h1, h2⟩ := Offered.of_endpoint hend
    rw [h1, h2] at hstarted
    rw [Slot.judgeRun_some hj, Slot.judgeRun_none hnone]
    refine ⟨⟨fun c => ?_, fun _ => hstarted⟩, ?_, ?_⟩
    · exact absurd ((f.isOf_iff _ _).1 hA) (c.resolve_right hnotot)
    · rw [hplan]
    · rw [hplan]
  · rw [Slot.judgeRun_begin_none (k + 1) (.inr fun e he hr => hA ?_)]
    · exact ⟨⟨fun _ => x.begin_armedAt f.st.corrected false l, fun c => absurd ((f.isOf_iff _ _).2 c) hA⟩,
        Slot.begin_finished _ _ _ _, Slot.begin_lost _ _ _ _⟩
    · have hst := (Offered.of_endpoint (hu e he (.of_first hnotot hr.1))).1
      have hAe := hr.1
      unfold Offered.isOf at hAe ⊢
      rw [← hst]
      exact hAe

/-! ## After an INTERVAL stop -/

/-- The outcome of an INTERVAL stop (R54, R73, R91). -/
theorem Slot.stopOutcome_interval (hk : x.plan.kind = .interval) (hs : x.data.start = some (.stamp first scale)) :
    x.stopOutcome n l f = {
      slot := n, kind := .interval, reportAs := x.plan.reportAs, planGen := x.planGen, result := .valued
      flags := ⟨false, false, x.data.marks.timeStepped || decide (x.data.startSteps ≠ f.steps),
        x.data.marks.refFault || !l,
        x.data.marks.calChanged || decide (first.input = f.st.input ∧ first.calGen ≠ f.st.calGen), false⟩
      start := some (.stamp first scale), stop := some f.endpoint, edgesSince := none, lost := 0 } := by
  unfold Slot.stopOutcome Slot.outcome
  rw [hk, hs]
  rfl

/-- Under CONTINUOUS the slot waits for a start later than the stop (R92). -/
theorem Slot.takeStop_continuous_interval (hk : x.plan.kind = .interval) (hr : x.plan.repeatMode = .continuous) :
    (x.takeStop n h l f).1 = (x.stopPlaced n l f).nextInterval f.st.corrected true l := by
  rw [Slot.takeStop_eq, Slot.afterFinish_continuous _ _ _ (by rw [(x.stopPlaced_samePlan n l f).1]; exact hr)]
  exact if_neg (by rw [hk]; exact nofun)

/-- After a stop the slot holds no stamp but those that the finish has left. -/
theorem Slot.mem_takeStop_stampsAt {k : Tick} (hg : g ∈ (x.takeStop n h l f).1.stampsAt k) :
    g ∈ x.stampsAt k ∧ g ≠ f ∧ x.spent g = false := by
  obtain ⟨-, -, hfresh, hfin, -⟩ := x.afterStop_kept (n := n) (l := l) (f := f)
  rw [Slot.mem_stampsAt] at hg
  have hy : g ∈ (x.stopPlaced n l f).stampsAt k :=
    Slot.mem_stampsAt.2 ⟨(Slot.afterFinish_remembers h l ⟨hfresh, hfin⟩).1 g hg.1, hg.2⟩
  unfold Slot.stopPlaced at hy
  rwa [Slot.place_stampsAt, Slot.mem_finishedBy_stampsAt] at hy

/-- After its stop, an INTERVAL slot ignores the start, which is not later, unless that arms it again (R85, R92, log entry
17). -/
theorem Slot.stopped_ignores (hk : x.plan.kind = .interval) (hs : x.data.start = some (.stamp first scale))
    (hle : atOrBefore first.corrected f.st.corrected = true) (hg : g ∈ (x.takeStop n h l f).1.stampsAt h)
    (hu : x.plan.Takes g.st → g.endpoint = .stamp first scale)
    (hno : x.plan.repeatMode = .triggered → x.plan.ArmsAgain first h → g.endpoint ≠ .stamp first scale) :
    (x.takeStop n h l f).1.judgeStamp n h l g = none := by
  have hplan := (x.stopPlaced_samePlan n l f).1
  have hnotot : x.plan.kind ≠ .totalize := by rw [hk]; exact nofun
  cases hr : x.plan.repeatMode with
  | single => rw [Slot.takeStop_single hr]; rfl
  | continuous =>
    rw [Slot.takeStop_continuous_interval hk hr]
    refine Slot.judgeStamp_ignores n h l nofun (fun _ => ?_) (fun c => by rcases c with c | c <;> cases c) nofun
    rw [Bool.eq_false_iff]
    intro hm
    have hA := Slot.meetsStart_isOf hm
    obtain ⟨rfl, -⟩ := Offered.of_endpoint (hu (.of_first hnotot (hplan ▸ hA)))
    have hlater : before f.st.corrected g.st.corrected = true := (Bool.and_eq_true _ _ ▸ hm).2
    rw [before_false_of_atOrBefore hle] at hlater
    cases hlater
  | triggered =>
    have hspent := (Slot.mem_takeStop_stampsAt hg).2.2
    rw [Slot.takeStop_triggered hr]
    refine Slot.rearm_ignores n h l (fun hi hrole => ?_) fun hi ⟨harm, hlate⟩ => ?_
    · rw [hplan] at hi
      have hend := hu (.of_first hnotot (hplan ▸ hrole.1))
      unfold Slot.spent at hspent
      rw [hi, hs, hend] at hspent
      simp at hspent
    · rw [hplan] at hi harm
      have hend := hu (.of_arm hi harm)
      obtain ⟨rfl, -⟩ := Offered.of_endpoint hend
      obtain ⟨hin, hse⟩ := (g.isOf_iff _ _).1 harm
      exact hno hr ⟨hi, hin, hse, (atOrBefore_iff _ _).1 hlate⟩ hend

/-- A slot whose stop leaves no stamp that arms it again makes nothing more of the instant. -/
theorem Slot.judgeRun_stopped_none (k : Nat) (hk : x.plan.kind = .interval)
    (hs : x.data.start = some (.stamp first scale)) (hle : atOrBefore first.corrected f.st.corrected = true)
    (hx : x.FinishesOf h f.st)
    (hu : ∀ g ∈ x.stampsAt h, g ≠ f → x.plan.Takes g.st → g.endpoint = .stamp first scale)
    (hno : x.plan.repeatMode = .triggered → x.plan.ArmsAgain first h →
      ∀ g ∈ x.stampsAt h, g ≠ f → g.endpoint ≠ .stamp first scale) :
    (x.takeStop n h l f).1.judgeRun n h l k = (x.takeStop n h l f).1 := by
  refine Slot.judgeRun_none (Slot.judgeInstant_ignores (Slot.takeStop_seenFinish hx) fun g hg => ?_) k
  obtain ⟨hmem, hne⟩ := Slot.takeStop_stamps hg
  exact Slot.stopped_ignores hk hs hle hg (hu g hmem hne) fun hr ha => hno hr ha g hmem hne

/-- A slot that its stop re-arms under INPUT_EDGE arms again at the start of the measurement that has ended (R72, R85). -/
theorem Slot.judgeRun_stopped_again (k : Nat) (hk : x.plan.kind = .interval) (hr : x.plan.repeatMode = .triggered)
    (ha : x.plan.ArmsAgain first h) (hg : g ∈ x.stampsAt h) (hne : g ≠ f) (he : g.endpoint = .stamp first scale)
    (hu : ∀ g ∈ x.stampsAt h, g ≠ f → x.plan.Takes g.st → g.endpoint = .stamp first scale) :
    let z := (x.takeStop n h l f).1
    let w := z.judgeRun n h l (k + 2)
    x.ArmedByStamp w first scale l ∧ w.finished = z.finished ∧ w.lost = z.lost := by
  obtain ⟨hsrc, hin, hse, hlate⟩ := ha
  have hsame := x.takeStop_samePlan n h l f
  have huses : (x.takeStop n h l f).1.UsesOnly h (.stamp first scale) := by
    intro e he ht
    obtain ⟨hmem, hne⟩ := Slot.takeStop_stamps he
    exact hu e hmem hne (hsame.1 ▸ ht)
  have hwaits : (x.takeStop n h l f).1 = { x.stopPlaced n l f with
      state := .arming, data := { MeasData.empty with armingSince := h } } := by
    rw [Slot.takeStop_triggered hr]
    unfold Slot.rearm
    dsimp only
    rw [if_neg]
    rw [(x.stopPlaced_samePlan n l f).1, hsrc]
    exact nofun
  have hmem : g ∈ (x.takeStop n h l f).1.stampsAt h := by
    rw [hwaits]
    show g ∈ ((x.finishedBy f).place (x.stopOutcome n l f)).stampsAt h
    rw [Slot.place_stampsAt, Slot.mem_finishedBy_stampsAt]
    refine ⟨hg, hne, ?_⟩
    unfold Slot.spent
    rw [hsrc]
    rfl
  have hstate : (x.takeStop n h l f).1.state = .arming := by rw [hwaits]
  have hnw : (x.takeStop n h l f).1.awaitsArming .slotDone = false := by
    rw [Bool.eq_false_iff, ne_eq, Slot.awaitsArming_iff, hsame.1, hsrc]
    exact fun c => nomatch c.2.1
  have hmeets : (x.takeStop n h l f).1.meetsArm g = true := by
    rw [Slot.meetsArm_iff, hsame.1, (Offered.of_endpoint he).1, hwaits]
    exact ⟨rfl, hsrc, rfl, hin, hse, hlate⟩
  obtain ⟨d, hd, r, hdr, hj⟩ := Slot.judgeInstant_takes_some (n := n) (l := l) (Slot.seenFinish_not_waiting h hnw) hmem
    (by rw [Slot.judgeStamp_arms n h l hstate hmeets]; exact nofun)
  have hdarm : (x.takeStop n h l f).1.meetsArm d = true := by
    by_contra hno
    rw [Slot.judgeStamp_ignores n h l (fun _ => Bool.eq_false_iff.2 hno) (fun c => nomatch hstate.symm.trans c)
      (fun c => by rcases c with c | c <;> exact nomatch hstate.symm.trans c) fun c => nomatch hstate.symm.trans c] at hdr
    cases hdr
  have hdend : d.endpoint = .stamp first scale := by
    obtain ⟨-, h1, -, h2, h3, -⟩ := (Slot.meetsArm_iff _ _).1 hdarm
    exact huses d hd (.of_arm h1 ((d.isOf_iff _ _).2 ⟨h2, h3⟩))
  rw [Slot.judgeStamp_arms n h l hstate hdarm, (Offered.of_endpoint hdend).1] at hdr
  cases hdr
  obtain ⟨h1, h2, h3⟩ := Slot.judgeRun_armedBeside (x := (x.takeStop n h l f).1) (n := n) (l := l) k
    (by rw [hsame.1]; exact hk) hmem he huses
  dsimp only
  rw [Slot.judgeRun_some hj]
  exact ⟨h1.of_samePlan hsame, h2, h3⟩

/-- What an INTERVAL slot makes of the rest of an instant in which it has stopped, and in which it can use its start alone
beside the stop. -/
theorem Slot.judgeRun_stopped (k : Nat) (hk : x.plan.kind = .interval)
    (hs : x.data.start = some (.stamp first scale)) (hle : atOrBefore first.corrected f.st.corrected = true)
    (hx : x.FinishesOf h f.st)
    (hu : ∀ g ∈ x.stampsAt h, g ≠ f → x.plan.Takes g.st → g.endpoint = .stamp first scale) :
    let z := (x.takeStop n h l f).1
    let w := z.judgeRun n h l (k + 2)
    w.finished = z.finished ∧ w.lost = z.lost ∧ (x.plan.repeatMode ≠ .triggered → w = z)
    ∧ (x.plan.repeatMode = .triggered →
      ((∃ g ∈ x.stampsAt h, g ≠ f ∧ g.endpoint = .stamp first scale) → x.RearmedBeside w h l first scale)
      ∧ ((∀ g ∈ x.stampsAt h, g ≠ f → g.endpoint ≠ .stamp first scale) → x.RearmedAt w h l)) := by
  dsimp only
  by_cases hagain : x.plan.repeatMode = .triggered ∧ x.plan.ArmsAgain first h
      ∧ ∃ g ∈ x.stampsAt h, g ≠ f ∧ g.endpoint = .stamp first scale
  · obtain ⟨hr, ha, g, hg, hne, he⟩ := hagain
    obtain ⟨h1, h2, h3⟩ := Slot.judgeRun_stopped_again (n := n) (l := l) k hk hr ha hg hne he hu
    exact ⟨h2, h3, fun c => absurd hr c, fun _ => ⟨fun _ => ⟨fun _ => h1, fun c => absurd ha c⟩,
      fun c => absurd he (c g hg hne)⟩⟩
  · rw [Slot.judgeRun_stopped_none (k + 2) hk hs hle hx hu fun hr ha g hg hne he => hagain ⟨hr, ha, g, hg, hne, he⟩]
    exact ⟨rfl, rfl, fun _ => rfl, fun hr => ⟨fun hex => ⟨fun ha => absurd ⟨hr, ha, hex⟩ hagain,
      fun _ => Slot.takeStop_rearmedAt hr⟩, fun _ => Slot.takeStop_rearmedAt hr⟩⟩

end

/-- What the statements say of a slot that an INTERVAL stop has left at the end of an event. -/
theorem State.intervalEnds_of_stopped {s u : State} {n : SlotId} {x : Slot} {f : Offered} {first : Stamp} {scale : Tick}
    (k : Nat) (hstep : EngineStep s u.conclude) (hu : u.unit = s.unit) (hr : u.rawTime = s.rawTime)
    (ho : (s.slot n).state ≠ .idle) (hp : SamePlan (s.slot n) x)
    (hentry : ∀ o, (x.place o).finished = ((s.slot n).place o).finished ∧ (x.place o).lost = ((s.slot n).place o).lost)
    (hk : x.plan.kind = .interval) (hs : x.data.start = some (.stamp first scale))
    (hle : atOrBefore first.corrected f.st.corrected = true) (hx : x.FinishesOf s.horizonTime f.st)
    (hothers : ∀ g ∈ x.stampsAt s.horizonTime, g ≠ f → x.plan.Takes g.st → g.endpoint = .stamp first scale)
    (hz : u.settle.slot n = (x.takeStop n s.horizonTime s.horizonLocked f).1.judgeRun n s.horizonTime s.horizonLocked
      (k + 2)) :
    s.IntervalEnds u.conclude n first f.st scale f.scale x.data.marks (decide (x.data.startSteps ≠ f.steps))
    ∧ ((s.slot n).plan.repeatMode = .triggered →
      ((∃ g ∈ x.stampsAt s.horizonTime, g ≠ f ∧ g.endpoint = .stamp first scale) →
        (s.slot n).RearmedBeside (u.conclude.slot n) s.horizonTime s.horizonLocked first scale)
      ∧ ((∀ g ∈ x.stampsAt s.horizonTime, g ≠ f → g.endpoint ≠ .stamp first scale) →
        (s.slot n).RearmedAt (u.conclude.slot n) s.horizonTime s.horizonLocked)) := by
  obtain ⟨hfin, hlost, hstays, hrearms⟩ := Slot.judgeRun_stopped (n := n) (l := s.horizonLocked) k hk hs hle hx hothers
  rw [← hz] at hfin hlost hstays hrearms
  obtain ⟨hplan, hstate, hdata⟩ := (State.conclude_slot hu hr n).keeps
  rw [← hp.1]
  refine ⟨⟨?_, rfl, fun hm => ?_, fun hm => ?_⟩, fun hm => ?_⟩
  · have houtcome := Slot.stopOutcome_interval (n := n) (l := s.horizonLocked) (f := f) hk hs
    rw [hp.1, hp.2] at houtcome
    obtain ⟨h1, h2⟩ := x.takeStop_entry (n := n) (h := s.horizonTime) (l := s.horizonLocked) (f := f)
    rw [houtcome] at h1 h2
    obtain ⟨hunit, hraw⟩ := State.settle_frame hu hr
    exact State.OutcomeFormed.of_settled hunit hraw (Slot.placed_of_place
      (hfin.trans (h1.trans (hentry _).1)) (hlost.trans (h2.trans (hentry _).2)))
  · rw [← hp.1] at hm
    have hidle : (u.conclude.slot n).state = .idle := by
      rw [hstate, hstays (by rw [hm]; exact nofun), Slot.takeStop_single hm]
      rfl
    exact ⟨hidle, hstep.done (hp.1 ▸ hm) ho hidle⟩
  · rw [← hp.1] at hm
    rw [hstate, hdata, hstays (by rw [hm]; exact nofun), Slot.takeStop_continuous_interval hk hm]
    refine ⟨rfl, rfl, rfl, rfl, ?_, rfl, rfl⟩
    show f.st.corrected + ticksOf (Slot.plan _).waitLimit = _
    rw [(x.stopPlaced_samePlan n s.horizonLocked f).1, ticksOf_eq, hp.1]
  · obtain ⟨hbeside, halone⟩ := hrearms hm
    exact ⟨fun c => ((hbeside c).of_samePlan hp).of_data hplan hstate hdata,
      fun c => ((halone c).of_samePlan hp).of_data hplan hstate hdata⟩

/-- An INTERVAL slot in STOPPING, in an instant of which it can use its start alone beside a stop, takes that stop (R91). -/
theorem Slot.judgeInstant_stopsInterval {x : Slot} {f : Offered} {first : Stamp} {scale h : Tick} (n : SlotId) (l : Bool)
    (hst : x.state = .stopping) (hk : x.plan.kind = .interval) (hs : x.data.start = some (.stamp first scale))
    (hf : f ∈ x.stampsAt h) (hin : f.st.input = x.plan.inputB) (hse : f.st.sense = x.plan.senseB)
    (hle : (f.st.corrected - first.corrected).toNat < 2 ^ 63) (hne : Endpoint.stamp first scale ≠ f.endpoint)
    (hothers : ∀ g ∈ x.stampsAt h, g ≠ f → x.plan.Takes g.st → g.endpoint = .stamp first scale) :
    x.judgeInstant n h l = some ((x.takeStop n h l f).1, some (x.takeStop n h l f).2) := by
  have he : x.EndsAt f.st f.scale := .inr (.inl ⟨hk, .inr hst, hin, hse, _, hs, hle, hne⟩)
  obtain ⟨hst', hmeets⟩ := he.stops (by rw [hk]; exact nofun)
  have hw := Slot.awaitsArming_of_state (x := x) .slotDone (by rw [hst]; exact nofun)
  exact Slot.judgeInstant_takes (Slot.seenFinish_not_waiting h hw) hf (Slot.judgeStamp_stops n h l hst' hmeets)
    fun g hg hgf => Slot.judgeStamp_own_start n h l hst hk hs (hothers g hg hgf)

/-- The stop is offered at or after its start (R71, R91). -/
theorem State.interval_stop_after_start {i : InputId} {st first : Stamp} {scale : Tick} {n : SlotId} {s : State}
    (hdue : s.dueStamp i = some st) (hst : (s.slot n).state = .stopping) (hk : (s.slot n).plan.kind = .interval)
    (hc : (s.slot n).plan.ChainsUpward n) (hin : st.input = (s.slot n).plan.inputB)
    (hse : st.sense = (s.slot n).plan.senseB) (hs : (s.slot n).data.start = some (.stamp first scale))
    (hne : Endpoint.stamp first scale ≠ (s.offered st).endpoint) (hle : (st.corrected - first.corrected).toNat < 2 ^ 63)
    (hnow : ∀ f ∈ (s.slot n).stampsAt s.horizonTime, ¬(s.slot n).plan.Takes f.st ∨ f.endpoint = .stamp first scale)
    (hq : (s.slot n).plan.repeatMode = .triggered → (s.slot n).plan.armSource = .slotDone → s.Quiet) :
    ∃ t, exec (.stampOffer i) s = .next t ∧ EngineStep s t
      ∧ s.IntervalEnds t n first st scale (st.corrected + s.offset) (s.slot n).data.marks
        (decide ((s.slot n).data.startSteps ≠ 0))
      ∧ ((s.slot n).plan.repeatMode = .triggered →
        ((∃ f ∈ (s.slot n).stampsAt s.horizonTime, f.endpoint = .stamp first scale) →
          (s.slot n).RearmedBeside (t.slot n) s.horizonTime s.horizonLocked first scale)
        ∧ ((∀ f ∈ (s.slot n).stampsAt s.horizonTime, f.endpoint ≠ .stamp first scale) →
          (s.slot n).RearmedAt (t.slot n) s.horizonTime s.horizonLocked)) := by
  have ho : (s.slot n).state ≠ .idle := by rw [hst]; exact nofun
  obtain ⟨y, k, hy, hrun⟩ := State.offer_chained st hc ho
    (Slot.awaitsArming_of_state _ (by rw [hst]; exact nofun))
  have hplan : y.plan = (s.slot n).plan := hy.samePlan.1
  have hothers : ∀ g ∈ y.stampsAt s.horizonTime, g ≠ s.offered st → y.plan.Takes g.st →
      g.endpoint = .stamp first scale := fun g hg hgf ht =>
    (hnow g (hy.earlier hg hgf)).resolve_left (not_not_intro (hplan ▸ ht))
  have hstops := Slot.judgeInstant_stopsInterval n s.horizonLocked (hy.state.trans hst) (hplan ▸ hk) (hy.data ▸ hs)
    hy.mem (hplan ▸ hin) (hplan ▸ hse) hle hne hothers
  have hstep := s.conclude_offer_step st
  rw [Slot.judgeRun_some hstops] at hrun
  obtain ⟨hends, hrearms⟩ := State.intervalEnds_of_stopped (k + 3) hstep (s.offer_unit st) (s.offer_rawTime st) ho
    hy.samePlan hy.entry (hplan ▸ hk) (hy.data ▸ hs) ((atOrBefore_iff _ _).2 hle)
    (fun hr hd => hy.causes (hq (hplan ▸ hr) (hplan ▸ hd))) hothers hrun
  rw [hy.data] at hends
  refine ⟨_, exec_stampOffer_due hdue, hstep, hends, fun hr => ⟨fun ⟨f, hf, hfe⟩ => ?_, fun hno => ?_⟩⟩
  · refine (hrearms hr).1 ⟨f, ?_, fun e => hne (hfe.symm.trans (by rw [e])), hfe⟩
    rw [hy.stampsAt]
    exact List.mem_append_left _ hf
  · exact (hrearms hr).2 fun g hg hgf => hno g (hy.earlier hg hgf)

/-- Of an INTERVAL slot in STARTING that is offered its start after a stop on another input, the start is taken first, and
the stop then (R72, R91). -/
theorem Slot.judgeRun_startStops {x : Slot} {d g : Offered} {h : Tick} (n : SlotId) (l : Bool) (k : Nat)
    (hst : x.state = .starting) (hk : x.plan.kind = .interval) (hstart : x.meetsStart d = true)
    (hstamps : x.stampsAt h = [g, d]) (hin : g.st.input = x.plan.inputB) (hse : g.st.sense = x.plan.senseB)
    (hne : g.st.input ≠ d.st.input) (hle : (g.st.corrected - d.st.corrected).toNat < 2 ^ 63) :
    x.judgeRun n h l (k + 2) = ((x.takeStart d).takeStop n h l g).1.judgeRun n h l k := by
  have hplan := (x.takeStart_samePlan d).1
  have hd : d ∈ x.stampsAt h := by rw [hstamps]; simp
  have hg : g ∈ x.stampsAt h := by rw [hstamps]; simp
  have hother : ∀ {e : Offered}, e ∈ x.stampsAt h → e = g ∨ e = d := fun he => by
    rw [hstamps] at he
    simpa using he
  have hfirst : x.judgeInstant n h l = some (x.takeStart d, none) := by
    refine Slot.judgeInstant_takes
      (Slot.seenFinish_not_waiting h (Slot.awaitsArming_of_state _ (by rw [hst]; exact nofun))) hd
      (Slot.judgeStamp_starts n h l hst hstart) fun e he hed => ?_
    obtain rfl := (hother he).resolve_right hed
    refine Slot.judgeStamp_ignores n h l (fun c => nomatch hst.symm.trans c) (fun _ => ?_)
      (fun c => by rcases c with c | c <;> exact nomatch hst.symm.trans c) fun c => nomatch hst.symm.trans c
    rw [Bool.eq_false_iff]
    intro hm
    exact hne (((Slot.meetsStart_iff _ _).1 hm).1.trans ((Slot.meetsStart_iff _ _).1 hstart).1.symm)
  have hthen := Slot.judgeInstant_stopsInterval (x := x.takeStart d) (f := g) (h := h) n l (Slot.takeStart_interval hk).1
    (by rw [hplan]; exact hk) (x.takeStart_start d) (by rw [Slot.takeStart_stampsAt]; exact hg)
    (by rw [hplan]; exact hin) (by rw [hplan]; exact hse) hle
    (fun e => hne (congrArg Stamp.input (Offered.of_endpoint e.symm).1)) fun e he heg _ => by
      rw [Slot.takeStart_stampsAt] at he
      rw [(hother he).resolve_left heg]
      rfl
  rw [Slot.judgeRun_some hfirst, Slot.judgeRun_some hthen]

/-- The stop has been offered before a start of the same instant (R72, R91). -/
theorem State.interval_stop_before_start {i : InputId} {st : Stamp} {g : Offered} {n : SlotId} {s : State}
    (hdue : s.dueStamp i = some st) (hst : (s.slot n).state = .starting) (hk : (s.slot n).plan.kind = .interval)
    (hc : (s.slot n).plan.ChainsUpward n)
    (hnd : ¬((s.slot n).plan.repeatMode = .triggered ∧ (s.slot n).plan.armSource = .slotDone))
    (hstart : (s.slot n).meetsStart (s.offered st) = true) (hstamps : (s.slot n).stampsAt s.horizonTime = [g])
    (hin : g.st.input = (s.slot n).plan.inputB) (hse : g.st.sense = (s.slot n).plan.senseB)
    (hne : g.st.input ≠ st.input) (hle : (g.st.corrected - st.corrected).toNat < 2 ^ 63) :
    ∃ t, exec (.stampOffer i) s = .next t ∧ EngineStep s t
      ∧ s.IntervalEnds t n st g.st (st.corrected + s.offset) g.scale (s.slot n).data.marks (decide (g.steps ≠ 0))
      ∧ ((s.slot n).plan.repeatMode = .triggered →
        (s.slot n).RearmedBeside (t.slot n) s.horizonTime s.horizonLocked st (st.corrected + s.offset)) := by
  have ho : (s.slot n).state ≠ .idle := by rw [hst]; exact nofun
  obtain ⟨y, k, hy, hrun⟩ := State.offer_chained st hc ho
    (Slot.awaitsArming_of_state _ (by rw [hst]; exact nofun))
  have hplan : y.plan = (s.slot n).plan := hy.samePlan.1
  have hyk : y.plan.kind = .interval := hplan ▸ hk
  have hys : y.stampsAt s.horizonTime = [g, s.offered st] := by rw [hy.stampsAt, hstamps]; rfl
  have hstarty : y.meetsStart (s.offered st) = true := by
    rw [Slot.meetsStart_iff] at hstart ⊢
    rw [hplan, hy.data]
    exact hstart
  have hsame := y.takeStart_samePlan (s.offered st)
  have hothers : ∀ e ∈ (y.takeStart (s.offered st)).stampsAt s.horizonTime, e ≠ g → e = s.offered st := by
    intro e he heg
    rw [Slot.takeStart_stampsAt, hys] at he
    simpa [heg] using he
  have hdg : s.offered st ≠ g := fun e => hne (by rw [← e]; rfl)
  have hentry : ∀ o, ((y.takeStart (s.offered st)).place o).finished = ((s.slot n).place o).finished
      ∧ ((y.takeStart (s.offered st)).place o).lost = ((s.slot n).place o).lost := fun o => by
    obtain ⟨h1, h2⟩ := Slot.place_congr (x := y) (y := y.takeStart (s.offered st)) o
      (by rw [Slot.takeStart_frame]) (by rw [Slot.takeStart_frame])
    exact ⟨h1.trans (hy.entry o).1, h2.trans (hy.entry o).2⟩
  have hfin : (y.takeStart (s.offered st)).FinishesOf s.horizonTime g.st := fun hr hd =>
    absurd ⟨hplan ▸ hsame.1 ▸ hr, hplan ▸ hsame.1 ▸ hd⟩ hnd
  rw [Slot.judgeRun_startStops n s.horizonLocked (k + 4) (hy.state.trans hst) hyk hstarty hys (hplan ▸ hin)
    (hplan ▸ hse) hne hle] at hrun
  have hstep := s.conclude_offer_step st
  obtain ⟨hends, hrearms⟩ := State.intervalEnds_of_stopped (x := y.takeStart (s.offered st)) (f := g) (first := st)
    (scale := st.corrected + s.offset) (k + 2) hstep (s.offer_unit st) (s.offer_rawTime st) ho
    (hy.samePlan.trans hsame) hentry (by rw [hsame.1]; exact hyk) (Slot.takeStart_start _ _)
    ((atOrBefore_iff _ _).2 hle) hfin (fun e he heg _ => by rw [hothers e he heg]; rfl) hrun
  rw [Slot.takeStart_data, hy.data] at hends
  rw [show decide (g.steps ≠ 0) = decide (0 ≠ g.steps) from decide_eq_decide.2 ne_comm]
  refine ⟨_, exec_stampOffer_due hdue, hstep, hends, fun hr => (hrearms hr).1 ⟨s.offered st, ?_, hdg, rfl⟩⟩
  rw [Slot.takeStart_stampsAt]
  exact hy.mem

/-- Settles O31: the stop comes at or after a start offered before it, or the start comes after it and is taken first. -/
theorem stampStopsInterval : Obligations.StampStopsInterval := by
  refine ⟨fun i st first scale n s hdue => ?_, fun i st g n s hdue => ?_⟩ <;> dsimp only
  · intro hst hk hc hin hse hs hne hle hnow hq
    simp only [← and_assoc, ← Slot.mem_stampsAt] at hnow ⊢
    simp only [and_assoc]
    exact State.interval_stop_after_start hdue hst hk hc hin hse hs hne hle hnow hq
  · intro hst hk hc hnd hin hse hfrom hstrict hstamps hgin hgse hne hle
    exact State.interval_stop_before_start hdue hst hk hc hnd ((Slot.meetsStart_iff _ _).2 ⟨hin, hse, hfrom, hstrict⟩)
      hstamps hgin hgse hne hle

end Sys2Proof.Machine
end

section
/-! PROOFS. Plan items, the checks of WRITE_PLAN and what an applied one does (R57 to R64). -/

namespace Sys2Proof.Machine

/-! ## Plan items (R58, R60, R62, R180) -/

theorem clampPeriods_toNat (v : BitVec 64) : (clampPeriods v).toNat = max 1 (min v.toNat 4294967296) := by
  unfold clampPeriods
  split
  · next h => rw [h]; rfl
  · split
    · next h => rw [BitVec.toNat_ofNat]; omega
    · omega

theorem clampPrescale_toNat (w : BitVec 32) : (clampPrescale w).toNat = max 1 (min w.toNat 65536) := by
  unfold clampPrescale
  split
  · next h => rw [h]; rfl
  · split
    · next h => show 65536 = _; omega
    · omega

/-- A number is clamped exactly when it stands out of its range (R62). -/
theorem clampPeriods_ne (v : BitVec 64) : clampPeriods v ≠ v ↔ v = 0 ∨ 4294967296 < v.toNat := by
  have h0 : (0 : BitVec 64).toNat = 0 := rfl
  rw [ne_eq, ← BitVec.toNat_inj, clampPeriods_toNat, ← BitVec.toNat_inj, h0]
  omega

theorem clampPrescale_ne (w : BitVec 32) : clampPrescale w ≠ w ↔ w = 0 ∨ 65536 < w.toNat := by
  have h0 : (0 : BitVec 32).toNat = 0 := rfl
  rw [ne_eq, ← BitVec.toNat_inj, clampPrescale_toNat, ← BitVec.toNat_inj, h0]
  omega

theorem itemClamped_gate (v : BitVec 64) : itemClamped (.gate v) = true ↔ v = 0 ∨ 4294967296 < v.toNat :=
  decide_eq_true_iff.trans (clampPeriods_ne v)

theorem itemClamped_waitLimit (v : BitVec 64) : itemClamped (.waitLimit v) = true ↔ v = 0 ∨ 4294967296 < v.toNat :=
  decide_eq_true_iff.trans (clampPeriods_ne v)

theorem itemClamped_prescale (w : BitVec 32) : itemClamped (.prescale w) = true ↔ w = 0 ∨ 65536 < w.toNat :=
  decide_eq_true_iff.trans (clampPrescale_ne w)

/-- Gate, wait limit and prescale are the only numbers that are clamped (R62). -/
theorem itemClamped_numbers {x : PlanItem} (h : itemClamped x = true) :
    (∃ u, x = .gate u ∨ x = .waitLimit u) ∨ ∃ u, x = .prescale u := by
  cases x with
  | gate u => exact .inl ⟨u, .inl rfl⟩
  | waitLimit u => exact .inl ⟨u, .inr rfl⟩
  | prescale u => exact .inr ⟨u, rfl⟩
  | _ => cases h

theorem isKnown_eq_false (x : PlanItem) : x.isKnown = false ↔ ∃ b bs, x = .unknown b bs := by
  cases x with
  | unknown b bs => exact ⟨fun _ => ⟨b, bs, rfl⟩, fun _ => rfl⟩
  | _ => exact ⟨nofun, nofun⟩

/-! The codes that name something (R180). -/

theorem Kind.ofCode_isSome (c : Byte) : (Kind.ofCode c).isSome = true ↔ c = 1 ∨ c = 2 ∨ c = 3 ∨ c = 4 := by
  unfold Kind.ofCode
  split_ifs <;> simp_all

theorem Sense.ofCode_isSome (c : Byte) : (Sense.ofCode c).isSome = true ↔ c = 1 ∨ c = 2 := by
  unfold Sense.ofCode
  split_ifs <;> simp_all

theorem ReportAs.ofCode_isSome (c : Byte) : (ReportAs.ofCode c).isSome = true ↔ c = 1 ∨ c = 2 := by
  unfold ReportAs.ofCode
  split_ifs <;> simp_all

theorem ArmSource.ofCode_isSome (c : Byte) : (ArmSource.ofCode c).isSome = true ↔ c = 1 ∨ c = 2 ∨ c = 3 ∨ c = 4 := by
  unfold ArmSource.ofCode
  split_ifs <;> simp_all

theorem RepeatMode.ofCode_isSome (c : Byte) : (RepeatMode.ofCode c).isSome = true ↔ c = 1 ∨ c = 2 ∨ c = 3 := by
  unfold RepeatMode.ofCode
  split_ifs <;> simp_all

/-! The codes read back: the code of a value names that value. -/

theorem Kind.ofCode_code (k : Kind) : Kind.ofCode k.code = some k := by cases k <;> rfl
theorem Sense.ofCode_code (e : Sense) : Sense.ofCode e.code = some e := by cases e <;> rfl
theorem ReportAs.ofCode_code (r : ReportAs) : ReportAs.ofCode r.code = some r := by cases r <;> rfl
theorem ArmSource.ofCode_code (a : ArmSource) : ArmSource.ofCode a.code = some a := by cases a <;> rfl
theorem RepeatMode.ofCode_code (m : RepeatMode) : RepeatMode.ofCode m.code = some m := by cases m <;> rfl

section
variable (plan : Plan)

theorem applyItem_inputs (i : InputId) :
    applyItem plan (.inputA (BitVec.ofNat 8 i.val)) = { plan with inputA := i }
    ∧ applyItem plan (.inputB (BitVec.ofNat 8 i.val)) = { plan with inputB := i }
    ∧ applyItem plan (.armInput (BitVec.ofNat 8 i.val)) = { plan with armInput := i } := by
  unfold applyItem
  dsimp only
  rw [numberOf_input]
  exact ⟨rfl, rfl, rfl⟩

theorem applyItem_armSlot (n : SlotId) :
    applyItem plan (.armSlot (BitVec.ofNat 8 n.val)) = { plan with armSlot := n } := by
  unfold applyItem
  dsimp only
  rw [numberOf_slot]
  rfl

theorem applyItem_kind (k : Kind) : applyItem plan (.kind k.code) = { plan with kind := k } := by
  unfold applyItem
  dsimp only
  rw [k.ofCode_code]
  rfl

theorem applyItem_senses (e : Sense) : applyItem plan (.senseA e.code) = { plan with senseA := e }
    ∧ applyItem plan (.senseB e.code) = { plan with senseB := e }
    ∧ applyItem plan (.armSense e.code) = { plan with armSense := e } := by
  unfold applyItem
  dsimp only
  rw [e.ofCode_code]
  exact ⟨rfl, rfl, rfl⟩

theorem applyItem_reportAs (r : ReportAs) : applyItem plan (.reportAs r.code) = { plan with reportAs := r } := by
  unfold applyItem
  dsimp only
  rw [r.ofCode_code]
  rfl

theorem applyItem_armSource (a : ArmSource) : applyItem plan (.armSource a.code) = { plan with armSource := a } := by
  unfold applyItem
  dsimp only
  rw [a.ofCode_code]
  rfl

theorem applyItem_repeatMode (m : RepeatMode) : applyItem plan (.repeatMode m.code) = { plan with repeatMode := m } := by
  unfold applyItem
  dsimp only
  rw [m.ofCode_code]
  rfl

end

theorem resultingPlan_append (plan : Plan) (items : List PlanItem) (x : PlanItem) :
    resultingPlan plan (items ++ [x]) = applyItem (resultingPlan plan items) x :=
  List.foldl_concat ..

/-- Settles O22, item by item; each code is the one that R180 gives its value. -/
theorem planItemsClampAndReplace : Obligations.PlanItemsClampAndReplace := by
  intro plan v w c i n items x rest
  obtain ⟨hinputA, hinputB, harmInput⟩ := applyItem_inputs plan i
  refine ⟨rfl, resultingPlan_append plan items x, clampPeriods_toNat v, clampPeriods_toNat v, clampPrescale_toNat w, rfl,
    rfl, rfl, rfl, rfl, hinputA, hinputB, harmInput, applyItem_armSlot plan n, fun k hk => ?_, fun e he => ?_,
    fun r hr => ?_, fun a ha => ?_, fun m hm => ?_, rfl, itemClamped_gate v, itemClamped_waitLimit v,
    itemClamped_prescale w, itemClamped_numbers, isKnown_eq_false x, Kind.ofCode_isSome c, Sense.ofCode_isSome c,
    Sense.ofCode_isSome c, Sense.ofCode_isSome c, ReportAs.ofCode_isSome c, ArmSource.ofCode_isSome c,
    RepeatMode.ofCode_isSome c, decide_eq_true_iff, decide_eq_true_iff, decide_eq_true_iff, decide_eq_true_iff, rfl, rfl,
    rfl, rfl, rfl⟩
  · have hc : c = k.code := by rw [hk]; cases k <;> rfl
    rw [hc]; exact applyItem_kind plan k
  · have hc : c = e.code := by rw [he]; cases e <;> rfl
    rw [hc]; exact applyItem_senses plan e
  · have hc : c = r.code := by rw [hr]; cases r <;> rfl
    rw [hc]; exact applyItem_reportAs plan r
  · have hc : c = a.code := by rw [ha]; cases a <;> rfl
    rw [hc]; exact applyItem_armSource plan a
  · have hc : c = m.code := by rw [hm]; cases m <;> rfl
    rw [hc]; exact applyItem_repeatMode plan m

/-! ## The checks of WRITE_PLAN (R59 to R61) -/

/-- Whether every item of a list names a field and holds a valid value (R60). -/
def ItemsGood (items : List PlanItem) : Prop := ∀ item ∈ items, item.isKnown = true ∧ itemValid item = true

theorem itemsGood_iff (items : List PlanItem) :
    ItemsGood items ↔ items.all PlanItem.isKnown = true ∧ items.all itemValid = true := by
  rw [List.all_eq_true, List.all_eq_true]
  exact forall₂_and

theorem chainRefused_iff (n : SlotId) (plan : Plan) :
    chainRefused n plan = true ↔ plan.armSource = .slotDone ∧ n ≤ plan.armSlot := by
  unfold chainRefused
  rw [Bool.and_eq_true, decide_eq_true_iff, decide_eq_true_iff]

theorem Plan.ChainsUpward.accepted {plan : Plan} {n : SlotId} (h : plan.ChainsUpward n) : ¬chainRefused n plan = true := by
  rw [chainRefused_iff]
  exact fun ⟨hsource, hle⟩ => absurd (h.2 hsource) (not_lt.2 hle)

section
variable {n : SlotId} {g : Option Gen} {items : List PlanItem} {s : State}

/-- Checks 3 and 4: an unknown field or an invalid value (R60). -/
theorem State.writePlanCheck_badItems (hg : Passes g (s.slot n).planGen) (hl : ¬ItemsGood items) :
    s.writePlanCheck n g items = some .badValue := by
  rw [itemsGood_iff, not_and_or, Bool.not_eq_true, Bool.not_eq_true] at hl
  unfold State.writePlanCheck
  dsimp only
  rw [generationMatches_of_passes hg]
  rcases hl with hunknown | hinvalid
  · rw [hunknown]; rfl
  · rw [hinvalid]; cases items.all PlanItem.isKnown <;> rfl

/-- Checks 5 to 8, of the resulting plan (R59, R61). -/
def State.resultCheck (s : State) (n : SlotId) (plan : Plan) : Option Status :=
  if plan.repeatMode = .triggered ∧ plan.armSource = .atTime then some .badValue
  else if chainRefused n plan then some .badChain
  else if (s.slot n).state ≠ .idle ∧ s.namesCalibrating plan = true then some .busy
  else if (s.slot n).state ≠ .idle ∧ plan.armSource = .atTime
    ∧ atOrBefore plan.armTime (s.arrivalHorizon + s.offset) = true then some .tooLate
  else none

theorem State.writePlanCheck_good (hg : Passes g (s.slot n).planGen) (hl : ItemsGood items) :
    s.writePlanCheck n g items = s.resultCheck n (resultingPlan (s.slot n).plan items) := by
  obtain ⟨hknown, hvalid⟩ := (itemsGood_iff items).1 hl
  unfold State.writePlanCheck State.resultCheck
  dsimp only
  rw [generationMatches_of_passes hg, hknown, hvalid]
  rfl

variable {plan : Plan}

theorem State.resultCheck_triggered (h : plan.repeatMode = .triggered ∧ plan.armSource = .atTime) :
    s.resultCheck n plan = some .badValue := if_pos h

theorem State.resultCheck_chain (h : plan.armSource = .slotDone ∧ n ≤ plan.armSlot) :
    s.resultCheck n plan = some .badChain := by
  unfold State.resultCheck
  rw [if_neg, if_pos ((chainRefused_iff n plan).2 h)]
  exact fun k => nomatch h.1.symm.trans k.2

/-- The checks that only a slot outside IDLE meets (R59). -/
theorem State.resultCheck_chains (h : plan.ChainsUpward n) : s.resultCheck n plan =
    if (s.slot n).state ≠ .idle ∧ s.namesCalibrating plan = true then some .busy
    else if (s.slot n).state ≠ .idle ∧ plan.armSource = .atTime
      ∧ atOrBefore plan.armTime (s.arrivalHorizon + s.offset) = true then some .tooLate
    else none := by
  unfold State.resultCheck
  rw [if_neg h.1, if_neg h.accepted]

theorem State.resultCheck_busy (h : plan.ChainsUpward n) (hs : (s.slot n).state ≠ .idle)
    (hb : ∃ i, plan.names i = true ∧ (s.input i).state = .calibrating) : s.resultCheck n plan = some .busy := by
  rw [State.resultCheck_chains h, if_pos ⟨hs, (s.namesCalibrating_iff plan).2 hb⟩]

theorem State.resultCheck_tooLate (h : plan.ChainsUpward n) (hs : (s.slot n).state ≠ .idle)
    (hb : ¬∃ i, plan.names i = true ∧ (s.input i).state = .calibrating) (ha : plan.armSource = .atTime)
    (ht : (s.arrivalHorizon + s.offset - plan.armTime).toNat < 2 ^ 63) : s.resultCheck n plan = some .tooLate := by
  rw [← s.namesCalibrating_iff] at hb
  rw [State.resultCheck_chains h, if_neg fun k => hb k.2, if_pos ⟨hs, ha, (atOrBefore_iff _ _).2 ht⟩]

theorem State.resultCheck_none (h : plan.ChainsUpward n)
    (hb : (s.slot n).state ≠ .idle → ∀ i, plan.names i = true → (s.input i).state ≠ .calibrating)
    (ht : (s.slot n).state ≠ .idle → plan.armSource = .atTime →
      ¬(s.arrivalHorizon + s.offset - plan.armTime).toNat < 2 ^ 63) : s.resultCheck n plan = none := by
  rw [State.resultCheck_chains h, if_neg, if_neg]
  · exact fun ⟨hs, ha, hp⟩ => ht hs ha ((atOrBefore_iff _ _).1 hp)
  · rintro ⟨hs, hc⟩
    obtain ⟨i, hn, hi⟩ := (s.namesCalibrating_iff plan).1 hc
    exact hb hs i hn hi

/-! ## What WRITE_PLAN does -/

variable {p : PortId}

theorem execWritePlan_refused (tag : Byte) {status : Status} (hr : (s.port p).rights.getLsbD 0 = true)
    (hc : s.writePlanCheck n g items = some status) : exec (.writePlan p tag (BitVec.ofNat 8 n.val) g items) s =
      .next (s.setPort p ((s.port p).answer status tag 0x31 (refusedPlanPayload (s.slot n) status))) := by
  show execWritePlan p tag _ g items s = _
  unfold execWritePlan
  rw [State.withRight_held tag _ ((permitted_measure rfl).trans hr), numberOf_slot]
  dsimp only
  rw [hc]
  rfl

/-- The slot that an applied WRITE_PLAN leaves, before the grant (R63, R64). -/
def State.rewritten (s : State) (n : SlotId) (plan : Plan) : Slot :=
  (s.slot n).rewrite n s.horizonTime s.horizonLocked s.arrivalHorizon s.arrivalTime plan

theorem execWritePlan_applied (tag : Byte) (hr : (s.port p).rights.getLsbD 0 = true)
    (hp : resultingPlan (s.slot n).plan items = plan) (hc : s.writePlanCheck n g items = none) :
    exec (.writePlan p tag (BitVec.ofNat 8 n.val) g items) s =
      .next (((s.setSlot n (s.rewritten n plan)).grant.raise .change
          fun q => decide (q ≠ p) && (s.port q).subscription.getLsbD n).respond p tag .writePlan
        (clampStatus (items.any itemClamped))
        (planBlock (s.rewritten n plan).plan
          ++ slotStatusBytes (s.rewritten n plan).planGen (s.rewritten n plan).state)) := by
  show execWritePlan p tag _ g items s = _
  unfold execWritePlan
  rw [State.withRight_held tag _ ((permitted_measure rfl).trans hr), numberOf_slot]
  dsimp only
  rw [hc, ← hp]
  rfl

theorem State.rewritten_plan (s : State) (n : SlotId) (plan : Plan) :
    (s.rewritten n plan).plan = plan ∧ (s.rewritten n plan).planGen = (s.slot n).planGen + 1 := by
  unfold State.rewritten Slot.rewrite
  split <;> exact ⟨rfl, rfl⟩

theorem State.rewritten_idle (h : (s.slot n).state = .idle) :
    s.rewritten n plan = { s.slot n with plan := plan, planGen := (s.slot n).planGen + 1 } := if_pos h

theorem State.rewritten_active (h : (s.slot n).state ≠ .idle) : s.rewritten n plan =
    { (s.slot n).abort n s.horizonTime s.horizonLocked with
      plan := plan, planGen := (s.slot n).planGen + 1 }.armByRequest s.arrivalHorizon s.arrivalTime := if_neg h

end

/-- Settles O21: each refusal is the first check that fails, and its answer is all that changes. -/
theorem writePlanRefusals : Obligations.WritePlanRefusals := by
  intro p tag n g items s x plan refused listGood busy hr hg
  have hrefused : ∀ {status}, ItemsGood items → s.resultCheck n plan = some status →
      refused status (refusedPlanPayload x status) := fun hl hc =>
    execWritePlan_refused tag hr ((State.writePlanCheck_good hg hl).trans hc)
  exact ⟨fun hl => execWritePlan_refused tag hr (State.writePlanCheck_badItems hg hl),
    fun hl hrep ha => hrefused hl (State.resultCheck_triggered ⟨hrep, ha⟩),
    fun hl ha hle => hrefused hl (State.resultCheck_chain ⟨ha, hle⟩),
    fun hl hc hs hb => hrefused hl (State.resultCheck_busy hc hs hb),
    fun hl hc hs hb ha ht => hrefused hl (State.resultCheck_tooLate hc hs hb ha ht)⟩

theorem State.respond_slot (s : State) (p : PortId) (tag : Byte) (c : Command) (st : Status) (bs : List Byte)
    (n : SlotId) : (s.respond p tag c st bs).slot n = s.slot n := rfl

/-- The grant after one slot is written changes the slots and the unit alone. -/
theorem State.setSlot_grant_rest (s : State) (n : SlotId) (x : Slot) : (s.setSlot n x).grant =
    { s with slots := (s.setSlot n x).grant.slots, unit := (s.setSlot n x).grant.unit } := by
  have hrest := (s.setSlot n x).grant_engine.rest
  rw [State.grant_stamps, State.grant_ports] at hrest
  exact hrest

theorem State.setSlot_grant_port (s : State) (n : SlotId) (x : Slot) (q : PortId) :
    (s.setSlot n x).grant.port q = s.port q := by
  rw [State.port_eq, State.grant_ports]
  rfl

/-- Settles O20: the slot rewritten, the grant of the instant, the notices and the answer. -/
theorem writePlanApplies : Obligations.WritePlanApplies := by
  intro p tag n g items s x plan hr hg hl hc hb ht
  have hexec := execWritePlan_applied (plan := plan) tag hr rfl
    ((State.writePlanCheck_good hg hl).trans (State.resultCheck_none hc hb ht))
  obtain ⟨hplan, hgen⟩ := s.rewritten_plan n plan
  have hframe := s.setSlot_grant_rest n (s.rewritten n plan)
  have hport := s.setSlot_grant_port n (s.rewritten n plan)
  have hgrants := fun m => s.setSlot_grant_slot n m (s.rewritten n plan)
  have hself := hgrants n
  rw [State.slot_setSlot, if_pos rfl] at hself
  have hrest := hself.rest
  generalize (s.setSlot n (s.rewritten n plan)).grant = u at hexec hframe hport hgrants hself hrest
  refine ⟨_, hexec, ?_, fun m hm => ?_, ?_, ?_, fun hi => ?_, fun ha => ?_, fun ha => ?_, ?_, fun q hq => ?_⟩
  · conv => lhs; rw [hframe]
    rw [hframe]
    rfl
  · have hother := hgrants m
    rw [State.slot_setSlot, if_neg hm.symm] at hother
    exact hother
  · rw [State.respond_slot, State.slot_raise, hrest]; exact hplan
  · rw [State.respond_slot, State.slot_raise, hrest]; exact hgen
  · rw [State.respond_slot, State.slot_raise, ← State.rewritten_idle hi]; exact hself
  · rw [State.respond_slot, State.slot_raise, hrest, State.rewritten_active ha]
    exact ⟨rfl, rfl, rfl, rfl⟩
  · have hy : s.rewritten n plan = { x with
        plan := plan, planGen := x.planGen + 1, data := (u.slot n).data, fresh := [], finishes := [] } := by
      rw [hrest, State.rewritten_active (ha.trans_ne nofun), Slot.abort_nothing _ _ _ (.inr ha)]
      unfold Slot.armByRequest
      rw [← ha]
    rw [State.respond_slot, State.slot_raise, ← hy]
    exact hself
  · rw [State.respond_answer, State.port_setPort, if_pos rfl, State.port_raise, if_neg (by simp), hport, hplan, hgen]
    unfold slotStatusBytes
    rw [← List.append_assoc]
    by_cases hi : x.state = .idle
    · rw [State.rewritten_idle hi, if_pos hi, hi]; rfl
    · rw [State.rewritten_active hi, if_neg hi]; rfl
  · rw [State.respond_answer, State.port_setPort, if_neg hq.symm, State.port_raise, hport, decide_eq_true hq, Bool.true_and]
    rfl

end Sys2Proof.Machine
end

section
/-! PROOFS. The requests that end a measurement in flight (R64, R66, R75, R79, R80), and RESET_MEASUREMENT (R68, R96, R115,
R138 to R140). -/

namespace Sys2Proof.Machine

/-! ## The ABORTED outcome (R66, R73, R75, R82) -/

theorem SlotState.inFlight_of_ne {st : SlotState} (hi : st ≠ .idle) (ha : st ≠ .arming) : st.inFlight = true := by
  cases st with
  | idle => exact absurd rfl hi
  | arming => exact absurd rfl ha
  | _ => rfl

/-- Whether a TRIGGERED finish of horizon time h has re-armed a slot under IMMEDIATE, and no stamp has filled a role
since (R66, R82, log entry 33). -/
def Slot.PassesArming (x : Slot) (h : Tick) : Prop :=
  x.plan.repeatMode = .triggered ∧ x.plan.armSource = .immediate ∧ x.data.armingSince = h ∧ x.data.armInstant = some h
  ∧ (x.state = .starting ∨ (x.state = .gating ∧ x.plan.kind = .totalize)
    ∨ (x.state = .tagging ∧ x.data.previousTag = none))

theorem Slot.passesArming_iff (x : Slot) (h : Tick) : x.passesArming h = true ↔ x.PassesArming h := by
  unfold Slot.passesArming Slot.PassesArming
  cases x.state <;> simp [and_assoc]

/-- The outcome of a measurement that a request ends (R73, R75, log entry 30). -/
def Slot.abortedOutcome (x : Slot) (n : SlotId) (locked : Bool) : Outcome where
  slot := n
  kind := x.plan.kind
  reportAs := x.plan.reportAs
  planGen := x.planGen
  result := .aborted
  flags := ⟨true, false, x.data.marks.timeStepped || decide (x.data.startSteps ≠ 0), x.data.marks.refFault || !locked,
    x.data.marks.calChanged, false⟩
  start := if x.state = .gating ∨ x.state = .stopping then x.data.start else none
  stop := none
  edgesSince := none
  lost := 0

section
variable {x : Slot} {h : Tick}

theorem Slot.abort_places (n : SlotId) (l : Bool) (hi : x.state ≠ .idle) (ha : x.state ≠ .arming)
    (hp : ¬x.PassesArming h) : x.abort n h l = x.place (x.abortedOutcome n l) := by
  rw [← Slot.passesArming_iff, Bool.not_eq_true] at hp
  unfold Slot.abort
  rw [SlotState.inFlight_of_ne hi ha, hp]
  rfl

theorem Slot.abort_passes (n : SlotId) (l : Bool) (hp : x.PassesArming h) : x.abort n h l = x := by
  rw [← Slot.passesArming_iff] at hp
  unfold Slot.abort
  rw [hp, Bool.not_true, Bool.and_false]
  rfl

end

/-! ## The requests that end a measurement (R64, R75, R79, R80) -/

/-- What a request that ends the measurement of slot n does: it leaves the slot's finished entry and lost count as the
abort gives them, and the arbiter grants from there. -/
def State.Aborts (s t : State) (n : SlotId) : Prop :=
  ∃ left : State, left.unit = s.unit ∧ left.rawTime = s.rawTime ∧ t.slots = left.grant.slots ∧ t.unit = left.grant.unit
    ∧ (left.slot n).finished = ((s.slot n).abort n s.horizonTime s.horizonLocked).finished
    ∧ (left.slot n).lost = ((s.slot n).abort n s.horizonTime s.horizonLocked).lost

section
variable {s t : State} {n : SlotId} {p : PortId} {g : Option Gen} {items : List PlanItem}

/-- Writing a slot with the entry and the lost count of the abort, and granting from there, is such a request. -/
theorem State.Aborts.of_setSlot {x : Slot}
    (hf : x.finished = ((s.slot n).abort n s.horizonTime s.horizonLocked).finished)
    (hl : x.lost = ((s.slot n).abort n s.horizonTime s.horizonLocked).lost)
    (hs : t.slots = (s.setSlot n x).grant.slots) (hu : t.unit = (s.setSlot n x).grant.unit) : s.Aborts t n := by
  refine ⟨s.setSlot n x, rfl, rfl, hs, hu, ?_, ?_⟩ <;> rw [State.slot_setSlot, if_pos rfl]
  · exact hf
  · exact hl

/-- The outcome of such a request is formed, unless the slot passes through ARMING. -/
theorem State.Aborts.forms (h : s.Aborts t n) (hi : (s.slot n).state ≠ .idle) (ha : (s.slot n).state ≠ .arming)
    (hp : ¬(s.slot n).PassesArming s.horizonTime) :
    s.OutcomeFormed t n ((s.slot n).abortedOutcome n s.horizonLocked) := by
  obtain ⟨left, hu, hr, hs, ht, hf, hl⟩ := h
  rw [Slot.abort_places n _ hi ha hp] at hf hl
  refine State.OutcomeFormed.of_left hu hr (Slot.placed_of_place hf hl) hs ht fun hfree => ?_
  have hgrants := left.grant_free (by rw [hu]; exact hfree)
  unfold State.GrantsNext at hgrants ⊢
  rw [hu, hr] at hgrants
  exact hgrants

/-- A slot that passes through ARMING is left to the grant as it was. -/
theorem State.Aborts.grantOnly (h : s.Aborts t n) (hp : (s.slot n).PassesArming s.horizonTime) :
    s.GrantOnly n { t.slot n with finished := (s.slot n).finished, lost := (s.slot n).lost } (t.slot n) := by
  obtain ⟨left, hu, hr, hs, ht, hf, hl⟩ := h
  rw [Slot.abort_passes n _ hp] at hf hl
  have hgrant := (left.grant_slot n).of_unit hu hr
  rw [State.slot_of_slots hs, ← hf, ← hl]
  have hleft : { left.grant.slot n with finished := (left.slot n).finished, lost := (left.slot n).lost } = left.slot n := by
    rw [hgrant.rest]
  rw [hleft]
  exact hgrant

/-- The state in which an applied STOP leaves the slots, and DONE told, before the grant (R75, R80, R131). -/
def State.stopped (s : State) (n : SlotId) : State :=
  let s' := s.setSlot n (if (s.slot n).state = .idle then s.slot n
    else ((s.slot n).abort n s.horizonTime s.horizonLocked).toIdle)
  if (s.slot n).state.inFlight && (s.slot n).isSingle then s'.raiseSubscribed .done n else s'

theorem execStop_applied (tag : Byte) (hr : (s.port p).rights.getLsbD 0 = true) :
    exec (.stop p tag (BitVec.ofNat 8 n.val)) s =
      .next ((s.stopped n).grant.respond p tag .stop .ok (slotStatusBytes (s.slot n).planGen .idle)) := by
  show execStop p tag _ s = _
  unfold execStop
  rw [State.withRight_held tag _ ((permitted_measure rfl).trans hr), numberOf_slot]
  rfl

/-- STOP writes the slot alone, but for attention flags. -/
theorem State.stopped_active (hi : (s.slot n).state ≠ .idle) : ∃ ports, s.stopped n =
    { s.setSlot n ((s.slot n).abort n s.horizonTime s.horizonLocked).toIdle with ports := ports } := by
  unfold State.stopped
  rw [if_neg hi]
  dsimp only
  split <;> exact ⟨_, rfl⟩

theorem execStop_aborts (tag : Byte) (hr : (s.port p).rights.getLsbD 0 = true) (hi : (s.slot n).state ≠ .idle) :
    ∃ t, exec (.stop p tag (BitVec.ofNat 8 n.val)) s = .next t ∧ s.Aborts t n := by
  obtain ⟨ports, hstopped⟩ := State.stopped_active hi
  refine ⟨_, execStop_applied tag hr, s.stopped n, ?_, ?_, rfl, rfl, ?_⟩
  · rw [hstopped]; rfl
  · rw [hstopped]; rfl
  · have hslot : (s.stopped n).slot n = ((s.slot n).abort n s.horizonTime s.horizonLocked).toIdle := by
      rw [State.slot_of_slots (s := s.setSlot n ((s.slot n).abort n s.horizonTime s.horizonLocked).toIdle)
        (by rw [hstopped]), State.slot_setSlot, if_pos rfl]
    rw [hslot]
    exact ⟨rfl, rfl⟩

theorem execArm_aborts (tag : Byte) (hr : (s.port p).rights.getLsbD 0 = true)
    (hc : s.namesCalibrating (s.slot n).plan = false) (hl : s.armTooLate (s.slot n).plan = false) :
    ∃ t, exec (.arm p tag (BitVec.ofNat 8 n.val)) s = .next t ∧ s.Aborts t n :=
  ⟨_, execArm_applied tag hr hc hl, .of_setSlot (x := s.rearmed n) rfl rfl rfl rfl⟩

theorem execWritePlan_aborts (tag : Byte) (hr : (s.port p).rights.getLsbD 0 = true)
    (hc : s.writePlanCheck n g items = none) (hi : (s.slot n).state ≠ .idle) :
    ∃ t, exec (.writePlan p tag (BitVec.ofNat 8 n.val) g items) s = .next t ∧ s.Aborts t n := by
  have hactive := State.rewritten_active (plan := resultingPlan (s.slot n).plan items) hi
  refine ⟨_, execWritePlan_applied tag hr rfl hc,
    .of_setSlot (x := s.rewritten n (resultingPlan (s.slot n).plan items)) ?_ ?_ rfl rfl⟩ <;> rw [hactive] <;> rfl

theorem State.namesCalibrating_eq_false {plan : Plan}
    (h : ∀ i, plan.names i = true → (s.input i).state ≠ .calibrating) : s.namesCalibrating plan = false := by
  rw [← Bool.not_eq_true, s.namesCalibrating_iff]
  exact fun ⟨i, hn, hi⟩ => h i hn hi

/-- An arm time that the time-scale horizon has not reached is later than it. -/
theorem State.armTooLate_eq_false {plan : Plan} (h : plan.armSource = .atTime →
      ¬(s.coarse ++ (0 : BitVec 8) - 73728 + s.offset - plan.armTime).toNat < 2 ^ 63
        ∧ (plan.armTime - (s.coarse ++ (0 : BitVec 8) - 73728 + s.offset)).toNat < 2 ^ 63) :
    s.armTooLate plan = false := by
  rw [← Bool.not_eq_true, s.armTooLate_iff]
  rintro ⟨hat, hlate⟩
  obtain ⟨hnot, hbefore⟩ := h hat
  refine hlate ⟨hbefore, fun e => hnot ?_⟩
  rw [e, BitVec.sub_self]
  decide

end

/-- Settles O25: each of the three requests ends the measurement by the one abort, and the grant follows. -/
theorem abortPlacesOutcome : Obligations.AbortPlacesOutcome := by
  intro p tag n c s hr x h free inTime passes hi ha hc
  have haborts : ∃ t, exec c s = .next t ∧ s.Aborts t n := by
    rcases hc with rfl | ⟨rfl, hfree, htime⟩ | ⟨g, items, rfl, hg, hl, hchains, hfree, htime⟩
    · exact execStop_aborts tag hr hi
    · exact execArm_aborts tag hr (State.namesCalibrating_eq_false hfree) (State.armTooLate_eq_false htime)
    · exact execWritePlan_aborts tag hr ((State.writePlanCheck_good hg hl).trans
        (State.resultCheck_none hchains (fun _ => hfree) fun _ hat => (htime hat).1)) hi
  obtain ⟨t, hexec, ht⟩ := haborts
  exact ⟨t, hexec, ht.forms hi ha, ht.grantOnly⟩

/-! ## RESET_MEASUREMENT (R68, R96, R115, R138 to R140) -/

/-- The part with its measurement side cleared: every slot, the unit, the latest table and the held records (R96, R115,
R138, R139). -/
def State.measurementCleared (s : State) : State :=
  { s.mapSlots fun _ x => x.resetMeasurement with
    unit := ArithUnit.idle
    latest := Vector.replicate 16 none
    log := { s.log with held := [] } }

theorem execResetMeasurement_applied {p : PortId} {s : State} (tag : Byte) (hr : (s.port p).rights.getLsbD 0 = true) :
    exec (.resetMeasurement p tag) s = .next
      (((s.measurementCleared.mapPorts fun q => { q with cursor := s.log.nextSeq }).raiseOthers .change p).respond p tag
        .resetMeasurement .ok (bytesBE 4 s.log.nextSeq.toNat)) := by
  show execResetMeasurement p tag s = _
  unfold execResetMeasurement
  rw [State.withRight_held tag _ ((permitted_measure rfl).trans hr)]
  rfl

theorem State.measurementCleared_rest (s : State) : s.measurementCleared = { s with
    slots := s.measurementCleared.slots, unit := ⟨none, 15⟩, latest := Vector.replicate 16 none
    log := { s.log with held := [] } } := by
  simp only [State.measurementCleared, State.mapSlots, ArithUnit.idle]

theorem State.measurementCleared_slot (s : State) (n : SlotId) : s.measurementCleared.slot n = { s.slot n with
    state := .idle, data := MeasData.empty, lost := 0, finished := none, fresh := [], finishes := [], usedUp := [] } :=
  s.slot_mapSlots (fun _ x => x.resetMeasurement) n

theorem State.measurementCleared_port (s : State) (q : PortId) : s.measurementCleared.port q = s.port q := by
  rw [← s.port_mapSlots fun _ x => x.resetMeasurement]
  simp only [State.measurementCleared, State.port]

/-- Settles O46: the cleared state, its ports with their notices and the answer. -/
theorem resetMeasurementClears : Obligations.ResetMeasurementClears := by
  intro p tag s hr
  have hexec := execResetMeasurement_applied tag hr
  have hrest := s.measurementCleared_rest
  have hslot := s.measurementCleared_slot
  have hport := s.measurementCleared_port
  generalize s.measurementCleared = u at hexec hrest hslot hport
  have hports : ∀ q, ((u.mapPorts fun q => { q with cursor := s.log.nextSeq }).raiseOthers .change p).port q =
      if q ≠ p then { s.port q with cursor := s.log.nextSeq }.setFlag .change
      else { s.port q with cursor := s.log.nextSeq } := fun q => by
    rw [State.raiseOthers_port, State.port_mapPorts, hport]
  refine ⟨_, hexec, ?_, hslot, ?_, fun q hq => ?_⟩
  · conv => lhs; rw [hrest]
    rw [hrest]
    rfl
  · rw [State.respond_answer, State.port_setPort, if_pos rfl, hports, if_neg (not_not_intro rfl)]
    rfl
  · rw [State.respond_answer, State.port_setPort, if_neg hq.symm, hports, if_pos hq]
    rfl

end Sys2Proof.Machine
end

section
/-! PROOFS. The outcomes on their way to records (R70, R73): every part of the engine keeps their shape. -/

namespace Sys2Proof.Machine

/-! ## The shape of an outcome (R73) -/

/-- An outcome that a slot forms has the shape of R73 where its start, stop and edges are those of its result. -/
theorem Slot.outcome_shaped (x : Slot) (n : SlotId) (l : Bool) {r : Result} (m : Marks) {pushed : Bool}
    {start stop : Option Endpoint} {edges : Option EdgeCount} (hstart : r = .valued → start.isSome = true)
    (hstop : stop.isSome = true ↔ r = .valued ∧ x.plan.kind ≠ .timetag)
    (hedges : edges.isSome = true ↔ r = .valued ∧ x.plan.kind = .timetag)
    (hpushed : pushed = true → edges.isSome = true) :
    (x.outcome n l r m pushed start stop edges).Shaped :=
  ⟨hstart, hstop, hedges, ⟨rfl, rfl⟩, hpushed⟩

/-- An outcome without a value has neither stop nor edges. -/
theorem Slot.outcome_shaped_unvalued (x : Slot) (n : SlotId) (l : Bool) {r : Result} (m : Marks)
    (start : Option Endpoint) (hr : r ≠ .valued) : (x.outcome n l r m false start none none).Shaped :=
  x.outcome_shaped n l m (fun e => absurd e hr) ⟨nofun, fun e => absurd e.1 hr⟩ ⟨nofun, fun e => absurd e.1 hr⟩ nofun

/-- A valued outcome with a start and a stop is none of TIMETAG. -/
theorem Slot.outcome_shaped_valued (x : Slot) (n : SlotId) (l : Bool) (m : Marks) {start : Option Endpoint}
    (stop : Endpoint) (hs : start.isSome = true) (hk : x.plan.kind ≠ .timetag) :
    (x.outcome n l .valued m false start (some stop) none).Shaped :=
  x.outcome_shaped n l m (fun _ => hs) ⟨fun _ => ⟨rfl, hk⟩, fun _ => rfl⟩ ⟨nofun, fun e => absurd e.2 hk⟩ nofun

/-- The record of an outcome of that shape has the shape of R111. -/
theorem Outcome.Shaped.record {o : Outcome} (h : o.Shaped) : o.record.Shaped := by
  cases he : o.edgesSince with
  | none => exact .inl he
  | some e =>
    obtain ⟨hvalued, htag⟩ := h.edgesSince.1 (by rw [he]; rfl)
    have hstop : o.stop = none := by
      rw [← Option.not_isSome_iff_eq_none, h.stop]
      exact fun c => c.2 htag
    have hedges : o.edges = none := by unfold Outcome.edges; rw [hvalued, htag]
    have hduration : o.duration = none := by unfold Outcome.duration; rw [hvalued, htag]
    refine .inr ⟨?_, hedges, hduration, ?_⟩
    · show o.stop.map _ = none
      rw [hstop]; rfl
    · show o.value = none
      unfold Outcome.value
      rw [htag]

/-! ## The slots (R70, R73) -/

/-- The laws of one slot: a start in GATING and STOPPING (R70), and a finished entry of the shape of R73. -/
structure Slot.Sound (x : Slot) : Prop where
  start : x.state = .gating ∨ x.state = .stopping → x.data.start.isSome = true
  finished : ∀ o, x.finished = some o → o.Shaped

section
variable {x y : Slot} {n : SlotId} {h : Tick} {l : Bool} {f : Offered}

/-- A slot with a sound slot's entry, outside GATING and STOPPING or with a start. -/
theorem Slot.Sound.of_entry (hx : x.Sound) (he : y.finished = x.finished)
    (hs : y.state = .gating ∨ y.state = .stopping → y.data.start.isSome = true) : y.Sound :=
  ⟨hs, fun o ho => hx.finished o (he ▸ ho)⟩

/-- A slot with a sound slot's entry, state and start. -/
theorem Slot.Sound.of_same (hx : x.Sound) (he : y.finished = x.finished) (hst : y.state = x.state)
    (hd : y.data.start = x.data.start) : y.Sound :=
  hx.of_entry he (by rw [hst, hd]; exact hx.start)

theorem Slot.Sound.place (hx : x.Sound) {o : Outcome} (ho : o.Shaped) : (x.place o).Sound := by
  refine ⟨by rw [Slot.place_state, Slot.place_data]; exact hx.start, fun p hp => ?_⟩
  unfold Slot.place at hp
  split at hp
  · cases hp
    exact ⟨ho.start, ho.stop, ho.edgesSince, ho.ends, ho.pushed⟩
  · exact hx.finished p hp

theorem Slot.begin_unstarted (x : Slot) (a : Tick) (b l : Bool) :
    (x.begin a b l).state ≠ .gating ∧ (x.begin a b l).state ≠ .stopping := by
  unfold Slot.begin; cases x.plan.kind <;> exact ⟨nofun, nofun⟩

theorem Slot.Sound.begin (hx : x.Sound) (a : Tick) (b l : Bool) : (x.begin a b l).Sound := by
  obtain ⟨hg, hs⟩ := x.begin_unstarted a b l
  exact hx.of_entry (x.begin_finished _ _ _) fun e => e.elim (absurd · hg) (absurd · hs)

theorem Slot.Sound.toIdle (hx : x.Sound) : x.toIdle.Sound := hx.of_entry rfl nofun

theorem Slot.Sound.rearm (hx : x.Sound) (h : Tick) (l : Bool) : (x.rearm h l).Sound := by
  have hy : ({ x with state := .arming, data := { MeasData.empty with armingSince := h } } : Slot).Sound :=
    hx.of_entry rfl nofun
  unfold Slot.rearm
  dsimp only
  split
  · exact hy.begin _ _ _
  · exact hy

theorem Slot.Sound.afterFinish (hx : x.Sound) (hy : y.Sound) (h : Tick) (l : Bool) : (x.afterFinish h l y).Sound := by
  unfold Slot.afterFinish
  split
  · exact hx.toIdle
  · exact hx.rearm _ _
  · exact hy

theorem Slot.Sound.takeStart (hx : x.Sound) (f : Offered) : (x.takeStart f).Sound :=
  hx.of_entry (by rw [x.takeStart_frame f]) fun _ => by rw [Slot.takeStart_start]; rfl

/-- A stop finds a start, and a kind other than TIMETAG (R87, R91). -/
theorem Slot.meetsStop_shape (hm : x.meetsStop f = true) : x.data.start.isSome = true ∧ x.plan.kind ≠ .timetag := by
  refine ⟨?_, ?_⟩
  · cases hs : x.data.start with
    | none => rw [Slot.meetsStop, hs] at hm; cases hm
    | some e => rfl
  · rcases Slot.meetsStop_isOf hm with ⟨hk, -⟩ | ⟨hk, -⟩ <;> rw [hk] <;> exact nofun

theorem Slot.Sound.takeStop (hx : x.Sound) (hm : x.meetsStop f = true) : (x.takeStop n h l f).1.Sound := by
  obtain ⟨hstart, hk⟩ := Slot.meetsStop_shape hm
  have hplaced : (x.stopPlaced n l f).Sound :=
    (hx.of_same (y := x.finishedBy f) rfl rfl rfl).place (x.outcome_shaped_valued n l _ _ hstart hk)
  refine Slot.takeStop_eq ▸ hplaced.afterFinish (hplaced.of_entry x.afterStop_kept.1 ?_) h l
  unfold Slot.afterStop
  split
  · exact fun _ => rfl
  · exact nofun

theorem Slot.Sound.takeTag (hx : x.Sound) (hst : x.state = .tagging) (hk : x.plan.kind = .timetag) :
    (x.takeTag n h l f).1.Sound := by
  have hentered : (x.tagEntered n l f).Sound :=
    (hx.of_same (y := x.finishedBy f) rfl rfl rfl).place
      (x.outcome_shaped n l _ (fun _ => rfl) ⟨nofun, fun e => absurd hk e.2⟩ ⟨fun _ => ⟨rfl, hk⟩, fun _ => rfl⟩ fun _ => rfl)
  rw [Slot.takeTag_eq]
  split
  · exact hentered.afterFinish hentered h l
  · refine hentered.of_entry rfl fun e => ?_
    have htagging : (x.nextTag n l f).state = .tagging := Slot.tagEntered_state.trans hst
    rw [htagging] at e
    exact e.elim nofun nofun

theorem Slot.Sound.judgeStamp (hx : x.Sound) {r : Slot × Option Finish} (hr : x.judgeStamp n h l f = some r) :
    r.1.Sound := by
  unfold Slot.judgeStamp at hr
  cases hst : x.state <;> rw [hst] at hr <;> dsimp only at hr
  case idle => cases hr
  all_goals
    split at hr
    case isFalse => cases hr
    cases hr
  case arming.isTrue => exact hx.begin _ _ _
  case starting.isTrue => exact hx.takeStart f
  case gating.isTrue hm => exact hx.takeStop hm
  case stopping.isTrue hm => exact hx.takeStop hm
  case tagging.isTrue hm =>
    rw [Bool.and_eq_true, decide_eq_true_iff] at hm
    exact hx.takeTag hst hm.1

theorem Slot.Sound.judgeInstant (hx : x.Sound) {r : Slot × Option Finish} (hr : x.judgeInstant n h l = some r) :
    r.1.Sound := by
  unfold Slot.judgeInstant at hr
  cases hs : x.seenFinish h with
  | some e =>
    rw [hs] at hr
    cases hr
    exact (hx.begin e.stopTime false l).of_same rfl rfl rfl
  | none =>
    rw [hs] at hr
    obtain ⟨f, -, hj⟩ := List.exists_of_findSome?_eq_some hr
    exact hx.judgeStamp hj

theorem Slot.Sound.seeFinish (hx : x.Sound) (e : SeenFinish) (l : Bool) : (x.seeFinish e l).Sound := by
  unfold Slot.seeFinish
  split
  · exact hx
  · split
    · exact hx.begin _ _ _
    · split
      · exact hx
      · exact hx.of_same rfl rfl rfl

theorem Slot.Sound.closeGate (hx : x.Sound) (hs : x.state = .gating) : x.closeGate.Sound :=
  hx.of_entry rfl fun _ => hx.start (.inl hs)

theorem Slot.Sound.timeOut (hx : x.Sound) (n : SlotId) (l : Bool) : (x.timeOut n l).1.Sound := by
  have hplaced : (x.place (x.timeOutOutcome n l)).Sound := hx.place (x.outcome_shaped_unvalued n l _ _ nofun)
  have hkept := x.afterTimeOut_kept n l
  rw [Slot.timeOut_eq]
  refine hplaced.afterFinish (hplaced.of_entry hkept.1 ?_) _ l
  rw [hkept.2.2.2.2]
  exact fun e => e.elim nofun nofun

theorem Slot.Sound.abort (hx : x.Sound) (n : SlotId) (h : Tick) (l : Bool) : (x.abort n h l).Sound := by
  unfold Slot.abort
  dsimp only
  split
  · exact hx.place (x.outcome_shaped_unvalued n l _ _ nofun)
  · exact hx

theorem Slot.Sound.armByRequest (hx : x.Sound) (h raw : Tick) : (x.armByRequest h raw).Sound := hx.of_entry rfl nofun

theorem Slot.Sound.rewrite (hx : x.Sound) (n : SlotId) (now : Tick) (l : Bool) (h raw : Tick) (p : Plan) :
    (x.rewrite n now l h raw p).Sound := by
  unfold Slot.rewrite
  split
  · exact hx.of_same rfl rfl rfl
  · exact ((hx.abort n now l).of_same (y := { x.abort n now l with plan := p, planGen := x.planGen + 1 }) rfl rfl
      rfl).armByRequest h raw

theorem Slot.Sound.stepNotice (hx : x.Sound) (a b c : Bool) (h o : Tick) : (x.stepNotice a b c h o).Sound := by
  unfold Slot.stepNotice
  split
  · exact hx.of_same rfl rfl rfl
  · split
    · exact (hx.begin h true c).of_same rfl rfl rfl
    · exact hx

theorem Slot.Sound.markRefFault (hx : x.Sound) : x.markRefFault.Sound := by
  unfold Slot.markRefFault
  split
  · exact hx.of_same rfl rfl rfl
  · exact hx

end

/-! ## The part (R70, R73, R76, R98 to R101) -/

/-- The laws of outcomes and starts, of every slot and of the entry in service. -/
structure State.Sound (s : State) : Prop where
  slots : ∀ n, (s.slot n).Sound
  service : ∀ v, s.unit.service = some v → v.outcome.Shaped

section
variable {s t : State}

theorem State.Sound.of_slots (hs : s.Sound) (hl : t.slots = s.slots) (hu : t.unit = s.unit) : t.Sound :=
  ⟨fun n => by rw [State.slot_of_slots hl]; exact hs.slots n, by rw [hu]; exact hs.service⟩

theorem State.Sound.withUnit (hs : s.Sound) {u : ArithUnit} (hu : ∀ v, u.service = some v → v.outcome.Shaped) :
    State.Sound { s with unit := u } := ⟨hs.slots, hu⟩

theorem State.Sound.setSlot (hs : s.Sound) {n : SlotId} {x : Slot} (hx : x.Sound) : (s.setSlot n x).Sound := by
  refine ⟨fun m => ?_, hs.service⟩
  rw [State.slot_setSlot]
  split
  · exact hx
  · exact hs.slots m

theorem State.Sound.mapSlots (hs : s.Sound) {f : SlotId → Slot → Slot} (hf : ∀ n x, x.Sound → (f n x).Sound) :
    (s.mapSlots f).Sound := by
  refine ⟨fun m => ?_, by rw [State.mapSlots_unit]; exact hs.service⟩
  rw [State.slot_mapSlots]
  exact hf m _ (hs.slots m)

theorem State.Sound.announce (hs : s.Sound) (n : SlotId) (e : Finish) : (s.announce n e).Sound := by
  have hslots := State.announce_induct (P := fun u => ∀ m, (u.slot m).Sound) s n e
    (fun u hu m => by rw [State.slot_of_slots hu]; exact hs.slots m) fun u t hu m => by
      unfold State.armDependents
      rw [State.slot_mapSlots, State.slot_of_slots hu]
      split
      · exact (hs.slots m).seeFinish _ _
      · exact hs.slots m
  exact ⟨hslots, by rw [(s.announce_unit n e).1]; exact hs.service⟩

theorem State.Sound.judgeSlot (hs : s.Sound) (k : Nat) (n : SlotId) : (State.judgeSlot k n s).Sound := by
  induction k generalizing s with
  | zero => exact hs
  | succ k ih =>
    cases hj : (s.slot n).judgeInstant n s.horizonTime s.horizonLocked with
    | none => rw [State.judgeSlot_none hj]; exact hs
    | some r =>
      obtain ⟨y, e⟩ := r
      have hset : (s.setSlot n y).Sound := hs.setSlot ((hs.slots n).judgeInstant hj)
      rw [State.judgeSlot_some k hj]
      cases e with
      | none => exact ih hset
      | some e => exact ih (hset.announce n e)

theorem State.Sound.settle (hs : s.Sound) : s.settle.Sound := by
  rw [State.settle_eq]
  generalize allSlots = l
  induction l generalizing s with
  | nil => exact hs
  | cons n rest ih => exact ih (hs.judgeSlot _ n)

theorem State.Sound.withdrawGrant (hs : s.Sound) : s.withdrawGrant.Sound := by
  unfold State.withdrawGrant
  split
  · exact hs
  · next v hv =>
    split
    · have hback : ((s.slot v.slot).giveBack v.outcome).Sound :=
        ⟨(hs.slots v.slot).start, fun o ho => Option.some.inj ho ▸ hs.service v hv⟩
      exact (hs.setSlot hback).withUnit (u := ⟨none, v.grantedBefore⟩) fun _ hu => nomatch hu
    · exact hs

theorem State.Sound.arbitrate (hs : s.Sound) : s.arbitrate.Sound := by
  unfold State.arbitrate
  split
  · next n _ _ =>
    split
    · next o ho =>
      have hemptied : ({ s.slot n with finished := none } : Slot).Sound := ⟨(hs.slots n).start, fun _ hf => nomatch hf⟩
      exact (hs.setSlot hemptied).withUnit (u := ⟨some ⟨n, o, s.rawTime, s.unit.lastGranted⟩, n⟩) fun v hv =>
        Option.some.inj hv ▸ (hs.slots n).finished o ho
    · exact hs
  · exact hs

theorem State.Sound.grant (hs : s.Sound) : s.grant.Sound := hs.withdrawGrant.arbitrate

theorem State.Sound.conclude (hs : s.Sound) : s.conclude.Sound := hs.settle.grant

end

end Sys2Proof.Machine
end

section
/-! PROOFS. The result log (R116, R118, R120, R121): the retirement check restores its laws after a record is written, the
oldest is removed, or a port's cursor or subscription changes. -/

namespace Sys2Proof.Machine

/-! ## Runs of sequence numbers (R116) -/

theorem ofNat_length_cons {α : Type} (q : Seq) (a : α) (l : List α) :
    q + 1 + BitVec.ofNat 32 l.length = q + BitVec.ofNat 32 (a :: l).length := by
  rw [List.length_cons, BitVec.add_assoc, Nat.add_comm, BitVec.ofNat_add]
  rfl

/-- Of consecutive records, those after the first k run on from the k-th number on. -/
theorem consecutiveFrom_append (l r : List LogEntry) (q : Seq) :
    consecutiveFrom q (l ++ r) ↔ consecutiveFrom q l ∧ consecutiveFrom (q + BitVec.ofNat 32 l.length) r := by
  induction l generalizing q with
  | nil => simp [consecutiveFrom]
  | cons e rest ih =>
    simp only [List.cons_append, consecutiveFrom, ih (q + 1), and_assoc, ← ofNat_length_cons q e rest]

/-- A record among consecutive ones is numbered by its place. -/
theorem consecutiveFrom_mem {l : List LogEntry} {q : Seq} (h : consecutiveFrom q l) {e : LogEntry} (he : e ∈ l) :
    ∃ j < l.length, e.seq = q + BitVec.ofNat 32 j := by
  obtain ⟨front, back, rfl⟩ := List.append_of_mem he
  have hseq := ((consecutiveFrom_append front (e :: back) q).1 h).2.1
  exact ⟨front.length, by simp, hseq⟩

theorem Log.runs_iff (l : Log) : l.Runs ↔
    l.held.length ≤ 512 ∧ consecutiveFrom (l.nextSeq - BitVec.ofNat 32 l.held.length) l.held := by
  refine ⟨fun h => ⟨h.atMost512, h.oldestSeq_eq ▸ h.consecutive⟩, fun ⟨hlen, hrun⟩ => ?_⟩
  have hold : l.oldestSeq = l.nextSeq - BitVec.ofNat 32 l.held.length := by
    unfold Log.oldestSeq
    cases hl : l.held with
    | nil => simp
    | cons e rest => rw [hl] at hrun; exact hrun.1
  exact ⟨hlen, hold ▸ hrun, by rw [hold, BitVec.sub_add_cancel]⟩

/-- A log that keeps the newest of its records. -/
theorem Log.Runs.suffix {l m : Log} (h : l.Runs) {front : List LogEntry} (hl : l.held = front ++ m.held)
    (hn : m.nextSeq = l.nextSeq) : m.Runs ∧ m.oldestSeq = l.oldestSeq + BitVec.ofNat 32 front.length := by
  have hlen : l.held.length = front.length + m.held.length := by rw [hl, List.length_append]
  have hback : l.nextSeq - BitVec.ofNat 32 l.held.length + BitVec.ofNat 32 front.length =
      m.nextSeq - BitVec.ofNat 32 m.held.length := by
    rw [hlen, hn, BitVec.ofNat_add]
    generalize BitVec.ofNat 32 front.length = a
    generalize BitVec.ofNat 32 m.held.length = b
    bv_omega
  obtain ⟨h512, hrun⟩ := l.runs_iff.1 h
  rw [hl, consecutiveFrom_append, ← hl, hback] at hrun
  have hm : m.Runs := m.runs_iff.2 ⟨by omega, hrun.2⟩
  exact ⟨hm, by rw [hm.oldestSeq_eq, ← hback, h.oldestSeq_eq]⟩

/-- A log with one more record at its newest end (R117). -/
theorem Log.Runs.push {l m : Log} (h : l.Runs) (hroom : l.held.length < 512) {r : Record}
    (hm : m.held = l.held ++ [⟨l.nextSeq, r⟩]) (hn : m.nextSeq = l.nextSeq + 1) :
    m.Runs ∧ m.oldestSeq = l.oldestSeq := by
  have hlen : m.held.length = l.held.length + 1 := by rw [hm, List.length_append]; rfl
  have hfirst : m.nextSeq - BitVec.ofNat 32 m.held.length = l.oldestSeq := by
    rw [hlen, hn, h.oldestSeq_eq, BitVec.ofNat_add]
    generalize BitVec.ofNat 32 l.held.length = a
    bv_omega
  have hruns : m.Runs := by
    rw [Log.runs_iff, hfirst, hlen, hm, consecutiveFrom_append, h.upToNext]
    exact ⟨hroom, h.consecutive, rfl, trivial⟩
  exact ⟨hruns, hruns.oldestSeq_eq.trans hfirst⟩

/-- The number of a held record, and the one after it, lie in the log. -/
theorem Log.Runs.seq_inLog {l : Log} (h : l.Runs) {e : LogEntry} (he : e ∈ l.held) :
    (e.seq - l.oldestSeq).toNat ≤ l.held.length ∧ (e.seq + 1 - l.oldestSeq).toNat ≤ l.held.length := by
  obtain ⟨j, hj, hseq⟩ := consecutiveFrom_mem h.consecutive he
  have := h.atMost512
  rw [hseq]
  generalize l.oldestSeq = q
  constructor <;> bv_omega

/-! ## Before a retirement check -/

/-- A cursor that lies in the log, or at the record that has just been removed (R118, R124). -/
def Port.CursorNear (q : Port) (l : Log) : Prop := (q.cursor + 1 - l.oldestSeq).toNat ≤ l.held.length + 1

theorem Port.CursorInLog.near {q : Port} {l : Log} (h : q.CursorInLog l) (hl : l.held.length ≤ 512) : q.CursorNear l := by
  unfold Port.CursorInLog at h
  unfold Port.CursorNear
  bv_omega

/-- The laws of the log but that of R120, where a cursor may lie one record before the oldest. -/
structure State.LogUnchecked (s : State) : Prop where
  runs : s.log.Runs
  cursors : ∀ p, (s.port p).CursorNear s.log
  thresholds : ∀ p, (s.port p).ThresholdInRange
  records : ∀ e ∈ s.log.held, e.record.Shaped

/-- The laws of the log that speak of records and ports. -/
structure State.LogKept (s : State) : Prop where
  runs : s.log.Runs
  cursors : ∀ p, (s.port p).CursorInLog s.log
  thresholds : ∀ p, (s.port p).ThresholdInRange
  oldestWanted : ∀ e, s.log.held.head? = some e → s.wantedByAny e = true
  records : ∀ e ∈ s.log.held, e.record.Shaped

theorem State.LogKept.unchecked {s : State} (h : s.LogKept) : s.LogUnchecked :=
  ⟨h.runs, fun p => (h.cursors p).near h.runs.atMost512, h.thresholds, h.records⟩

theorem State.logLaws_iff (s : State) : s.LogLaws ↔ s.LogKept ∧ s.Sound :=
  ⟨fun h => ⟨⟨h.runs, h.cursors, h.thresholds, h.oldestWanted, h.records⟩, fun n => ⟨h.starts n, h.finished n⟩, h.service⟩,
    fun ⟨h, k⟩ => ⟨h.runs, h.cursors, h.thresholds, h.oldestWanted, h.records, fun n => (k.slots n).start,
      fun n => (k.slots n).finished, k.service⟩⟩

theorem State.wantedByAny_iff (s : State) (e : LogEntry) : s.wantedByAny e = true ↔ ∃ p, (s.port p).wants e = true := by
  simp [State.wantedByAny, allPorts]

/-- Dragging leaves a near cursor in the log (R121). -/
theorem dragCursor_inLog {oldest old c : Seq} {k m : Nat} (hold : old = oldest + BitVec.ofNat 32 k) (hlen : k + m ≤ 512)
    (hc : (c + 1 - oldest).toNat ≤ k + m + 1) : (dragCursor old c - old).toNat ≤ m := by
  unfold dragCursor seqAtOrBefore
  subst hold
  split
  · next h =>
    rw [decide_eq_true_iff] at h
    bv_omega
  · simp

/-- A port that wants the oldest record wants it after the dragging as well (R119, R121). -/
theorem wants_dragged {q : Port} {e : LogEntry} (h : q.wants e = true) :
    ({ q with cursor := dragCursor e.seq q.cursor } : Port).wants e = true := by
  unfold Port.wants dragCursor at *
  dsimp only
  rw [Bool.and_eq_true] at h ⊢
  refine ⟨h.1, ?_⟩
  split
  · exact h.2
  · simp [seqAtOrBefore]

/-- The retirement check, with the dragging after it, restores the laws of the log (R118, R120, R121). -/
theorem State.LogUnchecked.retirementCheck {s : State} (h : s.LogUnchecked) : s.retirementCheck.LogKept := by
  have hheld := s.retirementCheck_held
  obtain ⟨hruns, hold⟩ := h.runs.suffix (m := s.retirementCheck.log)
    (by rw [hheld, List.takeWhile_append_dropWhile]) rfl
  have hlen := congrArg List.length (List.takeWhile_append_dropWhile (p := fun e => !s.wantedByAny e) (l := s.log.held))
  rw [List.length_append, ← hheld] at hlen
  have h512 := h.runs.atMost512
  refine ⟨hruns, fun p => ?_, fun p => ?_, fun e he => ?_, fun e he => ?_⟩
  · rw [State.retirementCheck_port]
    exact dragCursor_inLog hold (hlen ▸ h512) (hlen ▸ h.cursors p)
  · rw [State.retirementCheck_port]
    exact h.thresholds p
  · have hwanted : s.wantedByAny e = true := by
      rw [hheld] at he
      have := List.head?_dropWhile_not (fun e => !s.wantedByAny e) s.log.held
      rw [he] at this
      simpa using this
    obtain ⟨p, hp⟩ := (s.wantedByAny_iff e).1 hwanted
    have hseq : s.retirementCheck.log.oldestSeq = e.seq := by
      unfold Log.oldestSeq
      cases hl : s.retirementCheck.log.held with
      | nil => rw [hl] at he; cases he
      | cons a rest => rw [hl] at he; cases he; rfl
    refine (State.wantedByAny_iff _ _).2 ⟨p, ?_⟩
    rw [State.retirementCheck_port, hseq]
    exact wants_dragged hp
  · rw [hheld] at he
    exact h.records e ((List.dropWhile_sublist _).mem he)

/-! ## Writing, removing and reading (R117, R122 to R125, R130, R133) -/

/-- What the laws of the log read of a port. -/
def Port.reader (q : Port) : Seq × BitVec 16 × BitVec 16 := (q.cursor, q.threshold, q.subscription)

/-- What the laws of the log read of the part's log and ports. -/
def State.readers (s : State) : List LogEntry × Seq × (PortId → Seq × BitVec 16 × BitVec 16) :=
  (s.log.held, s.log.nextSeq, fun p => (s.port p).reader)

section
variable {s t : State}

theorem State.LogKept.of_readers (h : s.LogKept) (hr : t.readers = s.readers) : t.LogKept := by
  have hheld : t.log.held = s.log.held := congrArg Prod.fst hr
  have hnext : t.log.nextSeq = s.log.nextSeq := congrArg (fun r => r.2.1) hr
  have hport : ∀ p, (t.port p).reader = (s.port p).reader := fun p => congrArg (fun r => r.2.2 p) hr
  obtain ⟨hruns, hold⟩ := h.runs.suffix (m := t.log) (front := []) hheld.symm hnext
  have hold : t.log.oldestSeq = s.log.oldestSeq := hold.trans (by simp)
  refine ⟨hruns, fun p => ?_, fun p => ?_, fun e he => ?_, by rw [hheld]; exact h.records⟩
  · have hc : (t.port p).cursor = (s.port p).cursor := congrArg Prod.fst (hport p)
    unfold Port.CursorInLog
    rw [hc, hold, hheld]
    exact h.cursors p
  · have ht : (t.port p).threshold = (s.port p).threshold := congrArg (fun r => r.2.1) (hport p)
    unfold Port.ThresholdInRange
    rw [ht]
    exact h.thresholds p
  · have hw : ∀ p, (t.port p).wants e = (s.port p).wants e := fun p =>
      congrArg (fun r : Seq × BitVec 16 × BitVec 16 => r.2.2.getLsbD e.record.slot && seqAtOrBefore r.1 e.seq) (hport p)
    obtain ⟨p, hp⟩ := (s.wantedByAny_iff e).1 (h.oldestWanted e (hheld ▸ he))
    exact (t.wantedByAny_iff e).2 ⟨p, hw p ▸ hp⟩

/-- A port written with the cursor, the threshold and the subscription it has. -/
theorem State.readers_setPort {p : PortId} {q : Port} (hq : q.reader = (s.port p).reader) :
    (s.setPort p q).readers = s.readers := by
  have hport : ∀ r, ((s.setPort p q).port r).reader = (s.port r).reader := fun r => by
    rw [State.port_setPort]
    split
    · next e => rw [hq, e]
    · rfl
  unfold State.readers
  rw [funext hport]
  rfl

theorem State.readers_respond (s : State) (p : PortId) (tag : Byte) (c : Command) (st : Status) (bs : List Byte) :
    (s.respond p tag c st bs).readers = s.readers := State.readers_setPort rfl

theorem State.readers_raise (s : State) (f : Flag) (who : PortId → Bool) : (s.raise f who).readers = s.readers := by
  have hport : ∀ p, ((s.raise f who).port p).reader = (s.port p).reader := fun p => by
    rw [State.port_raise]
    split <;> rfl
  unfold State.readers
  rw [funext hport]
  rfl

/-- The engine's own work leaves log and readers as they are. -/
theorem EngineFrame.readers (h : EngineFrame s t) : t.readers = s.readers := by
  have hport : ∀ p, (t.port p).reader = (s.port p).reader := fun p => by
    rw [(h.ports p).flagsOnly.rest]
    rfl
  have hlog : t.log = s.log := by rw [h.rest]
  unfold State.readers
  rw [hlog, funext hport]

/-- A port's cursor, threshold and subscription set, before the check that follows (R130, R133, R141). -/
theorem State.LogKept.setPort (h : s.LogKept) {p : PortId} {q : Port} (hc : q.CursorInLog s.log)
    (ht : q.ThresholdInRange) : (s.setPort p q).LogUnchecked := by
  refine ⟨h.runs, fun r => ?_, fun r => ?_, h.records⟩ <;> rw [State.port_setPort] <;> split
  · exact hc.near h.runs.atMost512
  · exact (h.cursors r).near h.runs.atMost512
  · exact ht
  · exact h.thresholds r

/-- The write of a record restores the laws (R117, R122). -/
theorem State.LogUnchecked.writeRecord (h : s.LogUnchecked) (hroom : s.log.held.length < 512) {r : Record}
    (hr : r.Shaped) : (s.writeRecord r).LogKept := by
  let s' : State := { s with log := { s.log with held := s.log.held ++ [⟨s.log.nextSeq, r⟩], nextSeq := s.log.nextSeq + 1 } }
  obtain ⟨hruns, hold⟩ := h.runs.push (m := s'.log) hroom rfl rfl
  have hlen : s'.log.held.length = s.log.held.length + 1 := List.length_append
  have hpushed : s'.LogUnchecked := by
    refine ⟨hruns, fun p => ?_, h.thresholds, fun e he => ?_⟩
    · have hcursor := h.cursors p
      unfold Port.CursorNear at hcursor ⊢
      rw [hold, hlen]
      exact Nat.le_succ_of_le hcursor
    · rcases List.mem_append.1 he with he | he
      · exact h.records e he
      · rw [List.mem_singleton.1 he]; exact hr
  exact hpushed.retirementCheck.of_readers (State.readers_raise _ _ _)

/-- The forced retirement makes room, and leaves a cursor at the removed record at worst (R124). -/
theorem State.LogKept.forceRetire (h : s.LogKept) (hfull : s.log.held ≠ []) :
    s.forceRetire.LogUnchecked ∧ s.forceRetire.log.held.length < 512 := by
  obtain ⟨e, rest, hl⟩ := List.exists_cons_of_ne_nil hfull
  let u : State := { s with log := { s.log with held := rest } }
  have hforced : s.forceRetire = u.mapPorts fun q => q.charge e := by unfold State.forceRetire; rw [hl]
  obtain ⟨hruns, hold⟩ := h.runs.suffix (m := u.log) (front := [e]) hl rfl
  have hlen : s.log.held.length = rest.length + 1 := by rw [hl]; rfl
  have h512 := h.runs.atMost512
  have hseq : e.seq + 1 = u.log.oldestSeq := by
    have : s.log.oldestSeq = e.seq := by unfold Log.oldestSeq; rw [hl]
    rw [hold, this]
    rfl
  rw [hforced]
  refine ⟨⟨hruns, fun p => ?_, fun p => ?_, fun a ha => h.records a (by rw [hl]; exact List.mem_cons_of_mem _ ha)⟩, ?_⟩
  · rw [State.port_mapPorts]
    unfold Port.charge Port.CursorNear
    split
    · show (e.seq + 1 + 1 - u.log.oldestSeq).toNat ≤ rest.length + 1
      rw [hseq]
      bv_omega
    · have hcursor : ((s.port p).cursor - s.log.oldestSeq).toNat ≤ s.log.held.length := h.cursors p
      have hshift : (s.port p).cursor + 1 - u.log.oldestSeq = (s.port p).cursor - s.log.oldestSeq := by
        rw [hold]
        show _ - (_ + 1#32) = _
        bv_omega
      show ((s.port p).cursor + 1 - u.log.oldestSeq).toNat ≤ rest.length + 1
      rw [hshift, ← hlen]
      exact hcursor
  · rw [State.port_mapPorts]
    unfold Port.charge
    split <;> exact h.thresholds p
  · show rest.length < 512
    omega

/-- A record offered to the log keeps its laws (R122, R124, R125). -/
theorem State.LogKept.offerRecord (h : s.LogKept) {r : Record} (hr : r.Shaped) : (s.offerRecord r).1.LogKept := by
  unfold State.offerRecord
  split
  · next hroom => exact h.unchecked.writeRecord hroom hr
  · next hroom =>
    split
    · obtain ⟨hu, hlen⟩ := h.forceRetire fun e => hroom (by rw [e]; decide)
      exact hu.writeRecord hlen hr
    · exact h.of_readers rfl

end

/-- A walk that stops, stops at a held record or at the number after one (R133). -/
theorem walkLog_stop {sub : BitVec 16} {k room : Nat} {l : List LogEntry} {c : Seq}
    (h : (walkLog sub k room l).2 = some c) : ∃ e ∈ l, c = e.seq ∨ c = e.seq + 1 := by
  induction l generalizing k room with
  | nil => cases h
  | cons e rest ih =>
    have hlater : ∀ {k room}, (walkLog sub k room rest).2 = some c → ∃ a ∈ e :: rest, c = a.seq ∨ c = a.seq + 1 :=
      fun h => (ih h).imp fun a ha => ⟨List.mem_cons_of_mem _ ha.1, ha.2⟩
    unfold walkLog at h
    split at h
    · split at h
      · cases h; exact ⟨e, List.mem_cons_self, .inl rfl⟩
      · split at h
        · cases h; exact ⟨e, List.mem_cons_self, .inr rfl⟩
        · exact hlater h
    · exact hlater h

/-- The cursor that READ_RESULTS leaves lies in the log (R118, R133). -/
theorem Log.Runs.walk_cursor {l : Log} (h : l.Runs) (q : Port) (k : Nat) :
    (((q.walk l k).2.getD l.nextSeq) - l.oldestSeq).toNat ≤ l.held.length := by
  cases hw : (q.walk l k).2 with
  | none =>
    show l.occupancy.toNat ≤ _
    rw [h.occupancy_toNat]
  | some c =>
    obtain ⟨e, he, hc⟩ := walkLog_stop hw
    have hin := h.seq_inLog ((List.dropWhile_sublist _).mem he)
    rcases hc with rfl | rfl
    · exact hin.1
    · exact hin.2

theorem clampThreshold_inRange (v : BitVec 16) : 1 ≤ (clampThreshold v).toNat ∧ (clampThreshold v).toNat ≤ 512 := by
  unfold clampThreshold
  split
  · decide
  · split
    · decide
    · omega

end Sys2Proof.Machine
end

section
/-! PROOFS. Every step keeps the laws of the result log (R70, R73, R111, R116, R118, R120). -/

namespace Sys2Proof.Machine

/-! ## What an input channel's work leaves of log and outcomes -/

/-- What leaves the log, its readers, the slots and the unit as they are. -/
def State.SameLogSide (s t : State) : Prop := t.readers = s.readers ∧ t.slots = s.slots ∧ t.unit = s.unit

section
variable {s t u : State}

theorem State.SameLogSide.trans (h : s.SameLogSide t) (k : t.SameLogSide u) : s.SameLogSide u :=
  ⟨k.1.trans h.1, k.2.1.trans h.2.1, k.2.2.trans h.2.2⟩

theorem State.SameLogSide.refl (s : State) : s.SameLogSide s := ⟨rfl, rfl, rfl⟩

theorem State.setInput_logSide (s : State) (i : InputId) (x : Input) : s.SameLogSide (s.setInput i x) := ⟨rfl, rfl, rfl⟩

theorem State.raise_logSide (s : State) (f : Flag) (who : PortId → Bool) : s.SameLogSide (s.raise f who) :=
  ⟨s.readers_raise f who, rfl, rfl⟩

theorem State.setPort_logSide {p : PortId} {q : Port} (hq : q.reader = (s.port p).reader) :
    s.SameLogSide (s.setPort p q) := ⟨State.readers_setPort hq, rfl, rfl⟩

theorem State.respond_logSide (s : State) (p : PortId) (tag : Byte) (c : Command) (st : Status) (bs : List Byte) :
    s.SameLogSide (s.respond p tag c st bs) := State.setPort_logSide rfl

theorem State.hit_logSide (s : State) (i : InputId) (c : Code) : s.SameLogSide (s.hit i c) := by
  unfold State.hit
  dsimp only
  split
  · exact (s.setInput_logSide i _).trans (State.raise_logSide _ _ _)
  · exact s.setInput_logSide i _

theorem State.qualify_logSide (s : State) (i : InputId) (k : Candidate) : s.SameLogSide (s.qualify i k) := by
  unfold State.qualify
  dsimp only
  split
  · exact s.setInput_logSide i _
  · next cap _ =>
    have hstamped : ∀ x l, s.SameLogSide { s.setInput i x with stamps := l } := fun _ _ => ⟨rfl, rfl, rfl⟩
    split
    · exact (hstamped _ _).trans (State.hit_logSide _ i cap.code)
    · exact hstamped _ _

theorem State.settleWindow_logSide (s : State) (i : InputId) : s.SameLogSide (s.settleWindow i) := by
  unfold State.settleWindow
  split
  · exact .refl s
  · split
    · exact s.qualify_logSide i _
    · exact .refl s

theorem State.judgeChange_logSide (s : State) (i : InputId) (l : Level) (t : Tick) (k : Option Capture) :
    s.SameLogSide (s.judgeChange i l t k) := by
  unfold State.judgeChange
  dsimp only
  split
  · exact s.setInput_logSide i _
  · split
    · exact s.qualify_logSide i _
    · exact s.setInput_logSide i _

theorem State.levelChange_logSide (s : State) (i : InputId) (l : Level) (c : Code) :
    s.SameLogSide (s.levelChange i l c) := by
  have hwindow := s.settleWindow_logSide i
  unfold State.levelChange
  dsimp only
  split
  · exact hwindow
  · split
    · exact (hwindow.trans (State.setInput_logSide _ i _)).trans (State.judgeChange_logSide _ i l _ _)
    · exact hwindow.trans (State.judgeChange_logSide _ i l _ _)

theorem State.switchLevel_logSide (s : State) (i : InputId) (l : Level) : s.SameLogSide (s.switchLevel i l) := by
  have hwindow := s.settleWindow_logSide i
  unfold State.switchLevel
  dsimp only
  split
  · exact hwindow
  · exact hwindow.trans (State.judgeChange_logSide _ i l _ _)

theorem State.applySettings_logSide (s : State) (p : PortId) (i : InputId) (new : Settings) :
    s.SameLogSide (s.applySettings p i new) := by
  refine State.SameLogSide.trans ?_ (State.raise_logSide _ .change _)
  split
  · exact s.setInput_logSide i _
  · exact (s.setInput_logSide i _).trans (State.switchLevel_logSide _ i _)

end

/-! ## The laws under the shared operations -/

section
variable {s t : State}

theorem State.LogLaws.kept (h : s.LogLaws) : s.LogKept := (s.logLaws_iff.1 h).1

theorem State.LogLaws.sound (h : s.LogLaws) : s.Sound := (s.logLaws_iff.1 h).2

theorem State.LogLaws.of_side (h : s.LogLaws) (k : s.SameLogSide t) : t.LogLaws :=
  t.logLaws_iff.2 ⟨h.kept.of_readers k.1, h.sound.of_slots k.2.1 k.2.2⟩

theorem State.LogLaws.of_sound (h : s.LogLaws) (hr : t.readers = s.readers) (ht : t.Sound) : t.LogLaws :=
  t.logLaws_iff.2 ⟨h.kept.of_readers hr, ht⟩

theorem State.LogLaws.of_kept (h : s.LogLaws) (ht : t.LogKept) (hl : t.slots = s.slots) (hu : t.unit = s.unit) :
    t.LogLaws :=
  t.logLaws_iff.2 ⟨ht, h.sound.of_slots hl hu⟩

theorem State.LogLaws.respond (h : s.LogLaws) (p : PortId) (tag : Byte) (c : Command) (st : Status) (bs : List Byte) :
    (s.respond p tag c st bs).LogLaws := h.of_side (s.respond_logSide p tag c st bs)

theorem State.LogLaws.raise (h : s.LogLaws) (f : Flag) (who : PortId → Bool) : (s.raise f who).LogLaws :=
  h.of_side (s.raise_logSide f who)

theorem State.LogLaws.withRight (h : s.LogLaws) {p : PortId} {tag : Byte} {c : Command} {act : State → State}
    (ha : (act s).LogLaws) : (s.withRight p tag c act).LogLaws :=
  State.withRight_cases (P := State.LogLaws) ha (h.respond p tag c _ _)

theorem State.LogLaws.setSlot (h : s.LogLaws) {n : SlotId} {x : Slot} (hx : x.Sound) : (s.setSlot n x).LogLaws :=
  h.of_sound rfl (h.sound.setSlot hx)

theorem State.LogLaws.mapSlots (h : s.LogLaws) {f : SlotId → Slot → Slot} (hf : ∀ n x, x.Sound → (f n x).Sound) :
    (s.mapSlots f).LogLaws := h.of_sound (by simp [State.readers]) (h.sound.mapSlots hf)

theorem State.LogLaws.announce (h : s.LogLaws) (n : SlotId) (e : Finish) : (s.announce n e).LogLaws :=
  h.of_sound (s.announce_engine n e).readers (h.sound.announce n e)

theorem State.LogLaws.grant (h : s.LogLaws) : s.grant.LogLaws := h.of_sound s.grant_engine.readers h.sound.grant

theorem State.LogLaws.conclude (h : s.LogLaws) : s.conclude.LogLaws :=
  h.of_sound s.conclude_engine.readers h.sound.conclude

/-- An event of the engine at one slot. -/
theorem State.LogLaws.event (h : s.LogLaws) {n : SlotId} {x : Slot} (hx : x.Sound) : (s.setSlot n x).conclude.LogLaws :=
  (h.setSlot hx).conclude

/-- A finish at one slot. -/
theorem State.LogLaws.finish (h : s.LogLaws) {n : SlotId} {x : Slot} {e : Finish} (hx : x.Sound) :
    ((s.setSlot n x).announce n e).conclude.LogLaws :=
  ((h.setSlot hx).announce n e).conclude

theorem State.LogLaws.offer (h : s.LogLaws) (st : Stamp) : (s.offer st).LogLaws := by
  have herased : State.LogLaws { s with stamps := s.stamps.erase st } := h.of_side ⟨rfl, rfl, rfl⟩
  unfold State.offer
  refine herased.mapSlots fun _ x hx => ?_
  split
  · exact hx
  · exact hx.of_same rfl rfl rfl

theorem State.LogLaws.notifyStep (h : s.LogLaws) (o : Tick) (f : Bool) : (s.notifyStep o f).LogLaws := by
  unfold State.notifyStep
  split
  · exact h
  · exact h.mapSlots fun _ x hx => (hx.stepNotice _ _ _ _ _).of_same rfl rfl rfl

theorem State.LogLaws.applyOffset (h : s.LogLaws) (p : PortId) (tag : Byte) (c : Command) (o : Tick) (f : Bool) :
    (s.applyOffset p tag c o f).LogLaws := by
  have hset : State.LogLaws { s with offset := o, timeGen := s.timeGen + 1 } := h.of_side ⟨rfl, rfl, rfl⟩
  exact ((hset.raise .change fun q => decide (q ≠ p)).notifyStep s.offset f).respond _ _ _ _ _

theorem State.LogLaws.changeRef (h : s.LogLaws) (r : RefState) : (s.changeRef r).LogLaws :=
  State.LogLaws.raise (s := { s with refState := r, refChanges := s.refChanges ++ [⟨s.arrivalTime, r⟩] })
    (h.of_side ⟨rfl, rfl, rfl⟩) _ _

/-- A port's cursor, threshold and subscription set, with the retirement check that follows (R130, R133, R141). -/
theorem State.LogLaws.checked (h : s.LogLaws) {p : PortId} {q : Port} (hc : q.CursorInLog s.log)
    (ht : q.ThresholdInRange) : (s.setPort p q).retirementCheck.LogLaws :=
  h.of_kept (h.kept.setPort hc ht).retirementCheck rfl rfl

theorem State.LogLaws.next_inLog (h : s.LogLaws) : (s.log.nextSeq - s.log.oldestSeq).toNat ≤ s.log.held.length :=
  h.runs.occupancy_toNat.le

/-- The cursor that SUBSCRIBE gives lies in the log (R118, R130). -/
theorem State.LogLaws.startCursor (h : s.LogLaws) (p : PortId) (st : SubscribeStart) :
    (startCursor s.log (s.port p).cursor st - s.log.oldestSeq).toNat ≤ s.log.held.length := by
  cases st with
  | absent => exact h.cursors p
  | fromOldest => simp [Sys2Proof.Machine.startCursor]
  | fromNext => exact h.next_inLog

end

/-! ## The commands -/

section
variable {s : State}

theorem State.LogLaws.exec_subscribe (h : s.LogLaws) (p : PortId) (tag : Byte) (slots : BitVec 16) (operation start : Byte)
    (threshold : Option (BitVec 16)) : Answers State.LogLaws (execSubscribe p tag slots operation start threshold s) := by
  unfold execSubscribe
  split
  · next sub st _ _ =>
    refine .next ((h.checked (q := (s.port p).subscribe s.log sub st threshold) (h.startCursor p st) ?_).respond _ _ _ _ _)
    cases threshold with
    | none => exact h.thresholds p
    | some v => exact clampThreshold_inRange v
  · exact .next (h.respond _ _ _ _ _)

/-- With no record held and every cursor at the next sequence, the log is as legal as its thresholds (R138, R139). -/
theorem State.LogLaws.cleared (h : s.LogLaws) :
    (s.measurementCleared.mapPorts fun q => { q with cursor := s.log.nextSeq }).LogLaws := by
  have hslot := s.measurementCleared_slot
  have hport := s.measurementCleared_port
  have hheld : s.measurementCleared.log.held = [] := rfl
  have hnext : s.measurementCleared.log.nextSeq = s.log.nextSeq := rfl
  have hunit : s.measurementCleared.unit.service = none := rfl
  generalize s.measurementCleared = u at *
  have hold : u.log.oldestSeq = s.log.nextSeq := by unfold Log.oldestSeq; rw [hheld]; exact hnext
  refine (State.logLaws_iff _).2 ⟨⟨u.log.runs_iff.2 ?_, fun p => ?_, fun p => ?_, fun e he => ?_, fun e he => ?_⟩,
    fun n => ?_, fun v hv => ?_⟩
  · rw [hheld]; exact ⟨by decide, trivial⟩
  · rw [State.port_mapPorts]
    show (s.log.nextSeq - u.log.oldestSeq).toNat ≤ _
    rw [hold, BitVec.sub_self]
    exact Nat.zero_le _
  · rw [State.port_mapPorts, hport]
    exact h.thresholds p
  · rw [State.mapPorts_log, hheld] at he; cases he
  · rw [State.mapPorts_log, hheld] at he; cases he
  · rw [State.slot_mapPorts, hslot]
    exact ⟨fun e => e.elim nofun nofun, fun _ e => nomatch e⟩
  · rw [State.mapPorts_unit, hunit] at hv; cases hv

theorem State.LogLaws.exec_resetMeasurement (h : s.LogLaws) (p : PortId) (tag : Byte) :
    Answers State.LogLaws (execResetMeasurement p tag s) := by
  exact .next (h.withRight ((h.cleared.raise .change fun q => decide (q ≠ p)).respond _ _ _ _ _))

/-- A record offered to the log leaves the slots' laws (R122, R124, R125). -/
theorem State.Sound.offerRecord (h : s.Sound) (r : Record) : (s.offerRecord r).1.Sound := by
  unfold State.offerRecord
  split
  · exact h.of_slots rfl rfl
  · split
    · have hforced : s.forceRetire.Sound := by
        unfold State.forceRetire
        split <;> exact h.of_slots rfl rfl
      exact hforced.of_slots rfl rfl
    · refine State.Sound.setSlot h ?_
      exact (h.slots r.slot).of_same rfl rfl rfl

theorem Port.afterVerdict_reader (q : Port) (c : Coarse) (v : Verdict) : (q.afterVerdict c v).reader = q.reader := by
  cases v <;> rfl

theorem Port.endSelected_reader (q : Port) (p : PortId) (now : Tick) (c : Coarse) (bits : List Bool) :
    (q.endSelected p now c bits).reader = q.reader := by
  unfold Port.endSelected
  dsimp only
  split
  · rfl
  · exact Port.afterVerdict_reader _ _ _

theorem State.LogLaws.exec_selectionStart (h : s.LogLaws) (p : PortId) :
    Answers State.LogLaws (execSelectionStart p s) := by
  unfold execSelectionStart
  dsimp only
  split
  · exact .next h
  · split
    · exact .next (h.of_side (State.setPort_logSide (by rfl)))
    · exact .next (h.of_side (State.setPort_logSide (by rfl)))
    · exact .next h
    · exact .next h

theorem State.LogLaws.exec_selectionEnd (h : s.LogLaws) (p : PortId) (bits : List Bool) :
    Answers State.LogLaws (execSelectionEnd p bits s) := by
  unfold execSelectionEnd
  dsimp only
  split
  · exact .next (h.of_side (State.setPort_logSide (by rfl)))
  · split
    · exact .next (h.of_side (State.setPort_logSide (Port.endSelected_reader _ _ _ _ _)))
    · exact .next (h.of_side (State.setPort_logSide (by rfl)))
    · exact .next h
    · exact .next h

theorem State.LogLaws.exec_serviceCompletion (h : s.LogLaws) : Answers State.LogLaws (execServiceCompletion s) := by
  unfold execServiceCompletion
  split
  · exact .next h
  · next v hv =>
    have hr : v.outcome.record.Shaped := (h.service v hv).record
    have hfree : ∀ u : State, u.LogKept → (∀ n, (u.slot n).Sound) → ∀ latest,
        State.LogLaws { u with latest := latest, unit := ⟨none, u.unit.lastGranted⟩ } := fun u hk hs latest =>
      (State.logLaws_iff _).2 ⟨hk.of_readers rfl, hs, fun _ hu => nomatch hu⟩
    exact .next (hfree _ (h.kept.offerRecord hr) (h.sound.offerRecord _).slots _).grant

/-- Every command keeps the laws of the log. -/
theorem State.LogLaws.exec (c : Instr) (h : s.LogLaws) : Answers State.LogLaws (exec c s) := by
  have hport : ∀ (p : PortId) (q : Port), q.reader = (s.port p).reader → (s.setPort p q).LogLaws := fun p q hq =>
    h.of_side (State.setPort_logSide hq)
  have hinput : ∀ (i : InputId) (x : Input), (s.setInput i x).LogLaws := fun i x => h.of_side (s.setInput_logSide i x)
  cases c with
  | deviceReset a b l => exact fun t e => deviceReset_logLaws e
  | referenceEdge => exact .next (h.of_side ⟨rfl, rfl, rfl⟩)
  | referenceAbsent =>
    show Answers _ (execReferenceAbsent s)
    unfold execReferenceAbsent
    have habsent : State.LogLaws { s with refPresent := false, presenceTimer := 0 } := h.of_side ⟨rfl, rfl, rfl⟩
    split
    · dsimp only
      split
      · exact .next (habsent.changeRef .lost)
      · exact .next habsent
    · exact .next h
  | referenceLock => exact .ite (fun _ => h.changeRef .locked) h
  | horizonStart => exact .ite (fun _ => h.of_side ⟨rfl, rfl, rfl⟩) h
  | horizonRefChange =>
    show Answers _ (execHorizonRefChange s)
    unfold execHorizonRefChange
    split
    · exact .next h
    · next c rest _ =>
      have hreached : State.LogLaws { s with horizonRef := c.state, refChanges := rest } := h.of_side ⟨rfl, rfl, rfl⟩
      split
      · dsimp only
        split
        · exact .next hreached
        · exact .next (hreached.mapSlots fun _ _ hx => hx.markRefFault)
      · exact .next h
  | selectionStart p => exact h.exec_selectionStart p
  | selectionEnd p bits => exact h.exec_selectionEnd p bits
  | preparationEnd p => exact .ite (fun _ => hport _ _ rfl) h
  | null p tag => exact .next (h.respond _ _ _ _ _)
  | portReset p tag =>
    exact .next (h.checked (q := (s.port p).portReset s.log.nextSeq) h.next_inLog (by show 1 ≤ 1 ∧ 1 ≤ 512; decide))
  | readAttention p tag => exact .next ((hport p _ (by rfl)).respond _ _ _ _ _)
  | setAttention p tag operation flags =>
    show Answers _ (execSetAttention p tag operation flags s)
    unfold execSetAttention
    dsimp only
    split
    · exact .next ((hport p _ (by rfl)).respond _ _ _ _ _)
    · exact .next (h.respond _ _ _ _ _)
  | readTime p tag => exact .next (h.respond _ _ _ _ _)
  | setTime p tag g v =>
    refine .next (h.withRight ?_)
    split
    · exact h.applyOffset _ _ _ _ _
    · exact h.respond _ _ _ _ _
  | stepTime p tag g v =>
    refine .next (h.withRight ?_)
    split
    · exact h.applyOffset _ _ _ _ _
    · exact h.respond _ _ _ _ _
  | readInput p tag input =>
    show Answers _ (execReadInput p tag input s)
    unfold execReadInput
    split <;> exact .next (h.respond _ _ _ _ _)
  | setInput p tag input g src w k m =>
    refine .next (h.withRight ?_)
    split
    · exact h.respond _ _ _ _ _
    · next i _ =>
      dsimp only
      split
      · exact h.respond _ _ _ _ _
      · split
        · exact h.respond _ _ _ _ _
        · split
          · exact (h.of_side (s.applySettings_logSide p i _)).respond _ _ _ _ _
          · exact h.respond _ _ _ _ _
  | calibrate p tag input =>
    refine .next (h.withRight ?_)
    split
    · exact h.respond _ _ _ _ _
    · next i _ =>
      dsimp only
      split
      · exact h.respond _ _ _ _ _
      · exact ((hinput i _).raise _ _).respond _ _ _ _ _
  | readPlan p tag slot =>
    show Answers _ (execReadPlan p tag slot s)
    unfold execReadPlan
    split <;> exact .next (h.respond _ _ _ _ _)
  | writePlan p tag slot g items =>
    refine .next (h.withRight ?_)
    split
    · exact h.respond _ _ _ _ _
    · next n _ =>
      split
      · exact h.respond _ _ _ _ _
      · exact ((h.setSlot ((h.sound.slots n).rewrite n _ _ _ _ _)).grant.raise _ _).respond _ _ _ _ _
  | arm p tag slot =>
    refine .next (h.withRight ?_)
    split
    · exact h.respond _ _ _ _ _
    · next n _ =>
      dsimp only
      split
      · exact h.respond _ _ _ _ _
      · split
        · exact h.respond _ _ _ _ _
        · exact (h.setSlot (((h.sound.slots n).abort n _ _).armByRequest _ _)).grant.respond _ _ _ _ _
  | stop p tag slot =>
    refine .next (h.withRight ?_)
    split
    · exact h.respond _ _ _ _ _
    · next n _ =>
      have hset : (s.setSlot n (if (s.slot n).state = .idle then s.slot n
          else ((s.slot n).abort n s.horizonTime s.horizonLocked).toIdle)).LogLaws := by
        refine h.setSlot ?_
        split
        · exact h.sound.slots n
        · exact ((h.sound.slots n).abort n _ _).toIdle
      dsimp only
      refine State.LogLaws.respond (State.LogLaws.grant ?_) _ _ _ _ _
      split
      · exact hset.raise _ _
      · exact hset
  | subscribe p tag slots operation start threshold => exact h.exec_subscribe p tag slots operation start threshold
  | readResults p tag count =>
    exact .next ((h.checked (q := { s.port p with
      cursor := ((s.port p).walk s.log (clampCount count)).2.getD s.log.nextSeq, skipped := 0 })
      (h.runs.walk_cursor _ _) (h.thresholds p)).respond _ _ _ _ _)
  | latest p tag slot =>
    show Answers _ (execLatest p tag slot s)
    unfold execLatest
    split
    · exact .next (h.respond _ _ _ _ _)
    · split <;> exact .next (h.respond _ _ _ _ _)
  | logStatus p tag => exact .next (h.respond _ _ _ _ _)
  | setLog p tag g policy =>
    refine .next (h.withRight ?_)
    split
    · exact h.respond _ _ _ _ _
    · split
      · exact h.respond _ _ _ _ _
      · next pol _ =>
        have hset : State.LogLaws { s with log := { s.log with policy := pol, gen := s.log.gen + 1 } } :=
          h.of_side ⟨rfl, rfl, rfl⟩
        exact (hset.raise _ _).respond _ _ _ _ _
  | resetMeasurement p tag => exact h.exec_resetMeasurement p tag
  | inputLevelChange i src level f =>
    show Answers _ (execInputLevelChange i src level f s)
    unfold execInputLevelChange
    split
    · exact .ite (fun _ => (hinput i _).of_side (State.levelChange_logSide _ _ _ _)) (hinput i _)
    · exact .ite (fun _ => h.of_side ((s.settleWindow_logSide i).trans (State.levelChange_logSide _ _ _ _))) h
  | windowEndQualification i => exact .next (h.of_side (s.settleWindow_logSide i))
  | deadTimeEnd i =>
    show Answers _ (execDeadTimeEnd i s)
    unfold execDeadTimeEnd
    split
    · exact .next h
    · exact .next (hinput i _)
  | calibrationHit i f => exact .ite (fun _ => (hinput i _).of_side (State.hit_logSide _ _ _)) h
  | stampOffer i =>
    show Answers _ (execStampOffer i s)
    unfold execStampOffer
    split
    · exact .next h
    · exact .next (h.offer _).conclude
  | immediateArmInstant n =>
    show Answers _ (execImmediateArmInstant n s)
    unfold execImmediateArmInstant
    split
    · exact .next h
    · exact .next (h.event ((h.sound.slots n).begin _ _ _))
  | atTimeArming n => exact .ite (fun _ => h.event ((h.sound.slots n).begin _ _ _)) h
  | gateClose n =>
    exact .ite (fun hdue => h.event ((h.sound.slots n).closeGate ((s.due_iff_gateClose n).1 hdue).1)) h
  | deadlineExpiry n => exact .ite (fun _ => h.finish ((h.sound.slots n).timeOut n _)) h
  | totalizeGateOpen n =>
    show Answers _ (execTotalizeGateOpen n s)
    unfold execTotalizeGateOpen
    split
    · exact .next h
    · exact .next (h.event ((h.sound.slots n).of_entry rfl fun _ => rfl))
  | totalizeGateClose n =>
    refine .ite (fun hdue => h.finish ?_) h
    obtain ⟨hs, hk, -⟩ := (s.due_iff_totalizeGateClose n).1 hdue
    have hplaced : (s.totalizePlaced n).Sound := (h.sound.slots n).place
      (Slot.outcome_shaped_valued _ _ _ _ _ (h.starts n (.inl hs)) (by rw [hk]; exact nofun))
    exact hplaced.afterFinish (hplaced.of_entry (y := (s.totalizePlaced n).nextGate _ _) rfl fun _ => rfl) _ _
  | serviceCompletion => exact h.exec_serviceCompletion

end

/-- A tick leaves log, readers, slots and unit as they are. -/
theorem State.advance_logSide (s : State) : s.SameLogSide s.advance := by
  unfold State.advance
  split <;> exact ⟨rfl, rfl, rfl⟩

/-- What a step does: it runs a command, on the state with the queue's rest, on the state itself or with a taken request
handed over; or a tick passes. -/
theorem step_cases {s t : State} (h : step s = .next t) :
    (∃ c u, exec c u = .next t ∧ ((∃ rest, u = { s with pending := rest }) ∨ u = s
      ∨ ∃ p, u = s.setPort p { s.port p with arriving := none })) ∨ t = s.advance := by
  cases hp : s.pending with
  | cons c rest =>
    unfold step at h
    rw [hp] at h
    exact .inl ⟨c, _, h, .inl ⟨rest, rfl⟩⟩
  | nil =>
    cases he : s.dueEvent with
    | some c =>
      rw [step_dueEvent hp he] at h
      exact .inl ⟨c, s, h, .inr (.inl rfl)⟩
    | none =>
      cases ha : s.dueArrival with
      | some r =>
        obtain ⟨c, u⟩ := r
        rw [step_dueArrival hp he ha] at h
        unfold State.dueArrival at ha
        split at ha
        · cases ha
        · next p _ =>
          obtain ⟨a, -, e⟩ := Option.map_eq_some_iff.1 ha
          cases e
          exact .inl ⟨_, _, h, .inr (.inr ⟨p, rfl⟩)⟩
      | none =>
        rw [step_tick hp he ha] at h
        cases h
        exact .inr rfl

/-- Settles O53: every command keeps the laws, and the queue, a request handed over and a tick leave what they speak of. -/
theorem stepKeepsLogLaws : Obligations.StepKeepsLogLaws := by
  intro s t h hstep
  rcases step_cases hstep with ⟨c, u, hexec, ⟨rest, rfl⟩ | rfl | ⟨p, rfl⟩⟩ | rfl
  · have hrest : State.LogLaws { s with pending := rest } := h.of_side ⟨rfl, rfl, rfl⟩
    exact hrest.exec c t hexec
  · exact h.exec c t hexec
  · have hgiven : (s.setPort p { s.port p with arriving := none }).LogLaws := h.of_side (State.setPort_logSide rfl)
    exact hgiven.exec c t hexec
  · exact h.of_side s.advance_logSide

end Sys2Proof.Machine
end

section
/-! PROOFS. STOP (R75, R77, R80, R131): the slot in IDLE, DONE where it ends the measurement of a SINGLE plan, and the grant. -/

namespace Sys2Proof.Machine

section
variable {s : State} {n : SlotId}

/-- The slot as STOP writes it (R80). -/
def State.stoppedSlot (s : State) (n : SlotId) : Slot :=
  if (s.slot n).state = .idle then s.slot n else ((s.slot n).abort n s.horizonTime s.horizonLocked).toIdle

theorem State.stoppedSlot_idle (h : (s.slot n).state = .idle) : s.stoppedSlot n = s.slot n := if_pos h

theorem State.stoppedSlot_active (h : (s.slot n).state ≠ .idle) :
    s.stoppedSlot n = ((s.slot n).abort n s.horizonTime s.horizonLocked).toIdle := if_neg h

theorem State.stoppedSlot_state (s : State) (n : SlotId) : (s.stoppedSlot n).state = .idle := by
  unfold State.stoppedSlot
  split
  · next h => exact h
  · rfl

theorem State.stoppedSlot_samePlan (s : State) (n : SlotId) : SamePlan (s.slot n) (s.stoppedSlot n) := by
  unfold State.stoppedSlot
  split
  · exact .refl _
  · exact Slot.abort_samePlan _ _ _ _

/-- STOP writes its slot, and of the ports DONE flags alone. -/
theorem State.stopped_rest (s : State) (n : SlotId) :
    s.stopped n = { s.setSlot n (s.stoppedSlot n) with ports := (s.stopped n).ports } := by
  unfold State.stopped State.stoppedSlot
  dsimp only
  split <;> rfl

theorem SlotState.inFlight_iff (st : SlotState) : st.inFlight = true ↔ st ≠ .idle ∧ st ≠ .arming := by
  cases st <;> simp [SlotState.inFlight]

/-- STOP sets DONE at the subscribed ports exactly where it ends the measurement of a SINGLE plan (R80, R131). -/
theorem State.stopped_port (s : State) (n : SlotId) (q : PortId) : (s.stopped n).port q =
    if ((s.slot n).state ≠ .idle ∧ (s.slot n).state ≠ .arming ∧ (s.slot n).plan.repeatMode = .single)
      ∧ (s.port q).subscription.getLsbD n = true
    then { s.port q with flags := (s.port q).flags ||| 0b0000100 } else s.port q := by
  have hends : ((s.slot n).state.inFlight && (s.slot n).isSingle) = true ↔
      (s.slot n).state ≠ .idle ∧ (s.slot n).state ≠ .arming ∧ (s.slot n).plan.repeatMode = .single := by
    rw [Bool.and_eq_true, SlotState.inFlight_iff, and_assoc]
    exact Iff.rfl.and (Iff.rfl.and decide_eq_true_iff)
  unfold State.stopped
  dsimp only
  split
  · next he =>
    unfold State.raiseSubscribed
    rw [State.port_raise]
    exact if_congr (and_iff_right (hends.1 he)).symm rfl rfl
  · next he => exact (if_neg fun h => he (hends.2 h.1)).symm

theorem State.stopped_slot (s : State) (n m : SlotId) :
    (s.stopped n).slot m = if n = m then s.stoppedSlot n else s.slot m := by
  rw [← State.slot_setSlot]
  exact State.slot_of_slots (by rw [s.stopped_rest]) m

/-- What the grant after a STOP makes of a slot. -/
theorem State.stopped_grant (s : State) (n m : SlotId) :
    s.GrantOnly m (if n = m then s.stoppedSlot n else s.slot m) ((s.stopped n).grant.slot m) := by
  rw [← State.stopped_slot]
  refine ((s.stopped n).grant_slot m).of_unit ?_ ?_ <;> rw [s.stopped_rest] <;> rfl

end

/-- Settles O24: the slot written, DONE told, and the grant that may take or give back a finished entry. -/
theorem stopReturnsToIdle : Obligations.StopReturnsToIdle := by
  intro p tag n s hr
  dsimp only
  have hself := s.stopped_grant n n
  rw [if_pos rfl] at hself
  have hplan := s.stoppedSlot_samePlan n
  have hports : ∀ q, (s.stopped n).grant.port q = (s.stopped n).port q := fun q => by
    rw [State.port_eq, State.grant_ports]; rfl
  have hframe : (s.stopped n).grant = { s with
      slots := (s.stopped n).grant.slots, unit := (s.stopped n).grant.unit, ports := (s.stopped n).grant.ports } := by
    have hrest := (s.stopped n).grant_engine.rest
    rw [State.grant_stamps] at hrest
    exact hrest.trans (by rw [s.stopped_rest]; rfl)
  refine ⟨_, execStop_applied tag hr, ?_, fun m hm => ?_, ?_, ?_, ?_, fun hi => ?_, fun hi => ?_, fun ha => ?_, ?_,
    fun q hq => ?_⟩
  · exact congrArg (fun u : State => u.respond p tag .stop .ok (slotStatusBytes (s.slot n).planGen .idle)) hframe
  · have hother := s.stopped_grant n m
    rw [if_neg hm.symm] at hother
    exact hother
  · rw [State.respond_slot, hself.rest]; exact hplan.1
  · rw [State.respond_slot, hself.rest]; exact hplan.2
  · rw [State.respond_slot, hself.rest]; exact s.stoppedSlot_state n
  · rw [State.stoppedSlot_idle hi] at hself
    exact hself
  · rw [State.respond_slot, hself.rest, State.stoppedSlot_active hi]
    exact ⟨rfl, rfl, rfl⟩
  · rw [State.stoppedSlot_active (by rw [ha]; exact nofun), Slot.abort_nothing _ _ _ (.inr ha)] at hself
    exact hself
  · rw [State.respond_answer, State.port_setPort, if_pos rfl, hports, State.stopped_port]
    rfl
  · rw [State.respond_answer, State.port_setPort, if_neg hq.symm, hports, State.stopped_port]

end Sys2Proof.Machine
end

section
/-! PROOFS. A TRIGGERED slot under SLOT_DONE that stops at the instant of a finish of its arm slot (R71, R72, R77, R86, R95,
log entry 33). -/

namespace Sys2Proof.Machine

/-! ## What a slot remembers of an instant of one stamp -/

/-- A slot loses no finish of the instant by seeing another. -/
theorem Slot.seeFinish_keeps {x : Slot} {d e : SeenFinish} (l : Bool) (hd : d ∈ x.finishes) (hat : d.at' = e.at') :
    d ∈ (x.seeFinish e l).finishes := by
  unfold Slot.seeFinish
  split
  · exact hd
  · split
    · rw [Slot.begin_finishes]; exact hd
    · split
      · exact hd
      · exact List.mem_append_left _ (List.mem_filter.2 ⟨hd, decide_eq_true hat⟩)

theorem State.announce_keeps (s : State) (n m : SlotId) (e : Finish) {d : SeenFinish} (hd : d ∈ (s.slot m).finishes)
    (hat : d.at' = s.horizonTime) : d ∈ ((s.announce n e).slot m).finishes := by
  obtain ⟨stop, b, c⟩ := e
  cases stop with
  | none => rw [State.slot_of_slots (State.announce_noSignal_slots s n b c)]; exact hd
  | some t =>
    rw [State.announce_slot_eq]
    split
    · exact Slot.seeFinish_keeps _ hd hat
    · exact hd

/-- While the slots judge an instant whose one stamp is st, slot m remembers of the finishes fs those of the instant, and
beside them only finishes that st has caused. -/
structure State.Remembered (s : State) (st : Stamp) (m : SlotId) (fs : List SeenFinish) : Prop where
  stamps : ∀ k, ∀ f ∈ (s.slot k).stampsAt s.horizonTime, f.st = st
  gained : ∀ d ∈ (s.slot m).finishes, d ∈ fs ∨ d.cause = some st
  kept : ∀ d ∈ fs, d.at' = s.horizonTime → d ∈ (s.slot m).finishes

section
variable {s : State} {st : Stamp} {m : SlotId} {fs : List SeenFinish}

theorem State.Remembered.announce {n : SlotId} {e : Finish} (h : s.Remembered st m fs) (hc : e.cause = some st) :
    (s.announce n e).Remembered st m fs := by
  have htime := (s.announce_engine n e).horizonTime
  refine ⟨fun k => ?_, fun d hd => ?_, fun d hd hat => ?_⟩
  · unfold Slot.stampsAt
    rw [htime, (s.announce_remembers n k e).1]
    exact h.stamps k
  · rcases (s.announce_remembers n m e).2 d hd with hd | hd
    · exact h.gained d hd
    · exact .inr (hd.trans hc)
  · rw [htime] at hat
    exact s.announce_keeps n m e (h.kept d hd hat) hat

theorem State.Remembered.judgeSlot {n : SlotId} (k : Nat) (hn : n ≠ m) (h : s.Remembered st m fs) :
    (State.judgeSlot k n s).Remembered st m fs := by
  induction k generalizing s with
  | zero => exact h
  | succ k ih =>
    cases hj : (s.slot n).judgeInstant n s.horizonTime s.horizonLocked with
    | none => rw [State.judgeSlot_none hj]; exact h
    | some r =>
      obtain ⟨y, e⟩ := r
      have hr := Slot.judgeInstant_remembers hj
      have hm : (s.setSlot n y).slot m = s.slot m := by rw [State.slot_setSlot, if_neg hn]
      have hset : (s.setSlot n y).Remembered st m fs := by
        refine ⟨fun j => ?_, by rw [hm]; exact h.gained, by rw [hm]; exact h.kept⟩
        rw [State.slot_setSlot]
        split
        · exact fun f hf => h.stamps n f (hr.stamps f hf)
        · exact h.stamps j
      rw [State.judgeSlot_some k hj]
      refine ih ?_
      cases e with
      | none => exact hset
      | some e =>
        obtain ⟨g, hg, hcause⟩ := hr.cause e rfl
        exact hset.announce (hcause.trans (congrArg some (h.stamps n g hg)))

theorem State.Remembered.judgeAll (l : List SlotId) (hm : m ∉ l) (h : s.Remembered st m fs) :
    (State.judgeAll l s).Remembered st m fs := by
  induction l generalizing s with
  | nil => exact h
  | cons n rest ih =>
    exact ih (fun e => hm (List.mem_cons_of_mem _ e)) (h.judgeSlot _ fun e => hm (e ▸ List.mem_cons_self))

/-- The one stamp of the instant, just offered. -/
theorem State.offer_remembered (hq : ∀ k, ∀ f ∈ (s.slot k).fresh, f.offeredAt ≠ s.horizonTime)
    (hm : (s.slot m).state ≠ .idle) : (s.offer st).Remembered st m (s.slot m).finishes := by
  have hfin : ((s.offer st).slot m).finishes = (s.slot m).finishes := by rw [s.offer_slot_active st m hm]
  refine ⟨fun k f hf => ?_, fun d hd => .inl (by rw [← hfin]; exact hd), fun d hd _ => by rw [hfin]; exact hd⟩
  rw [State.offer_horizonTime, Slot.mem_stampsAt] at hf
  by_cases hk : (s.slot k).state = .idle
  · rw [State.offer_slot_idle _ _ _ hk] at hf
    exact absurd hf.2 (hq k f hf.1)
  · rw [s.offer_slot_active st k hk] at hf
    rcases List.mem_append.1 hf.1 with hold | hnew
    · exact absurd hf.2 (hq k f (Slot.mem_stampsAt.1 hold).1)
    · rw [List.mem_singleton.1 hnew]; rfl

end

/-! ## The TRIGGERED finish (R77, R95) -/

section
variable {x : Slot} {n : SlotId} {h : Tick} {l : Bool} {f : Offered}

/-- A TRIGGERED slot whose stop, or the tag that reaches its quota, a stamp is: the outcome is placed and the slot
re-arms. -/
theorem Slot.judgeStamp_rearms (n : SlotId) (h : Tick) (l : Bool) (he : x.EndsAt f.st f.scale)
    (hq : x.plan.kind = .timetag → ∃ q, x.plan.quota = some q ∧ q.toNat ≤ x.data.tags + 1)
    (hr : x.plan.repeatMode = .triggered) :
    ∃ o e, x.judgeStamp n h l f = some (((x.finishedBy f).place o).rearm h l, some e) := by
  by_cases hk : x.plan.kind = .timetag
  · obtain ⟨hst, hm⟩ := he.tags hk
    have hquota : quotaReached x.plan (x.data.tags + 1) = true :=
      (quotaReached_iff _ _).2 ⟨by rw [hr]; exact nofun, hq hk⟩
    have hz : (x.takeTag n h l f).1 = (x.tagEntered n l f).rearm h l := by
      rw [Slot.takeTag_last hquota]
      exact Slot.afterFinish_triggered _ _ _ (by rw [Slot.tagEntered_samePlan.1]; exact hr)
    exact ⟨_, _, hz ▸ Slot.judgeStamp_tags n h l hst hk hm⟩
  · obtain ⟨hst, hm⟩ := he.stops hk
    exact ⟨_, _, Slot.takeStop_triggered (n := n) (h := h) (l := l) (f := f) hr ▸ Slot.judgeStamp_stops n h l hst hm⟩

/-- A slot that a stamp has finished, with its outcome placed, in ARMING at horizon time h (R77). -/
def Slot.finishedToArming (x : Slot) (h : Tick) (f : Offered) (o : Outcome) : Slot :=
  { (x.finishedBy f).place o with state := .arming, data := { MeasData.empty with armingSince := h } }

theorem Slot.rearm_finishedToArming (hs : x.plan.armSource = .slotDone) (o : Outcome) :
    ((x.finishedBy f).place o).rearm h l = x.finishedToArming h f o := by
  unfold Slot.rearm
  dsimp only
  rw [if_neg]
  · rfl
  · rw [Slot.place_plan]
    show x.plan.armSource ≠ _
    rw [hs]
    exact nofun

theorem Slot.finishedToArming_samePlan (o : Outcome) : SamePlan x (x.finishedToArming h f o) :=
  (Slot.finishedBy_samePlan x f).trans (Slot.place_samePlan _ o)

theorem Slot.finishedToArming_awaits (hs : x.plan.armSource = .slotDone) (o : Outcome) :
    (x.finishedToArming h f o).awaitsArming .slotDone = true :=
  (Slot.awaitsArming_iff _ _).2 ⟨rfl, (congrArg Plan.armSource (Slot.finishedToArming_samePlan o).1).trans hs, rfl⟩

theorem Slot.finishedToArming_usedUp (o : Outcome) : f ∈ (x.finishedToArming h f o).usedUp := by
  have hkept : ((x.finishedBy f).place o).usedUp = (x.finishedBy f).usedUp := by unfold Slot.place; split <;> rfl
  show f ∈ ((x.finishedBy f).place o).usedUp
  rw [hkept]
  exact List.mem_append_right _ (List.mem_singleton_self f)

theorem Slot.mem_finishedToArming_finishes {o : Outcome} {d : SeenFinish} :
    d ∈ (x.finishedToArming h f o).finishes ↔ d ∈ x.finishes ∧ d.cause ≠ some f.st := by
  show d ∈ ((x.finishedBy f).place o).finishes ↔ _
  rw [Slot.place_finishes]
  show d ∈ x.finishes.filter _ ↔ _
  rw [List.mem_filter, decide_eq_true_iff]

theorem Slot.finishedToArming_stampsAt (o : Outcome) (hf : x.stampsAt h = [f]) (g : Offered) :
    g ∉ (x.finishedToArming h f o).stampsAt h := by
  show g ∉ ((x.finishedBy f).place o).stampsAt h
  rw [Slot.place_stampsAt, Slot.mem_finishedBy_stampsAt, hf, List.mem_singleton]
  exact fun c => c.2.1 c.1

/-- The one finish of the instant that a waiting slot remembers is the one it arms at. -/
theorem Slot.seenFinish_one {e : SeenFinish} (hw : x.awaitsArming .slotDone = true) (he : e ∈ x.finishes)
    (hat : e.at' = h) (ho : ∀ d ∈ x.finishes, d = e) : x.seenFinish h = some e := by
  unfold Slot.seenFinish
  rw [if_pos hw]
  have hsome : (x.finishes.find? fun d => decide (d.at' = h)).isSome = true :=
    List.find?_isSome.2 ⟨e, he, decide_eq_true hat⟩
  obtain ⟨d, hd⟩ := Option.isSome_iff_exists.1 hsome
  rw [hd, ho d (List.mem_of_find?_eq_some hd)]

/-- A slot that holds no stamp of the instant arms at a finish that it remembers of it, and makes nothing more of it. -/
theorem Slot.judgeRun_seen {e : SeenFinish} (k : Nat) (hx : ∀ g, g ∉ x.stampsAt h) (he : x.seenFinish h = some e) :
    x.judgeRun n h l (k + 1) = { x.begin e.stopTime false l with finishes := x.finishes.erase e } := by
  have hj : x.judgeInstant n h l = some ({ x.begin e.stopTime false l with finishes := x.finishes.erase e }, none) := by
    unfold Slot.judgeInstant; rw [he]
  have hstamps : ∀ g, g ∉ (x.begin e.stopTime false l).stampsAt h := by rw [Slot.begin_stampsAt]; exact hx
  have hnone : Slot.judgeInstant { x.begin e.stopTime false l with finishes := x.finishes.erase e } n h l = none :=
    Slot.judgeInstant_ignores (Slot.seenFinish_not_waiting _ (x.begin_awaitsArming e.stopTime false l _))
      fun g hg => absurd hg (hstamps g)
  rw [Slot.judgeRun_some hj]
  exact Slot.judgeRun_none hnone k

/-- Of an instant of one stamp, which finishes it, a TRIGGERED slot under SLOT_DONE makes that finish; then it arms at a
finish that it remembers of the instant and that the stamp has not caused, and waits where it remembers none. -/
theorem Slot.judgeRun_rearms (k : Nat) (he : x.EndsAt f.st f.scale)
    (hq : x.plan.kind = .timetag → ∃ q, x.plan.quota = some q ∧ q.toNat ≤ x.data.tags + 1)
    (hr : x.plan.repeatMode = .triggered) (hs : x.plan.armSource = .slotDone) (hf : x.stampsAt h = [f]) :
    (∀ e ∈ x.finishes, e.at' = h → e.cause ≠ some f.st → (∀ d ∈ x.finishes, d = e ∨ d.cause = some f.st) →
      x.ArmedAt (x.judgeRun n h l (k + 2)) e.stopTime false l)
    ∧ ((∀ d ∈ x.finishes, d.cause = some f.st) → ∃ o, x.judgeRun n h l (k + 2) = x.finishedToArming h f o) := by
  obtain ⟨o, fin, hj⟩ := Slot.judgeStamp_rearms n h l he hq hr
  rw [Slot.rearm_finishedToArming hs] at hj
  have hact : x.state ≠ .arming := by
    rcases he.inFlight.1 with e | e | e <;> rw [e] <;> exact nofun
  have hinstant : x.judgeInstant n h l = some (x.finishedToArming h f o, some fin) :=
    Slot.judgeInstant_takes (Slot.seenFinish_not_waiting _ (Slot.awaitsArming_of_state _ hact))
      (hf ▸ List.mem_singleton_self f) hj fun g hg hne => absurd (List.mem_singleton.1 (hf ▸ hg)) hne
  have hstamps := Slot.finishedToArming_stampsAt o hf
  rw [Slot.judgeRun_some hinstant]
  refine ⟨fun e hmem hat hc ho => ?_, fun ho => ⟨o, ?_⟩⟩
  · have hseen : (x.finishedToArming h f o).seenFinish h = some e := by
      refine Slot.seenFinish_one (Slot.finishedToArming_awaits hs o)
        (Slot.mem_finishedToArming_finishes.2 ⟨hmem, hc⟩) hat fun d hd => ?_
      obtain ⟨hd, hdc⟩ := Slot.mem_finishedToArming_finishes.1 hd
      exact (ho d hd).resolve_right hdc
    rw [Slot.judgeRun_seen k hstamps hseen]
    exact (Slot.begin_armedAt_of (Slot.finishedToArming_samePlan o) e.stopTime false l).of_data ⟨rfl, rfl⟩ rfl rfl
  · refine Slot.judgeRun_none (Slot.judgeInstant_ignores (Slot.seenFinish_none fun d hd _ => ?_)
      fun g hg => absurd hg (hstamps g)) _
    obtain ⟨hd, hdc⟩ := Slot.mem_finishedToArming_finishes.1 hd
    exact hdc (ho d hd)

end

/-- The slot at the end of the offer of its own finish, where no other stamp of the instant has been offered. -/
theorem State.offer_rearms {s : State} {st : Stamp} {m : SlotId}
    (hq : ∀ k, ∀ f ∈ (s.slot k).fresh, f.offeredAt ≠ s.horizonTime)
    (he : (s.slot m).EndsAt st (st.corrected + s.offset)) (hc : (s.slot m).plan.armSlot < m) :
    ∃ y k, UpToFinishes (s.offeredSlot st m) y ∧ y.stampsAt s.horizonTime = [s.offered st]
      ∧ (∀ d ∈ y.finishes, d ∈ (s.slot m).finishes ∨ d.cause = some st)
      ∧ (∀ d ∈ (s.slot m).finishes, d.at' = s.horizonTime → d ∈ y.finishes)
      ∧ (s.offer st).settle.slot m = y.judgeRun m s.horizonTime s.horizonLocked (k + 2) := by
  have hstate : (s.slot m).state ≠ .idle ∧ (s.slot m).state ≠ .arming := by
    rcases he.inFlight.1 with e | e | e <;> rw [e] <;> exact ⟨nofun, nofun⟩
  have hslot : (s.offer st).slot m = s.offeredSlot st m := s.offer_slot_active st m hstate.1
  obtain ⟨l1, hl1, -, hrun⟩ := State.settle_chained (s := s.offer st) (n := m) (by rw [hslot]; exact fun _ => hc)
  have hm : m ∉ l1 := fun h => lt_irrefl m ((hl1 m).1 h)
  have hup := State.judgeAll_other l1 m (s.offer st) hm (by
    rw [hslot]; exact Slot.awaitsArming_of_state (x := s.offeredSlot st m) _ hstate.2)
  have hrem := (State.offer_remembered (st := st) hq hstate.1).judgeAll l1 hm
  rw [hslot] at hup
  have hkept := hrem.kept
  rw [(State.judgeAll_engine l1 (s.offer st)).horizonTime, State.offer_horizonTime] at hkept
  rw [State.offer_horizonTime, State.offer_horizonLocked] at hrun
  refine ⟨_, _, hup, ?_, hrem.gained, hkept, hrun⟩
  obtain ⟨fs, e⟩ := hup
  rw [e]
  have hnone : (s.slot m).stampsAt s.horizonTime = [] := by
    rw [List.eq_nil_iff_forall_not_mem]
    exact fun g hg => hq m g (Slot.mem_stampsAt.1 hg).1 (Slot.mem_stampsAt.1 hg).2
  exact (s.offeredSlot_stampsAt st m).trans (by rw [hnone]; rfl)

theorem State.GrantOnly.keepsUsedUp {s : State} {m : SlotId} {x y : Slot} (h : s.GrantOnly m x y) :
    y.usedUp = x.usedUp := by
  rw [h.rest]

/-- A slot that stops at an instant arms at the finish of its arm slot seen at that instant, and at none that its own stop
stamp has caused. -/
theorem finish_seen_before_stop {i : InputId} {st : Stamp} {m : SlotId} {s : State} (hdue : s.dueStamp i = some st)
    (hq : ∀ k, ∀ f ∈ (s.slot k).fresh, f.offeredAt ≠ s.horizonTime)
    (he : (s.slot m).EndsAt st (st.corrected + s.offset))
    (hquota : (s.slot m).plan.kind = .timetag →
      ∃ q, (s.slot m).plan.quota = some q ∧ q.toNat ≤ (s.slot m).data.tags + 1)
    (hr : (s.slot m).plan.repeatMode = .triggered) (hs : (s.slot m).plan.armSource = .slotDone)
    (hc : (s.slot m).plan.armSlot < m) :
    (∀ e, (s.slot m).finishes = [e] → e.at' = s.horizonTime → e.cause ≠ some st →
      ∃ t, exec (.stampOffer i) s = .next t ∧ (s.slot m).ArmedAt (t.slot m) e.stopTime false s.horizonLocked)
    ∧ ((s.slot m).finishes = [] → ∃ t, exec (.stampOffer i) s = .next t ∧ (t.slot m).state = .arming
      ∧ (t.slot m).data = { MeasData.empty with armingSince := s.horizonTime }
      ∧ ∃ g ∈ (t.slot m).usedUp, g.offeredAt = s.horizonTime ∧ g.st = st) := by
  obtain ⟨y, k, ⟨fs, rfl⟩, hstamps, hgained, hkept, hrun⟩ := State.offer_rearms hq he hc
  have hgrant := State.conclude_slot (s.offer_unit st) (s.offer_rawTime st) m
  obtain ⟨harms, hwaits⟩ := Slot.judgeRun_rearms (x := { s.offeredSlot st m with finishes := fs }) (n := m)
    (l := s.horizonLocked) (f := s.offered st) k he hquota hr hs hstamps
  rw [hrun] at hgrant
  obtain ⟨hplan, hstate, hdata⟩ := hgrant.keeps
  refine ⟨fun e hfin hat hcause => ⟨_, exec_stampOffer_due hdue, ?_⟩, fun hfin => ⟨_, exec_stampOffer_due hdue, ?_⟩⟩
  · have hmem : e ∈ (s.slot m).finishes := by rw [hfin]; exact List.mem_singleton_self e
    refine (harms e (hkept e hmem hat) hat hcause fun d hd => ?_).of_data hplan hstate hdata
    exact (hgained d hd).imp_left fun h => List.mem_singleton.1 (hfin ▸ h)
  · obtain ⟨o, hz⟩ := hwaits fun d hd => (hgained d hd).resolve_left (by rw [hfin]; exact List.not_mem_nil)
    rw [hz] at hgrant hstate hdata
    have hused := Slot.finishedToArming_usedUp (x := { s.offeredSlot st m with finishes := fs }) (h := s.horizonTime)
      (f := s.offered st) o
    rw [← hgrant.keepsUsedUp] at hused
    exact ⟨hstate, hdata, s.offered st, hused, rfl, rfl⟩

end Sys2Proof.Machine
end

section
/-! PROOFS. A slot that waits for its arm slot at the instant at which another stamp arms that slot, which then tags a stamp
offered before (R71, R72, R85, R86, R94, log entry 33). -/

namespace Sys2Proof.Machine

/-! ## Slots that finish no more in an instant -/

/-- Where nothing that slot n makes of the instant is a finish, judging it leaves every other slot as it is. -/
theorem State.judgeSlot_silent_of {P : Slot → Prop} {n m : SlotId} {h : Tick} {l : Bool} (hm : n ≠ m)
    (hP : ∀ (x : Slot) (r : Slot × Option Finish), P x → x.judgeInstant n h l = some r → r.2 = none ∧ P r.1)
    (k : Nat) {s : State} (ht : s.horizonTime = h) (hl : s.horizonLocked = l) (hx : P (s.slot n)) :
    (State.judgeSlot k n s).slot m = s.slot m := by
  induction k generalizing s with
  | zero => rfl
  | succ k ih =>
    cases hj : (s.slot n).judgeInstant n s.horizonTime s.horizonLocked with
    | none => rw [State.judgeSlot_none hj]
    | some r =>
      obtain ⟨y, e⟩ := r
      obtain ⟨hnone, hy⟩ := hP _ _ hx (by rw [← ht, ← hl]; exact hj)
      cases hnone
      rw [State.judgeSlot_some k hj]
      show (State.judgeSlot k n (s.setSlot n y)).slot m = _
      rw [ih (s := s.setSlot n y) ht hl (by rw [State.slot_setSlot, if_pos rfl]; exact hy), State.slot_setSlot, if_neg hm]

/-- A TIMETAG slot that holds no stamp of its input and sense at horizon time h. -/
def Slot.WithoutTag (h : Tick) (x : Slot) : Prop :=
  x.plan.kind = .timetag ∧ ∀ g ∈ x.stampsAt h, ¬g.isOf x.plan.inputA x.plan.senseA = true

section
variable {x : Slot} {n : SlotId} {h : Tick} {l : Bool} {f : Offered}

/-- Of its instant such a slot makes an arming at most (R71, R94). -/
theorem Slot.WithoutTag.judgeInstant (r : Slot × Option Finish) (hx : x.WithoutTag h)
    (hr : x.judgeInstant n h l = some r) : r.2 = none ∧ r.1.WithoutTag h := by
  have hbegin : ∀ a, (x.begin a false l).WithoutTag h := fun a => by
    unfold Slot.WithoutTag
    rw [Slot.begin_plan, Slot.begin_stampsAt]
    exact hx
  unfold Slot.judgeInstant at hr
  cases hs : x.seenFinish h with
  | some e =>
    rw [hs] at hr
    cases hr
    exact ⟨rfl, hbegin e.stopTime⟩
  | none =>
    rw [hs] at hr
    obtain ⟨f, hf, hj⟩ := List.exists_of_findSome?_eq_some hr
    have harms : x.state = .arming ∧ x.meetsArm f = true := by
      by_contra hno
      refine absurd (Slot.judgeStamp_ignores n h l (fun e => ?_) (fun _ => ?_) (fun _ => ?_) fun _ _ => ?_)
        (by rw [hj]; exact nofun) <;> rw [Bool.eq_false_iff] <;> intro hm
      · exact hno ⟨e, hm⟩
      · exact hx.2 f hf (Slot.meetsStart_isOf hm)
      · exact (Slot.meetsStop_shape hm).2 hx.1
      · exact hx.2 f hf (Slot.meetsTag_isOf hm)
    rw [Slot.judgeStamp_arms n h l harms.1 harms.2] at hj
    cases hj
    exact ⟨rfl, hbegin _⟩

/-- A slot under INPUT_EDGE, at a stamp of its arm input that comes behind one of its tag input: it arms, and then tags the
other, whatever it makes of the instant after that. -/
theorem Slot.judgeInstant_arms_tags {o : Offered} (hk : x.plan.kind = .timetag) (hm : x.meetsArm o = true)
    (hst : x.stampsAt h = [f, o]) (hA : f.isOf x.plan.inputA x.plan.senseA = true) (hne : f.st.input ≠ o.st.input)
    (ht : (f.st.corrected - o.st.corrected).toNat < 2 ^ 63) :
    x.judgeInstant n h l = some (x.begin o.st.corrected false l, none)
    ∧ ∃ z b, (x.begin o.st.corrected false l).judgeInstant n h l = some (z, some ⟨some f.st.corrected, b, some f.st⟩)
      ∧ z.WithoutTag h := by
  obtain ⟨hstate, hsrc, -, hin, -⟩ := (Slot.meetsArm_iff _ _).1 hm
  obtain ⟨hA1, hA2⟩ := (f.isOf_iff _ _).1 hA
  have hmem : ∀ g, g ∈ x.stampsAt h ↔ g = f ∨ g = o := fun g => by rw [hst]; simp
  have hw : x.seenFinish h = none := Slot.seenFinish_not_waiting _ (by
    rw [Bool.eq_false_iff, ne_eq, Slot.awaitsArming_iff, hsrc]
    exact fun c => nomatch c.2.1)
  have hnotA : ¬o.isOf x.plan.inputA x.plan.senseA = true := fun c =>
    hne (hA1.trans ((o.isOf_iff _ _).1 c).1.symm)
  refine ⟨Slot.judgeInstant_takes hw ((hmem o).2 (.inr rfl)) (Slot.judgeStamp_arms n h l hstate hm) fun g hg hgo => ?_, ?_⟩
  · rcases (hmem g).1 hg with rfl | rfl
    · refine Slot.judgeStamp_ignores n h l (fun _ => ?_) (fun e => ?_) (fun e => ?_) fun e => ?_
      · rw [Bool.eq_false_iff]
        intro c
        obtain ⟨-, -, -, hi, -⟩ := (Slot.meetsArm_iff _ _).1 c
        exact hne (hi.trans hin.symm)
      · rw [hstate] at e; cases e
      · rw [hstate] at e; rcases e with e | e <;> cases e
      · rw [hstate] at e; cases e
    · exact absurd rfl hgo
  · have hfirst : x.FirstRole o.st.corrected f := ⟨hA, (atOrBefore_iff _ _).2 ht⟩
    have htagged := Slot.judgeInstant_begin_tag (n := n) (l := l) hk ((hmem f).2 (.inl rfl)) hfirst fun g hg hgf c => by
      rcases (hmem g).1 hg with rfl | rfl
      · exact hgf rfl
      · exact hnotA c.1
    have hfin : ∃ b, ((x.begin o.st.corrected false l).takeTag n h l f).2 = ⟨some f.st.corrected, b, some f.st⟩ := by
      rw [Slot.takeTag_eq]
      split <;> exact ⟨_, rfl⟩
    obtain ⟨b, hb⟩ := hfin
    rw [hb] at htagged
    refine ⟨_, b, htagged, ?_⟩
    unfold Slot.WithoutTag
    rw [Slot.firstTagged_samePlan.1]
    refine ⟨hk, fun g hg => ?_⟩
    obtain ⟨hg, hgf⟩ := Slot.mem_firstTagged_stampsAt hg
    rcases (hmem g).1 hg with rfl | rfl
    · exact absurd rfl hgf
    · exact hnotA

end

/-! ## The waiting slot -/

/-- Of slots judged in turn, slot n arms and then finishes once: its dependent m sees that finish, and no other. -/
theorem State.judgeAll_sees {l1 : List SlotId} {n m : SlotId} {u : State} {t : Tick} {c : Option Stamp} {y z : Slot}
    {b : Bool} (hnd : l1.Nodup) (hn : n ∈ l1) (hm : m ∉ l1) (hapart : ∀ k, (u.slot n).ApartFrom k)
    (harms : (u.slot n).judgeInstant n u.horizonTime u.horizonLocked = some (y, none))
    (htags : y.judgeInstant n u.horizonTime u.horizonLocked = some (z, some ⟨some t, b, c⟩))
    (hz : z.WithoutTag u.horizonTime) (hsrc : (u.slot m).plan.armSource = .slotDone)
    (harm : (u.slot m).plan.armSlot = n) :
    (State.judgeAll l1 u).slot m = (u.slot m).seeFinish ⟨t, c, u.horizonTime⟩ u.horizonLocked := by
  obtain ⟨k1, k2, rfl⟩ := List.append_of_mem hn
  rw [List.nodup_append, List.nodup_cons] at hnd
  obtain ⟨-, ⟨hn2, -⟩, hdisj⟩ := hnd
  have hn1 : n ∉ k1 := fun h => hdisj n h n List.mem_cons_self rfl
  have hm1 : m ∉ k1 := fun h => hm (List.mem_append_left _ h)
  have hm2 : m ∉ k2 := fun h => hm (List.mem_append_right _ (List.mem_cons_of_mem _ h))
  have hnm : n ≠ m := fun h => hm (h ▸ hn)
  have hother : ∀ k, k ≠ n → ∀ w : Slot, w.plan = (u.slot m).plan → w.ApartFrom k := by
    intro k hk w hw e
    rw [hw, harm] at e
    exact hk e.2.symm
  have ev := State.judgeAll_engine k1 u
  have hvm := State.judgeAll_apart k1 m u hm1 fun k hk => hother k (fun e => hn1 (e ▸ hk)) _ rfl
  have hvn := State.judgeAll_apart k1 n u hn1 fun k _ => hapart k
  rw [State.judgeAll_append]
  generalize State.judgeAll k1 u = v at ev hvm hvn
  rw [← hvn, ← ev.horizonTime, ← ev.horizonLocked] at harms
  have hyn : (v.setSlot n y).slot n = y := by rw [State.slot_setSlot, if_pos rfl]
  have htags' : ((v.setSlot n y).slot n).judgeInstant n (v.setSlot n y).horizonTime (v.setSlot n y).horizonLocked =
      some (z, some ⟨some t, b, c⟩) := by
    rw [hyn, ← htags, ← ev.horizonTime, ← ev.horizonLocked]
    rfl
  have hjudged : State.judgeSlot (v.slot n).judgeFuel n v = State.judgeSlot
      (3 * (v.slot n).fresh.length + (v.slot n).finishes.length + 1) n ((v.setSlot n z).announce n ⟨some t, b, c⟩) := by
    rw [show (v.slot n).judgeFuel = 3 * (v.slot n).fresh.length + (v.slot n).finishes.length + 1 + 1 + 1 from rfl,
      State.judgeSlot_some _ harms]
    refine (State.judgeSlot_some _ htags').trans ?_
    rw [State.setSlot_setSlot]
    rfl
  have hzn : ((v.setSlot n z).announce n ⟨some t, b, c⟩).slot n = z := by
    have hset : (v.setSlot n z).slot n = z := by rw [State.slot_setSlot, if_pos rfl]
    rw [State.announce_apart _ n n, hset]
    rw [hset]
    unfold Slot.ApartFrom
    rw [(Slot.judgeInstant_spec htags).2.1, (Slot.judgeInstant_spec harms).2.1, hvn]
    exact hapart n
  have hzm : ((v.setSlot n z).announce n ⟨some t, b, c⟩).slot m =
      (u.slot m).seeFinish ⟨t, c, u.horizonTime⟩ u.horizonLocked := by
    rw [State.announce_slot_eq, State.slot_setSlot, if_neg hnm, hvm, if_pos ⟨hsrc, harm⟩, ← ev.horizonTime,
      ← ev.horizonLocked]
    rfl
  have hsilent := State.judgeSlot_silent_of hnm (fun x r => Slot.WithoutTag.judgeInstant (n := n) (l := u.horizonLocked) r)
    (3 * (v.slot n).fresh.length + (v.slot n).finishes.length + 1)
    ((State.announce_engine (v.setSlot n z) n ⟨some t, b, c⟩).horizonTime.trans ev.horizonTime)
    ((State.announce_engine (v.setSlot n z) n ⟨some t, b, c⟩).horizonLocked.trans ev.horizonLocked) (hzn.symm ▸ hz)
  rw [hjudged]
  rw [State.judgeAll_apart k2 m _ hm2, hsilent, hzm]
  intro k hk
  refine hother k (fun e => hn2 (e ▸ hk)) _ ?_
  rw [hsilent, hzm, (Slot.seeFinish_samePlan _ _ _).1]

/-- A slot that can use no stamp of the instant and remembers no finish of it, as it waits and as it has armed. -/
theorem Slot.judgeRun_nothing {x : Slot} {n : SlotId} {h : Tick} {l : Bool} (k : Nat) (hst : x.state = .arming)
    (hu : ∀ g ∈ x.stampsAt h, ¬x.plan.Takes g.st) (hfin : ∀ e ∈ x.finishes, e.at' ≠ h) (a : Tick) :
    x.judgeRun n h l k = x ∧ (x.begin a false l).judgeRun n h l k = x.begin a false l := by
  refine ⟨Slot.judgeRun_none (Slot.judgeInstant_ignores (Slot.seenFinish_none hfin) fun g hg =>
    Slot.judgeStamp_useless n h l (hu g hg) fun e => nomatch hst.symm.trans e) k, Slot.judgeRun_begin_none k ?_⟩
  by_cases hk : x.plan.kind = .totalize
  · exact .inl hk
  · exact .inr fun g hg c => hu g hg (.of_first hk c.1)

/-- A waiting slot at the instant at which another stamp arms its arm slot, which then tags a stamp offered before: it arms at
that tag, unless the tagged stamp has finished the slot itself. -/
theorem finish_seen_by_waiting {i : InputId} {st : Stamp} {f : Offered} {m : SlotId} {s : State}
    (hdue : s.dueStamp i = some st) (hq : s.NoOtherStamp m) (hlt : (s.slot m).plan.armSlot < m)
    (hw : (s.slot m).state = .arming ∧ (s.slot m).plan.armSource = .slotDone ∧ (s.slot m).data.gateOpen = none)
    (huse : ¬(s.slot m).plan.Takes st) (hfin : ∀ e ∈ (s.slot m).finishes, e.at' ≠ s.horizonTime)
    (hk : (s.slot (s.slot m).plan.armSlot).plan.kind = .timetag)
    (hm : (s.slot (s.slot m).plan.armSlot).meetsArm (s.offered st) = true)
    (hst : (s.slot (s.slot m).plan.armSlot).stampsAt s.horizonTime = [f])
    (hA : f.isOf (s.slot (s.slot m).plan.armSlot).plan.inputA (s.slot (s.slot m).plan.armSlot).plan.senseA = true)
    (hne : f.st.input ≠ st.input) (ht : (f.st.corrected - st.corrected).toNat < 2 ^ 63) :
    ∃ t, exec (.stampOffer i) s = .next t
      ∧ ((∃ g ∈ (s.slot m).usedUp, g.offeredAt = s.horizonTime ∧ g.st = f.st) →
        (t.slot m).state = .arming ∧ (t.slot m).data = (s.slot m).data)
      ∧ ((∀ g ∈ (s.slot m).usedUp, g.offeredAt = s.horizonTime → g.st ≠ f.st) →
        (s.slot m).ArmedAt (t.slot m) f.st.corrected false s.horizonLocked) := by
  generalize hn : (s.slot m).plan.armSlot = n at *
  obtain ⟨hnst, hnsrc, -⟩ := (Slot.meetsArm_iff _ _).1 hm
  have hun : (s.offer st).slot n = s.offeredSlot st n := s.offer_slot_active st n (by rw [hnst]; exact nofun)
  have hum : (s.offer st).slot m = s.offeredSlot st m := s.offer_slot_active st m (by rw [hw.1]; exact nofun)
  have hwaits : (s.offeredSlot st m).awaitsArming .slotDone = true := (Slot.awaitsArming_iff _ _).2 hw
  obtain ⟨harms, z, b, htags, hz⟩ := Slot.judgeInstant_arms_tags (x := s.offeredSlot st n) (n := n) (h := s.horizonTime)
    (l := s.horizonLocked) (f := f) (o := s.offered st) hk hm (by rw [State.offeredSlot_stampsAt, hst]; rfl) hA hne ht
  obtain ⟨l1, hl1, hnd, hrun⟩ := State.settle_chained (s := s.offer st) (n := m) (by
    rw [hum]; exact fun _ => lt_of_eq_of_lt hn hlt)
  have hsees := State.judgeAll_sees (u := s.offer st) (n := n) (m := m) (y := (s.offeredSlot st n).begin st.corrected false
    s.horizonLocked) (z := z) (b := b) (t := f.st.corrected) (c := some f.st) hnd ((hl1 n).2 hlt)
    (fun h => lt_irrefl m ((hl1 m).1 h)) (fun k c => by rw [hun] at c; exact nomatch hnsrc.symm.trans c.1)
    (by rw [hun, State.offer_horizonTime, State.offer_horizonLocked]; exact harms)
    (by rw [State.offer_horizonTime, State.offer_horizonLocked]; exact htags)
    (by rw [State.offer_horizonTime]; exact hz) (by rw [hum]; exact hw.2.1) (by rw [hum]; exact hn)
  rw [hum, State.offer_horizonTime, State.offer_horizonLocked] at hsees
  rw [hsees, State.offer_horizonTime, State.offer_horizonLocked] at hrun
  have hgrant := State.conclude_slot (s.offer_unit st) (s.offer_rawTime st) m
  have huseless : ∀ g ∈ (s.offeredSlot st m).stampsAt s.horizonTime, ¬(s.offeredSlot st m).plan.Takes g.st := by
    intro g hg
    by_cases e : g = s.offered st
    · rw [e]; exact huse
    · exact hq.offered_useless hg e
  refine ⟨_, exec_stampOffer_due hdue, fun hused => ?_, fun hfree => ?_⟩
  · obtain ⟨g, hg, hat, hcause⟩ := hused
    have hskip : (s.offeredSlot st m).hasUsedUp ⟨f.st.corrected, some f.st, s.horizonTime⟩ = true :=
      List.any_eq_true.2 ⟨g, hg, decide_eq_true ⟨hat, congrArg some hcause.symm⟩⟩
    rw [Slot.seeFinish_usedUp _ hskip, (Slot.judgeRun_nothing (x := s.offeredSlot st m) (h := s.horizonTime) _ hw.1 huseless hfin 0).1] at hrun
    rw [hrun] at hgrant
    exact ⟨hgrant.keeps.2.1.trans hw.1, hgrant.keeps.2.2⟩
  · rw [Slot.seeFinish_arms _ hwaits fun g hg hat e => hfree g hg hat (Option.some.inj e).symm,
      (Slot.judgeRun_nothing (x := s.offeredSlot st m) (h := s.horizonTime) _ hw.1 huseless hfin f.st.corrected).2] at hrun
    rw [hrun] at hgrant
    obtain ⟨hplan, hstate, hdata⟩ := hgrant.keeps
    exact (Slot.begin_armedAt_of (x := s.slot m) (y := s.offeredSlot st m) ⟨rfl, rfl⟩ f.st.corrected false
      s.horizonLocked).of_data hplan hstate hdata

/-- Settles O38: the slot that stops at the instant, in either order of its stop and the finish, and the slot that waits. -/
theorem finishSeenArmsAtItsInstant : Obligations.FinishSeenArmsAtItsInstant := by
  refine ⟨fun i st m s hdue hq => ?_, fun i st f m s hdue hq => ?_⟩ <;> dsimp only
  · intro he hquota hr hs hc
    exact finish_seen_before_stop hdue hq he hquota hr hs hc
  · intro hlt hst hsrc hgate huse hfin hnst hnsrc hk hngate hin hse harm hf hA1 hA2 hne ht
    exact finish_seen_by_waiting hdue hq hlt ⟨hst, hsrc, hgate⟩ huse hfin hk
      ((Slot.meetsArm_iff _ _).2 ⟨hnst, hnsrc, hngate, hin, hse, harm⟩) hf ((f.isOf_iff _ _).2 ⟨hA1, hA2⟩) hne ht

end Sys2Proof.Machine
end

section
/-! PROOFS. The arbiter: round robin among the waiting slots, and the grant at the end of an event (R99 to R101, log
entry 18). -/

namespace Sys2Proof.Machine

/-! ## Round robin -/

/-- A slot found above the last granted is the lowest such one; with none above, the lowest of all is granted. -/
theorem nextGrant_cases {last n : SlotId} {waiting : List SlotId} (h : nextGrant last waiting = some n) :
    (waiting.find? fun m => decide (last < m)) = some n
    ∨ (waiting.find? fun m => decide (last < m)) = none ∧ waiting.head? = some n := by
  unfold nextGrant at h
  split at h
  · next k hk => exact .inl (h ▸ hk)
  · next hk => exact .inr ⟨hk, h⟩

theorem nextGrant_mem {last n : SlotId} {waiting : List SlotId} (h : nextGrant last waiting = some n) : n ∈ waiting := by
  rcases nextGrant_cases h with hfound | ⟨-, hhead⟩
  · exact List.mem_of_find?_eq_some hfound
  · exact List.mem_of_mem_head? hhead

theorem nextGrant_nil (last : SlotId) : nextGrant last [] = none := rfl

theorem nextGrant_isSome (last : SlotId) {waiting : List SlotId} (h : waiting ≠ []) :
    ∃ n, nextGrant last waiting = some n := by
  unfold nextGrant
  split
  · next k _ => exact ⟨k, rfl⟩
  · exact ⟨waiting.head h, List.head?_eq_some_head h⟩

/-- In an ascending list, what is found first is the lowest of what is sought. -/
theorem find?_le_of_ascending {l : List SlotId} (hl : l.Pairwise (· < ·)) {p : SlotId → Bool} {n m : SlotId}
    (hn : l.find? p = some n) (hm : m ∈ l) (hp : p m = true) : n ≤ m := by
  obtain ⟨-, front, back, rfl, hfront⟩ := List.find?_eq_some_iff_append.1 hn
  rcases List.mem_append.1 hm with hin | hin
  · exact absurd hp (by simpa using hfront m hin)
  · rcases List.mem_cons.1 hin with rfl | hback
    · exact le_rfl
    · exact ((List.pairwise_cons.1 (List.pairwise_append.1 hl).2.1).1 m hback).le

/-- Round robin over waiting slots in ascending order (R99). -/
theorem nextGrant_lowest {last n : SlotId} {waiting : List SlotId} (hw : waiting.Pairwise (· < ·))
    (h : nextGrant last waiting = some n) :
    (last < n → ∀ m ∈ waiting, last < m → n ≤ m) ∧ (¬last < n → ∀ m ∈ waiting, ¬last < m ∧ n ≤ m) := by
  rcases nextGrant_cases h with hfound | ⟨hnone, hhead⟩
  · have habove : last < n := by simpa using List.find?_some hfound
    exact ⟨fun _ m hm hlast => find?_le_of_ascending hw hfound hm (decide_eq_true hlast), fun hn => absurd habove hn⟩
  · have hbelow : ∀ m ∈ waiting, ¬last < m := fun m hm => by simpa using List.find?_eq_none.1 hnone m hm
    obtain ⟨rest, rfl⟩ := List.head?_eq_some_iff.1 hhead
    refine ⟨fun hn => absurd hn (hbelow n List.mem_cons_self), fun _ m hm => ⟨hbelow m hm, ?_⟩⟩
    rcases List.mem_cons.1 hm with rfl | hrest
    · exact le_rfl
    · exact ((List.pairwise_cons.1 hw).1 m hrest).le

/-! ## The grant at the end of an event -/

/-- A grant changes the slots and the unit alone. -/
theorem State.grant_rest (s : State) : s.grant = { s with slots := s.grant.slots, unit := s.grant.unit } := by
  have h := s.grant_engine.rest
  rw [s.grant_ports, s.grant_stamps] at h
  exact h

/-- The placements of an instant at which the unit took an entry: the slots that wait, and the slot of that entry. -/
theorem State.grantOfInstant_eq (s : State) (v : Service) : s.grantOfInstant v =
    nextGrant v.grantedBefore (allSlots.filter fun n => decide (n = v.slot ∨ (s.slot n).finished.isSome = true)) := by
  simp only [State.grantOfInstant, Bool.decide_or, Bool.decide_eq_true]

section
variable {s : State} {v : Service}

/-- A unit that serves keeps its entry, unless it took it at this instant and round robin gives another slot. -/
theorem State.grant_stands (hv : s.unit.service = some v)
    (h : v.takenAt ≠ s.rawTime ∨ s.grantOfInstant v = some v.slot) : s.grant = s := by
  have hkeep : s.withdrawGrant = s := by
    unfold State.withdrawGrant
    rw [hv]
    exact if_neg fun ⟨htaken, hother⟩ => h.elim (· htaken) hother
  unfold State.grant State.arbitrate
  rw [hkeep, hv]

/-- The state in which a grant of this instant has been taken back. -/
def State.withdrawn (s : State) (v : Service) : State :=
  { s.setSlot v.slot ((s.slot v.slot).giveBack v.outcome) with unit := ⟨none, v.grantedBefore⟩ }

theorem State.withdrawGrant_withdrawn (hv : s.unit.service = some v) (ht : v.takenAt = s.rawTime)
    (hother : s.grantOfInstant v ≠ some v.slot) : s.withdrawGrant = s.withdrawn v := by
  unfold State.withdrawGrant
  rw [hv]
  exact if_pos ⟨ht, hother⟩

theorem State.withdrawn_slot (s : State) (v : Service) (m : SlotId) :
    (s.withdrawn v).slot m = if v.slot = m then (s.slot v.slot).giveBack v.outcome else s.slot m :=
  s.slot_setSlot v.slot _ m

/-- With the entry given back, all the placements of the instant wait. -/
theorem State.withdrawn_waiting (s : State) (v : Service) :
    nextGrant v.grantedBefore (s.withdrawn v).waiting = s.grantOfInstant v := by
  have hfinished : ∀ n, ((s.withdrawn v).slot n).finished.isSome = (decide (n = v.slot) || (s.slot n).finished.isSome) := by
    intro n
    rw [State.withdrawn_slot]
    by_cases e : v.slot = n
    · simp [e, Slot.giveBack]
    · simp [e, Ne.symm e]
  simp only [State.waiting, State.grantOfInstant, hfinished]

/-- A grant of this instant that round robin gives to another slot is made anew (R99, R101, log entry 18). -/
theorem State.grant_anew (hv : s.unit.service = some v) (ht : v.takenAt = s.rawTime) {n : SlotId}
    (hn : s.grantOfInstant v = some n) (hne : n ≠ v.slot) :
    (∃ o, (s.slot n).finished = some o ∧ s.grant.unit = ⟨some ⟨n, o, s.rawTime, v.grantedBefore⟩, n⟩)
    ∧ (s.grant.slot n).finished = none ∧ (s.grant.slot v.slot).finished = some v.outcome
    ∧ ∀ m, m ≠ n → m ≠ v.slot → s.grant.slot m = s.slot m := by
  have hback : s.withdrawGrant = s.withdrawn v :=
    State.withdrawGrant_withdrawn hv ht (by rw [hn]; exact fun h => hne (Option.some.inj h))
  have hnext : (s.withdrawn v).GrantsNext s.grant (s.withdrawn v).slot := by
    unfold State.grant
    rw [hback]
    exact State.arbitrate_free rfl
  unfold State.GrantsNext at hnext
  change (match nextGrant v.grantedBefore (s.withdrawn v).waiting with | none => _ | some n => _) at hnext
  rw [State.withdrawn_waiting, hn] at hnext
  obtain ⟨⟨o, ho, hunit⟩, hslots⟩ := hnext
  rw [State.withdrawn_slot, if_neg hne.symm] at ho
  refine ⟨⟨o, ho, hunit⟩, ?_, ?_, fun m hmn hmv => ?_⟩
  · rw [hslots, if_pos rfl]
  · rw [hslots, if_neg hne.symm, State.withdrawn_slot, if_pos rfl]
    rfl
  · rw [hslots, if_neg hmn, State.withdrawn_slot, if_neg hmv.symm]

end

/-- Settles O39: round robin over ascending slots, and the grant of a unit that is FREE, that serves an earlier entry, and
that took its entry at this instant. -/
theorem arbiterGrantsRoundRobin : Obligations.ArbiterGrantsRoundRobin := by
  refine ⟨List.pairwise_lt_finRange 16, List.mem_finRange, fun last waiting hw => ⟨?_, fun n hn => ?_, ?_⟩,
    fun s => ⟨s.grant_rest, State.grant_free, fun v hv => ?_⟩⟩
  · rintro rfl
    exact nextGrant_nil last
  · exact ⟨nextGrant_mem hn, nextGrant_lowest hw hn⟩
  · exact nextGrant_isSome last
  · dsimp only
    rw [← s.grantOfInstant_eq v]
    exact ⟨State.grant_stands hv, fun ht n hn hne => State.grant_anew hv ht hn hne⟩

end Sys2Proof.Machine
end

section
/-! PROOFS. SERVICE_COMPLETION: what the log makes of the served record, the latest table, the grant that follows, and the
fields of the record (R98 to R100, R102 to R108, R110 to R114, R117, R120 to R125). -/

namespace Sys2Proof.Machine

/-! ## The record offered to the log -/

/-- What the log makes of a record leaves everything but the log, the ports and the slots. -/
theorem State.offerRecord_rest (s : State) (r : Record) : (s.offerRecord r).1 =
    { s with log := (s.offerRecord r).1.log, ports := (s.offerRecord r).1.ports, slots := (s.offerRecord r).1.slots } := by
  unfold State.offerRecord
  split
  · rfl
  · split
    · show s.forceRetire.writeRecord r = { s with
        log := (s.forceRetire.writeRecord r).log, ports := (s.forceRetire.writeRecord r).ports, slots := _ }
      unfold State.forceRetire
      split <;> rfl
    · rfl

theorem State.offerRecord_room {s : State} (h : s.log.held.length < 512) (r : Record) :
    s.offerRecord r = (s.writeRecord r, some s.log.nextSeq) := if_pos h

theorem State.offerRecord_overwrite {s : State} (h : 512 ≤ s.log.held.length) (hp : s.log.policy = .overwrite)
    (r : Record) : s.offerRecord r = (s.forceRetire.writeRecord r, some s.log.nextSeq) := by
  refine (if_neg (Nat.not_lt.2 h)).trans ?_
  rw [hp]

theorem State.offerRecord_hold {s : State} (h : 512 ≤ s.log.held.length) (hp : s.log.policy = .hold) (r : Record) :
    s.offerRecord r = (s.discardRecord r, none) := by
  refine (if_neg (Nat.not_lt.2 h)).trans ?_
  rw [hp]

/-! ## Writing a record (R117, R120 to R123) -/

theorem State.writeRecord_rest (s : State) (r : Record) :
    s.writeRecord r = { s with log := (s.writeRecord r).log, ports := (s.writeRecord r).ports } := rfl

/-- The record takes the next sequence, and the records at the oldest end that no port wants leave (R117, R120). -/
theorem State.writeRecord_log (s : State) (r : Record) : (s.writeRecord r).log = { s.log with
    nextSeq := s.log.nextSeq + 1
    held := (s.log.held ++ [(⟨s.log.nextSeq, r⟩ : LogEntry)]).dropWhile fun e => !decide (∃ p, (s.port p).wants e = true) } := by
  have hwanted : ∀ e, decide (∃ p, (s.port p).wants e = true) = s.wantedByAny e := fun e =>
    Bool.eq_iff_iff.2 (decide_eq_true_iff.trans (s.wantedByAny_iff e).symm)
  simp only [hwanted]
  rfl

/-- A port whose cursor has been dragged to the oldest sequence of a log, if it lay before it (R121). -/
def Port.dragged (q : Port) (l : Log) : Port :=
  { q with cursor := if (q.cursor - l.oldestSeq).toNat < 2 ^ 31 then q.cursor else l.oldestSeq }

theorem Port.dragCursor_eq_dragged (q : Port) (l : Log) :
    { q with cursor := dragCursor l.oldestSeq q.cursor } = q.dragged l := by
  simp only [dragCursor, seqAtOrBefore, Port.dragged, decide_eq_true_eq]

/-- Cursors are dragged, and RESULTS is set at each port that wants the new record with enough backlog (R121, R123). -/
theorem State.writeRecord_port (s : State) (r : Record) (p : PortId) :
    let q := (s.port p).dragged (s.writeRecord r).log
    (s.writeRecord r).port p =
      if q.wants ⟨s.log.nextSeq, r⟩ = true ∧ q.threshold.toNat ≤ backlog (s.writeRecord r).log.held q
      then { q with flags := q.flags ||| 0b0000001 } else q := by
  intro q
  let pushed : State :=
    { s with log := { s.log with held := s.log.held ++ [⟨s.log.nextSeq, r⟩], nextSeq := s.log.nextSeq + 1 } }
  have hq : pushed.retirementCheck.port p = q := (pushed.retirementCheck_port p).trans (Port.dragCursor_eq_dragged _ _)
  have hraised : (s.writeRecord r).port p =
      if q.wants ⟨s.log.nextSeq, r⟩ && decide (q.threshold.toNat ≤ backlog (s.writeRecord r).log.held q)
      then q.setFlag .results else q := by
    rw [← hq]
    exact State.port_raise _ _ _ p
  simp only [Bool.and_eq_true, decide_eq_true_eq] at hraised
  exact hraised

/-! ## The forced retirement (R124) -/

theorem State.forceRetire_eq {s : State} {oldest : LogEntry} {rest : List LogEntry} (h : s.log.held = oldest :: rest) :
    s.forceRetire = State.mapPorts { s with log := { s.log with held := rest } } fun q => q.charge oldest := by
  unfold State.forceRetire
  rw [h]

theorem State.forceRetire_port {s : State} {oldest : LogEntry} {rest : List LogEntry} (h : s.log.held = oldest :: rest)
    (p : PortId) : s.forceRetire.port p = (s.port p).charge oldest := by
  rw [State.forceRetire_eq h, State.port_mapPorts]
  rfl

/-! ## The discarded record (R125) -/

/-- The record's lost-count field stands for the count that the outcome carried, 0 when absent (R102, R112). -/
theorem Outcome.record_lost (o : Outcome) : (o.record.lost.elim 0 fun c => c.toNat) = o.lost.toNat := by
  show ((if o.lost = 0 then none else some o.lost).elim 0 fun c => c.toNat) = _
  split
  · next h => rw [h]; rfl
  · rfl

theorem State.discardRecord_slot (s : State) (o : Outcome) (m : SlotId) :
    (s.discardRecord o.record).slot m = if m = o.slot then { s.slot m with
      lost := BitVec.ofNat 32 (min ((s.slot m).lost.toNat + 1 + o.lost.toNat) 4294967295) } else s.slot m := by
  unfold State.discardRecord
  rw [State.slot_setSlot, Outcome.record_lost]
  show (if o.slot = m then _ else _) = _
  by_cases h : o.slot = m
  · subst h
    rw [if_pos rfl, if_pos rfl, Nat.add_assoc]
    rfl
  · rw [if_neg h, if_neg (Ne.symm h)]

/-! ## The completion (R98 to R100, R113) -/

/-- What a completion leaves of s, where the log has made u of it and given the record this sequence number, if any: the
latest-table entry of the outcome's slot, and the grant that follows; everything else is as in u. -/
structure State.Completes (s t u : State) (o : Outcome) (seq : Option Seq) : Prop where
  rest : t = { u with latest := t.latest, slots := t.slots, unit := t.unit }
  entry : t.latest[o.slot] = some ⟨seq, o.record⟩
  others : ∀ m : SlotId, m ≠ o.slot → t.latest[m] = s.latest[m]
  grants : s.GrantsNext t u.slot

theorem exec_serviceCompletion_serving {s u : State} {v : Service} {seq : Option Seq} (hv : s.unit.service = some v)
    (ho : s.offerRecord v.outcome.record = (u, seq)) :
    ∃ t, exec .serviceCompletion s = .next t ∧ s.Completes t u v.outcome seq := by
  have hrest := s.offerRecord_rest v.outcome.record
  rw [ho] at hrest
  change u = { s with log := u.log, ports := u.ports, slots := u.slots } at hrest
  let w : State := { u with
    latest := u.latest.set v.outcome.slot (some ⟨seq, v.outcome.record⟩), unit := ⟨none, u.unit.lastGranted⟩ }
  have hexec : exec .serviceCompletion s = .next w.grant := by
    show execServiceCompletion s = _
    unfold execServiceCompletion
    rw [hv]
    dsimp only
    rw [ho]
    rfl
  have hlatest : w.grant.latest = u.latest.set v.outcome.slot (some ⟨seq, v.outcome.record⟩) := by rw [w.grant_rest]
  refine ⟨w.grant, hexec, ?_, ?_, fun m hm => ?_, ?_⟩
  · exact congrArg (fun z : State => { z with latest := w.grant.latest }) w.grant_rest
  · rw [hlatest]
    exact Vector.getElem_set_self _
  · rw [hlatest, show s.latest = u.latest by rw [hrest]]
    exact Vector.getElem_set_ne _ _ fun h => hm (Fin.ext h.symm)
  · have hunit : u.unit = s.unit := by rw [hrest]
    have htime : u.rawTime = s.rawTime := by rw [hrest]; rfl
    have hgrant : w.GrantsNext w.grant w.slot := State.grant_free rfl
    unfold State.GrantsNext at hgrant ⊢
    rw [← hunit, ← htime]
    exact hgrant

/-- A completion whose record the log has written, be it after room was made for it: the slots stand as in s when the grant
is made. -/
theorem State.Completes.written {s t left : State} {o : Outcome} {seq : Option Seq}
    (h : s.Completes t (left.writeRecord o.record) o seq)
    (hleft : left = { s with log := left.log, ports := left.ports }) :
    t = { s with log := t.log, latest := t.latest, ports := t.ports, slots := t.slots, unit := t.unit }
    ∧ s.GrantsNext t s.slot ∧ t.log = (left.writeRecord o.record).log
    ∧ ∀ p, t.port p = (left.writeRecord o.record).port p := by
  have hlog : t.log = (left.writeRecord o.record).log := by rw [h.rest]
  have hports : t.ports = (left.writeRecord o.record).ports := by rw [h.rest]
  have hslot : (left.writeRecord o.record).slot = s.slot := by
    show left.slot = _
    rw [hleft]
    rfl
  refine ⟨?_, hslot ▸ h.grants, hlog, fun p => by rw [State.port, hports]; rfl⟩
  have hrest := h.rest
  rw [State.writeRecord_rest, hleft] at hrest
  rw [hlog, hports]
  exact hrest

/-- Settles O41: the record written to a log with room. -/
theorem completionWritesRecord : Obligations.CompletionWritesRecord := by
  intro v s hv hroom
  dsimp only
  obtain ⟨t, hexec, hdone⟩ := exec_serviceCompletion_serving hv (State.offerRecord_room hroom _)
  obtain ⟨hrest, hgrants, hlog, hport⟩ := hdone.written rfl
  refine ⟨t, hexec, hrest, hlog.trans (s.writeRecord_log _), hdone.entry, hdone.others, hgrants, fun p => ?_⟩
  rw [hport, hlog]
  exact s.writeRecord_port _ p

/-- Settles O42: under OVERWRITE the record written after the forced retirement, under HOLD the record discarded. -/
theorem fullLogPolicies : Obligations.FullLogPolicies := by
  refine ⟨fun v oldest rest s hv hheld hfull hp => ?_, fun v s hv hfull hp => ?_⟩
  · dsimp only
    obtain ⟨t, hexec, hdone⟩ := exec_serviceCompletion_serving hv (State.offerRecord_overwrite hfull hp _)
    have hforced := State.forceRetire_eq hheld
    obtain ⟨hrest, hgrants, hlog, hport⟩ := hdone.written (by rw [hforced]; rfl)
    have hcharged : ∀ p, s.forceRetire.port p = if (s.port p).wants oldest = true then { s.port p with
        skipped := BitVec.ofNat 32 (min ((s.port p).skipped.toNat + 1) 4294967295)
        flags := (s.port p).flags ||| 0b0000010, cursor := oldest.seq + 1 } else s.port p :=
      State.forceRetire_port hheld
    have hretired : s.forceRetire.log = { s.log with held := rest } := by rw [hforced]; rfl
    refine ⟨t, hexec, hrest, ?_, hdone.entry, hdone.others, hgrants, fun p => ?_⟩
    · rw [hlog, State.writeRecord_log, hretired]
      simp only [hcharged]
    · have h := s.forceRetire.writeRecord_port v.outcome.record p
      rw [hport, hlog]
      rw [hcharged, hretired] at h
      exact h
  · obtain ⟨t, hexec, hdone⟩ := exec_serviceCompletion_serving hv (State.offerRecord_hold hfull hp _)
    refine ⟨t, hexec, hdone.rest, hdone.entry, hdone.others, ?_⟩
    rw [← funext (s.discardRecord_slot v.outcome)]
    exact hdone.grants

/-! ## The record of an outcome (R102 to R108, R110 to R112) -/

/-- A quotient rounded half up is at most half a unit from the exact one, an exact half rounded up (R105). -/
theorem roundHalfUp_nearest (a : Nat) {b : Nat} (hb : 0 < b) :
    2 * a < (2 * roundHalfUp a b + 1) * b ∧ (2 * roundHalfUp a b) * b ≤ 2 * a + b := by
  have hbelow : 2 * b * roundHalfUp a b ≤ 2 * a + b := Nat.mul_div_le (2 * a + b) (2 * b)
  have habove : 2 * a + b < 2 * b * (roundHalfUp a b + 1) := Nat.lt_mul_div_succ (2 * a + b) (by omega)
  constructor <;> linarith

theorem frequencyValue_eq (n t : Nat) : frequencyValue n t = (2 * n * 64000000000000000 + t) / (2 * t) := by
  unfold frequencyValue roundHalfUp
  rw [Nat.mul_assoc]

theorem periodValue_eq (n t : Nat) : periodValue n t = (2 * t * 15625 + n) / (2 * n) := by
  unfold periodValue roundHalfUp
  rw [Nat.mul_assoc]

section
variable {o : Outcome} {a b : Endpoint}

theorem Outcome.duration_valued (hr : o.result = .valued) (hk : o.kind ≠ .timetag) (ha : o.start = some a)
    (hb : o.stop = some b) : o.duration = some (b.time - a.time) := by
  unfold Outcome.duration
  rw [hr, ha, hb]
  cases h : o.kind with
  | timetag => exact absurd h hk
  | reciprocal | interval | totalize => rfl

theorem Outcome.edges_valued (hr : o.result = .valued) (hk : o.kind = .reciprocal ∨ o.kind = .totalize)
    (ha : o.start = some a) (hb : o.stop = some b) : o.edges = some (b.count - a.count) := by
  unfold Outcome.edges
  rcases hk with hk | hk <;> rw [hr, hk, ha, hb]

theorem Outcome.duration_none (h : o.result ≠ .valued ∨ o.kind = .timetag) : o.duration = none := by
  unfold Outcome.duration
  split
  · rfl
  · next hr _ _ hk => exact (h.elim (· hr) hk).elim
  · rfl

theorem Outcome.edges_none (h : o.result ≠ .valued ∨ o.kind ≠ .reciprocal ∧ o.kind ≠ .totalize) : o.edges = none := by
  unfold Outcome.edges
  split
  · next hr hk _ _ => exact (h.elim (· hr) fun hne => hne.1 hk).elim
  · next hr hk _ _ => exact (h.elim (· hr) fun hne => hne.2 hk).elim
  · rfl

/-- Without T and N there is no value. -/
theorem Outcome.value_none (hd : o.duration = none) (he : o.edges = none) : o.value = none := by
  unfold Outcome.value
  rw [hd, he]
  cases o.kind <;> rfl

/-- The value of RECIPROCAL is the frequency or the period, rounded half up (R106, R107). -/
theorem Outcome.value_reciprocal {t : Tick} {n : EdgeCount} (hk : o.kind = .reciprocal) (hd : o.duration = some t)
    (he : o.edges = some n) :
    (o.reportAs = .frequency →
      o.value = some (BitVec.ofNat 64 ((2 * n.toNat * 64000000000000000 + t.toNat) / (2 * t.toNat))))
    ∧ (o.reportAs = .period → o.value = some (BitVec.ofNat 64 ((2 * t.toNat * 15625 + n.toNat) / (2 * n.toNat)))) := by
  unfold Outcome.value
  rw [hk, hd, he, ← frequencyValue_eq, ← periodValue_eq]
  exact ⟨fun h => by rw [h], fun h => by rw [h]⟩

theorem Outcome.value_interval (hk : o.kind = .interval) : o.value = o.duration := by
  unfold Outcome.value
  rw [hk]
  cases o.duration <;> rfl

theorem Outcome.value_totalize (hk : o.kind = .totalize) {n : EdgeCount} (he : o.edges = some n) :
    o.value = some (n.setWidth 64) := by
  unfold Outcome.value
  rw [hk, he]

end

/-- Settles O40: the rounding, the latest-table entry, and the fields of the record kind by kind. -/
theorem completionRecordsOutcome : Obligations.CompletionRecordsOutcome := by
  refine ⟨fun a b hb => roundHalfUp_nearest a hb, fun n t _ => frequencyValue_eq n t, fun n t _ => periodValue_eq n t,
    fun v s hv hshape => ?_⟩
  obtain ⟨u, seq, ho⟩ : ∃ u seq, s.offerRecord v.outcome.record = (u, seq) := ⟨_, _, rfl⟩
  obtain ⟨t, hexec, hdone⟩ := exec_serviceCompletion_serving hv ho
  dsimp only
  refine ⟨t, _, hexec, hdone.entry, hdone.others, rfl, rfl, rfl, rfl, rfl, rfl, rfl, rfl, fun hn => ?_, rfl,
    fun a b ta tb hk hr ha hb => ?_, fun a b ta tb hk hr ha hb => ?_, fun ra rb ta tb ca cb hk hr ha hb => ?_, fun hn => ?_⟩
  · exact Option.not_isSome_iff_eq_none.1 fun h => let ⟨hr, hk⟩ := hshape.edgesSince.1 h; hn.elim (· hr) (· hk)
  · have hT := Outcome.duration_valued hr (by rw [hk]; decide) ha hb
    have hN := Outcome.edges_valued hr (.inl hk) ha hb
    exact ⟨hT, hN, Outcome.value_reciprocal hk hT hN⟩
  · have hT := Outcome.duration_valued hr (by rw [hk]; decide) ha hb
    exact ⟨hT, (Outcome.value_interval hk).trans hT, Outcome.edges_none (.inr (by rw [hk]; decide))⟩
  · have hT := Outcome.duration_valued hr (by rw [hk]; decide) ha hb
    have hN := Outcome.edges_valued hr (.inr hk) ha hb
    exact ⟨hT, hN, Outcome.value_totalize hk hN⟩
  · have hT := Outcome.duration_none hn
    have hN : v.outcome.edges = none := Outcome.edges_none (hn.imp_right fun hk => by rw [hk]; decide)
    have hstop : v.outcome.stop = none := Option.not_isSome_iff_eq_none.1 fun h =>
      let ⟨hr, hk⟩ := hshape.stop.1 h
      hn.elim (· hr) hk
    exact ⟨congrArg (Option.map Endpoint.scale) hstop, hN, hT, Outcome.value_none hT hN⟩

end Sys2Proof.Machine
end

section
/-! PROOFS. SUBSCRIBE, READ_RESULTS and SET_LOG, and the retirement check they share with the writing of records (R116,
R119 to R121, R127 to R134). -/

namespace Sys2Proof.Machine

/-! ## The policy (R127, R128) -/

section
variable {p : PortId} {g : Option Gen} {s : State}

theorem execSetLog_lacking (tag b : Byte) (g : Option Gen) (hr : ¬(s.port p).rights.getLsbD 0 = true) :
    execSetLog p tag g b s = .next (s.setPort p ((s.port p).answer .notPermitted tag 0x44 [])) := by
  unfold execSetLog
  rw [State.withRight_lacking tag _ ((permitted_measure rfl).trans (eq_false_of_ne_true hr))]
  rfl

/-- With the right and the generation passed, the policy's code alone decides (R128). -/
theorem execSetLog_passes (tag b : Byte) (hr : (s.port p).rights.getLsbD 0 = true) (hg : Passes g s.log.gen) :
    execSetLog p tag g b s = .next ((FullPolicy.ofCode b).elim (s.respond p tag .setLog .badValue []) fun pol =>
      (State.raiseOthers .change p { s with log := { s.log with policy := pol, gen := s.log.gen + 1 } }).respond
        p tag .setLog .ok (pol.code :: bytesBE 2 (s.log.gen + 1).toNat)) := by
  unfold execSetLog
  rw [State.withRight_held tag _ ((permitted_measure rfl).trans hr), generationMatches_of_passes hg]
  cases FullPolicy.ofCode b <;> rfl

theorem FullPolicy.ofCode_named {b : Byte} (h : b = 1 ∨ b = 2) :
    ∃ pol, FullPolicy.ofCode b = some pol ∧ pol = (if b = 1 then .overwrite else .hold) ∧ pol.code = b := by
  rcases h with rfl | rfl
  · exact ⟨.overwrite, rfl, rfl, rfl⟩
  · exact ⟨.hold, rfl, rfl, rfl⟩

theorem FullPolicy.ofCode_unnamed {b : Byte} (h : ¬(b = 1 ∨ b = 2)) : FullPolicy.ofCode b = none := by
  unfold FullPolicy.ofCode
  rw [if_neg fun e => h (.inl e), if_neg fun e => h (.inr e)]

end

/-- Settles O45: the right, then the generation, then the policy's code; the policy set last, with its notices. -/
theorem setLogSetsPolicy : Obligations.SetLogSetsPolicy := by
  intro p tag b g s
  refine ⟨execSetLog_lacking tag b g, fun hr hg => ?_, fun hr hg hb => ?_, fun hr hg hb => ?_⟩
  · cases g with
    | none => exact (hg (.inl rfl)).elim
    | some g' => exact execSetLog_stale tag b hr fun e => hg (.inr (congrArg some e))
  · refine (execSetLog_passes tag b hr hg).trans ?_
    rw [FullPolicy.ofCode_unnamed hb]
    rfl
  · obtain ⟨pol, hcode, hpol, hback⟩ := FullPolicy.ofCode_named hb
    refine ⟨_, execSetLog_passes tag b hr hg, ?_, ?_⟩ <;> rw [hcode, Option.elim_some]
    · rw [← hpol]; rfl
    · rw [hback]
      exact changeNoticed_of fun q => State.raiseOthers_port _ _ _ _

/-! ## The walk of READ_RESULTS on a legal log (R132, R133) -/

theorem Port.wants_iff (q : Port) (e : LogEntry) : q.wants e = true ↔
    q.subscription.getLsbD e.record.slot = true ∧ (e.seq - q.cursor).toNat < 2 ^ 31 := by
  unfold Port.wants seqAtOrBefore
  rw [Bool.and_eq_true, decide_eq_true_iff]

theorem clampCount_eq (k : Byte) : clampCount k = max 1 (min k.toNat 4) := by
  unfold clampCount Config.readMax
  split
  · omega
  · split <;> omega

theorem clampCount_ne (k : Byte) : clampCount k ≠ k.toNat ↔ k = 0 ∨ 4 < k.toNat := by
  have h0 : (0 : Byte).toNat = 0 := rfl
  rw [clampCount_eq, ← BitVec.toNat_inj, h0]
  omega

/-- The records of the subscription from the cursor on are those the port wants (R119, R133). -/
theorem State.LogLaws.wanted_eq {s : State} (h : s.LogLaws) (p : PortId) :
    ((s.log.held.dropWhile fun e => decide (e.seq ≠ (s.port p).cursor)).filter fun e =>
        (s.port p).subscription.getLsbD e.record.slot) =
      s.log.held.filter fun e => (s.port p).wants e := by
  rw [dropWhile_consecutive _ _ _ h.runs.consecutive h.runs.atMost512 (h.cursors p), List.filter_filter]
  rfl

/-- Four records of the largest size fit one payload, so that on a legal log the walk delivers the first k wanted records
and stops after the k-th, if there are so many (R133). -/
theorem State.LogLaws.walk_eq {s : State} (h : s.LogLaws) (p : PortId) {k : Nat} (h1 : 1 ≤ k) (h4 : k ≤ 4) :
    let wanted := s.log.held.filter fun e => (s.port p).wants e
    (s.port p).walk s.log k =
      (wanted.take k, if k ≤ wanted.length then (wanted.take k).getLast?.map fun e => e.seq + 1 else none) := by
  intro wanted
  have hshaped : ∀ e ∈ s.log.held.dropWhile fun e => decide (e.seq ≠ (s.port p).cursor), e.record.Shaped :=
    fun e he => h.records e ((List.dropWhile_sublist _).mem he)
  have hroom : 59 * k ≤ Config.payloadMax - 7 := by unfold Config.payloadMax; omega
  unfold Port.walk
  rw [walkLog_spec _ _ hshaped k _ h1 hroom, h.wanted_eq]

/-- Settles O44: the walk of a legal log, and the retirement check that follows the cursor moved past it. -/
theorem readResultsDelivers : Obligations.ReadResultsDelivers := by
  refine ⟨Port.wants_iff, fun p tag k s h => ?_⟩
  intro q limit wanted delivered cursor t
  have hwalk : q.walk s.log (clampCount k) = (delivered,
      if limit ≤ wanted.length then delivered.getLast?.map fun e => e.seq + 1 else none) := by
    rw [clampCount_eq]
    exact h.walk_eq p (by omega) (by omega)
  have hcursor : (q.walk s.log (clampCount k)).2.getD s.log.nextSeq = cursor := by
    rw [hwalk]
    exact apply_ite (Option.getD · s.log.nextSeq) _ _ _
  have hstatus : clampStatus (decide (clampCount k ≠ k.toNat)) = if k = 0 ∨ 4 < k.toNat then .clamped else .ok := by
    rw [decide_eq_decide.2 (clampCount_ne k), clampStatus_decide]
  show execReadResults p tag k s = _
  unfold execReadResults
  dsimp only
  rw [hcursor, hstatus, hwalk]
  rfl

/-! ## The retirement check (R120, R121) -/

theorem State.wantedByAny_eq_decide (s : State) (e : LogEntry) :
    s.wantedByAny e = decide (∃ p, (s.port p).wants e = true) :=
  Bool.eq_iff_iff.2 ((s.wantedByAny_iff e).trans decide_eq_true_iff.symm)

theorem State.retirementCheck_log (s : State) : s.retirementCheck.log =
    { s.log with held := s.log.held.dropWhile fun r => !decide (∃ p, (s.port p).wants r = true) } := by
  simp only [← State.wantedByAny_eq_decide]
  rfl

/-! ## SUBSCRIBE (R129, R130) -/

/-- A code of R180 for the change of a set names one of the three operations. -/
theorem setOperation_named {w : Nat} {op : Byte} (old carried : BitVec w) (h : op = 1 ∨ op = 2 ∨ op = 3) :
    setOperation op old carried =
      some (if op = 1 then old ||| carried else if op = 2 then old &&& ~~~carried else carried) := by
  rcases h with rfl | rfl | rfl <;> rfl

theorem setOperation_unnamed {w : Nat} {op : Byte} (old carried : BitVec w) (h : ¬(op = 1 ∨ op = 2 ∨ op = 3)) :
    setOperation op old carried = none := by
  unfold setOperation
  rw [if_neg fun e => h (.inl e), if_neg fun e => h (.inr (.inl e)), if_neg fun e => h (.inr (.inr e))]

theorem SubscribeStart.ofCode_named {b : Byte} (h : b = 0 ∨ b = 1 ∨ b = 2) :
    ∃ st, SubscribeStart.ofCode b = some st ∧ ∀ (l : Log) (c : Seq),
      startCursor l c st = if b = 0 then c else if b = 1 then l.oldestSeq else l.nextSeq := by
  rcases h with rfl | rfl | rfl
  · exact ⟨.absent, rfl, fun _ _ => rfl⟩
  · exact ⟨.fromOldest, rfl, fun _ _ => rfl⟩
  · exact ⟨.fromNext, rfl, fun _ _ => rfl⟩

theorem SubscribeStart.ofCode_unnamed {b : Byte} (h : ¬(b = 0 ∨ b = 1 ∨ b = 2)) : SubscribeStart.ofCode b = none := by
  unfold SubscribeStart.ofCode
  rw [if_neg fun e => h (.inl e), if_neg fun e => h (.inr (.inl e)), if_neg fun e => h (.inr (.inr e))]

theorem clampThreshold_eq (v : BitVec 16) : clampThreshold v = BitVec.ofNat 16 (max 1 (min v.toNat 512)) := by
  unfold clampThreshold
  split
  · next h => rw [h]; rfl
  · split
    · rw [Nat.min_eq_right (by omega)]; rfl
    · rw [Nat.min_eq_left (by omega), Nat.max_eq_right (by omega), BitVec.ofNat_toNat, BitVec.setWidth_eq]

theorem clampThreshold_ne (v : BitVec 16) : clampThreshold v ≠ v ↔ v = 0 ∨ 512 < v.toNat := by
  have h0 : (0 : BitVec 16).toNat = 0 := rfl
  rw [clampThreshold_eq, ne_eq, ← BitVec.toNat_inj, BitVec.toNat_ofNat, ← BitVec.toNat_inj, h0]
  omega

section
variable {p : PortId} {op start : Byte} {slots : BitVec 16} {s : State}

/-- A SUBSCRIBE whose operation and start are named changes the sending port, makes the retirement check and answers with
what the check left (R130). -/
theorem execSubscribe_named {sub : BitVec 16} {st : SubscribeStart} (tag : Byte) (th : Option (BitVec 16))
    (hop : setOperation op (s.port p).subscription slots = some sub) (hst : SubscribeStart.ofCode start = some st) :
    let t := (s.setPort p ((s.port p).subscribe s.log sub st th)).retirementCheck
    execSubscribe p tag slots op start th s = .next (t.setPort p ((t.port p).answer
      (clampStatus (th.elim false fun v => decide (clampThreshold v ≠ v))) tag 0x40
      (subscribePayload t.log (t.port p)))) := by
  unfold execSubscribe
  rw [hop, hst]
  rfl

theorem execSubscribe_refused (tag : Byte) (th : Option (BitVec 16))
    (h : setOperation op (s.port p).subscription slots = none ∨ SubscribeStart.ofCode start = none) :
    execSubscribe p tag slots op start th s = .next (s.setPort p ((s.port p).answer .badValue tag 0x40 [])) := by
  unfold execSubscribe
  rcases h with h | h
  · rw [h]; rfl
  · rw [h]; cases setOperation op (s.port p).subscription slots <;> rfl

end

/-- Settles O43: the retirement check, and SUBSCRIBE by the codes of its operation and start. -/
theorem subscribeChangesOwnReading : Obligations.SubscribeChangesOwnReading := by
  refine ⟨fun l => ?_, fun s => ⟨s.retirementCheck_rest, s.retirementCheck_log, fun p => ?_⟩,
    fun p tag op start slots th s => ⟨fun hop hst => ?_, fun h => ?_⟩⟩
  · unfold Log.oldestSeq
    cases l.held <;> rfl
  · exact (s.retirementCheck_port p).trans (Port.dragCursor_eq_dragged _ _)
  · obtain ⟨st, hcode, hcursor⟩ := SubscribeStart.ofCode_named hst
    refine (execSubscribe_named tag th (setOperation_named _ _ hop) hcode).trans ?_
    unfold Port.subscribe subscribePayload
    rw [hcursor]
    cases th with
    | none => rfl
    | some v =>
      dsimp only [Option.elim_some]
      rw [decide_eq_decide.2 (clampThreshold_ne v), clampStatus_decide, clampThreshold_eq]
      rfl
  · refine execSubscribe_refused tag th ?_
    rcases not_and_or.1 h with h | h
    · exact .inl (setOperation_unnamed _ _ h)
    · exact .inr (SubscribeStart.ofCode_unnamed h)

end Sys2Proof.Machine
end

section
/-! PROOFS. Requests read back from their payloads: what a port takes for a request is what a controller sends for it (R155,
R178, R182 to R184). -/

namespace Sys2Proof.Machine

/-! ## Numbers -/

theorem natOfBytes_lt (bs : List Byte) : natOfBytes bs < 256 ^ bs.length := by
  induction bs with
  | nil => exact Nat.one_pos
  | cons b rest ih =>
    rw [natOfBytes_cons, List.length_cons, pow_succ]
    have := b.isLt
    nlinarith

/-- As many bytes with the same number are the same bytes. -/
theorem natOfBytes_inj {bs cs : List Byte} (hl : bs.length = cs.length) (h : natOfBytes bs = natOfBytes cs) : bs = cs := by
  induction bs generalizing cs with
  | nil => exact (List.length_eq_zero_iff.1 hl.symm).symm
  | cons b rest ih =>
    cases cs with
    | nil => cases hl
    | cons c rest' =>
      have hl' : rest.length = rest'.length := Nat.succ.inj hl
      have first : ∀ (a : Byte) (r : List Byte), natOfBytes (a :: r) / 256 ^ r.length = a.toNat := fun a r => by
        rw [natOfBytes_cons, Nat.mul_comm, Nat.mul_add_div (Nat.pow_pos (by decide)), Nat.div_eq_of_lt (natOfBytes_lt r),
          Nat.add_zero]
      have hb : b = c := by
        refine BitVec.eq_of_toNat_eq ?_
        rw [← first b rest, ← first c rest', h, hl']
      subst hb
      rw [natOfBytes_cons, natOfBytes_cons, hl', Nat.add_left_cancel_iff] at h
      rw [ih hl' h]

/-- Bytes are those of the number they hold, at the width of its field. -/
theorem bytesBE_natOfBytes {w n : Nat} {bs : List Byte} (hn : bs.length = n) (hw : w = 8 * n) :
    bytesBE n (BitVec.ofNat w (natOfBytes bs)).toNat = bs := by
  have hpow : (2 : Nat) ^ w = 256 ^ bs.length := by rw [hw, hn, pow_mul]; norm_num
  refine natOfBytes_inj (by rw [bytesBE_length, hn]) ?_
  rw [natOfBytes_bytesBE, BitVec.toNat_ofNat, hpow, ← hn, Nat.mod_mod, Nat.mod_eq_of_lt (natOfBytes_lt bs)]

/-- Two bytes, joined to a number of 16 bits, are its bytes. -/
theorem bytesBE_append (h l : Byte) : bytesBE 2 (h ++ l).toNat = [h, l] := by
  have e : natOfBytes [h, l] = (h ++ l).toNat := by
    rw [BitVec.toNat_append, ← Nat.shiftLeft_add_eq_or_of_lt l.isLt, Nat.shiftLeft_eq]
    simp [natOfBytes]
  have hread := bytesBE_natOfBytes (w := 16) (n := 2) (bs := [h, l]) rfl rfl
  rwa [e, BitVec.ofNat_toNat, BitVec.setWidth_eq] at hread

/-! ## Conditions (R182) -/

theorem parseCondition_eq_some {bs rest : List Byte} {g : Option Gen} (h : parseCondition bs = some (g, rest)) :
    bs = conditionBytes g ++ rest := by
  unfold parseCondition at h
  split at h
  · next c tail =>
    split at h
    · next hc => cases h; rw [hc]; rfl
    · split at h
      · next hc =>
        split at h
        · next h l _ => cases h; rw [hc, conditionBytes, bytesBE_append]; rfl
        · cases h
      · cases h
  · cases h

/-! ## Items (R183, R184) -/

theorem valueSize_none {b : Byte} (h : valueSize b = none) : isFieldIdentifier b = false := by
  revert b; decide

theorem valueSize_eight {b : Byte} (h : valueSize b = some 8) : b = 6 ∨ b = 7 ∨ b = 12 := by
  revert b; decide

theorem valueSize_four {b : Byte} (h : valueSize b = some 4) : b = 8 ∨ b = 9 := by
  revert b; decide

theorem valueSize_one {b : Byte} (h : valueSize b = some 1) :
    b = 1 ∨ b = 2 ∨ b = 3 ∨ b = 4 ∨ b = 5 ∨ b = 10 ∨ b = 11 ∨ b = 13 ∨ b = 14 ∨ b = 15 ∨ b = 16 := by
  revert b; decide

theorem valueSize_cases {b : Byte} {n : Nat} (h : valueSize b = some n) : n = 8 ∨ n = 4 ∨ n = 1 := by
  have hsizes : valueSize b = none ∨ valueSize b = some 8 ∨ valueSize b = some 4 ∨ valueSize b = some 1 := by
    clear h; revert b; decide
  rw [h] at hsizes
  simpa using hsizes

/-- The item of an identifier that names a field is a known one, and its bytes are the identifier and the value. -/
theorem itemBytes_itemOf {b : Byte} {n : Nat} {value : List Byte} (h : valueSize b = some n) (hn : value.length = n) :
    (itemOf b value).isKnown = true ∧ itemBytes (itemOf b value) = b :: value := by
  rcases valueSize_cases h with rfl | rfl | rfl
  · have hv := bytesBE_natOfBytes (w := 64) hn rfl
    rcases valueSize_eight h with rfl | rfl | rfl <;> exact ⟨rfl, congrArg _ hv⟩
  · have hv := bytesBE_natOfBytes (w := 32) hn rfl
    rcases valueSize_four h with rfl | rfl <;> exact ⟨rfl, congrArg _ hv⟩
  · obtain ⟨v, rfl⟩ := List.length_eq_one_iff.1 hn
    have hv : BitVec.ofNat 8 (natOfBytes [v]) = v := by simp [natOfBytes]
    rcases valueSize_one h with rfl | rfl | rfl | rfl | rfl | rfl | rfl | rfl | rfl | rfl | rfl <;>
      exact ⟨rfl, congrArg (fun x => [_, x]) hv⟩

theorem PlanItem.wf_of_isKnown {x : PlanItem} (h : x.isKnown = true) : x.wf = true := by
  cases x with
  | unknown => cases h
  | _ => rfl

theorem unknownOnlyLast_cons {x : PlanItem} {items : List PlanItem} (hx : x.isKnown = true)
    (h : unknownOnlyLast items = true) : unknownOnlyLast (x :: items) = true := by
  cases items with
  | nil => rfl
  | cons y rest => exact Bool.and_eq_true_iff.2 ⟨hx, h⟩

/-- The items a port divides a list into are well formed, and their bytes are the list. -/
theorem divideItems_eq_some {fuel : Nat} {bs : List Byte} {items : List PlanItem} (h : divideItems fuel bs = some items) :
    items.flatMap itemBytes = bs ∧ items.all PlanItem.wf = true ∧ unknownOnlyLast items = true := by
  induction fuel generalizing bs items with
  | zero =>
    cases bs with
    | nil => cases h; exact ⟨rfl, rfl, rfl⟩
    | cons => cases h
  | succ fuel ih =>
    cases bs with
    | nil => cases h; exact ⟨rfl, rfl, rfl⟩
    | cons b rest =>
      rw [divideItems] at h
      split at h
      · next hb =>
        cases h
        refine ⟨by simp [itemBytes], ?_, rfl⟩
        simp [PlanItem.wf, valueSize_none hb]
      · next n hb =>
        split at h
        · cases h
        · next hlen =>
          obtain ⟨tail, htail, rfl⟩ := Option.map_eq_some_iff.1 h
          obtain ⟨hbytes, hwf, hlast⟩ := ih htail
          obtain ⟨hknown, hitem⟩ := itemBytes_itemOf hb (List.length_take_of_le (Nat.le_of_not_lt hlen))
          refine ⟨?_, ?_, unknownOnlyLast_cons hknown hlast⟩
          · rw [List.flatMap_cons, hitem, hbytes, List.cons_append, List.take_append_drop]
          · rw [List.all_cons, PlanItem.wf_of_isKnown hknown, hwf]; rfl

/-! ## Requests (R155, R182) -/

theorem writePlanPayload_length (n : Byte) (g : Option Gen) (items : List PlanItem) :
    (n :: (conditionBytes g ++ items.flatMap itemBytes)).length = writePlanHead g + itemsSize items := by
  rw [List.length_cons, List.length_append, items_length]
  cases g with
  | none => show 1 + _ + 1 = 2 + _; omega
  | some v => show 3 + _ + 1 = 4 + _; omega

/-- SET_TIME and STEP_TIME take a condition and a number of 64 bits (R182). -/
theorem conditionNumber_eq_some {payload : List Byte} {make : Option Gen → BitVec 64 → Instr} {i : Instr}
    (h : (match parseCondition payload with
      | some (g, rest) => if rest.length = 8 then some (make g (BitVec.ofNat 64 (natOfBytes rest))) else none
      | none => none) = some i) : ∃ g v, i = make g v ∧ payload = conditionBytes g ++ bytesBE 8 v.toNat := by
  split at h
  · next g rest hc =>
    split at h
    · next hlen =>
      cases h
      exact ⟨g, _, rfl, by rw [bytesBE_natOfBytes hlen rfl, parseCondition_eq_some hc]⟩
    · cases h
  · cases h

/-- A payload taken for a request is the one a controller sends for it, and the request is one it can form. -/
theorem parseRequest_eq_some {p : PortId} {tag : Byte} {c : Command} {payload : List Byte} {i : Instr}
    (h : parseRequest p tag c payload = some i) :
    requestParts i = some (p, tag, c, payload) ∧ (payload.length ≤ 250 → i.wf = true) := by
  cases c with
  | null | portReset | readAttention | readTime | logStatus | resetMeasurement =>
    match payload, h with
    | [], h => cases h; exact ⟨rfl, fun _ => rfl⟩
    | _ :: _, h => cases h
  | readInput | calibrate | readPlan | arm | stop | readResults | latest =>
    match payload, h with
    | [b], h => cases h; exact ⟨rfl, fun _ => rfl⟩
    | [], h => cases h
    | _ :: _ :: _, h => cases h
  | setAttention =>
    match payload, h with
    | [op, flags], h => cases h; exact ⟨rfl, fun _ => rfl⟩
    | [], h => cases h
    | [_], h => cases h
    | _ :: _ :: _ :: _, h => cases h
  | setTime =>
    obtain ⟨g, v, rfl, rfl⟩ := conditionNumber_eq_some (make := .setTime p tag) h
    exact ⟨rfl, fun _ => rfl⟩
  | stepTime =>
    obtain ⟨g, v, rfl, rfl⟩ := conditionNumber_eq_some (make := .stepTime p tag) h
    exact ⟨rfl, fun _ => rfl⟩
  | setInput =>
    match payload, h with
    | [], h => cases h
    | b :: body, h =>
      change (match parseCondition body with
        | some (g, [src, w1, w0, k1, k0, mode]) => some (Instr.setInput p tag b g src (w1 ++ w0) (k1 ++ k0) mode)
        | _ => none) = some i at h
      split at h
      · next g src w1 w0 k1 k0 mode hc =>
        cases h
        rw [requestParts, bytesBE_append, bytesBE_append, parseCondition_eq_some hc]
        exact ⟨rfl, fun _ => rfl⟩
      · cases h
  | writePlan =>
    match payload, h with
    | [], h => cases h
    | b :: body, h =>
      change (match parseCondition body with
        | some (g, rest) => (parseItems rest).map (Instr.writePlan p tag b g ·)
        | none => none) = some i at h
      split at h
      · next g rest hc =>
        obtain ⟨items, hitems, rfl⟩ := Option.map_eq_some_iff.1 h
        obtain ⟨hbytes, hwf, hlast⟩ := divideItems_eq_some hitems
        rw [parseCondition_eq_some hc, ← hbytes]
        refine ⟨rfl, fun hlen => ?_⟩
        have hfits : writePlanHead g + itemsSize items ≤ Config.payloadMax := writePlanPayload_length b g items ▸ hlen
        rw [Instr.wf, hwf, hlast, decide_eq_true hfits]
        rfl
      · cases h
  | subscribe =>
    match payload, h with
    | [m1, m0, op, start], h =>
      cases h
      exact ⟨by rw [requestParts, bytesBE_append]; rfl, fun _ => rfl⟩
    | [m1, m0, op, start, t1, t0], h =>
      cases h
      exact ⟨by rw [requestParts, bytesBE_append, Option.elim_some, bytesBE_append]; rfl, fun _ => rfl⟩
    | [], h => cases h
    | [_], h => cases h
    | [_, _], h => cases h
    | [_, _, _], h => cases h
    | [_, _, _, _, _], h => cases h
    | _ :: _ :: _ :: _ :: _ :: _ :: _ :: _, h => cases h
  | setLog =>
    change (match parseCondition payload with
      | some (g, [policy]) => some (Instr.setLog p tag g policy)
      | _ => none) = some i at h
    split at h
    · next g policy hc =>
      cases h
      rw [requestParts, parseCondition_eq_some hc]
      exact ⟨rfl, fun _ => rfl⟩
    · cases h

section
open Sys2Proof.Laws

/-- The round trip of every command. -/
theorem request_roundTrip (i : Instr) : RequestRoundTrip.Statement i := by
  cases i
  exacts [RequestRoundTrip.deviceReset _ _ _, RequestRoundTrip.referenceEdge, RequestRoundTrip.referenceAbsent,
    RequestRoundTrip.referenceLock, RequestRoundTrip.horizonStart, RequestRoundTrip.horizonRefChange,
    RequestRoundTrip.selectionStart _, RequestRoundTrip.selectionEnd _ _, RequestRoundTrip.preparationEnd _,
    RequestRoundTrip.null _ _, RequestRoundTrip.portReset _ _, RequestRoundTrip.readAttention _ _,
    RequestRoundTrip.setAttention _ _ _ _, RequestRoundTrip.readTime _ _, RequestRoundTrip.setTime _ _ _ _,
    RequestRoundTrip.stepTime _ _ _ _, RequestRoundTrip.readInput _ _ _, RequestRoundTrip.setInput _ _ _ _ _ _ _ _,
    RequestRoundTrip.calibrate _ _ _, RequestRoundTrip.readPlan _ _ _, RequestRoundTrip.writePlan _ _ _ _ _,
    RequestRoundTrip.arm _ _ _, RequestRoundTrip.stop _ _ _, RequestRoundTrip.subscribe _ _ _ _ _ _,
    RequestRoundTrip.readResults _ _ _, RequestRoundTrip.latest _ _ _, RequestRoundTrip.logStatus _ _,
    RequestRoundTrip.setLog _ _ _ _, RequestRoundTrip.resetMeasurement _ _, RequestRoundTrip.inputLevelChange _ _ _ _,
    RequestRoundTrip.windowEndQualification _, RequestRoundTrip.deadTimeEnd _, RequestRoundTrip.calibrationHit _ _,
    RequestRoundTrip.stampOffer _, RequestRoundTrip.immediateArmInstant _, RequestRoundTrip.atTimeArming _,
    RequestRoundTrip.gateClose _, RequestRoundTrip.deadlineExpiry _, RequestRoundTrip.totalizeGateOpen _,
    RequestRoundTrip.totalizeGateClose _, RequestRoundTrip.serviceCompletion]

end

/-- What a port takes for a request is exactly the well-formed request whose payload it is. -/
theorem parseRequest_iff {p : PortId} {tag : Byte} {c : Command} {payload : List Byte} (hlen : payload.length ≤ 250)
    (i : Instr) :
    parseRequest p tag c payload = some i ↔ i.wf = true ∧ requestParts i = some (p, tag, c, payload) := by
  constructor
  · intro h
    obtain ⟨hparts, hwf⟩ := parseRequest_eq_some h
    exact ⟨hwf hlen, hparts⟩
  · rintro ⟨hwf, hparts⟩
    exact (request_roundTrip i p tag c payload hwf hparts).2

end Sys2Proof.Machine
end

section
/-! PROOFS. What each command leaves of a port's link and rights, and every step keeps the laws of the link states (R143,
R153, R156, R164). -/

namespace Sys2Proof.Machine

/-! ## What sets attention flags alone -/

/-- What sets attention flags and changes nothing else of any port. -/
def State.FlagsRaised (s t : State) : Prop := ∀ p, FlagsOnly (s.port p) (t.port p)

section
variable {s t u : State}

theorem State.FlagsRaised.trans (h : s.FlagsRaised t) (k : t.FlagsRaised u) : s.FlagsRaised u :=
  fun p => (h p).trans (k p)

theorem State.FlagsRaised.of_ports (h : t.ports = s.ports) : s.FlagsRaised t := fun p => by
  rw [State.port_eq, State.port_eq, h]
  exact .refl _

theorem State.raise_flagsRaised (s : State) (f : Flag) (who : PortId → Bool) : s.FlagsRaised (s.raise f who) := fun p => by
  rw [State.port_raise]
  split
  · exact Port.setFlag_flagsOnly _ _
  · exact .refl _

/-- The engine's own work sets DONE flags alone. -/
theorem EngineFrame.flagsRaised (h : EngineFrame s t) : s.FlagsRaised t := fun p => (h.ports p).flagsOnly

theorem State.setSlot_event_flagsRaised (s : State) (n : SlotId) (x : Slot) : s.FlagsRaised (s.setSlot n x).conclude :=
  State.FlagsRaised.trans (t := s.setSlot n x) (.of_ports rfl) (State.conclude_engine _).flagsRaised

theorem State.setSlot_finish_flagsRaised (s : State) (n : SlotId) (x : Slot) (e : Finish) :
    s.FlagsRaised ((s.setSlot n x).announce n e).conclude :=
  State.FlagsRaised.trans (t := s.setSlot n x) (.of_ports rfl)
    ((State.announce_engine _ n e).trans (State.conclude_engine _)).flagsRaised

/-! ## The input channels set CAL alone (R45, R46) -/

theorem State.hit_flagsRaised (s : State) (i : InputId) (c : Code) : s.FlagsRaised (s.hit i c) := by
  unfold State.hit
  dsimp only
  split
  · exact State.FlagsRaised.trans (t := s.setInput i _) (.of_ports rfl) (State.raise_flagsRaised _ _ _)
  · exact .of_ports rfl

theorem State.qualify_flagsRaised (s : State) (i : InputId) (k : Candidate) : s.FlagsRaised (s.qualify i k) := by
  unfold State.qualify
  dsimp only
  split
  · exact .of_ports rfl
  · have hstamped : ∀ x l, s.FlagsRaised { s.setInput i x with stamps := l } := fun _ _ => .of_ports rfl
    split
    · exact (hstamped _ _).trans (State.hit_flagsRaised _ _ _)
    · exact hstamped _ _

theorem State.settleWindow_flagsRaised (s : State) (i : InputId) : s.FlagsRaised (s.settleWindow i) := by
  unfold State.settleWindow
  split
  · exact .of_ports rfl
  · split
    · exact s.qualify_flagsRaised i _
    · exact .of_ports rfl

theorem State.judgeChange_flagsRaised (s : State) (i : InputId) (l : Level) (t : Tick) (k : Option Capture) :
    s.FlagsRaised (s.judgeChange i l t k) := by
  unfold State.judgeChange
  dsimp only
  split
  · exact .of_ports rfl
  · split
    · exact s.qualify_flagsRaised i _
    · exact .of_ports rfl

theorem State.levelChange_flagsRaised (s : State) (i : InputId) (l : Level) (c : Code) :
    s.FlagsRaised (s.levelChange i l c) := by
  have hwindow := s.settleWindow_flagsRaised i
  unfold State.levelChange
  dsimp only
  split
  · exact hwindow
  · split
    · have hblocked : s.FlagsRaised ((s.settleWindow i).block i) := hwindow.trans (.of_ports rfl)
      exact hblocked.trans (State.judgeChange_flagsRaised _ _ _ _ _)
    · exact hwindow.trans (State.judgeChange_flagsRaised _ _ _ _ _)

theorem State.switchLevel_flagsRaised (s : State) (i : InputId) (l : Level) : s.FlagsRaised (s.switchLevel i l) := by
  have hwindow := s.settleWindow_flagsRaised i
  unfold State.switchLevel
  dsimp only
  split
  · exact hwindow
  · exact hwindow.trans (State.judgeChange_flagsRaised _ _ _ _ _)

theorem State.applySettings_flagsRaised (s : State) (p : PortId) (i : InputId) (new : Settings) :
    s.FlagsRaised (s.applySettings p i new) := by
  have hstored : s.FlagsRaised (s.setInput i ((s.input i).stored new)) := .of_ports rfl
  refine State.FlagsRaised.trans ?_ (State.raise_flagsRaised _ .change _)
  split
  · exact hstored
  · exact hstored.trans (State.switchLevel_flagsRaised _ _ _)

end

/-! ## What a command that is no row of a link leaves of a port -/

/-- What leaves a port's link, the request on its way and its rights, and takes no response away. -/
structure Port.LinkKept (q r : Port) : Prop where
  link : r.link = q.link
  prepared : r.prepared = q.prepared
  arriving : r.arriving = q.arriving
  ignoring : r.ignoring = q.ignoring
  rights : r.rights = q.rights
  response : q.response.isSome = true → r.response.isSome = true

/-- What leaves every port's link so. -/
def State.LinksKept (s t : State) : Prop := ∀ p, (s.port p).LinkKept (t.port p)

/-- What leaves every port's link so and gives port p a response. -/
def State.AnswersAt (s : State) (p : PortId) (t : State) : Prop :=
  s.LinksKept t ∧ (t.port p).response.isSome = true

theorem Port.LinkKept.refl (q : Port) : q.LinkKept q := ⟨rfl, rfl, rfl, rfl, rfl, id⟩

theorem FlagsOnly.linkKept {q r : Port} (h : FlagsOnly q r) : q.LinkKept r := by
  rw [h.rest]
  exact ⟨rfl, rfl, rfl, rfl, rfl, id⟩

section
variable {s t u : State} {p : PortId}

theorem State.LinksKept.trans (h : s.LinksKept t) (k : t.LinksKept u) : s.LinksKept u := fun p =>
  ⟨(k p).link.trans (h p).link, (k p).prepared.trans (h p).prepared, (k p).arriving.trans (h p).arriving,
    (k p).ignoring.trans (h p).ignoring, (k p).rights.trans (h p).rights, (k p).response ∘ (h p).response⟩

theorem State.LinksKept.refl (s : State) : s.LinksKept s := fun _ => .refl _

theorem State.LinksKept.of_ports (h : t.ports = s.ports) : s.LinksKept t := fun p => by
  rw [State.port_eq, State.port_eq, h]
  exact .refl _

theorem State.FlagsRaised.linksKept (h : s.FlagsRaised t) : s.LinksKept t := fun p => (h p).linkKept

theorem State.setPort_linksKept {q : Port} (h : (s.port p).LinkKept q) : s.LinksKept (s.setPort p q) := fun r => by
  rw [State.port_setPort]
  split
  · next e => exact e ▸ h
  · exact .refl _

theorem State.mapPorts_linksKept {f : Port → Port} (h : ∀ q : Port, q.LinkKept (f q)) :
    s.LinksKept (s.mapPorts f) := fun p => by
  rw [State.port_mapPorts]
  exact h _

theorem State.setSlot_grant_linksKept (s : State) (n : SlotId) (x : Slot) : s.LinksKept (s.setSlot n x).grant :=
  .of_ports (State.grant_ports (s.setSlot n x))

theorem State.retirementCheck_linksKept (s : State) : s.LinksKept s.retirementCheck := fun p => by
  rw [State.retirementCheck_port]
  exact ⟨rfl, rfl, rfl, rfl, rfl, id⟩

theorem State.writeRecord_linksKept (s : State) (r : Record) : s.LinksKept (s.writeRecord r) := by
  let pushed : State :=
    { s with log := { s.log with held := s.log.held ++ [⟨s.log.nextSeq, r⟩], nextSeq := s.log.nextSeq + 1 } }
  have hpushed : s.LinksKept pushed := .of_ports rfl
  exact (hpushed.trans pushed.retirementCheck_linksKept).trans (State.raise_flagsRaised _ .results _).linksKept

theorem State.forceRetire_linksKept (s : State) : s.LinksKept s.forceRetire := by
  unfold State.forceRetire
  split
  · exact .refl s
  · next e rest _ =>
    have hremoved : s.LinksKept { s with log := { s.log with held := rest } } := .of_ports rfl
    refine hremoved.trans (State.mapPorts_linksKept fun q => ?_)
    unfold Port.charge
    split
    · exact ⟨rfl, rfl, rfl, rfl, rfl, id⟩
    · exact .refl q

theorem State.offerRecord_linksKept (s : State) (r : Record) : s.LinksKept (s.offerRecord r).1 := by
  unfold State.offerRecord
  split
  · exact s.writeRecord_linksKept r
  · split
    · exact s.forceRetire_linksKept.trans (State.writeRecord_linksKept _ r)
    · exact .of_ports rfl

/-- An answer to port p after what leaves the links. -/
theorem State.LinksKept.respond (h : s.LinksKept t) (p : PortId) (tag : Byte) (c : Command) (st : Status)
    (bs : List Byte) : s.AnswersAt p (t.respond p tag c st bs) := by
  refine ⟨h.trans (State.setPort_linksKept ⟨rfl, rfl, rfl, rfl, rfl, fun _ => rfl⟩), ?_⟩
  rw [State.respond_eq, State.port_setPort, if_pos rfl]
  rfl

/-- An answer at once. -/
theorem State.respond_answersAt (s : State) (p : PortId) (tag : Byte) (c : Command) (st : Status) (bs : List Byte) :
    s.AnswersAt p (s.respond p tag c st bs) := (State.LinksKept.refl s).respond p tag c st bs

theorem State.withRight_answersAt {tag : Byte} {c : Command} {act : State → State} (h : s.AnswersAt p (act s)) :
    s.AnswersAt p (s.withRight p tag c act) :=
  State.withRight_cases (P := s.AnswersAt p) h (s.respond_answersAt p tag c _ _)

theorem State.applyOffset_answersAt (s : State) (p : PortId) (tag : Byte) (c : Command) (o : Tick) (f : Bool) :
    s.AnswersAt p (s.applyOffset p tag c o f) := by
  have hset : s.LinksKept { s with offset := o, timeGen := s.timeGen + 1 } := .of_ports rfl
  exact ((hset.trans (State.raise_flagsRaised _ .change _).linksKept).trans
    (State.notifyStep_engine _ _ _).flagsRaised.linksKept).respond _ _ _ _ _

end

/-- Every request is answered at its port, and leaves every port's link (R156). -/
theorem exec_answersAt {c : Instr} {p : PortId} {tag : Byte} {k : Command} {payload : List Byte}
    (h : requestParts c = some (p, tag, k, payload)) (s : State) : Answers (s.AnswersAt p) (exec c s) := by
  have hrespond := s.respond_answersAt
  cases c with
  | null | readTime | logStatus => cases h; exact .next (hrespond _ _ _ _ _)
  | portReset =>
    cases h
    refine .next ⟨(State.setPort_linksKept ?_).trans (State.retirementCheck_linksKept _), ?_⟩
    · exact ⟨rfl, rfl, rfl, rfl, rfl, fun _ => rfl⟩
    · rw [State.retirementCheck_port, State.port_setPort, if_pos rfl]; rfl
  | readAttention =>
    cases h
    have hset : ∀ flags, s.LinksKept (s.setPort p { s.port p with flags := flags }) := fun _ =>
      State.setPort_linksKept ⟨rfl, rfl, rfl, rfl, rfl, id⟩
    exact .next ((hset _).respond _ _ _ _ _)
  | setAttention _ _ operation flags =>
    cases h
    show Answers _ (execSetAttention p tag operation flags s)
    unfold execSetAttention
    have hset : ∀ mask, s.LinksKept (s.setPort p { s.port p with mask := mask }) := fun _ =>
      State.setPort_linksKept ⟨rfl, rfl, rfl, rfl, rfl, id⟩
    dsimp only
    split
    · exact .next ((hset _).respond _ _ _ _ _)
    · exact .next (hrespond _ _ _ _ _)
  | setTime | stepTime =>
    cases h
    refine .next (State.withRight_answersAt ?_)
    split
    · exact s.applyOffset_answersAt _ _ _ _ _
    · exact hrespond _ _ _ _ _
  | readInput _ _ input =>
    cases h
    show Answers _ (execReadInput p tag input s)
    unfold execReadInput
    split <;> exact .next (hrespond _ _ _ _ _)
  | setInput =>
    cases h
    refine .next (State.withRight_answersAt ?_)
    split
    · exact hrespond _ _ _ _ _
    · next i _ =>
      dsimp only
      split
      · exact hrespond _ _ _ _ _
      · split
        · exact hrespond _ _ _ _ _
        · split
          · exact (s.applySettings_flagsRaised _ i _).linksKept.respond _ _ _ _ _
          · exact hrespond _ _ _ _ _
  | calibrate =>
    cases h
    refine .next (State.withRight_answersAt ?_)
    split
    · exact hrespond _ _ _ _ _
    · next i _ =>
      dsimp only
      split
      · exact hrespond _ _ _ _ _
      · have hset : ∀ x, s.LinksKept (s.setInput i x) := fun _ => .of_ports rfl
        exact ((hset _).trans (State.raise_flagsRaised _ .change _).linksKept).respond _ _ _ _ _
  | readPlan _ _ slot =>
    cases h
    show Answers _ (execReadPlan p tag slot s)
    unfold execReadPlan
    split <;> exact .next (hrespond _ _ _ _ _)
  | writePlan =>
    cases h
    refine .next (State.withRight_answersAt ?_)
    split
    · exact hrespond _ _ _ _ _
    · next n _ =>
      split
      · exact hrespond _ _ _ _ _
      · exact ((s.setSlot_grant_linksKept n _).trans (State.raise_flagsRaised _ .change _).linksKept).respond _ _ _ _ _
  | arm =>
    cases h
    refine .next (State.withRight_answersAt ?_)
    split
    · exact hrespond _ _ _ _ _
    · next n _ =>
      dsimp only
      split
      · exact hrespond _ _ _ _ _
      · split
        · exact hrespond _ _ _ _ _
        · exact (s.setSlot_grant_linksKept n _).respond _ _ _ _ _
  | stop =>
    cases h
    refine .next (State.withRight_answersAt ?_)
    split
    · exact hrespond _ _ _ _ _
    · next n _ =>
      have hstopped : s.LinksKept (s.stopped n) := by
        unfold State.stopped
        dsimp only
        split
        · exact State.LinksKept.trans (t := s.setSlot n _) (.of_ports rfl) (State.raise_flagsRaised _ .done _).linksKept
        · exact .of_ports rfl
      exact (hstopped.trans (.of_ports (State.grant_ports _))).respond _ _ _ _ _
  | subscribe _ _ slots operation start threshold =>
    cases h
    show Answers _ (execSubscribe p tag slots operation start threshold s)
    unfold execSubscribe
    split
    · have hset : ∀ sub st, s.LinksKept (s.setPort p ((s.port p).subscribe s.log sub st threshold)) := fun _ _ =>
        State.setPort_linksKept ⟨rfl, rfl, rfl, rfl, rfl, id⟩
      exact .next (((hset _ _).trans (State.retirementCheck_linksKept _)).respond _ _ _ _ _)
    · exact .next (hrespond _ _ _ _ _)
  | readResults =>
    cases h
    have hset : ∀ cursor, s.LinksKept (s.setPort p { s.port p with cursor := cursor, skipped := 0 }) := fun _ =>
      State.setPort_linksKept ⟨rfl, rfl, rfl, rfl, rfl, id⟩
    exact .next (((hset _).trans (State.retirementCheck_linksKept _)).respond _ _ _ _ _)
  | latest _ _ slot =>
    cases h
    show Answers _ (execLatest p tag slot s)
    unfold execLatest
    split
    · exact .next (hrespond _ _ _ _ _)
    · split <;> exact .next (hrespond _ _ _ _ _)
  | setLog =>
    cases h
    refine .next (State.withRight_answersAt ?_)
    split
    · exact hrespond _ _ _ _ _
    · split
      · exact hrespond _ _ _ _ _
      · have hset : ∀ log, s.LinksKept { s with log := log } := fun _ => .of_ports rfl
        exact ((hset _).trans (State.raise_flagsRaised _ .change _).linksKept).respond _ _ _ _ _
  | resetMeasurement =>
    cases h
    refine .next (State.withRight_answersAt ?_)
    have hcleared : s.LinksKept s.measurementCleared := fun p => by
      rw [State.measurementCleared_port]
      exact .refl _
    have hmoved : s.LinksKept (s.measurementCleared.mapPorts fun q => { q with cursor := s.log.nextSeq }) :=
      hcleared.trans (State.mapPorts_linksKept fun q => ⟨rfl, rfl, rfl, rfl, rfl, id⟩)
    exact (hmoved.trans (State.raise_flagsRaised _ .change _).linksKept).respond _ _ _ _ _
  | _ => cases h

/-- The rows of the ports' links, and device reset. -/
def isLinkRow : Instr → Bool
  | .deviceReset .. | .selectionStart .. | .selectionEnd .. | .preparationEnd .. => true
  | _ => false

theorem State.changeRef_flagsRaised (s : State) (r : RefState) : s.FlagsRaised (s.changeRef r) :=
  State.FlagsRaised.trans (t := { s with refState := r, refChanges := s.refChanges ++ [⟨s.arrivalTime, r⟩] })
    (.of_ports rfl) (State.raise_flagsRaised _ _ _)

/-- Every event but those of the links sets attention flags alone, or leaves the links as it offers a record. -/
theorem exec_event_linksKept {c : Instr} (hreq : requestParts c = none) (hlink : isLinkRow c = false) (s : State) :
    Answers s.LinksKept (exec c s) := by
  have hrefl : s.LinksKept s := .refl s
  cases c with
  | referenceEdge => exact .next (.of_ports rfl)
  | referenceAbsent =>
    show Answers _ (execReferenceAbsent s)
    unfold execReferenceAbsent
    have habsent : s.LinksKept { s with refPresent := false, presenceTimer := 0 } := .of_ports rfl
    split
    · dsimp only
      split
      · exact .next (habsent.trans (State.changeRef_flagsRaised _ _).linksKept)
      · exact .next habsent
    · exact .next hrefl
  | referenceLock => exact .ite (fun _ => (s.changeRef_flagsRaised _).linksKept) hrefl
  | horizonStart => exact .ite (fun _ => .of_ports rfl) hrefl
  | horizonRefChange =>
    show Answers _ (execHorizonRefChange s)
    unfold execHorizonRefChange
    split
    · exact .next hrefl
    · split
      · dsimp only
        split
        · exact .next (.of_ports rfl)
        · exact .next (.of_ports (State.mapSlots_ports _ _))
      · exact .next hrefl
  | inputLevelChange i src level f =>
    show Answers _ (execInputLevelChange i src level f s)
    unfold execInputLevelChange
    have hpin : s.FlagsRaised (s.setInput i { s.input i with pinLevel := level }) := .of_ports rfl
    split
    · exact .ite (fun _ => (hpin.trans (State.levelChange_flagsRaised _ _ _ _)).linksKept) hpin.linksKept
    · exact .ite (fun _ => ((s.settleWindow_flagsRaised i).trans (State.levelChange_flagsRaised _ _ _ _)).linksKept) hrefl
  | windowEndQualification i => exact .next (s.settleWindow_flagsRaised i).linksKept
  | deadTimeEnd i =>
    show Answers _ (execDeadTimeEnd i s)
    unfold execDeadTimeEnd
    split
    · exact .next hrefl
    · exact .next (.of_ports rfl)
  | calibrationHit i f =>
    have hblocked : s.FlagsRaised (s.block i) := .of_ports rfl
    exact .ite (fun _ => (hblocked.trans (State.hit_flagsRaised _ _ _)).linksKept) hrefl
  | stampOffer i =>
    show Answers _ (execStampOffer i s)
    unfold execStampOffer
    split
    · exact .next hrefl
    · exact .next ((s.offer_engine _).trans (State.conclude_engine _)).flagsRaised.linksKept
  | immediateArmInstant n =>
    show Answers _ (execImmediateArmInstant n s)
    unfold execImmediateArmInstant
    split
    · exact .next hrefl
    · exact .next (s.setSlot_event_flagsRaised n _).linksKept
  | atTimeArming n => exact .ite (fun _ => (s.setSlot_event_flagsRaised n _).linksKept) hrefl
  | gateClose n => exact .ite (fun _ => (s.setSlot_event_flagsRaised n _).linksKept) hrefl
  | deadlineExpiry n => exact .ite (fun _ => (s.setSlot_finish_flagsRaised n _ _).linksKept) hrefl
  | totalizeGateOpen n =>
    show Answers _ (execTotalizeGateOpen n s)
    unfold execTotalizeGateOpen
    split
    · exact .next hrefl
    · exact .next (s.setSlot_event_flagsRaised n _).linksKept
  | totalizeGateClose n => exact .ite (fun _ => (s.setSlot_finish_flagsRaised n _ _).linksKept) hrefl
  | serviceCompletion =>
    show Answers _ (execServiceCompletion s)
    unfold execServiceCompletion
    split
    · exact .next hrefl
    · next v _ =>
      exact .next ((s.offerRecord_linksKept v.outcome.record).trans (.of_ports (State.grant_ports _)))
  | deviceReset | selectionStart | selectionEnd | preparationEnd => cases hlink
  | _ => cases hreq

/-- Every command but the rows of the links and device reset leaves every port's link. -/
theorem exec_linksKept {c : Instr} (h : isLinkRow c = false) (s : State) : Answers s.LinksKept (exec c s) := by
  cases hreq : requestParts c with
  | none => exact exec_event_linksKept hreq h s
  | some r =>
    obtain ⟨p, tag, k, payload⟩ := r
    exact fun t ht => (exec_answersAt hreq s t ht).1

end Sys2Proof.Machine
end

section
/-! PROOFS. Every step keeps the laws of the link states (R143, R156, R164), and a port's rights (R153). -/

namespace Sys2Proof.Machine

/-! ## The law of R143 at one port -/

section
variable {q r : Port} {p : PortId}

theorem Port.LinkLegal.arriving_none (h : q.LinkLegal p) (hs : q.link = .ready ∨ q.link = .selected) :
    q.arriving = none := (h.prepared (h.ready hs)).2

theorem Port.LinkLegal.kept (h : q.LinkLegal p) (k : q.LinkKept r) : r.LinkLegal p := by
  refine ⟨?_, fun hp => ?_, ?_, fun hp => ?_, ?_, ?_⟩
  · rw [k.link, k.prepared]; exact h.ready
  · rw [k.prepared] at hp
    exact ⟨k.response (h.prepared hp).1, k.arriving.trans (h.prepared hp).2⟩
  · rw [k.link, k.prepared]; exact h.preparing
  · rw [k.prepared] at hp
    rw [k.arriving]
    exact (h.waits hp).imp_left k.response
  · rw [k.arriving]; exact h.own
  · rw [k.ignoring, k.link]; exact h.ignores

/-- The request on its way is handed over and answered: its response is now what the port holds (R156). -/
theorem Port.LinkLegal.answered (h : q.LinkLegal p) (k : ({ q with arriving := none } : Port).LinkKept r)
    (ha : r.response.isSome = true) : r.LinkLegal p := by
  refine ⟨?_, fun _ => ⟨ha, k.arriving⟩, ?_, fun _ => .inl ha, fun a e => ?_, ?_⟩
  · rw [k.link, k.prepared]; exact h.ready
  · rw [k.link, k.prepared]; exact h.preparing
  · rw [k.arriving] at e; cases e
  · rw [k.ignoring, k.link]; exact h.ignores

/-- A port in PREPARING that has judged a frame: its own error response, or its request on the way (R150 to R156). -/
theorem Port.afterVerdict_linkLegal (v : Verdict) (arrival : Coarse) (hlink : q.link = .preparing)
    (hp : q.prepared = false) (ha : q.arriving = none) (hi : q.ignoring = false)
    (hown : ∀ i, v = .taken i → ∃ tag c payload, requestParts i = some (p, tag, c, payload)) :
    (q.afterVerdict arrival v).LinkLegal p := by
  have herror : ∀ resp flags bad, ({ q with response := some resp, flags := flags, badFrames := bad } : Port).LinkLegal p :=
    fun _ _ _ => ⟨fun hs => by simp [hlink] at hs, fun e => by simp [hp] at e, fun _ => hp, fun _ => .inl rfl,
      fun a e => by simp [ha] at e, fun e => by simp [hi] at e⟩
  cases v with
  | taken request =>
    refine ⟨fun hs => ?_, fun e => ?_, fun _ => hp, fun _ => .inr rfl, fun a e => ?_, fun e => ?_⟩
    · rcases hs with hs | hs <;> exact nomatch hlink.symm.trans hs
    · exact nomatch hp.symm.trans e
    · cases e; exact hown request rfl
    · exact nomatch hi.symm.trans e
  | tooLong | badFrame | unknownCommand | notPermitted | badPayload => exact herror _ _ _

/-- A frame that is taken is a request of the port that judges it (R147, R155). -/
theorem judgeFrame_taken {rights : BitVec 3} {bs : List Byte} {i : Instr} (h : judgeFrame p rights bs = .taken i) :
    ∃ tag c payload, requestParts i = some (p, tag, c, payload) := by
  unfold judgeFrame at h
  split at h
  · next command tag len rest =>
    split at h
    · cases h
    · split at h
      · cases h
      · dsimp only at h
        split at h
        · cases h
        · split at h
          · cases h
          · next c _ =>
            split at h
            · split at h
              · cases h
              · next hparse => cases h; exact ⟨_, _, _, (parseRequest_eq_some hparse).1⟩
            · cases h
  · cases h

theorem Port.LinkLegal.endSelected (h : q.LinkLegal p) (hs : q.link = .selected) (hi : q.ignoring = false) (now : Tick)
    (arrival : Coarse) (bits : List Bool) : (q.endSelected p now arrival bits).LinkLegal p := by
  unfold Port.endSelected
  dsimp only
  split
  · exact ⟨fun _ => h.ready (.inr hs), h.prepared, nofun, h.waits, h.own, fun _ => rfl⟩
  · exact Port.afterVerdict_linkLegal _ arrival rfl rfl (h.arriving_none (.inr hs)) hi fun _ => judgeFrame_taken

theorem Port.LinkLegal.endEarly (h : q.LinkLegal p) (hi : q.ignoring = false) (bits : List Bool) :
    (q.endEarly bits).LinkLegal p := by
  have hign : ∀ {P : Prop}, q.ignoring = true → P := fun e => nomatch hi.symm.trans e
  refine ⟨fun e => ?_, h.prepared, fun e => ?_, h.waits, h.own, hign⟩
  · show q.prepared = true
    by_contra hp
    simp [Port.endEarly, hp] at e
  · show q.prepared = false
    by_contra hp
    simp [Port.endEarly, hp] at e

end

/-! ## The law at every port -/

section
variable {s t : State}

theorem State.LinksLegal.kept (h : s.LinksLegal) (k : s.LinksKept t) : t.LinksLegal := fun p => (h p).kept (k p)

theorem State.LinksLegal.setPort (h : s.LinksLegal) {p : PortId} {q : Port} (hq : q.LinkLegal p) :
    (s.setPort p q).LinksLegal := fun r => by
  rw [State.port_setPort]
  split
  · next e => exact e ▸ hq
  · exact h r

theorem State.LinksLegal.exec_selectionStart (h : s.LinksLegal) (p : PortId) :
    Answers State.LinksLegal (execSelectionStart p s) := by
  unfold execSelectionStart
  dsimp only
  split
  · exact .next h
  · next hi =>
    have hign : ∀ {P : Prop}, (s.port p).ignoring = true → P := fun e => absurd e hi
    split
    · next hl =>
      exact .next (h.setPort ⟨fun _ => (h p).ready (.inl hl), (h p).prepared, nofun, (h p).waits, (h p).own, hign⟩)
    · exact .next (h.setPort ⟨nofun, (h p).prepared, nofun, (h p).waits, (h p).own, hign⟩)
    · exact .next h
    · exact .next h

theorem State.LinksLegal.exec_selectionEnd (h : s.LinksLegal) (p : PortId) (bits : List Bool) :
    Answers State.LinksLegal (execSelectionEnd p bits s) := by
  unfold execSelectionEnd
  dsimp only
  split
  · exact .next (h.setPort ⟨(h p).ready, (h p).prepared, (h p).preparing, (h p).waits, (h p).own, nofun⟩)
  · next hi =>
    rw [Bool.not_eq_true] at hi
    split
    · next hl => exact .next (h.setPort ((h p).endSelected hl hi _ _ bits))
    · exact .next (h.setPort ((h p).endEarly hi bits))
    · exact .next h
    · exact .next h

theorem State.LinksLegal.exec_preparationEnd (h : s.LinksLegal) (p : PortId) :
    Answers State.LinksLegal (execPreparationEnd p s) := by
  refine .ite (fun hcan => h.setPort ?_) h
  obtain ⟨hlink, harr, hresp⟩ := (Port.preparationCanEnd_iff _).1 hcan
  have hnew : (if (s.port p).link = .preparing then LinkState.ready else .early) ≠ .preparing := by
    split <;> nofun
  refine ⟨fun _ => rfl, fun _ => ⟨Option.isSome_iff_ne_none.2 hresp, harr⟩, fun e => absurd e hnew, nofun, (h p).own,
    fun e => ?_⟩
  have hready := (h p).ignores e
  rw [hready] at hlink
  rcases hlink with hl | ⟨hl, -⟩ <;> cases hl

theorem State.LinksLegal.exec (h : s.LinksLegal) (c : Instr) : Answers State.LinksLegal (exec c s) := by
  cases hc : isLinkRow c with
  | false => exact fun t ht => h.kept (exec_linksKept hc s t ht)
  | true =>
    cases c with
    | deviceReset => exact fun t ht => deviceReset_linksLegal ht
    | selectionStart p => exact h.exec_selectionStart p
    | selectionEnd p bits => exact h.exec_selectionEnd p bits
    | preparationEnd p => exact h.exec_preparationEnd p
    | _ => cases hc

/-- A request that its port hands over is answered there, so that no port is left without a response (R156). -/
theorem State.LinksLegal.handedOver (h : s.LinksLegal) {p : PortId} {a : Arrival} (ha : (s.port p).arriving = some a) :
    Answers State.LinksLegal (Machine.exec a.request (s.setPort p { s.port p with arriving := none })) := by
  obtain ⟨tag, c, payload, hown⟩ := (h p).own a ha
  intro t ht
  obtain ⟨hkept, hanswered⟩ := exec_answersAt hown _ t ht
  intro r
  have hr := hkept r
  rw [State.port_setPort] at hr
  split at hr
  · next e => subst e; exact (h p).answered hr hanswered
  · exact (h r).kept hr

end

/-- The request that arrives is the one that its port hands over. -/
theorem State.dueArrival_eq_some {s u : State} {c : Instr} (h : s.dueArrival = some (c, u)) :
    ∃ p a, (s.port p).arriving = some a ∧ c = a.request ∧ u = s.setPort p { s.port p with arriving := none } := by
  unfold State.dueArrival at h
  split at h
  · cases h
  · next p _ =>
    obtain ⟨a, ha, e⟩ := Option.map_eq_some_iff.1 h
    cases e
    exact ⟨p, a, ha, rfl, rfl⟩

/-- Settles O57: a command from the queue or of the part's own, a request handed over, and a tick. -/
theorem stepKeepsLinksLegal : Obligations.StepKeepsLinksLegal := by
  intro s t h hstep
  cases hp : s.pending with
  | cons c rest =>
    have hrest : State.LinksLegal { s with pending := rest } := h.kept (.of_ports rfl)
    unfold step at hstep
    rw [hp] at hstep
    exact hrest.exec c t hstep
  | nil =>
    cases he : s.dueEvent with
    | some c =>
      rw [step_dueEvent hp he] at hstep
      exact h.exec c t hstep
    | none =>
      cases ha : s.dueArrival with
      | some r =>
        rw [step_dueArrival hp he ha] at hstep
        obtain ⟨p, a, harr, hc, hu⟩ := State.dueArrival_eq_some ha
        rw [hc, hu] at hstep
        exact h.handedOver harr t hstep
      | none =>
        rw [step_tick hp he ha] at hstep
        cases hstep
        refine h.kept (.of_ports ?_)
        unfold State.advance
        split <;> rfl

/-! ## Rights (R153) -/

theorem Port.afterVerdict_rights (q : Port) (c : Coarse) (v : Verdict) : (q.afterVerdict c v).rights = q.rights := by
  cases v <;> rfl

theorem Port.endSelected_rights (q : Port) (p : PortId) (now : Tick) (c : Coarse) (bits : List Bool) :
    (q.endSelected p now c bits).rights = q.rights := by
  unfold Port.endSelected
  dsimp only
  split
  · rfl
  · exact Port.afterVerdict_rights _ _ _

theorem State.setPort_rights {s : State} {p : PortId} {q : Port} (h : q.rights = (s.port p).rights) (r : PortId) :
    ((s.setPort p q).port r).rights = (s.port r).rights := by
  rw [State.port_setPort]
  split
  · next e => rw [h, e]
  · rfl

/-- No command but device reset changes the rights of a port. -/
theorem exec_rights (c : Instr) (s : State) (p : PortId) (hreset : ∀ a b l, c ≠ .deviceReset a b l) :
    Answers (fun t => (t.port p).rights = (s.port p).rights) (exec c s) := by
  cases hc : isLinkRow c with
  | false => exact fun t ht => (exec_linksKept hc s t ht p).rights
  | true =>
    cases c with
    | deviceReset a b l => exact absurd rfl (hreset a b l)
    | selectionStart r =>
      show Answers _ (execSelectionStart r s)
      unfold execSelectionStart
      dsimp only
      split
      · exact .next rfl
      · split
        · exact .next (State.setPort_rights (by rfl) p)
        · exact .next (State.setPort_rights (by rfl) p)
        · exact .next rfl
        · exact .next rfl
    | selectionEnd r bits =>
      show Answers _ (execSelectionEnd r bits s)
      unfold execSelectionEnd
      dsimp only
      split
      · exact .next (State.setPort_rights (by rfl) p)
      · split
        · exact .next (State.setPort_rights (Port.endSelected_rights _ _ _ _ _) p)
        · exact .next (State.setPort_rights (by rfl) p)
        · exact .next rfl
        · exact .next rfl
    | preparationEnd r => exact .ite (fun _ => State.setPort_rights (by rfl) p) rfl
    | _ => cases hc

/-- A request whose right the port lacks is answered NOT_PERMITTED and changes nothing else (R153, R154). -/
theorem State.withRight_refuses {s : State} {p : PortId} {c : Command} (tag : Byte) (act : State → State)
    (h : c.permitted (s.port p).rights = false) :
    (.next (s.withRight p tag c act) : Host.Outcome State Fault Refusal) =
      .next (s.setPort p ((s.port p).answer .notPermitted tag c.code [])) := by
  rw [State.withRight_lacking tag act h, State.respond_answer]

/-- Settles O5: the straps at device reset, no other command, NULL, and the requests of each right. -/
theorem rightsFollowStraps : Obligations.RightsFollowStraps := by
  refine ⟨fun a b lines s p => ?_, fun c s t p ht hreset => exec_rights c s p hreset t ht, fun p tag s => ?_,
    fun p tag code s c hr hc => ?_, fun p tag code s c hr hc => ?_, fun p tag code s c hr hc => ?_⟩
  · refine ⟨_, rfl, ?_⟩
    rw [deviceReset_port (s := s) rfl p]
    cases a.getLsbD p <;> cases b.getLsbD p <;> rfl
  · refine ⟨_, rfl, ?_⟩
    rw [State.respond_eq, State.port_setPort, if_pos rfl]
    rfl
  · rcases hc with ⟨g, v, rfl, rfl⟩ | ⟨g, v, rfl, rfl⟩ <;>
      exact State.withRight_refuses tag _ ((permitted_time rfl).trans hr)
  · rcases hc with ⟨i, g, src, w, k, m, rfl, rfl⟩ | ⟨i, rfl, rfl⟩ <;>
      exact State.withRight_refuses tag _ ((permitted_input rfl).trans hr)
  · rcases hc with ⟨n, g, items, rfl, rfl⟩ | ⟨n, rfl, rfl⟩ | ⟨n, rfl, rfl⟩ | ⟨g, pol, rfl, rfl⟩ | ⟨rfl, rfl⟩ <;>
      exact State.withRight_refuses tag _ ((permitted_measure rfl).trans hr)

end Sys2Proof.Machine
end

section
/-! PROOFS. Selections and the judgement of a received frame (R143 to R146, R149 to R156, R158, R164). -/

namespace Sys2Proof.Machine

/-! ## Bits and bytes (R144) -/

theorem bitsOfByte_getElem? (b : Byte) {k : Nat} (hk : k < 8) : (bitsOfByte b)[k]? = some (b.getLsbD (7 - k)) := by
  match k, hk with
  | 0, _ | 1, _ | 2, _ | 3, _ | 4, _ | 5, _ | 6, _ | 7, _ => rfl

theorem bytesOfBits_append (b : Byte) (bits : List Bool) : bytesOfBits (bitsOfByte b ++ bits) = b :: bytesOfBits bits := by
  have hb : byteOfBits (b.getLsbD 7) (b.getLsbD 6) (b.getLsbD 5) (b.getLsbD 4) (b.getLsbD 3) (b.getLsbD 2) (b.getLsbD 1)
      (b.getLsbD 0) = b := by
    revert b; decide
  exact congrArg (· :: bytesOfBits bits) hb

theorem bytesOfBits_short {bits : List Bool} (h : bits.length < 8) : bytesOfBits bits = [] := by
  match bits, h with
  | [], _ | [_], _ | [_, _], _ | [_, _, _], _ | [_, _, _, _], _ | [_, _, _, _, _], _ | [_, _, _, _, _, _], _
  | [_, _, _, _, _, _, _], _ => rfl
  | _ :: _ :: _ :: _ :: _ :: _ :: _ :: _ :: _, h => simp only [List.length_cons] at h; omega

/-- The complete bytes of a selection's bits are those whose bits they are, the most significant first. -/
theorem bytesOfBits_eq {bits : List Bool} {bytes : List Byte} (hlen : bytes.length = bits.length / 8)
    (h : ∀ j k, j < bytes.length → k < 8 → bits[8 * j + k]? = (bytes[j]?).map fun b => b.getLsbD (7 - k)) :
    bytesOfBits bits = bytes := by
  induction bytes generalizing bits with
  | nil => exact bytesOfBits_short (by rw [List.length_nil] at hlen; omega)
  | cons b rest ih =>
    rw [List.length_cons] at hlen
    have hfirst : bits.take 8 = bitsOfByte b := by
      refine List.ext_getElem? fun k => ?_
      by_cases hk : k < 8
      · have hbit := h 0 k (Nat.zero_lt_succ _) hk
        rw [Nat.mul_zero, Nat.zero_add] at hbit
        rw [List.getElem?_take_of_lt hk, hbit, bitsOfByte_getElem? b hk]
        rfl
      · rw [List.getElem?_eq_none (by rw [List.length_take]; omega), List.getElem?_eq_none (by simpa [bitsOfByte] using hk)]
    have hrest : bytesOfBits (bits.drop 8) = rest := by
      refine ih (by rw [List.length_drop]; omega) fun j k hj hk => ?_
      have hbit := h (j + 1) k (Nat.succ_lt_succ hj) hk
      rw [List.getElem?_drop, ← Nat.add_assoc, Nat.add_comm 8]
      exact hbit
    rw [← List.take_append_drop 8 bits, hfirst, bytesOfBits_append, hrest]

/-! ## The rows of a link -/

section
variable {p : PortId} {s : State}

theorem execSelectionStart_ignoring (h : (s.port p).ignoring = true) : execSelectionStart p s = .next s := if_pos h

theorem execSelectionStart_ready (hi : (s.port p).ignoring = false) (hl : (s.port p).link = .ready) :
    execSelectionStart p s = .next (s.setPort p { s.port p with link := .selected }) := by
  unfold execSelectionStart
  dsimp only
  rw [hi, hl]
  rfl

theorem execSelectionStart_preparing (hi : (s.port p).ignoring = false) (hl : (s.port p).link = .preparing) :
    execSelectionStart p s = .next (s.setPort p { s.port p with link := .early }) := by
  unfold execSelectionStart
  dsimp only
  rw [hi, hl]
  rfl

theorem execSelectionEnd_ignoring (bits : List Bool) (h : (s.port p).ignoring = true) :
    execSelectionEnd p bits s = .next (s.setPort p { s.port p with ignoring := false }) := if_pos h

theorem execSelectionEnd_selected (bits : List Bool) (hi : (s.port p).ignoring = false) (hl : (s.port p).link = .selected) :
    execSelectionEnd p bits s = .next (s.setPort p ((s.port p).endSelected p s.rawTime (s.coarse + 1) bits)) := by
  unfold execSelectionEnd
  dsimp only
  rw [hi, hl]
  rfl

theorem execSelectionEnd_early (bits : List Bool) (hi : (s.port p).ignoring = false) (hl : (s.port p).link = .early) :
    execSelectionEnd p bits s = .next (s.setPort p ((s.port p).endEarly bits)) := by
  unfold execSelectionEnd
  dsimp only
  rw [hi, hl]
  rfl

theorem execPreparationEnd_formed (h : (s.port p).preparationCanEnd = true) : execPreparationEnd p s =
    .next (s.setPort p { s.port p with
      prepared := true, link := if (s.port p).link = .preparing then .ready else .early }) := if_pos h

/-- A selection without a complete byte shifts out the first bits of the response, and keeps it (R146). -/
theorem Port.endSelected_short {q : Port} {r : Response} {bits : List Bool} (p : PortId) (now : Tick) (arrival : Coarse)
    (hr : q.response = some r) (hb : bits.length < 8) :
    q.endSelected p now arrival bits = { q with link := .ready, shiftedOut := r.stream bits.length } := by
  unfold Port.endSelected
  rw [bytesOfBits_short hb, hr]
  rfl

/-- A selection with complete bytes judges the frame they hold (R149). -/
theorem Port.endSelected_judges {q : Port} {r : Response} {bits : List Bool} {bytes : List Byte} (p : PortId) (now : Tick)
    (arrival : Coarse) (hr : q.response = some r) (hb : bytesOfBits bits = bytes) (hne : bytes ≠ []) :
    q.endSelected p now arrival bits = Port.afterVerdict
      { q with link := .preparing, prepared := false, prepStart := now, shiftedOut := r.stream bits.length } arrival
      (judgeFrame p q.rights bytes) := by
  unfold Port.endSelected
  rw [hb, hr]
  cases bytes with
  | nil => exact absurd rfl hne
  | cons b rest => rfl

end

/-- Settles O47: the start of a selection, an end without a complete byte, an early end, a selection that is ignored, and
the end of preparation. -/
theorem selectionsAndPreparation : Obligations.SelectionsAndPreparation := by
  refine ⟨fun p s hi => ⟨execSelectionStart_ready hi, execSelectionStart_preparing hi⟩,
    fun p bits s hi => ⟨fun r hl hb hr => ?_, execSelectionEnd_early bits hi⟩,
    fun p bits s hi => ⟨execSelectionStart_ignoring hi, execSelectionEnd_ignoring bits hi⟩,
    fun p s hr ha => ⟨fun hl => ?_, fun hl hp => ?_⟩⟩
  · refine (execSelectionEnd_selected bits hi hl).trans ?_
    rw [Port.endSelected_short p _ _ hr hb]
  · refine (execPreparationEnd_formed ((Port.preparationCanEnd_iff _).2 ⟨.inl hl, ha, hr⟩)).trans ?_
    rw [if_pos hl]
  · refine (execPreparationEnd_formed ((Port.preparationCanEnd_iff _).2 ⟨.inr ⟨hl, hp⟩, ha, hr⟩)).trans ?_
    rw [if_neg (by rw [hl]; nofun), ← hl]

/-- Settles O48: the bytes that the bits make are judged, and each verdict gives the port its response or its request. -/
theorem selectionEndJudgesFrame : Obligations.SelectionEndJudgesFrame := by
  intro p bits bytes r s hi hl hlen hr hbytes hbits q
  have hne : bytes ≠ [] := by
    rintro rfl
    rw [List.length_nil] at hbytes
    omega
  refine (execSelectionEnd_selected bits hi hl).trans ?_
  rw [Port.endSelected_judges p _ _ hr (bytesOfBits_eq hbytes hbits) hne]
  cases judgeFrame p (s.port p).rights bytes with
  | tooLong | badFrame | unknownCommand | notPermitted | badPayload | taken => rfl

end Sys2Proof.Machine
end

section
/-! PROOFS. The ports' own requests: NULL, PORT_RESET, READ_ATTENTION and SET_ATTENTION (R161, R162, R169 to R171, R181). -/

namespace Sys2Proof.Machine

/-- The line is asserted exactly when some flag is both set and enabled (R169). -/
theorem Port.attentionLine_iff (q : Port) :
    q.attentionLine = true ↔ ∃ k, q.flags.getLsbD k = true ∧ q.mask.getLsbD k = true := by
  have hzero : q.attentionLine = true ↔ q.flags &&& q.mask ≠ 0 := bne_iff_ne
  rw [hzero]
  constructor
  · intro h
    by_contra hn
    refine h (BitVec.eq_of_getLsbD_eq fun k _ => ?_)
    rw [BitVec.getLsbD_and, BitVec.ofNat_eq_ofNat, BitVec.getLsbD_zero, Bool.and_eq_false_iff]
    by_contra hk
    rw [not_or, Bool.not_eq_false, Bool.not_eq_false] at hk
    exact hn ⟨k, hk⟩
  · rintro ⟨k, hf, hm⟩ h
    have hbit := congrArg (fun v => v.getLsbD k) h
    simp [hf, hm] at hbit

theorem flagSet_named_iff (flags : Byte) : flags.getLsbD 7 = false ↔ flags.toNat < 128 := by
  revert flags; decide

section
variable {p : PortId} {s : State} {op flags : Byte}

theorem execSetAttention_named (tag : Byte) {m : BitVec 7}
    (hm : setOperation op (s.port p).mask (flags.setWidth 7) = some m) (hf : flags.getLsbD 7 = false) : execSetAttention p tag op flags s =
      .next (s.setPort p ({ s.port p with mask := m }.answer .ok tag 0x04
        [m.setWidth 8, (s.port p).flags.setWidth 8])) := by
  unfold execSetAttention
  dsimp only
  rw [hm, hf]
  refine congrArg Host.Outcome.next ?_
  rw [State.respond_answer, State.setPort_setPort, State.port_setPort, if_pos rfl]
  rfl

theorem execSetAttention_unnamed (tag : Byte)
    (h : setOperation op (s.port p).mask (flags.setWidth 7) = none ∨ flags.getLsbD 7 = true) :
    execSetAttention p tag op flags s = .next (s.setPort p ((s.port p).answer .badValue tag 0x04 [])) := by
  unfold execSetAttention
  dsimp only
  rcases h with h | h
  · rw [h]; rfl
  · rw [h]; cases setOperation op (s.port p).mask (flags.setWidth 7) <;> rfl

end

/-- Settles O49: each of the four by what it does; SET_ATTENTION by the codes of its operation and its set. -/
theorem portOwnRequests : Obligations.PortOwnRequests := by
  refine ⟨fun p tag s => ⟨rfl, rfl, ⟨_, rfl, ?_, ?_⟩, fun b bs => ⟨rfl, rfl, rfl⟩⟩, fun p tag op flags s => ?_⟩
  · rw [State.respond_answer, State.setPort_setPort, State.port_setPort, if_pos rfl]; rfl
  · rw [Bool.eq_false_iff, ne_eq, Port.attentionLine_iff, State.respond_eq, State.port_setPort, if_pos rfl,
      State.port_setPort, if_pos rfl]
    rintro ⟨k, hk, -⟩
    simp at hk
  · refine ⟨fun hop hf => ⟨_, execSetAttention_named tag (setOperation_named _ _ hop) ((flagSet_named_iff flags).2 hf), rfl,
      ?_⟩, fun h => execSetAttention_unnamed tag ?_⟩
    · rw [State.port_setPort, if_pos rfl]
      exact Port.attentionLine_iff _
    · rcases not_and_or.1 h with h | h
      · exact .inl (setOperation_unnamed _ _ h)
      · exact .inr (by rwa [← flagSet_named_iff, Bool.not_eq_false] at h)

end Sys2Proof.Machine
end

section
/-! PROOFS. Which received bytes give which verdict, and request frames taken as they were sent (R147 to R152, R154, R155,
R177, R178, R182 to R184). -/

namespace Sys2Proof.Machine

/-! ## Command codes and rights (R154, R178) -/

theorem Command.ofCode_code (c : Command) : Command.ofCode c.code = some c := by
  cases c <;> rfl

theorem Command.ofCode_unknown {b : Byte} (h : b.toNat ∉ [0x01, 0x02, 0x03, 0x04, 0x10, 0x11, 0x12, 0x20, 0x21, 0x22, 0x30,
    0x31, 0x32, 0x33, 0x40, 0x41, 0x42, 0x43, 0x44, 0x45]) : Command.ofCode b = none := by
  revert b; decide

theorem Command.permitted_table (rights : BitVec 3) (c : Command) : c.permitted rights = match c with
    | .null | .portReset | .readAttention | .setAttention | .readTime | .readInput | .readPlan | .subscribe
    | .readResults | .latest | .logStatus => true
    | .setTime | .stepTime => rights.getLsbD 2
    | .setInput | .calibrate => rights.getLsbD 1
    | .writePlan | .arm | .stop | .setLog | .resetMeasurement => rights.getLsbD 0 := by
  cases c with
  | setTime | stepTime => exact permitted_time rfl
  | setInput | calibrate => exact permitted_input rfl
  | writePlan | arm | stop | setLog | resetMeasurement => exact permitted_measure rfl
  | _ => exact beq_iff_eq.2 (BitVec.and_zero)

/-! ## The verdict on a frame (R149) -/

/-- Whether the bytes after a command code, a tag and a length byte hold a payload of that length, at most 250 bytes, and
the CRC of the frame (R147 to R151). -/
def FrameSound (code tag len : Byte) (rest : List Byte) : Prop :=
  len.toNat ≤ 250 ∧ len.toNat + 2 ≤ rest.length
    ∧ (rest.drop len.toNat).take 2 = bytesBE 2 (crc (code :: tag :: len :: rest.take len.toNat)).toNat

section
variable {p : PortId} {rights : BitVec 3} {code tag len : Byte} {rest : List Byte}

theorem judgeFrame_short {bs : List Byte} (h : bs.length < 3) : judgeFrame p rights bs = .badFrame := by
  match bs, h with
  | [], _ | [_], _ | [_, _], _ => rfl
  | _ :: _ :: _ :: _, h => simp only [List.length_cons] at h; omega

theorem judgeFrame_tooLong (h : 250 < len.toNat) :
    judgeFrame p rights (code :: tag :: len :: rest) = .tooLong tag code := if_pos h

theorem judgeFrame_unsound (hlen : len.toNat ≤ 250) (h : ¬FrameSound code tag len rest) :
    judgeFrame p rights (code :: tag :: len :: rest) = .badFrame := by
  refine (if_neg (Nat.not_lt.2 hlen)).trans ?_
  split
  · rfl
  · next hrest => exact if_pos fun hcrc => h ⟨hlen, Nat.le_of_not_lt hrest, hcrc.symm⟩

/-- What the port makes of a sound frame: of its command code, its rights and its payload, in that order. -/
theorem judgeFrame_sound (h : FrameSound code tag len rest) : judgeFrame p rights (code :: tag :: len :: rest) =
    match Command.ofCode code with
    | none => .unknownCommand tag code
    | some c =>
      if c.permitted rights then (parseRequest p tag c (rest.take len.toNat)).elim (.badPayload tag c) .taken
      else .notPermitted tag c := by
  obtain ⟨hlen, hrest, hcrc⟩ := h
  refine (if_neg (Nat.not_lt.2 hlen)).trans ((if_neg (Nat.not_lt.2 hrest)).trans ((if_neg (not_not.2 hcrc.symm)).trans ?_))
  cases Command.ofCode code with
  | none => rfl
  | some c =>
    dsimp only
    cases parseRequest p tag c (rest.take len.toNat) <;> rfl

theorem judgeFrame_unknown (h : FrameSound code tag len rest) (hc : Command.ofCode code = none) :
    judgeFrame p rights (code :: tag :: len :: rest) = .unknownCommand tag code := by
  rw [judgeFrame_sound h, hc]

theorem judgeFrame_notPermitted {c : Command} (h : FrameSound c.code tag len rest) (hr : c.permitted rights = false) :
    judgeFrame p rights (c.code :: tag :: len :: rest) = .notPermitted tag c := by
  rw [judgeFrame_sound h, Command.ofCode_code]
  dsimp only
  rw [hr]
  rfl

theorem judgeFrame_permitted {c : Command} (h : FrameSound c.code tag len rest) (hr : c.permitted rights = true) :
    judgeFrame p rights (c.code :: tag :: len :: rest) =
      (parseRequest p tag c (rest.take len.toNat)).elim (.badPayload tag c) .taken := by
  rw [judgeFrame_sound h, Command.ofCode_code]
  exact if_pos hr

end

/-- Settles O50: the frame's length and CRC, then its command code, the rights and the payload; and the table of rights. -/
theorem frameVerdicts : Obligations.FrameVerdicts := by
  refine ⟨fun p rights bs => judgeFrame_short, fun p rights code tag len rest => ?_, Command.permitted_table⟩
  intro verdict payload sum sound
  have hsound : sound ↔ FrameSound code tag len rest := by
    have hsum : bytesBE 2 sum = [BitVec.ofNat 8 (sum / 256), BitVec.ofNat 8 sum] := by simp [bytesBE]
    unfold FrameSound
    rw [hsum]
  refine ⟨judgeFrame_tooLong, fun hlen h => judgeFrame_unsound hlen fun k => h (hsound.2 k),
    fun h hcode => judgeFrame_unknown (hsound.1 h) (Command.ofCode_unknown hcode), fun c h hc => ?_⟩
  subst hc
  have hframe := hsound.1 h
  refine ⟨judgeFrame_notPermitted hframe, fun hr => ?_⟩
  have hverdict : verdict = (parseRequest p tag c payload).elim (.badPayload tag c) .taken := judgeFrame_permitted hframe hr
  have hlen : payload.length ≤ 250 := (List.length_take_le _ _).trans hframe.1
  refine ⟨fun i => ?_, ?_⟩
  · rw [hverdict, ← parseRequest_iff hlen]
    cases parseRequest p tag c payload <;> simp
  · simp_rw [hverdict, ← parseRequest_iff hlen]
    cases parseRequest p tag c payload <;> simp

/-! ## Request frames (R147, R148, R177, R182, R183) -/

/-- The bytes of a number, by their place. -/
theorem bytesBE_eq_map (n v : Nat) : bytesBE n v = (List.range n).map fun k => BitVec.ofNat 8 (v / 256 ^ (n - 1 - k)) := by
  induction n with
  | zero => rfl
  | succ n ih =>
    rw [bytesBE, ih, List.range_succ_eq_map, List.map_cons, List.map_map]
    refine congrArg₂ List.cons rfl (List.map_congr_left fun k _ => ?_)
    show _ = BitVec.ofNat 8 (v / 256 ^ (n + 1 - 1 - (k + 1)))
    rw [Nat.add_sub_cancel, Nat.sub_sub, Nat.add_comm 1 k]

theorem not_isFieldIdentifier_iff (b : Byte) : isFieldIdentifier b = false ↔ b = 0 ∨ 16 < b.toNat := by
  revert b; decide

theorem items_wf_iff (items : List PlanItem) : items.all PlanItem.wf = true ↔
    ∀ id rest, PlanItem.unknown id rest ∈ items → id = 0 ∨ 16 < id.toNat := by
  rw [List.all_eq_true]
  constructor
  · intro h id rest hmem
    have hwf := h _ hmem
    rw [PlanItem.wf, Bool.not_eq_true', not_isFieldIdentifier_iff] at hwf
    exact hwf
  · intro h x hmem
    cases x with
    | unknown id rest => rw [PlanItem.wf, Bool.not_eq_true', not_isFieldIdentifier_iff]; exact h id rest hmem
    | _ => rfl

theorem unknownOnlyLast_iff (items : List PlanItem) : unknownOnlyLast items = true ↔
    ∀ front x y back, items = front ++ x :: y :: back → x.isKnown = true := by
  induction items with
  | nil => exact ⟨fun _ front x y back e => by simp at e, fun _ => rfl⟩
  | cons z items ih =>
    cases items with
    | nil =>
      refine ⟨fun _ front x y back e => ?_, fun _ => rfl⟩
      have hlen := congrArg List.length e
      simp only [List.length_append, List.length_cons, List.length_nil] at hlen
      omega
    | cons w items =>
      rw [unknownOnlyLast, Bool.and_eq_true, ih]
      constructor
      · rintro ⟨hz, h⟩ front x y back e
        cases front with
        | nil => cases e; exact hz
        | cons f front => exact h front x y back (List.cons.inj e).2
      · exact fun h => ⟨h [] z w items rfl, fun front x y back e => h (z :: front) x y back (congrArg (z :: ·) e)⟩

/-- A WRITE_PLAN that can be carried: its identifiers, their order and its length (R58, R183, R184). -/
theorem writePlan_wf_iff (p : PortId) (tag b : Byte) (g : Option Gen) (items : List PlanItem) :
    (Instr.writePlan p tag b g items).wf = true ↔
      (∀ id rest, PlanItem.unknown id rest ∈ items → id = 0 ∨ 16 < id.toNat)
      ∧ (∀ front x y back, items = front ++ x :: y :: back → x.isKnown = true)
      ∧ (b :: (conditionBytes g ++ items.flatMap itemBytes)).length ≤ 250 := by
  rw [Instr.wf, Bool.and_eq_true, Bool.and_eq_true, items_wf_iff, unknownOnlyLast_iff, decide_eq_true_iff,
    writePlanPayload_length, and_assoc]
  rfl

/-- A request frame, followed by any bytes, is sound (R147, R148). -/
theorem frameSound_withCrc {code tag : Byte} {payload : List Byte} (more : List Byte) (h : payload.length ≤ 250) :
    FrameSound code tag (BitVec.ofNat 8 payload.length)
      (payload ++ (bytesBE 2 (crc (code :: tag :: BitVec.ofNat 8 payload.length :: payload)).toNat ++ more)) := by
  have hlen : (BitVec.ofNat 8 payload.length).toNat = payload.length := by
    rw [BitVec.toNat_ofNat]; omega
  refine ⟨by rw [hlen]; exact h, ?_, ?_⟩
  · rw [hlen, List.length_append, List.length_append, bytesBE_length]
    omega
  · rw [hlen, List.drop_left, List.take_left]
    exact List.take_left' (bytesBE_length 2 _)

/-- A well-formed request whose command the rights permit is taken from its frame. -/
theorem judgeFrame_requestFrame {i : Instr} {p : PortId} {tag : Byte} {c : Command} {payload : List Byte}
    {rights : BitVec 3} (more : List Byte) (hwf : i.wf = true) (hparts : requestParts i = some (p, tag, c, payload))
    (hr : c.permitted rights = true) :
    judgeFrame p rights (withCrc ([c.code, tag, BitVec.ofNat 8 payload.length] ++ payload) ++ more) = .taken i := by
  obtain ⟨hlen, hparse⟩ := request_roundTrip i p tag c payload hwf hparts
  have hsound := frameSound_withCrc (code := c.code) (tag := tag) more hlen
  have htake : (payload ++ (bytesBE 2 (crc (c.code :: tag :: BitVec.ofNat 8 payload.length :: payload)).toNat ++ more)).take
      (BitVec.ofNat 8 payload.length).toNat = payload := by
    rw [BitVec.toNat_ofNat, Nat.mod_eq_of_lt (Nat.lt_of_le_of_lt hlen (by decide)), List.take_left]
  have hjudge := judgeFrame_permitted (p := p) hsound hr
  rw [htake, hparse] at hjudge
  refine Eq.trans (congrArg (judgeFrame p rights) ?_) hjudge
  simp [withCrc]

/-- Settles O52: the payloads as the model lays them out, and each frame taken by its round trip. -/
theorem requestFrameIsTaken : Obligations.RequestFrameIsTaken := by
  unfold Obligations.RequestFrameIsTaken
  intro number condition item
  have hnumber : ∀ n v, number n v = bytesBE n v := fun n v => (bytesBE_eq_map n v).symm
  have hcondition : ∀ g, condition g = conditionBytes g := fun g => by
    cases g with
    | none => rfl
    | some v => exact congrArg (1 :: ·) (hnumber 2 v.toNat)
  have hitem : item = itemBytes := funext fun x => by
    cases x with
    | gate v | waitLimit v | armTime v => exact congrArg (_ :: ·) (hnumber 8 v.toNat)
    | prescale v | quota v => exact congrArg (_ :: ·) (hnumber 4 v.toNat)
    | _ => rfl
  refine ⟨fun p tag b b' g v w k th src m items => ?_, fun i hi => ?_, fun i p tag c payload hparts => ?_,
    fun i p tag c payload frame more rights hwf hparts hframe hr => ?_⟩
  · rw [hcondition, hitem]
    simp only [hnumber]
    refine ⟨rfl, rfl, rfl, rfl, rfl, rfl, rfl, rfl, ?_, rfl, rfl, rfl, rfl, rfl, rfl, rfl, rfl, rfl, rfl, rfl, ?_⟩
    · simp [requestParts]
    · exact writePlan_wf_iff p tag b g items
  · cases i with
    | writePlan p tag b g items => exact absurd rfl (hi p tag b g items)
    | _ => rfl
  · intro head
    rw [hnumber, requestFrame, hparts]
    rfl
  · rw [requestFrame, hparts] at hframe
    cases hframe
    exact judgeFrame_requestFrame more hwf hparts hr

end Sys2Proof.Machine
end

section
/-! PROOFS. The CRC, and the layouts of plan block, record and response stream (R144, R145, R148, R157, R177, R179, R180,
R183, R185, R186). -/

namespace Sys2Proof.Machine

/-! ## Numbers and codes -/

theorem bytesBE_one (v : Nat) : bytesBE 1 v = [BitVec.ofNat 8 v] := by
  rw [bytesBE, pow_zero, Nat.div_one]
  rfl

/-- The record flags byte holds each flag at its bit (R180). -/
theorem RecordFlags.byte_bits (f : RecordFlags) : f.byte.getLsbD 0 = f.aborted ∧ f.byte.getLsbD 1 = f.noSignal
    ∧ f.byte.getLsbD 2 = f.timeStepped ∧ f.byte.getLsbD 3 = f.refFault ∧ f.byte.getLsbD 4 = f.calChanged
    ∧ f.byte.getLsbD 5 = f.pushed ∧ f.byte.getLsbD 6 = false ∧ f.byte.getLsbD 7 = false := by
  obtain ⟨a, n, t, r, c, p⟩ := f
  revert a n t r c p
  decide

/-! ## Records (R185) -/

theorem recordItem_eq {w : Nat} (tag : Byte) (size : Nat) (v : Option (BitVec w)) :
    recordItem tag size v = (v.map BitVec.toNat).elim [] fun x => tag :: bytesBE size x := by
  cases v <;> rfl

/-! ## The CRC (R148) -/

theorem crcBit_eq (r : BitVec 16) (b : Bool) :
    crcBit r b = if r.getLsbD 15 = b then r <<< 1 else (r <<< 1) ^^^ 0x1021 := by
  unfold crcBit
  rw [BitVec.msb_eq_getLsbD_last, ite_not]

theorem crc_append (bs : List Byte) (b : Byte) : crc (bs ++ [b]) = [7, 6, 5, 4, 3, 2, 1, 0].foldl
    (fun (r : BitVec 16) (k : Nat) => if r.getLsbD 15 = b.getLsbD k then r <<< 1 else (r <<< 1) ^^^ 0x1021) (crc bs) := by
  have hbits : bitsOfByte b = [7, 6, 5, 4, 3, 2, 1, 0].map b.getLsbD := rfl
  unfold crc
  rw [List.flatMap_append, List.foldl_append, List.flatMap_singleton, hbits, List.foldl_map]
  simp only [crcBit_eq]

/-! ## Response streams (R144, R145, R157) -/

theorem Response.frame_length (r : Response) : r.frame.length = 6 + r.payload.length := by
  unfold Response.frame withCrc
  rw [List.length_append, bytesBE_length, List.length_append]
  simp only [List.length_cons, List.length_nil]
  omega

theorem length_flatMap_bitsOfByte (bs : List Byte) : (bs.flatMap bitsOfByte).length = 8 * bs.length := by
  induction bs with
  | nil => rfl
  | cons b rest ih =>
    rw [List.flatMap_cons, List.length_append, ih, List.length_cons]
    show 8 + _ = _
    omega

/-- The bits of bytes, each byte with its most significant bit first. -/
theorem flatMap_bitsOfByte_getElem? (bs : List Byte) (j : Nat) :
    (bs.flatMap bitsOfByte)[j]? = (bs[j / 8]?).map fun b => b.getLsbD (7 - j % 8) := by
  induction bs generalizing j with
  | nil => rfl
  | cons b rest ih =>
    rw [List.flatMap_cons]
    by_cases hj : j < 8
    · rw [List.getElem?_append_left (by exact hj), bitsOfByte_getElem? b hj, Nat.div_eq_of_lt hj, Nat.mod_eq_of_lt hj]
      rfl
    · have hdiv : j / 8 = (j - 8) / 8 + 1 := by omega
      have hmod : j % 8 = (j - 8) % 8 := by omega
      rw [List.getElem?_append_right (by exact Nat.le_of_not_lt hj), hdiv, hmod]
      exact ih (j - 8)

/-- The bytes of an outgoing stream of k bits: the frame, zero bytes up to the 8th byte, then all-ones bytes (R145). -/
def Response.streamBytes (r : Response) (k : Nat) : List Byte :=
  r.frame ++ List.replicate (8 - r.frame.length) 0 ++ List.replicate (k / 8 + 1) 0xFF

theorem Response.stream_eq (r : Response) (k : Nat) : r.stream k = ((r.streamBytes k).flatMap bitsOfByte).take k := rfl

theorem Response.streamBytes_length (r : Response) (k : Nat) :
    (r.streamBytes k).length = r.frame.length + (8 - r.frame.length) + (k / 8 + 1) := by
  rw [Response.streamBytes, List.length_append, List.length_append, List.length_replicate, List.length_replicate]

theorem Response.streamBytes_getElem? (r : Response) {k m : Nat} (hm : m ≤ k / 8) :
    (r.streamBytes k)[m]? = some ((r.frame[m]?).getD (if m < 8 then 0 else 0xFF)) := by
  unfold Response.streamBytes
  by_cases hframe : m < r.frame.length
  · rw [List.append_assoc, List.getElem?_append_left hframe, List.getElem?_eq_getElem hframe]
    rfl
  · rw [List.getElem?_eq_none (Nat.le_of_not_lt hframe), Option.getD_none]
    by_cases hzero : m < 8
    · rw [if_pos hzero, List.getElem?_append_left (by simp; omega), List.getElem?_append_right (Nat.le_of_not_lt hframe),
        List.getElem?_replicate_of_lt (by omega)]
    · rw [if_neg hzero, List.getElem?_append_right (by simp; omega), List.getElem?_replicate_of_lt]
      simp
      omega

theorem Response.stream_length (r : Response) (k : Nat) : (r.stream k).length = k := by
  rw [Response.stream_eq, List.length_take, length_flatMap_bitsOfByte, Response.streamBytes_length]
  omega

theorem Response.stream_getElem? (r : Response) {j k : Nat} (h : j < k) : (r.stream k)[j]? =
    some (((r.frame[j / 8]?).getD (if j / 8 < 8 then 0 else 0xFF)).getLsbD (7 - j % 8)) := by
  rw [Response.stream_eq, List.getElem?_take_of_lt h, flatMap_bitsOfByte_getElem?,
    Response.streamBytes_getElem? r (by omega : j / 8 ≤ k / 8)]
  rfl

/-- Settles O51: the plan block field by field, the record item by item, the codes, the stream and the CRC. -/
theorem layoutsOfPlanRecordAndResponse : Obligations.LayoutsOfPlanRecordAndResponse := by
  unfold Obligations.LayoutsOfPlanRecordAndResponse
  intro number
  have hnumber : ∀ n v, number n v = bytesBE n v := fun n v => (bytesBE_eq_map n v).symm
  refine ⟨fun p => ?_, fun seq r => ?_, fun st => by cases st <;> rfl, fun r k => ?_, rfl, crc_append⟩
  · intro at'
    simp only [at', hnumber]
    refine ⟨rfl, ?_, (bytesBE_one _).symm, ?_, (bytesBE_one _).symm, ?_, rfl, rfl, rfl, ?_, ?_, ?_, rfl,
      (bytesBE_one _).symm, ?_, (bytesBE_one _).symm, ?_⟩
    · show [p.kind.code] = _
      cases p.kind <;> rfl
    · show [p.senseA.code] = _
      cases p.senseA <;> rfl
    · show [p.senseB.code] = _
      cases p.senseB <;> rfl
    · show bytesBE 4 _ = _
      cases p.quota <;> rfl
    · show [p.reportAs.code] = _
      cases p.reportAs <;> rfl
    · show [p.armSource.code] = _
      cases p.armSource <;> rfl
    · show [p.armSense.code] = _
      cases p.armSense <;> rfl
    · show [p.repeatMode.code] = _
      cases p.repeatMode <;> rfl
  · intro item kind
    have hitem : ∀ {w : Nat} (tag : Byte) (size : Nat) (v : Option (BitVec w)),
        item tag size (v.map BitVec.toNat) = recordItem tag size v := fun tag size v => by
      rw [recordItem_eq]
      simp only [item, hnumber]
    have hkind : recordKind r = kind := rfl
    refine ⟨?_, fun h => recordBytes_length h seq, r.flags.byte_bits⟩
    simp only [hitem, hnumber, ← hkind]
    rfl
  · intro head
    rw [hnumber]
    exact ⟨rfl, r.frame_length, r.stream_length k, fun j hj => r.stream_getElem? hj⟩

end Sys2Proof.Machine
end

section
/-! PROOFS. A set attention flag stays set until it is read or reset at its port (R165). -/

namespace Sys2Proof.Machine

/-! ## What keeps the flags that are set at a port -/

/-- Every flag set at port p stays set there. -/
def State.FlagsKeptAt (s : State) (p : PortId) (t : State) : Prop :=
  ∀ k, (s.port p).flags.getLsbD k = true → (t.port p).flags.getLsbD k = true

theorem FlagsOnly.getLsbD {q r : Port} (h : FlagsOnly q r) {k : Nat} (hk : q.flags.getLsbD k = true) :
    r.flags.getLsbD k = true := by
  rw [← h.rise, BitVec.getLsbD_and, Bool.and_eq_true] at hk
  exact hk.2

section
variable {s t u : State} {p : PortId}

theorem State.FlagsKeptAt.refl (s : State) (p : PortId) : s.FlagsKeptAt p s := fun _ => id

theorem State.FlagsKeptAt.trans (h : s.FlagsKeptAt p t) (k : t.FlagsKeptAt p u) : s.FlagsKeptAt p u :=
  fun n => k n ∘ h n

theorem State.FlagsKeptAt.of_flags (h : (t.port p).flags = (s.port p).flags) : s.FlagsKeptAt p t := fun k hk => by
  rw [h]; exact hk

theorem State.FlagsRaised.keptAt (h : s.FlagsRaised t) (p : PortId) : s.FlagsKeptAt p t := fun _ => (h p).getLsbD

/-- A port written keeps the flags set at p, unless it is p itself and loses one. -/
theorem State.setPort_flagsKeptAt {r : PortId} {q : Port}
    (h : r = p → ∀ k, (s.port p).flags.getLsbD k = true → q.flags.getLsbD k = true) :
    s.FlagsKeptAt p (s.setPort r q) := fun k hk => by
  rw [State.port_setPort]
  split
  · next e => exact h e k hk
  · exact hk

theorem State.setPort_flagsKeptAt_of_eq {r : PortId} {q : Port} (h : q.flags = (s.port r).flags) :
    s.FlagsKeptAt p (s.setPort r q) :=
  State.setPort_flagsKeptAt fun e k hk => by rw [h, e]; exact hk

theorem State.FlagsKeptAt.respond (h : s.FlagsKeptAt p t) (r : PortId) (tag : Byte) (c : Command) (st : Status)
    (bs : List Byte) : s.FlagsKeptAt p (t.respond r tag c st bs) :=
  h.trans (State.setPort_flagsKeptAt_of_eq rfl)

theorem State.FlagsKeptAt.raise (h : s.FlagsKeptAt p t) (f : Flag) (who : PortId → Bool) :
    s.FlagsKeptAt p (t.raise f who) := h.trans ((t.raise_flagsRaised f who).keptAt p)

theorem State.FlagsKeptAt.grant (h : s.FlagsKeptAt p t) : s.FlagsKeptAt p t.grant :=
  h.trans ((State.FlagsRaised.of_ports t.grant_ports).keptAt p)

theorem State.FlagsKeptAt.retirementCheck (h : s.FlagsKeptAt p t) : s.FlagsKeptAt p t.retirementCheck :=
  h.trans (.of_flags (by rw [State.retirementCheck_port]))

theorem State.FlagsKeptAt.withRight {r : PortId} {tag : Byte} {c : Command} {act : State → State}
    (h : s.FlagsKeptAt p (act s)) : s.FlagsKeptAt p (s.withRight r tag c act) :=
  State.withRight_cases (P := s.FlagsKeptAt p) h ((State.FlagsKeptAt.refl s p).respond r tag c _ _)

theorem State.applyOffset_flagsKeptAt (s : State) (p r : PortId) (tag : Byte) (c : Command) (o : Tick) (f : Bool) :
    s.FlagsKeptAt p (s.applyOffset r tag c o f) := by
  have hset : s.FlagsKeptAt p { s with offset := o, timeGen := s.timeGen + 1 } := .refl s p
  exact ((hset.raise .change _).trans ((State.notifyStep_engine _ _ _).flagsRaised.keptAt p)).respond _ _ _ _ _

/-! ## A record offered to the log sets LOSS and RESULTS alone (R123, R124) -/

theorem State.writeRecord_flagsKeptAt (s : State) (p : PortId) (r : Record) : s.FlagsKeptAt p (s.writeRecord r) := by
  have hpushed : s.FlagsKeptAt p
      { s with log := { s.log with held := s.log.held ++ [⟨s.log.nextSeq, r⟩], nextSeq := s.log.nextSeq + 1 } } := .refl s p
  exact hpushed.retirementCheck.raise .results _

theorem Port.charge_flags {q : Port} {k : Nat} (e : LogEntry) (hk : q.flags.getLsbD k = true) :
    (q.charge e).flags.getLsbD k = true := by
  unfold Port.charge
  split
  · exact (Port.setFlag_flagsOnly q .loss).getLsbD hk
  · exact hk

theorem State.forceRetire_flagsKeptAt (s : State) (p : PortId) : s.FlagsKeptAt p s.forceRetire := by
  unfold State.forceRetire
  split
  · exact .refl s p
  · intro k hk
    dsimp only
    rw [State.port_mapPorts]
    exact Port.charge_flags _ hk

theorem State.offerRecord_flagsKeptAt (s : State) (p : PortId) (r : Record) : s.FlagsKeptAt p (s.offerRecord r).1 := by
  unfold State.offerRecord
  split
  · exact s.writeRecord_flagsKeptAt p r
  · split
    · exact (s.forceRetire_flagsKeptAt p).trans (State.writeRecord_flagsKeptAt _ p r)
    · exact .refl s p

/-! ## A frame judged sets LINK alone (R150, R151) -/

theorem Port.afterVerdict_flags {q : Port} {k : Nat} (arrival : Coarse) (v : Verdict)
    (hk : q.flags.getLsbD k = true) : (q.afterVerdict arrival v).flags.getLsbD k = true := by
  cases v with
  | tooLong | badFrame => exact (Port.setFlag_flagsOnly _ .link).getLsbD hk
  | unknownCommand | notPermitted | badPayload | taken => exact hk

theorem Port.endSelected_flags {q : Port} {k : Nat} (r : PortId) (now : Tick) (arrival : Coarse) (bits : List Bool)
    (hk : q.flags.getLsbD k = true) : (q.endSelected r now arrival bits).flags.getLsbD k = true := by
  unfold Port.endSelected
  dsimp only
  split
  · exact hk
  · exact Port.afterVerdict_flags arrival _ hk

end

/-! ## What each command makes of the flags at a port -/

/-- The commands that clear flags at port p (R165). -/
def clearsFlagsAt (p : PortId) : Instr → Bool
  | .deviceReset .. => true
  | .readAttention r _ | .portReset r _ => decide (r = p)
  | _ => false

/-- An event of the reference, the inputs or the engine sets attention flags alone. -/
theorem exec_event_flagsRaised {c : Instr} (hreq : requestParts c = none) (hlink : isLinkRow c = false)
    (hservice : c ≠ .serviceCompletion) (s : State) : Answers s.FlagsRaised (exec c s) := by
  have hrefl : s.FlagsRaised s := .of_ports rfl
  cases c with
  | referenceEdge => exact .next (.of_ports rfl)
  | referenceAbsent =>
    show Answers _ (execReferenceAbsent s)
    unfold execReferenceAbsent
    have habsent : s.FlagsRaised { s with refPresent := false, presenceTimer := 0 } := .of_ports rfl
    split
    · exact .ite (fun _ => habsent.trans (State.changeRef_flagsRaised _ _)) habsent
    · exact .next hrefl
  | referenceLock => exact .ite (fun _ => s.changeRef_flagsRaised _) hrefl
  | horizonStart => exact .ite (fun _ => .of_ports rfl) hrefl
  | horizonRefChange =>
    show Answers _ (execHorizonRefChange s)
    unfold execHorizonRefChange
    split
    · exact .next hrefl
    · split
      · dsimp only
        split
        · exact .next (.of_ports rfl)
        · exact .next (.of_ports (State.mapSlots_ports _ _))
      · exact .next hrefl
  | inputLevelChange i src level f =>
    show Answers _ (execInputLevelChange i src level f s)
    unfold execInputLevelChange
    split
    · have hpin : s.FlagsRaised (s.setInput i { s.input i with pinLevel := level }) := .of_ports rfl
      exact .ite (fun _ => hpin.trans (State.levelChange_flagsRaised _ _ _ _)) hpin
    · exact .ite (fun _ => (s.settleWindow_flagsRaised i).trans (State.levelChange_flagsRaised _ _ _ _)) hrefl
  | windowEndQualification i => exact .next (s.settleWindow_flagsRaised i)
  | deadTimeEnd i =>
    show Answers _ (execDeadTimeEnd i s)
    unfold execDeadTimeEnd
    split <;> exact .next (.of_ports rfl)
  | calibrationHit i f =>
    have hblocked : s.FlagsRaised (s.block i) := .of_ports rfl
    exact .ite (fun _ => hblocked.trans (State.hit_flagsRaised _ _ _)) hrefl
  | stampOffer i =>
    show Answers _ (execStampOffer i s)
    unfold execStampOffer
    split
    · exact .next hrefl
    · exact .next ((s.offer_engine _).trans (State.conclude_engine _)).flagsRaised
  | immediateArmInstant n =>
    show Answers _ (execImmediateArmInstant n s)
    unfold execImmediateArmInstant
    split
    · exact .next hrefl
    · exact .next (s.setSlot_event_flagsRaised n _)
  | totalizeGateOpen n =>
    show Answers _ (execTotalizeGateOpen n s)
    unfold execTotalizeGateOpen
    split
    · exact .next hrefl
    · exact .next (s.setSlot_event_flagsRaised n _)
  | atTimeArming n | gateClose n => exact .ite (fun _ => s.setSlot_event_flagsRaised n _) hrefl
  | deadlineExpiry n | totalizeGateClose n => exact .ite (fun _ => s.setSlot_finish_flagsRaised n _ _) hrefl
  | serviceCompletion => exact absurd rfl hservice
  | deviceReset | selectionStart | selectionEnd | preparationEnd => cases hlink
  | _ => cases hreq

/-- The rows of the ports' links clear no flag, device reset excepted: they set LINK at most (R150, R151). -/
theorem exec_linkRow_flagsKeptAt {c : Instr} {p : PortId} (hlink : isLinkRow c = true) (hc : clearsFlagsAt p c = false)
    (s : State) : Answers (s.FlagsKeptAt p) (exec c s) := by
  have hrefl : s.FlagsKeptAt p s := .refl s p
  cases c with
  | selectionStart r =>
    show Answers _ (execSelectionStart r s)
    unfold execSelectionStart
    dsimp only
    split
    · exact .next hrefl
    · split
      · exact .next (State.setPort_flagsKeptAt_of_eq rfl)
      · exact .next (State.setPort_flagsKeptAt_of_eq rfl)
      · exact .next hrefl
      · exact .next hrefl
  | selectionEnd r bits =>
    show Answers _ (execSelectionEnd r bits s)
    unfold execSelectionEnd
    dsimp only
    split
    · exact .next (State.setPort_flagsKeptAt_of_eq rfl)
    · split
      · exact .next (State.setPort_flagsKeptAt fun e _ hk => Port.endSelected_flags _ _ _ bits (by rw [e]; exact hk))
      · exact .next (State.setPort_flagsKeptAt_of_eq rfl)
      · exact .next hrefl
      · exact .next hrefl
  | preparationEnd r => exact .ite (fun _ => State.setPort_flagsKeptAt_of_eq rfl) hrefl
  | deviceReset => cases hc
  | _ => cases hlink

/-- A request clears no flag but by READ_ATTENTION and PORT_RESET at its own port. -/
theorem exec_request_flagsKeptAt {c : Instr} {p r : PortId} {tag : Byte} {k : Command} {payload : List Byte}
    (hreq : requestParts c = some (r, tag, k, payload)) (hc : clearsFlagsAt p c = false) (s : State) :
    Answers (s.FlagsKeptAt p) (exec c s) := by
  have hrefl : s.FlagsKeptAt p s := .refl s p
  have hrespond : ∀ (tag : Byte) (k : Command) (st : Status) (bs : List Byte), s.FlagsKeptAt p (s.respond r tag k st bs) :=
    hrefl.respond r
  cases c with
  | null | readTime | logStatus => cases hreq; exact .next (hrespond _ _ _ _)
  | readAttention =>
    cases hreq
    have hother : r ≠ p := of_decide_eq_false hc
    exact .next ((State.setPort_flagsKeptAt fun e => absurd e hother).respond _ _ _ _ _)
  | portReset =>
    cases hreq
    have hother : r ≠ p := of_decide_eq_false hc
    exact .next (State.setPort_flagsKeptAt fun e => absurd e hother).retirementCheck
  | setAttention _ _ operation flags =>
    cases hreq
    show Answers _ (execSetAttention r tag operation flags s)
    unfold execSetAttention
    dsimp only
    split
    · exact .next ((State.setPort_flagsKeptAt_of_eq (by rfl)).respond _ _ _ _ _)
    · exact .next (hrespond _ _ _ _)
  | setTime | stepTime =>
    cases hreq
    refine .next (.withRight ?_)
    split
    · exact s.applyOffset_flagsKeptAt p _ _ _ _ _
    · exact hrespond _ _ _ _
  | readInput _ _ input =>
    cases hreq
    show Answers _ (execReadInput r tag input s)
    unfold execReadInput
    split <;> exact .next (hrespond _ _ _ _)
  | setInput =>
    cases hreq
    refine .next (.withRight ?_)
    split
    · exact hrespond _ _ _ _
    · next i _ =>
      dsimp only
      split
      · exact hrespond _ _ _ _
      · split
        · exact hrespond _ _ _ _
        · split
          · exact ((s.applySettings_flagsRaised _ i _).keptAt p).respond _ _ _ _ _
          · exact hrespond _ _ _ _
  | calibrate =>
    cases hreq
    refine .next (.withRight ?_)
    split
    · exact hrespond _ _ _ _
    · next i _ =>
      have hset : ∀ x, s.FlagsKeptAt p (s.setInput i x) := fun _ => hrefl
      dsimp only
      split
      · exact hrespond _ _ _ _
      · exact ((hset _).raise _ _).respond _ _ _ _ _
  | readPlan _ _ slot =>
    cases hreq
    show Answers _ (execReadPlan r tag slot s)
    unfold execReadPlan
    split <;> exact .next (hrespond _ _ _ _)
  | writePlan =>
    cases hreq
    refine .next (.withRight ?_)
    split
    · exact hrespond _ _ _ _
    · next n _ =>
      have hset : ∀ x, s.FlagsKeptAt p (s.setSlot n x) := fun _ => hrefl
      split
      · exact hrespond _ _ _ _
      · exact ((hset _).grant.raise .change _).respond _ _ _ _ _
  | arm =>
    cases hreq
    refine .next (.withRight ?_)
    split
    · exact hrespond _ _ _ _
    · next n _ =>
      have hset : ∀ x, s.FlagsKeptAt p (s.setSlot n x) := fun _ => hrefl
      dsimp only
      split
      · exact hrespond _ _ _ _
      · split
        · exact hrespond _ _ _ _
        · exact (hset _).grant.respond _ _ _ _ _
  | stop =>
    cases hreq
    refine .next (.withRight ?_)
    split
    · exact hrespond _ _ _ _
    · next n _ =>
      have hset : ∀ x, s.FlagsKeptAt p (s.setSlot n x) := fun _ => hrefl
      dsimp only
      refine (State.FlagsKeptAt.grant ?_).respond _ _ _ _ _
      split
      · exact (hset _).raise .done _
      · exact hset _
  | subscribe _ _ slots operation start threshold =>
    cases hreq
    show Answers _ (execSubscribe r tag slots operation start threshold s)
    unfold execSubscribe
    split
    · exact .next ((State.setPort_flagsKeptAt_of_eq (by rfl)).retirementCheck.respond _ _ _ _ _)
    · exact .next (hrespond _ _ _ _)
  | readResults =>
    cases hreq
    exact .next ((State.setPort_flagsKeptAt_of_eq (by rfl)).retirementCheck.respond _ _ _ _ _)
  | latest _ _ slot =>
    cases hreq
    show Answers _ (execLatest r tag slot s)
    unfold execLatest
    split
    · exact .next (hrespond _ _ _ _)
    · split <;> exact .next (hrespond _ _ _ _)
  | setLog =>
    cases hreq
    refine .next (.withRight ?_)
    have hset : ∀ log, s.FlagsKeptAt p { s with log := log } := fun _ => hrefl
    split
    · exact hrespond _ _ _ _
    · split
      · exact hrespond _ _ _ _
      · exact ((hset _).raise .change _).respond _ _ _ _ _
  | resetMeasurement =>
    cases hreq
    have hmoved : s.FlagsKeptAt p (s.measurementCleared.mapPorts fun q => { q with cursor := s.log.nextSeq }) :=
      .of_flags (by rw [State.port_mapPorts, State.measurementCleared_port])
    exact .next (.withRight ((hmoved.raise .change _).respond _ _ _ _ _))
  | _ => cases hreq

theorem execServiceCompletion_flagsKeptAt (s : State) (p : PortId) :
    Answers (s.FlagsKeptAt p) (execServiceCompletion s) := by
  unfold execServiceCompletion
  split
  · exact .next (.refl s p)
  · next v _ =>
    have hfreed : ∀ (u : State) latest unit, s.FlagsKeptAt p u →
        s.FlagsKeptAt p { u with latest := latest, unit := unit } := fun _ _ _ => id
    exact .next (hfreed _ _ _ (s.offerRecord_flagsKeptAt p v.outcome.record)).grant

/-- Every command but those that clear flags at port p keeps every flag that is set there. -/
theorem exec_flagsKeptAt {c : Instr} {p : PortId} (hc : clearsFlagsAt p c = false) (s : State) :
    Answers (s.FlagsKeptAt p) (exec c s) := by
  cases hlink : isLinkRow c with
  | true => exact exec_linkRow_flagsKeptAt hlink hc s
  | false =>
    cases hreq : requestParts c with
    | some r => exact exec_request_flagsKeptAt hreq hc s
    | none =>
      by_cases hservice : c = .serviceCompletion
      · subst hservice
        exact execServiceCompletion_flagsKeptAt s p
      · exact fun t ht => (exec_event_flagsRaised hreq hlink hservice s t ht).keptAt p

/-- Settles O59: what is neither device reset nor the port's own READ_ATTENTION or PORT_RESET clears no flag there. -/
theorem flagsStayUntilRead : Obligations.FlagsStayUntilRead := by
  intro c s t p k ht hk hreset hown
  refine exec_flagsKeptAt ?_ s t ht k hk
  cases c with
  | deviceReset a b l => exact absurd rfl (hreset a b l)
  | readAttention r tag => exact decide_eq_false fun e => (hown tag).1 (by rw [e])
  | portReset r tag => exact decide_eq_false fun e => (hown tag).2 (by rw [e])
  | _ => rfl

end Sys2Proof.Machine
end

section
/-! PROOFS. The queue of waiting commands: a step runs the command at its front, and every command completes and leaves it
(95_what_each_step_holds.md). -/

namespace Sys2Proof.Machine

/-- Settles O1: step matches on the queue, and here a command stands at its front. -/
theorem stepRunsFrontCommand : Obligations.StepRunsFrontCommand := fun _ _ => rfl

/-! ## What the shared operations leave of the queue -/

/-- The engine's own work leaves the queue. -/
theorem EngineFrame.pending {s t : State} (h : EngineFrame s t) : t.pending = s.pending := by rw [h.rest]

/-- The work of an input channel leaves the queue. -/
theorem State.InputStep.pending {s t : State} {i : InputId} (h : s.InputStep i t) : t.pending = s.pending := by
  rw [h.rest]

section
variable (s : State)

@[simp] theorem State.respond_pending (p : PortId) (tag : Byte) (c : Command) (st : Status) (bs : List Byte) :
    (s.respond p tag c st bs).pending = s.pending := rfl

@[simp] theorem State.raiseOthers_pending (f : Flag) (p : PortId) : (s.raiseOthers f p).pending = s.pending := rfl

@[simp] theorem State.retirementCheck_pending : s.retirementCheck.pending = s.pending := rfl

@[simp] theorem State.grant_pending : s.grant.pending = s.pending := s.grant_engine.pending

@[simp] theorem State.conclude_pending : s.conclude.pending = s.pending := s.conclude_engine.pending

@[simp] theorem State.announce_pending (n : SlotId) (e : Finish) : (s.announce n e).pending = s.pending :=
  (s.announce_engine n e).pending

@[simp] theorem State.offer_pending (st : Stamp) : (s.offer st).pending = s.pending := (s.offer_engine st).pending

@[simp] theorem State.block_pending (i : InputId) : (s.block i).pending = s.pending := rfl

@[simp] theorem State.hit_pending (i : InputId) (c : Code) : (s.hit i c).pending = s.pending :=
  (s.hit_inputStep i c).pending

@[simp] theorem State.settleWindow_pending (i : InputId) : (s.settleWindow i).pending = s.pending :=
  (s.settleWindow_inputStep i).pending

@[simp] theorem State.levelChange_pending (i : InputId) (l : Level) (c : Code) :
    (s.levelChange i l c).pending = s.pending := (s.levelChange_inputStep i l c).pending

@[simp] theorem State.applySettings_pending (p : PortId) (i : InputId) (new : Settings) :
    (s.applySettings p i new).pending = s.pending := (s.applySettings_inputStep p i new).pending

@[simp] theorem State.applyOffset_pending (p : PortId) (tag : Byte) (c : Command) (o : Tick) (f : Bool) :
    (s.applyOffset p tag c o f).pending = s.pending := (State.notifyStep_engine _ _ _).pending

@[simp] theorem State.writeRecord_pending (r : Record) : (s.writeRecord r).pending = s.pending := by
  unfold State.writeRecord State.judgeResults
  rw [State.raise_pending, State.retirementCheck_pending]

@[simp] theorem State.forceRetire_pending : s.forceRetire.pending = s.pending := by
  unfold State.forceRetire
  split
  · rfl
  · exact State.mapPorts_pending _ _

/-- The log takes a record, makes room for it or discards it without the queue (R122, R124, R125). -/
@[simp] theorem State.offerRecord_pending (r : Record) : (s.offerRecord r).1.pending = s.pending := by
  unfold State.offerRecord
  split
  · exact s.writeRecord_pending r
  · split
    · exact (State.writeRecord_pending _ r).trans s.forceRetire_pending
    · exact State.setSlot_pending _ _ _

end

/-! ## The commands -/

/-- A command's outcome, where the command completes and leaves the queue of the state it runs on. -/
def State.KeepsQueue (s : State) (o : Host.Outcome State Fault Refusal) : Prop :=
  ∃ t, o = .next t ∧ t.pending = s.pending

section
variable {s t : State}

theorem State.KeepsQueue.next (h : t.pending = s.pending) : s.KeepsQueue (.next t) := ⟨t, rfl, h⟩

/-- An event that takes place under its condition, or changes nothing (log entry 3). -/
theorem State.KeepsQueue.ite {c : Prop} [Decidable c] (h : t.pending = s.pending) :
    s.KeepsQueue (if c then .next t else .next s) := by
  split
  · exact .next h
  · exact .next rfl

/-- A request that needs a right leaves the queue when what it does with the right leaves it. -/
theorem State.KeepsQueue.withRight {p : PortId} {tag : Byte} {c : Command} {act : State → State}
    (h : (act s).pending = s.pending) : s.KeepsQueue (.next (s.withRight p tag c act)) :=
  .next (State.withRight_cases (P := fun t => t.pending = s.pending) h rfl)

end

/-- Every request completes and leaves the queue. -/
theorem exec_request_keepsQueue {c : Instr} (h : (requestParts c).isSome = true) (s : State) :
    s.KeepsQueue (exec c s) := by
  cases c with
  | null | readAttention | readTime | logStatus => exact .next rfl
  | portReset => exact .next (State.retirementCheck_pending _)
  | readResults =>
    refine .next ?_
    rw [State.respond_pending, State.retirementCheck_pending, State.setPort_pending]
  | setAttention p tag operation flags =>
    show s.KeepsQueue (execSetAttention p tag operation flags s)
    unfold execSetAttention
    dsimp only
    split <;> exact .next rfl
  | readInput p tag input =>
    show s.KeepsQueue (execReadInput p tag input s)
    unfold execReadInput
    split <;> exact .next rfl
  | readPlan p tag slot =>
    show s.KeepsQueue (execReadPlan p tag slot s)
    unfold execReadPlan
    split <;> exact .next rfl
  | subscribe p tag slots operation start threshold =>
    show s.KeepsQueue (execSubscribe p tag slots operation start threshold s)
    unfold execSubscribe
    split
    · refine .next ?_
      rw [State.respond_pending, State.retirementCheck_pending, State.setPort_pending]
    · exact .next rfl
  | latest p tag slot =>
    show s.KeepsQueue (execLatest p tag slot s)
    unfold execLatest
    split
    · exact .next rfl
    · split <;> exact .next rfl
  | setTime | stepTime =>
    refine .withRight ?_
    split
    · exact State.applyOffset_pending s _ _ _ _ _
    · rfl
  | setInput =>
    refine .withRight ?_
    split
    · rfl
    · dsimp only
      split
      · rfl
      · split
        · rfl
        · split
          · rw [State.respond_pending, State.applySettings_pending]
          · rfl
  | calibrate =>
    refine .withRight ?_
    split
    · rfl
    · dsimp only
      split <;> rfl
  | writePlan =>
    refine .withRight ?_
    split
    · rfl
    · split
      · rfl
      · rw [State.respond_pending, State.raise_pending, State.grant_pending, State.setSlot_pending]
  | arm =>
    refine .withRight ?_
    split
    · rfl
    · dsimp only
      split
      · rfl
      · split
        · rfl
        · rw [State.respond_pending, State.grant_pending, State.setSlot_pending]
  | stop =>
    refine .withRight ?_
    split
    · rfl
    · dsimp only
      rw [State.respond_pending, State.grant_pending]
      split <;> rfl
  | setLog =>
    refine .withRight ?_
    split
    · rfl
    · split <;> rfl
  | resetMeasurement =>
    exact .withRight (by simp only [State.respond_pending, State.raiseOthers_pending, State.mapPorts_pending,
      State.mapSlots_pending])
  | _ => cases h

/-- Every event, of the outside or of the part's own, completes and leaves the queue, and so does device reset (log entry
11). -/
theorem exec_event_keepsQueue {c : Instr} (h : requestParts c = none) (s : State) : s.KeepsQueue (exec c s) := by
  cases c with
  | deviceReset | referenceEdge => exact .next rfl
  | referenceAbsent =>
    show s.KeepsQueue (execReferenceAbsent s)
    unfold execReferenceAbsent
    split
    · dsimp only
      split <;> exact .next rfl
    · exact .next rfl
  | referenceLock | horizonStart | preparationEnd => exact .ite rfl
  | horizonRefChange =>
    show s.KeepsQueue (execHorizonRefChange s)
    unfold execHorizonRefChange
    split
    · exact .next rfl
    · split
      · dsimp only
        split
        · exact .next rfl
        · exact .next (State.mapSlots_pending _ _)
      · exact .next rfl
  | selectionStart p =>
    show s.KeepsQueue (execSelectionStart p s)
    unfold execSelectionStart
    dsimp only
    split
    · exact .next rfl
    · split <;> exact .next rfl
  | selectionEnd p bits =>
    show s.KeepsQueue (execSelectionEnd p bits s)
    unfold execSelectionEnd
    dsimp only
    split
    · exact .next rfl
    · split <;> exact .next rfl
  | inputLevelChange i src level within =>
    show s.KeepsQueue (execInputLevelChange i src level within s)
    unfold execInputLevelChange
    split
    · dsimp only
      split
      · exact .next (State.levelChange_pending _ _ _ _)
      · exact .next rfl
    · exact .ite (by simp)
  | windowEndQualification i => exact .next (State.settleWindow_pending s i)
  | deadTimeEnd i =>
    show s.KeepsQueue (execDeadTimeEnd i s)
    unfold execDeadTimeEnd
    split <;> exact .next rfl
  | calibrationHit i within => exact .ite ((State.hit_pending _ _ _).trans (s.block_pending i))
  | stampOffer i =>
    show s.KeepsQueue (execStampOffer i s)
    unfold execStampOffer
    split
    · exact .next rfl
    · exact .next (by simp)
  | immediateArmInstant n =>
    show s.KeepsQueue (execImmediateArmInstant n s)
    unfold execImmediateArmInstant
    split
    · exact .next rfl
    · exact .next (State.conclude_pending _)
  | atTimeArming | gateClose => exact .ite (State.conclude_pending _)
  | deadlineExpiry | totalizeGateClose => exact .ite (by simp)
  | totalizeGateOpen n =>
    show s.KeepsQueue (execTotalizeGateOpen n s)
    unfold execTotalizeGateOpen
    split
    · exact .next rfl
    · exact .next (State.conclude_pending _)
  | serviceCompletion =>
    show s.KeepsQueue (execServiceCompletion s)
    unfold execServiceCompletion
    split
    · exact .next rfl
    · exact .next (by simp)
  | _ => cases h

/-- Settles O2: a request and an event alike complete, and what they do leaves the queue. -/
theorem everyCommandCompletes : Obligations.EveryCommandCompletes := by
  intro c s
  cases h : requestParts c with
  | none => exact exec_event_keepsQueue h s
  | some r => exact exec_request_keepsQueue (by rw [h]; rfl) s

end Sys2Proof.Machine
end
